-- ==== Sys2Proof/Word.lean ====
section
/-! DEFINITION. The plain data that crosses the part's pins: bytes, 32-bit words, the four lanes of a beat (R41),
the two responses (R42) and the two directions (R41). -/

namespace Sys2Proof

/-- A byte of a management frame, or one lane of a beat. -/
abbrev Byte := BitVec 8

/-- An address, a check value, a remainder, a tick count or a sequence number (R193). -/
abbrev Word := BitVec 32

/-- The four data bytes of a beat in lane order: lane i holds the byte at beat address + i (R41, R193). -/
structure Lanes where
  lane0 : Byte
  lane1 : Byte
  lane2 : Byte
  lane3 : Byte
  deriving DecidableEq, Repr

/-- The data of a padding beat (R58). -/
def Lanes.zero : Lanes := ⟨0, 0, 0, 0⟩

/-- The bytes of a beat, lane 0 first: the order in which the check function takes them (R2). -/
def Lanes.bytes (d : Lanes) : List Byte := [d.lane0, d.lane1, d.lane2, d.lane3]

/-- The response to one beat of a burst (R42). -/
inductive Resp where
  | okay
  | error
  deriving DecidableEq, Repr

/-- The direction of a burst (R41). -/
inductive Dir where
  | read
  | write
  deriving DecidableEq, Repr

/-- The check width W of a region: 16 or 32 bits (R21). -/
inductive CheckWidth where
  | w16
  | w32
  deriving DecidableEq, Repr

/-- W as a number of bits. -/
def CheckWidth.bits : CheckWidth → Nat
  | .w16 => 16
  | .w32 => 32

end Sys2Proof
end

