-- ==== Sys2Proof/Machine/Crc.lean ====
section
/-! DEFINITION. The check function of the tracts (R1 to R4) and the CRC-8 of the management frames (R171). -/

namespace Sys2Proof.Machine

/-- All ones of width W in a 32-bit field: the initial remainder and the final XOR of R1. -/
def crcOnes : CheckWidth → Word
  | .w16 => 0xFFFF#32
  | .w32 => 0xFFFFFFFF#32

/-- The remainder before the first byte (R1). -/
def crcInit (w : CheckWidth) : Word := crcOnes w

/-- One bit of R1: the data bit is compared with the top bit of the remainder, the remainder shifts left within W bits, and
the polynomial (its low W bits, R3) is XORed in if the two bits differed. -/
def crcBit (w : CheckWidth) (poly rem : Word) (bit : Bool) : Word :=
  let shifted := (rem <<< 1) &&& crcOnes w
  if rem.getLsbD (w.bits - 1) != bit then shifted ^^^ (poly &&& crcOnes w) else shifted

/-- One byte, bit 7 first (R1). -/
def crcByte (w : CheckWidth) (poly rem : Word) (b : Byte) : Word :=
  [7, 6, 5, 4, 3, 2, 1, 0].foldl (fun r i => crcBit w poly r (b.getLsbD i)) rem

/-- Bytes in the order given. -/
def crcBytes (w : CheckWidth) (poly rem : Word) (bs : List Byte) : Word :=
  bs.foldl (crcByte w poly) rem

/-- Folding one beat, lane 0 first (R2). -/
def crcBeat (w : CheckWidth) (poly rem : Word) (d : Lanes) : Word :=
  crcBytes w poly rem d.bytes

/-- The final XOR (R1, R2). -/
def crcFinal (w : CheckWidth) (rem : Word) : Word := rem ^^^ crcOnes w

/-- The check value of a string of bytes (R1). -/
def checkValue (w : CheckWidth) (poly : Word) (bs : List Byte) : Word :=
  crcFinal w (crcBytes w poly (crcInit w) bs)

/-- One shift of the CRC-8 of R171. -/
def crc8Shift (r : Byte) : Byte :=
  let shifted := r <<< 1
  if r.getLsbD 7 then shifted ^^^ 0x1D#8 else shifted

/-- One byte of the CRC-8: XORed in, then eight shifts (R171). -/
def crc8Byte (r b : Byte) : Byte :=
  [0, 1, 2, 3, 4, 5, 6, 7].foldl (fun r (_ : Nat) => crc8Shift r) (r ^^^ b)

/-- CRC-8 of a frame's bytes, from FFh (R171). -/
def crc8 (bs : List Byte) : Byte := bs.foldl crc8Byte 0xFF#8

end Sys2Proof.Machine
end

