-- ==== Sys2Proof/Config.lean ====
section
/-! DEFINITION. The fixed sizes of the part (00_scope, R21, R63, R109, R152) and the two free values the spec leaves open. -/

namespace Sys2Proof.Config

/-- Tract records in the check store (R21). -/
def storeRecords : Nat := 4096

/-- Entries the refresh queue holds at most (R109). -/
def queueDepth : Nat := 32

/-- Records the fault log holds at most (R152). -/
def logDepth : Nat := 16

/-- Beats of a tract-reader burst (R120). -/
def readerBurstBeats : Nat := 16

/-- FREE VALUE (log 12). Whether an ENABLE preparation that RESTART cut short had reached a record (R9, R35: "some
initialised and some not"), for the k-th such cut and a record number. It has no body, so a claim holds whatever it is. -/
opaque preparationReached : Nat → Nat → Bool

/-- FREE VALUE (log 10). How many falling edges of MCK the controller gives in the k-th REFCLK period that passes in RESPONSE: none
while it has stopped MCK, for as long as it likes (R167, "counts edges, not time"). It has no body, so a claim holds whatever it
is. -/
opaque mckFalls : Nat → Nat

end Sys2Proof.Config
end

