-- ==== Sys2Proof/Syntax.lean ====
section
/-! DEFINITION. The commands of the part, one constructor per row of spec/opcode_table.json, in the table's order. -/

namespace Sys2Proof

/-- A command: a happening at the part's pins or links, or a management command whose request frame's CRC byte is found
correct (R172). Argument fields of management commands have the widths of section 10.2 (R194, R195), so that a value
outside a field's range can be sent and is refused by the command's own checks. -/
inductive Instr where
  /-- POWER_ON (R62): RSTN asserted and released. `mcsHigh` and `hrstHigh` are the levels of MCS (R192) and HRST at the release. -/
  | powerOn (mcsHigh hrstHigh : Bool)
  /-- HRST (R57, R198): `true` its assertion, `false` its fall (log 7). -/
  | hrst (level : Bool)
  /-- HOST_REQUEST (R44): start address, beat count less one (R41), direction. -/
  | hostRequest (addr : Word) (countLessOne : BitVec 4) (dir : Dir)
  /-- PASSAGE_GRANT (R45). -/
  | passageGrant
  /-- WRITE_BEAT_FORWARDED (R46): the beat's data and lane mask. -/
  | writeBeatForwarded (data : Lanes) (mask : BitVec 4)
  /-- WRITE_RESPONSE (R46, R77): memory's response to the next write beat. -/
  | writeResponse (resp : Resp)
  /-- PADDING_BEAT (R58). -/
  | paddingBeat
  /-- READ_BEAT_ARRIVAL (R47): memory's data and response. -/
  | readBeatArrival (data : Lanes) (resp : Resp)
  /-- RESPONSE_DELIVERY (R47): the host takes the oldest buffered response. -/
  | responseDelivery
  /-- READER_GRANT (R120). -/
  | readerGrant
  /-- READER_BEAT (R121): memory's data and response. -/
  | readerBeat (data : Lanes) (resp : Resp)
  /-- READER_BURST_END (R122). -/
  | readerBurstEnd
  /-- TICK (R133). -/
  | tick
  /-- UNDERFLOW (R138). -/
  | underflow
  /-- HOLD_TIMEOUT (R103). -/
  | holdTimeout
  /-- PREPARATION_END (R33). -/
  | preparationEnd
  /-- GET_STATUS (R183). -/
  | getStatus
  /-- GET_PARAMS (R184). -/
  | getParams
  /-- SET_PARAMS (R185). -/
  | setParams (divider latch holdTimeout : BitVec 16) (patience mask : Byte)
  /-- GET_REGION (R27). -/
  | getRegion (region : Byte)
  /-- SET_REGION (R24 to R26). -/
  | setRegion (region : Byte) (base : Word) (sizeCode : Byte) (count entryBase : BitVec 16) (width : Byte) (poly : Word)
      (policy : Byte)
  /-- ENABLE_REGION (R30 to R32). -/
  | enableRegion (region : Byte)
  /-- DISABLE_REGION (R36 to R38). -/
  | disableRegion (region : Byte)
  /-- GET_TRACT (R15, R16). -/
  | getTract (region : Byte) (tract : BitVec 16)
  /-- FORGET_TRACT (R17, R18). -/
  | forgetTract (region : Byte) (tract : BitVec 16)
  /-- REPAIR_TRACT (R19, R20). -/
  | repairTract (region : Byte) (tract : BitVec 16)
  /-- GET_CONTEXT (R187). -/
  | getContext (slot : Byte)
  /-- PEEK_FAULT (R156). -/
  | peekFault
  /-- POP_FAULT (R157). -/
  | popFault
  /-- GET_HOLD (R188). -/
  | getHold
  /-- RELEASE_HOLD (R102). -/
  | releaseHold (response : Byte)
  /-- CLEAR_ALERT (R161). -/
  | clearAlert (mask : Byte)
  /-- RESTART (R189). -/
  | restart
  /-- BAD_CRC (R173): the code byte, the argument bytes and the CRC byte received. -/
  | badCrc (code : Byte) (args : List Byte) (crc : Byte)
  /-- BAD_OP (R174): the unknown code, its CRC byte correct. -/
  | badOp (code : Byte)
  /-- FRAME_ABORT (R175): the complete bytes received, and how many bits of the next one. -/
  | frameAbort (bytes : List Byte) (bits : BitVec 3)
  /-- RESPONSE_CUT_SHORT (R179). -/
  | responseCutShort
  /-- FALL_OF_MCS (R168, R169). -/
  | fallOfMcs
  /-- RESPONSE_SENT (R179). -/
  | responseSent
  /-- RISE_OF_MCS (R168, R169). -/
  | riseOfMcs
  deriving DecidableEq, Repr

end Sys2Proof
end

