-- ==== Sys2Proof/Machine/State.lean ====
section
/-! DEFINITION. The state of the part, block by block as 00_scope lists the blocks, and its value after power-on. -/

namespace Sys2Proof.Machine

/-! ## Regions and tracts -/

/-- What the passage does with a failed read of a region (R21, R91). -/
inductive ReadPolicy where
  | report
  | poison
  | hold
  deriving DecidableEq, Repr

/-- The state of a region (R28). -/
inductive RegionState where
  | disabled
  | preparing
  | enabled
  | retiring
  deriving DecidableEq, Repr

/-- A region's descriptor (R21) and its state (R28). -/
structure Region where
  base : Word
  sizeCode : BitVec 3
  count : BitVec 16
  entryBase : BitVec 16
  width : CheckWidth
  poly : Word
  policy : ReadPolicy
  state : RegionState
  deriving DecidableEq, Repr

/-- The power-on descriptor of R21, in a DISABLED region (R28). -/
def Region.reset : Region :=
  { base := 0, sizeCode := 2, count := 0, entryBase := 0, width := .w32, poly := 0x04C11DB7#32, policy := .report,
    state := .disabled }

/-- The state of a tract (R10 to R14). -/
inductive TractState where
  | unknown
  | current
  | stale
  | opened
  | faulted
  deriving DecidableEq, Repr

/-- A tract record (R6). `opened` of the state is the manual's OPEN. -/
structure TractRecord where
  state : TractState
  check : Word
  queued : Bool
  deriving DecidableEq, Repr

/-- The record ENABLE preparation leaves (R9), which is also what an unlisted record of the store reads as.
DESIGN CHOICE for the contents at power-on, which the spec calls meaningless and unreachable (log 11). -/
def TractRecord.initial : TractRecord := ⟨.unknown, 0, false⟩

/-- The check store: records by number, numbers strictly rising, no entry equal to `TractRecord.initial`. -/
abbrev CheckStore := List (Nat × TractRecord)

/-- A tract by region number and tract index (R5). -/
structure TractRef where
  region : Fin 8
  tract : Nat
  deriving DecidableEq, Repr

/-! ## The passage and the links -/

/-- The transaction record of R43, and the padding beats issued after HRST (R58; log 14). -/
structure Transaction where
  dir : Dir
  addr : Word
  beats : Nat
  forwarded : Nat
  padded : Nat
  arrived : Nat
  delivered : Nat
  cut : Bool
  deriving DecidableEq, Repr

/-- The passage's four states (R43); a transaction record in every state except IDLE. -/
inductive PassageState where
  | idle
  | claiming (t : Transaction)
  | carrying (t : Transaction)
  | draining (t : Transaction)
  deriving DecidableEq, Repr

/-- One entry of the beat buffer (R43): the decided response, none for the held beat (R96), and the data of a read beat. -/
structure BufferEntry where
  resp : Option Resp
  data : Option Lanes
  deriving DecidableEq, Repr

/-- The hold record (R97); `ticksRemaining` is the hold counter, absent for a hold with a timeout of 0. -/
structure HoldRecord where
  ref : TractRef
  beatAddr : Word
  data : Lanes
  stored : Word
  computed : Word
  stamp : Word
  ticksRemaining : Option (BitVec 16)
  deriving DecidableEq, Repr

/-- The host link interface: passage state, beat buffer, hold (R43, R97). -/
structure Passage where
  state : PassageState
  buffer : List BufferEntry
  hold : Option HoldRecord
  deriving DecidableEq, Repr

/-- Whose burst is on the memory link (R49); `detached` is the detached burst of R126. -/
inductive LinkUser where
  | free
  | passage
  | reader
  | detached
  deriving DecidableEq, Repr

/-- The two claimants of the memory link (section 3.3). -/
inductive Claimant where
  | passage
  | reader
  deriving DecidableEq, Repr

/-- The memory link arbiter (R49 to R51). `granting` is the grant R50 makes in the happening just taken, owed until PASSAGE_GRANT,
READER_GRANT or, before any other happening, `settle` carries it out: the MODEL's own field (log 5). -/
structure Arbiter where
  link : LinkUser
  granting : Option Claimant
  passedOver : BitVec 4
  deriving DecidableEq, Repr

/-! ## The stream-context pool, the queue and the reader -/

/-- The origin of an assembly (R13, R63): never OPEN. -/
inductive Origin where
  | unknown
  | current
  | stale
  | faulted
  deriving DecidableEq, Repr

/-- A context's kind; only an ASSEMBLE context has an origin (R63). -/
inductive ContextKind where
  | assemble (origin : Origin)
  | verify
  deriving DecidableEq, Repr

/-- A stream context (R63). -/
structure Context where
  kind : ContextKind
  ref : TractRef
  next : Nat
  rem : Word
  deriving DecidableEq, Repr

/-- The pool: eight slots (R63) and the recency order of the slots in use, most recent first (R64). -/
structure Pool where
  slots : Vector (Option Context) 8
  recency : List (Fin 8)
  deriving DecidableEq, Repr

/-- What a reader job's result is for (R119). -/
inductive JobKind where
  | refresh
  | establish
  | verify
  deriving DecidableEq, Repr

/-- Whether a job waits for the memory link or has a burst on it (R115). -/
inductive JobPhase where
  | claiming
  | reading
  deriving DecidableEq, Repr

/-- The job record of R115. -/
structure Job where
  kind : JobKind
  ref : TractRef
  nextOffset : Nat
  phase : JobPhase
  rem : Word
  startState : TractState
  overtaken : Bool
  abandoned : Bool
  errorOffset : Option Nat
  deriving DecidableEq, Repr

/-- The reader's two sources of work (R116). -/
inductive Source where
  | queue
  | scrub
  deriving DecidableEq, Repr

/-- The tract reader (R115): BUSY while `job` is present. `burstBeats` counts the beats of its burst on the link that have
arrived (R121). -/
structure Reader where
  job : Option Job
  lastSource : Source
  burstBeats : Nat
  deriving DecidableEq, Repr

/-! ## Timebase and scrubber -/

/-- The timebase (R133 to R135). `intervalDivider` is the divider in force for the interval that runs (R134), coded as the
parameter is (0 is 65536, R195). -/
structure Timebase where
  refclkCount : Nat
  intervalDivider : BitVec 16
  tickCounter : Word
  deriving DecidableEq, Repr

/-- The scrubber (R138 to R144); `cursor` is none when parked (R143). `underflowOwed` says that the tick just taken was an
underflow whose effect UNDERFLOW has not yet carried out: the MODEL's own field (log 3). -/
structure Scrubber where
  pacing : BitVec 16
  underflowOwed : Bool
  stepPending : Bool
  cursor : Option TractRef
  passCount : BitVec 16
  slipCount : BitVec 16
  deriving DecidableEq, Repr

/-! ## Fault log, alert unit, parameters, port -/

/-- The kinds of fault record (R150). -/
inductive FaultKind where
  | readMismatch
  | scrubMismatch
  | readerError
  | holdExpired
  deriving DecidableEq, Repr

/-- A fault record as it is offered, before the log gives it a number (R150, R151); absent fields are none. -/
structure Finding where
  kind : FaultKind
  ref : TractRef
  addr : Word
  stored : Option Word
  computed : Option Word
  stamp : Word
  errorOffset : Option Nat
  deriving DecidableEq, Repr

/-- An accepted fault record (R150, R153). -/
structure FaultRecord where
  seq : Word
  finding : Finding
  deriving DecidableEq, Repr

/-- The fault log, oldest record first (R152). -/
structure FaultLog where
  records : List FaultRecord
  seqCounter : Word
  dropped : BitVec 16
  deriving DecidableEq, Repr

/-- The alert unit: the causes in the bit positions of R197, and whether ALERT is driven low (R164). -/
structure Alert where
  causes : Byte
  low : Bool
  deriving DecidableEq, Repr

/-- The five parameters as last written (R184). The divider is coded as at the port (0 is 65536, R195). -/
structure Params where
  divider : BitVec 16
  latch : BitVec 16
  holdTimeout : BitVec 16
  patience : BitVec 4
  mask : Byte
  deriving DecidableEq, Repr

/-- The frame in progress (R169); RESPONSE holds the settled response bytes, its CRC among them (R177, R181), and how many of
their bits have been presented on MDO. -/
inductive Frame where
  | deselected
  | request
  | response (bytes : List Byte) (sent : Nat)
  | spent
  deriving DecidableEq, Repr

/-- The long-operation state (R29, R182). -/
inductive LongOp where
  | idle
  | enabling (n : Fin 8)
  | disabling (n : Fin 8)
  deriving DecidableEq, Repr

/-- The management port: frame in progress, bits of request sampled in the selection (R168), frame-error count (R176),
long-operation state (R182). -/
structure Port where
  frame : Frame
  bitCount : Nat
  frameErrors : Byte
  longOp : LongOp
  deriving DecidableEq, Repr

/-- What the part issues on the memory link: a burst request (R45, R120) or a write beat (R46, R58). -/
inductive MemoryIssue where
  | request (addr : Word) (beats : Nat) (dir : Dir)
  | writeBeat (addr : Word) (data : Lanes) (mask : BitVec 4)
  deriving DecidableEq, Repr

/-- What the part delivers on the host link: a response, with data on a read burst (R42, R47). -/
structure HostDelivery where
  resp : Resp
  data : Option Lanes
  deriving DecidableEq, Repr

/-- Pins: the level of HRST (R44), and the last item issued on the memory link and delivered on the host link (log 15). -/
structure Pins where
  hrst : Bool
  memoryLink : Option MemoryIssue
  hostLink : Option HostDelivery
  deriving DecidableEq, Repr

/-! ## The whole state -/

/-- The part's state, and the queue of commands waiting, first in first out. `freeCount` is the MODEL's own counter for
free values (log 10, log 12). -/
structure State where
  pending : List Instr
  pins : Pins
  regions : Vector Region 8
  store : CheckStore
  passage : Passage
  arbiter : Arbiter
  pool : Pool
  queue : List TractRef
  reader : Reader
  timebase : Timebase
  scrubber : Scrubber
  log : FaultLog
  alert : Alert
  params : Params
  port : Port
  freeCount : Nat
  deriving DecidableEq, Repr

/-- The reasons a step stops with a fault: none. The spec gives the part no condition that stops it; its findings are data
(fault records, ERROR responses, status codes). An empty type is safe: nothing can be proved from a fault that the part
does not have. -/
inductive Fault where
  deriving DecidableEq, Repr

/-- The reasons a command is refused. -/
inductive Refusal where
  /-- Raised by an arm of exec for a row that has no meaning yet (none does). Safe: the model stops. -/
  | notModelled (mnemonic : String)
  /-- Raised by BAD_CRC, BAD_OP and FRAME_ABORT when the operands spell no frame of that sort (`Instr.wellFormed`): a
  BAD_CRC whose CRC is right, a BAD_OP whose code is known, a FRAME_ABORT with no byte or with the CRC byte complete. Safe:
  such a happening does not exist, and the model stops (log 9). -/
  | illFormed
  deriving DecidableEq, Repr

/-- The values at the release of RSTN that do not depend on a pin (R22, R29, R52, R62, R67, R108, R114, R131, R137, R148,
R158, R165, R176, R184, R192), with MCS high and HRST low. The check store's contents, the burst beat count, the bit count
and the output pins are the values log 11, 15 and 18 name. -/
def State.reset : State :=
  { pending := []
    pins := ⟨false, none, none⟩
    regions := Vector.replicate 8 Region.reset
    store := []
    passage := ⟨.idle, [], none⟩
    arbiter := ⟨.free, none, 0⟩
    pool := ⟨Vector.replicate 8 none, []⟩
    queue := []
    reader := ⟨none, .scrub, 0⟩
    timebase := ⟨0, 1000#16, 0⟩
    scrubber := ⟨0, false, false, none, 0, 0⟩
    log := ⟨[], 0, 0⟩
    alert := ⟨0, false⟩
    params := ⟨1000#16, 0, 500#16, 4#4, 0x6F#8⟩
    port := ⟨.deselected, 0, 0, .idle⟩
    freeCount := 0 }

end Sys2Proof.Machine
end

