-- ==== Sys2Proof/Machine/Flags.lean ====
section
/-! DEFINITION. The alert unit: the eight causes and their bit positions (R159, R197), setting and clearing them, the ALERT
output (R164), and the saturating counts that go with causes (R141, R154, R176). -/

namespace Sys2Proof.Machine

/-- The alert causes (R159). -/
inductive Cause where
  | fault
  | drop
  | hold
  | queueFull
  | pass
  | slip
  | link
  | ready
  deriving DecidableEq, Repr

/-- The bit of a cause in the causes, the enable mask and the clear mask (R197). -/
def Cause.mask : Cause → Byte
  | .fault => 0x01
  | .drop => 0x02
  | .hold => 0x04
  | .queueFull => 0x08
  | .pass => 0x10
  | .slip => 0x20
  | .link => 0x40
  | .ready => 0x80

/-- A mask names a cause. -/
def Cause.isIn (c : Cause) (m : Byte) : Bool := m &&& c.mask != 0

/-- The cause set (R159); set again it stays set. -/
def State.setCause (s : State) (c : Cause) : State :=
  { s with alert := { s.alert with causes := s.alert.causes ||| c.mask } }

/-- ALERT is driven low while a cause is both set and enabled (R164). -/
def alertLevel (causes mask : Byte) : Bool := causes &&& mask != 0

/-- The ALERT output brought to the level the causes and the mask give (R164). -/
def State.followAlert (s : State) : State :=
  { s with alert := { s.alert with low := alertLevel s.alert.causes s.params.mask } }

/-- A 16-bit count that stays at 65535 (R141, R154). -/
def saturate16 (c : BitVec 16) : BitVec 16 := if c = 0xFFFF#16 then c else c + 1

/-- An 8-bit count that stays at 255 (R173, R176). -/
def saturate8 (c : Byte) : Byte := if c = 0xFF#8 then c else c + 1

end Sys2Proof.Machine
end

