-- ==== Sys2Proof/Machine/Ops.lean ====
section
/-! DEFINITION. The region table, the check store and the placing of addresses: regions by number, tract addresses and
record numbers (R5), the sparse store of tract records (R6), and the beat classifier (R23, R54). -/

namespace Sys2Proof.Machine

/-! ## Regions -/

/-- Region numbers in ascending order. -/
def regionNumbers : List (Fin 8) := [0, 1, 2, 3, 4, 5, 6, 7]

/-- The region table's entry for a number. -/
def State.region (s : State) (n : Fin 8) : Region := s.regions[n]

/-- The region table with one entry replaced. -/
def State.setRegion (s : State) (n : Fin 8) (r : Region) : State :=
  { s with regions := s.regions.set n.val r n.isLt }

/-- A region's state changed, its descriptor kept (R22, R28). -/
def State.setRegionState (s : State) (n : Fin 8) (st : RegionState) : State :=
  s.setRegion n { s.region n with state := st }

/-- Every region DISABLED, descriptors kept (R35, R189). -/
def State.disableAll (s : State) : State :=
  { s with regions := s.regions.map fun r => { r with state := .disabled } }

/-- The tract size in bytes of a tract size code (R21). -/
def tractSizeOf (code : BitVec 3) : Nat := 64 * 2 ^ code.toNat

/-- The region's tract size in bytes. -/
def Region.size (r : Region) : Nat := tractSizeOf r.sizeCode

/-- The region's span in bytes (R21). -/
def Region.span (r : Region) : Nat := r.size * r.count.toNat

/-- The tract address: base + t × size (R5). -/
def Region.tractAddr (r : Region) (t : Nat) : Word := r.base + BitVec.ofNat 32 (t * r.size)

/-- The record number: entry base + t (R5). -/
def Region.recordNumber (r : Region) (t : Nat) : Nat := r.entryBase.toNat + t

/-- The region's span contains the address (R23). -/
def Region.contains (r : Region) (a : Word) : Bool :=
  decide (r.base.toNat ≤ a.toNat) && decide (a.toNat < r.base.toNat + r.span)

/-- Two ranges overlap when each begins before the other ends (R31). -/
def rangesOverlap (lo₁ len₁ lo₂ len₂ : Nat) : Bool :=
  decide (lo₁ < lo₂ + len₂) && decide (lo₂ < lo₁ + len₁)

/-- Two regions overlap in span or in entry range (R31). -/
def Region.overlaps (r q : Region) : Bool :=
  rangesOverlap r.base.toNat r.span q.base.toNat q.span ||
    rangesOverlap r.entryBase.toNat r.count.toNat q.entryBase.toNat q.count.toNat

/-! ## The check store -/

/-- The record a number holds: an unlisted record reads as `TractRecord.initial`. -/
def CheckStore.read : CheckStore → Nat → TractRecord
  | [], _ => .initial
  | (k, r) :: rest, n => if k = n then r else CheckStore.read rest n

/-- The store with a number's entry removed. -/
def CheckStore.erase (st : CheckStore) (n : Nat) : CheckStore := st.filter fun e => e.1 != n

/-- The store with an entry for a number that has none put in its place in the rising order. -/
def CheckStore.insert : CheckStore → Nat → TractRecord → CheckStore
  | [], n, r => [(n, r)]
  | (k, q) :: rest, n, r => if n < k then (n, r) :: (k, q) :: rest else (k, q) :: CheckStore.insert rest n r

/-- One record written; a record equal to `TractRecord.initial` is not listed, so that equal stores are equal data. -/
def CheckStore.write (st : CheckStore) (n : Nat) (r : TractRecord) : CheckStore :=
  if r = .initial then CheckStore.erase st n else CheckStore.insert (CheckStore.erase st n) n r

/-- The records a predicate names made `TractRecord.initial`, as ENABLE preparation does (R32). -/
def CheckStore.initialise (st : CheckStore) (p : Nat → Bool) : CheckStore := st.filter fun e => !p e.1

/-- The canonical form: numbers strictly rising and no entry equal to what an unlisted record reads as. -/
def CheckStore.wf : CheckStore → Bool
  | [] => true
  | [(_, r)] => decide (r ≠ .initial)
  | (k, r) :: (k', r') :: rest =>
    decide (r ≠ .initial) && decide (k < k') && CheckStore.wf ((k', r') :: rest)

/-- The record number lies in the region's entry range (R21). -/
def Region.inEntryRange (r : Region) (n : Nat) : Bool :=
  decide (r.entryBase.toNat ≤ n) && decide (n < r.entryBase.toNat + r.count.toNat)

/-- The record of a tract (R5, R6). -/
def State.record (s : State) (t : TractRef) : TractRecord :=
  CheckStore.read s.store ((s.region t.region).recordNumber t.tract)

/-- The record of a tract written. -/
def State.setRecord (s : State) (t : TractRef) (r : TractRecord) : State :=
  { s with store := CheckStore.write s.store ((s.region t.region).recordNumber t.tract) r }

/-- The state of a tract changed, check value and queued flag kept (R7). -/
def State.setTractState (s : State) (t : TractRef) (st : TractState) : State :=
  s.setRecord t { s.record t with state := st }

/-- The tract made CURRENT with a new check value, the queued flag kept (R7). -/
def State.learn (s : State) (t : TractRef) (v : Word) : State :=
  s.setRecord t { s.record t with state := .current, check := v }

/-- The queued flag of a tract changed (R8). -/
def State.setQueued (s : State) (t : TractRef) (b : Bool) : State :=
  s.setRecord t { s.record t with queued := b }

/-- The tract address of a tract (R5). -/
def State.tractAddr (s : State) (t : TractRef) : Word := (s.region t.region).tractAddr t.tract

/-! ## Placing a beat -/

/-- Where a tracked beat falls: its tract and its tract offset (R5, R54). -/
structure Place where
  ref : TractRef
  offset : Nat
  deriving DecidableEq, Repr

/-- The non-DISABLED region whose span contains the address (R23). At most one does (R31). -/
def State.regionAt (s : State) (a : Word) : Option (Fin 8) :=
  regionNumbers.find? fun n => decide ((s.region n).state ≠ .disabled) && (s.region n).contains a

/-- The tract and offset of an address inside a region's span (R5). -/
def Region.locate (r : Region) (n : Fin 8) (a : Word) : Place :=
  { ref := ⟨n, (a.toNat - r.base.toNat) / r.size⟩, offset := (a.toNat - r.base.toNat) % r.size }

/-- The beat classifier (R54, R55): the place of a tracked beat, none for an untracked one. -/
def State.place (s : State) (a : Word) : Option Place :=
  match s.regionAt a with
  | none => none
  | some n => if (s.region n).state = .enabled then some ((s.region n).locate n a) else none

/-- Beat k of a burst is at start address + 4 × k modulo 2^32 (R41). -/
def beatAddr (start : Word) (k : Nat) : Word := start + BitVec.ofNat 32 (4 * k)

/-- The start address with its two low bits cleared (R41, R43). -/
def alignAddr (a : Word) : Word := a &&& 0xFFFFFFFC#32

/-- The address of beat k of a transaction. -/
def Transaction.beatAddr (t : Transaction) (k : Nat) : Word := Machine.beatAddr t.addr k

/-- The tracts of ENABLED regions that a burst's beats fall in (R53). -/
def State.touches (s : State) (t : Transaction) (r : TractRef) : Bool :=
  (List.range t.beats).any fun k =>
    match s.place (t.beatAddr k) with
    | none => false
    | some p => decide (p.ref = r)

end Sys2Proof.Machine
end

