-- ==== Sys2Proof/Machine/Log.lean ====
section
/-! DEFINITION. Offers to the fault log (R153, R154) and to the refresh queue (R79, R110). -/

namespace Sys2Proof.Machine

/-- An offer of a fault record: accepted below 16 records, dropped otherwise (R153, R154). -/
def State.offerFault (s : State) (f : Finding) : State :=
  if s.log.records.length < Config.logDepth then
    State.setCause
      { s with log := { s.log with
          records := s.log.records ++ [⟨s.log.seqCounter, f⟩]
          seqCounter := s.log.seqCounter + 1 } } .fault
  else
    State.setCause { s with log := { s.log with dropped := saturate16 s.log.dropped } } .drop

/-- An entry appended at the tail of the refresh queue and the tract's queued flag set (R110). -/
def State.append (s : State) (t : TractRef) : State :=
  State.setQueued { s with queue := s.queue ++ [t] } t true

/-- An offer of a tract to the refresh queue (R79): no change when the flag is set, refused with QUEUE-FULL at 32 entries,
otherwise an append. -/
def State.offer (s : State) (t : TractRef) : State :=
  if (s.record t).queued then s
  else if s.queue.length < Config.queueDepth then s.append t
  else s.setCause .queueFull

end Sys2Proof.Machine
end

