-- ==== Sys2Proof/Machine/Pool.lean ====
section
/-! DEFINITION. The stream-context pool: slots, recency, eviction, and the effect of write beats, write responses and read
beats on tracts (Chapter 4). -/

namespace Sys2Proof.Machine

/-! ## Slots and recency -/

/-- Slot numbers in ascending order (R63). -/
def slotNumbers : List (Fin 8) := [0, 1, 2, 3, 4, 5, 6, 7]

/-- What a slot holds. -/
def Pool.slot (p : Pool) (i : Fin 8) : Option Context := p.slots[i]

/-- A slot freed; its context leaves the recency order (R64). -/
def Pool.free (p : Pool) (i : Fin 8) : Pool :=
  { slots := p.slots.set i.val none i.isLt, recency := p.recency.filter (· != i) }

/-- A context put into a slot at the most-recent end: opened, restarted or advanced (R64). -/
def Pool.put (p : Pool) (i : Fin 8) (c : Context) : Pool :=
  { slots := p.slots.set i.val (some c) i.isLt, recency := i :: p.recency.filter (· != i) }

/-- The slot and context that refer to a tract; at most one does (R65). -/
def Pool.find (p : Pool) (t : TractRef) : Option (Fin 8 × Context) :=
  slotNumbers.findSome? fun i =>
    match p.slot i with
    | none => none
    | some c => if c.ref = t then some (i, c) else none

/-- The free slot with the lowest number (R65). -/
def Pool.lowestFree (p : Pool) : Option (Fin 8) := slotNumbers.find? fun i => (p.slot i).isNone

/-- The least recent slot in use (R64). -/
def Pool.leastRecent (p : Pool) : Option (Fin 8) := p.recency.getLast?

/-- The number of contexts in use (R67). -/
def Pool.inUse (p : Pool) : Nat := p.recency.length

/-- Every slot free and the order empty (R67). -/
def Pool.empty : Pool := ⟨Vector.replicate 8 none, []⟩

/-- One slot freed if a predicate on tracts names its context's tract. -/
def Pool.freeIf (q : TractRef → Bool) (p : Pool) (i : Fin 8) : Pool :=
  match p.slot i with
  | none => p
  | some c => if q c.ref then p.free i else p

/-- Every context that a predicate on tracts names freed, the others keeping their order (R37, R64). -/
def Pool.freeWhere (p : Pool) (q : TractRef → Bool) : Pool := slotNumbers.foldl (Pool.freeIf q) p

/-! ## Breaks, freeing and opening -/

/-- The origin an opening write beat records; OPEN gives none (R70). -/
def originOf : TractState → Option Origin
  | .unknown => some .unknown
  | .current => some .current
  | .stale => some .stale
  | .faulted => some .faulted
  | .opened => none

/-- The state a break returns the tract to (R13, R75). -/
def Origin.afterBreak : Origin → TractState
  | .unknown => .unknown
  | .current => .stale
  | .stale => .stale
  | .faulted => .faulted

/-- A break offers the tract to the refresh queue when its origin was CURRENT or STALE (R75). -/
def Origin.offers : Origin → Bool
  | .unknown => false
  | .current => true
  | .stale => true
  | .faulted => false

/-- A slot freed with no effect on any tract record. -/
def State.freeSlot (s : State) (i : Fin 8) : State := { s with pool := s.pool.free i }

/-- A break (R75): the ASSEMBLE context freed, the tract returned by its origin, and offered where the origin calls for it. -/
def State.breakAssembly (s : State) (i : Fin 8) (t : TractRef) (o : Origin) : State :=
  let s := (s.freeSlot i).setTractState t o.afterBreak
  if o.offers then s.offer t else s

/-- A VERIFY context on the tract, if there is one, freed with no verdict (R70, R74, R77, R84). -/
def State.freeVerify (s : State) (t : TractRef) : State :=
  match s.pool.find t with
  | none => s
  | some (i, c) => if c.kind = .verify then s.freeSlot i else s

/-- The context of a slot evicted (R86): a break for an ASSEMBLE context, a freeing for a VERIFY context. -/
def State.evict (s : State) (i : Fin 8) : State :=
  match s.pool.slot i with
  | none => s
  | some c =>
    match c.kind with
    | .assemble o => s.breakAssembly i c.ref o
    | .verify => s.freeSlot i

/-- The slot a new context takes: the lowest free one, or the least recent one after its eviction (R65, R86). -/
def State.takeSlot (s : State) : State × Fin 8 :=
  match s.pool.lowestFree with
  | some i => (s, i)
  | none =>
    match s.pool.leastRecent with
    | some i => (s.evict i, i)
    | none => (s, 0)

/-- A new context opened in a slot of its own, most recent (R65, R70, R81). -/
def State.openContext (s : State) (c : Context) : State :=
  { s.takeSlot.1 with pool := s.takeSlot.1.pool.put s.takeSlot.2 c }

/-- A context replaced in its slot and moved to the most-recent end: restarted or advanced (R64). -/
def State.putContext (s : State) (i : Fin 8) (c : Context) : State := { s with pool := s.pool.put i c }

/-- The remainder of a context that folds a region's first beat (R4, R70, R81). -/
def Region.firstFold (r : Region) (d : Lanes) : Word := crcBeat r.width r.poly (crcInit r.width) d

/-- The context after it folds a beat at its next offset (R72, R82). -/
def Context.advance (c : Context) (r : Region) (d : Lanes) : Context :=
  { c with next := c.next + 4, rem := crcBeat r.width r.poly c.rem d }

/-- The check value of a context that folds its tract's last beat (R73, R83). -/
def Context.finish (c : Context) (r : Region) (d : Lanes) : Word :=
  crcFinal r.width (crcBeat r.width r.poly c.rem d)

/-! ## Write beats -/

/-- Whether a forwarded write beat is an opening one by offset and lane mask (R69). -/
def isOpening (p : Place) (mask : BitVec 4) : Bool := decide (p.offset = 0) && mask == 0xF#4

/-- An opening write beat (R70, R71). -/
def State.openingWrite (s : State) (p : Place) (d : Lanes) : State :=
  let r := s.region p.ref.region
  match originOf (s.record p.ref).state with
  | some o =>
    ((s.freeVerify p.ref).openContext ⟨.assemble o, p.ref, 4, r.firstFold d⟩).setTractState p.ref .opened
  | none =>
    match s.pool.find p.ref with
    | some (i, c) => s.putContext i { c with next := 4, rem := r.firstFold d }
    | none => s

/-- A write beat on an OPEN tract that is not an opening one: it advances or closes the assembly (R72, R73), or breaks it
(R75). -/
def State.openTractWrite (s : State) (p : Place) (mask : BitVec 4) (d : Lanes) : State :=
  let r := s.region p.ref.region
  match s.pool.find p.ref with
  | none => s
  | some (i, c) =>
    match c.kind with
    | .verify => s
    | .assemble o =>
      if p.offset = c.next ∧ mask = 0xF#4 then
        if p.offset + 4 = r.size then (s.freeSlot i).learn p.ref (c.finish r d)
        else s.putContext i (c.advance r d)
      else s.breakAssembly i p.ref o

/-- A non-opening write beat on a tract that is not OPEN (R74). -/
def State.piecemealWrite (s : State) (p : Place) : State :=
  let s := s.freeVerify p.ref
  match (s.record p.ref).state with
  | .current => (s.setTractState p.ref .stale).offer p.ref
  | .stale => s.offer p.ref
  | _ => s

/-- The effect of a tracked forwarded write beat (R69). -/
def State.poolWrite (s : State) (p : Place) (mask : BitVec 4) (d : Lanes) : State :=
  if isOpening p mask then s.openingWrite p d
  else if (s.record p.ref).state = .opened then s.openTractWrite p mask d
  else s.piecemealWrite p

/-! ## Write responses -/

/-- The effect of memory's response to a tracked write beat (R76, R77). -/
def State.poolWriteResponse (s : State) (p : Place) (resp : Resp) : State :=
  match resp with
  | .okay => s
  | .error =>
    let s := s.freeVerify p.ref
    match (s.record p.ref).state with
    | .opened =>
      match s.pool.find p.ref with
      | none => s
      | some (i, c) =>
        match c.kind with
        | .verify => s
        | .assemble o => s.breakAssembly i p.ref o
    | .current => (s.setTractState p.ref .stale).offer p.ref
    | _ => s

/-! ## Read beats -/

/-- A verdict (R92). -/
structure Verdict where
  ref : TractRef
  beatAddr : Word
  stored : Word
  computed : Word
  deriving DecidableEq, Repr

/-- The last beat of a host verify (R83): the context freed; on a mismatch the tract FAULTED, a READ-MISMATCH offered and a
verdict given. -/
def State.completeVerify (s : State) (i : Fin 8) (c : Context) (t : TractRef) (addr : Word) (d : Lanes) :
    State × Option Verdict :=
  let stored := (s.record t).check
  let computed := c.finish (s.region t.region) d
  let s := s.freeSlot i
  if computed = stored then (s, none)
  else
    ((s.setTractState t .faulted).offerFault
      ⟨.readMismatch, t, s.tractAddr t, some stored, some computed, s.timebase.tickCounter, none⟩,
     some ⟨t, addr, stored, computed⟩)

/-- The effect of a tracked read beat, and the verdict it completes if it does (R80 to R84). -/
def State.poolRead (s : State) (p : Place) (addr : Word) (d : Lanes) (resp : Resp) : State × Option Verdict :=
  let r := s.region p.ref.region
  if (s.record p.ref).state ≠ .current ∨ resp = .error then (s.freeVerify p.ref, none)
  else if p.offset = 0 then
    match s.pool.find p.ref with
    | some (i, c) => (s.putContext i { c with next := 4, rem := r.firstFold d }, none)
    | none => (s.openContext ⟨.verify, p.ref, 4, r.firstFold d⟩, none)
  else
    match s.pool.find p.ref with
    | none => (s, none)
    | some (i, c) =>
      if p.offset = c.next then
        if p.offset + 4 = r.size then s.completeVerify i c p.ref addr d
        else (s.putContext i (c.advance r d), none)
      else (s, none)

end Sys2Proof.Machine
end

