-- ==== Sys2Proof/Machine/Operands.lean ====
section
/-! DEFINITION. The codings of the management port: command codes and argument lengths (R194), argument fields (R195), status
codes (R196), named values (R197), and the result layouts of sections 10.2 and 10.4. -/

namespace Sys2Proof.Machine

/-! ## Bytes -/

/-- A two-byte field, most significant byte first (R193). -/
def be16 (x : BitVec 16) : List Byte := [x.extractLsb' 8 8, x.extractLsb' 0 8]

/-- A four-byte field, most significant byte first (R193). -/
def be32 (x : Word) : List Byte := [x.extractLsb' 24 8, x.extractLsb' 16 8, x.extractLsb' 8 8, x.extractLsb' 0 8]

/-- A count or index in a one-byte field. -/
def byteOf (n : Nat) : Byte := BitVec.ofNat 8 n

/-- A count, index or offset in a two-byte field. -/
def be16Of (n : Nat) : List Byte := be16 (BitVec.ofNat 16 n)

/-- A yes or no item (R197). -/
def yesNo (b : Bool) : Byte := if b then 1 else 0

/-- A two-byte field read back. -/
def ofBe16 (h l : Byte) : BitVec 16 := h ++ l

/-- A four-byte field read back. -/
def ofBe32 (a b c d : Byte) : Word := a ++ b ++ c ++ d

/-! ## Bits on MDI and MDO -/

/-- The bits of a byte in the order they are sent: most significant bit first (R167, R193). -/
def byteBits (b : Byte) : List Bool :=
  [b.getLsbD 7, b.getLsbD 6, b.getLsbD 5, b.getLsbD 4, b.getLsbD 3, b.getLsbD 2, b.getLsbD 1, b.getLsbD 0]

/-- The bits of a run of bytes, the first byte's first (R167, R177: no gap between bytes). -/
def wireBits (bs : List Byte) : List Bool := bs.flatMap byteBits

/-- The byte that eight consecutive samples make, the first sample its most significant bit (R167). -/
def byteOfSamples (b7 b6 b5 b4 b3 b2 b1 b0 : Bool) : Byte :=
  BitVec.ofBool b7 ++ BitVec.ofBool b6 ++ BitVec.ofBool b5 ++ BitVec.ofBool b4 ++ BitVec.ofBool b3 ++ BitVec.ofBool b2 ++
    BitVec.ofBool b1 ++ BitVec.ofBool b0

/-- The complete bytes of a selection's samples, counted from the fall of MCS (R168), and how many bits of the next one. -/
def sampledBytes : List Bool → List Byte × Nat
  | b7 :: b6 :: b5 :: b4 :: b3 :: b2 :: b1 :: b0 :: rest =>
    (byteOfSamples b7 b6 b5 b4 b3 b2 b1 b0 :: (sampledBytes rest).1, (sampledBytes rest).2)
  | short => ([], short.length)

/-! ## Command codes -/

/-- The number of argument bytes of a command code; none for a code that names no command (R194). -/
def commandArgs (code : Byte) : Option Nat :=
  match code.toNat with
  | 0x01 => some 0
  | 0x02 => some 0
  | 0x03 => some 8
  | 0x10 => some 1
  | 0x11 => some 16
  | 0x12 => some 1
  | 0x13 => some 1
  | 0x20 => some 3
  | 0x21 => some 3
  | 0x22 => some 3
  | 0x30 => some 1
  | 0x40 => some 0
  | 0x41 => some 0
  | 0x50 => some 0
  | 0x51 => some 1
  | 0x60 => some 1
  | 0x7E => some 0
  | _ => none

/-- The argument bytes the port takes after a code byte; a code that names no command is taken with none (R170, R174). -/
def argsTaken (code : Byte) : Nat := (commandArgs code).getD 0

/-! ## Status codes -/

/-- The twelve status codes (R180). -/
inductive Status where
  | ok
  | adjusted
  | busy
  | badCrc
  | badOp
  | badArg
  | state
  | overlap
  | held
  | full
  | empty
  | noHold
  deriving DecidableEq, Repr

/-- The byte of a status (R196). -/
def Status.byte : Status → Byte
  | .ok => 0x00
  | .adjusted => 0x01
  | .busy => 0x02
  | .badCrc => 0x03
  | .badOp => 0x04
  | .badArg => 0x05
  | .state => 0x06
  | .overlap => 0x07
  | .held => 0x08
  | .full => 0x09
  | .empty => 0x0A
  | .noHold => 0x0B

/-! ## Argument fields -/

/-- A region or slot number: 00h to 07h (R195). -/
def smallNumber (b : Byte) : Option (Fin 8) := if h : b.toNat < 8 then some ⟨b.toNat, h⟩ else none

/-- The check width field: 10h or 20h (R195). -/
def widthOf (b : Byte) : Option CheckWidth :=
  match b.toNat with
  | 0x10 => some .w16
  | 0x20 => some .w32
  | _ => none

/-- The read policy field: 00h, 01h or 02h (R195). -/
def policyOf (b : Byte) : Option ReadPolicy :=
  match b.toNat with
  | 0 => some .report
  | 1 => some .poison
  | 2 => some .hold
  | _ => none

/-- The response field of RELEASE-HOLD: 00h OKAY, 01h ERROR (R195). -/
def respOf (b : Byte) : Option Resp :=
  match b.toNat with
  | 0 => some .okay
  | 1 => some .error
  | _ => none

/-- The tract size code after step 1 of R25: bits 2 to 0, with 5, 6 and 7 forced to 2. -/
def forcedCode (b : Byte) : BitVec 3 := if 4 < (b.extractLsb' 0 3).toNat then 2 else b.extractLsb' 0 3

/-- Step 1 of R25 forces the code. -/
def codeForced (b : Byte) : Bool := decide (4 < (b.extractLsb' 0 3).toNat)

/-- The polynomial check of R25 step 3. -/
def polyOk (w : CheckWidth) (poly : Word) : Bool :=
  poly.getLsbD 0 && (match w with
    | .w16 => decide (poly.toNat < 65536)
    | .w32 => true)

/-! ## Named values in results (R197) -/

/-- The width byte (R195). -/
def widthByte : CheckWidth → Byte
  | .w16 => 0x10
  | .w32 => 0x20

/-- The read policy byte (R195). -/
def ReadPolicy.byte : ReadPolicy → Byte
  | .report => 0
  | .poison => 1
  | .hold => 2

/-- The region state byte. -/
def RegionState.byte : RegionState → Byte
  | .disabled => 0
  | .preparing => 1
  | .enabled => 2
  | .retiring => 3

/-- The tract state byte. -/
def TractState.byte : TractState → Byte
  | .unknown => 0
  | .current => 1
  | .stale => 2
  | .opened => 3
  | .faulted => 4

/-- The origin byte of an ASSEMBLE context. -/
def Origin.byte : Origin → Byte
  | .unknown => 0
  | .current => 1
  | .stale => 2
  | .faulted => 4

/-- The long-operation state byte. -/
def LongOp.byte : LongOp → Byte
  | .idle => 0
  | .enabling n => 0x10 + byteOf n.val
  | .disabling n => 0x20 + byteOf n.val

/-- The job kind bits. -/
def JobKind.byte : JobKind → Byte
  | .refresh => 1
  | .establish => 2
  | .verify => 3

/-- The reader byte. -/
def Reader.byte (r : Reader) : Byte :=
  match r.job with
  | none => 0
  | some j => 0x80 ||| j.kind.byte

/-- The fault kind byte. -/
def FaultKind.byte : FaultKind → Byte
  | .readMismatch => 1
  | .scrubMismatch => 2
  | .readerError => 3
  | .holdExpired => 4

/-! ## Result layouts -/

/-- The 15 bytes of a descriptor (section 10.2). -/
def Region.descriptorBytes (r : Region) : List Byte :=
  be32 r.base ++ [byteOf r.sizeCode.toNat] ++ be16 r.count ++ be16 r.entryBase ++ [widthByte r.width] ++ be32 r.poly ++
    [r.policy.byte]

/-- The results of GET-REGION. -/
def Region.report (r : Region) : List Byte := r.descriptorBytes ++ [r.state.byte]

/-- The results of GET-PARAMS, laid out as the arguments of SET-PARAMS. -/
def Params.report (p : Params) : List Byte :=
  be16 p.divider ++ be16 p.latch ++ be16 p.holdTimeout ++ [byteOf p.patience.toNat, p.mask]

/-- The status block (R183, section 10.4). -/
def State.statusBlock (s : State) : List Byte :=
  [s.port.longOp.byte] ++ regionNumbers.map (fun n => (s.region n).state.byte) ++
    [byteOf s.queue.length, byteOf s.log.records.length] ++ be16 s.log.dropped ++
    [byteOf s.pool.inUse, s.reader.byte, yesNo s.passage.hold.isSome, s.alert.causes, s.params.mask, s.port.frameErrors] ++
    be16 s.scrubber.passCount ++ be16 s.scrubber.slipCount ++ be32 s.timebase.tickCounter

/-- The results of GET-TRACT (R16). -/
def State.tractReport (s : State) (t : TractRef) : List Byte :=
  be32 (s.tractAddr t) ++ [(s.record t).state.byte, yesNo (s.record t).queued] ++ be32 (s.record t).check

/-- The context kind byte. -/
def ContextKind.byte : ContextKind → Byte
  | .assemble _ => 1
  | .verify => 2

/-- The origin byte of a slot report: 00h for a VERIFY context (R197). -/
def ContextKind.originByte : ContextKind → Byte
  | .assemble o => o.byte
  | .verify => 0

/-- The slot report (R187, section 10.4); a free slot is thirteen bytes of 00h. -/
def Pool.report (p : Pool) (i : Fin 8) : List Byte :=
  match p.slot i with
  | none => List.replicate 13 0
  | some c =>
    [1, c.kind.byte, byteOf c.ref.region.val] ++ be16Of c.ref.tract ++ be16Of c.next ++ be32 c.rem ++
      [c.kind.originByte, byteOf (p.recency.idxOf i)]

/-- A fault record as PEEK-FAULT and POP-FAULT send it, absent fields as zero (R150, section 10.4). -/
def FaultRecord.report (f : FaultRecord) : List Byte :=
  be32 f.seq ++ [f.finding.kind.byte, byteOf f.finding.ref.region.val] ++ be16Of f.finding.ref.tract ++
    be32 f.finding.addr ++ be32 (f.finding.stored.getD 0) ++ be32 (f.finding.computed.getD 0) ++ be32 f.finding.stamp ++
    be16Of (f.finding.errorOffset.getD 0)

/-- The hold record as GET-HOLD sends it (R188, section 10.4). -/
def HoldRecord.report (h : HoldRecord) : List Byte :=
  [byteOf h.ref.region.val] ++ be16Of h.ref.tract ++ be32 h.beatAddr ++ h.data.bytes ++ be32 h.stored ++ be32 h.computed ++
    be32 h.stamp ++ [yesNo h.ticksRemaining.isSome] ++ be16 (h.ticksRemaining.getD 0)

end Sys2Proof.Machine
end

