-- ==== Sys2Proof/Decode.lean ====
section
/-! DEFINITION. The table's words (it gives none of its rows any bits), and the request frames of the management port: the
port's reading of the bytes of a selection (R168, R170 to R175, R194) and the bytes that spell a command (R193, R195). -/

namespace Sys2Proof

open Machine

/-- The command a word spells by the table's bits: no row of spec/opcode_table.json gives bits, so none (log 20). -/
def decodeTableWord (_nbits _w : Nat) : Option Instr := none

/-- The request's code and argument bytes for a management command (section 10.2). -/
def requestBody : Instr → Option (Byte × List Byte)
  | .getStatus => some (0x01, [])
  | .getParams => some (0x02, [])
  | .setParams d l t p m => some (0x03, be16 d ++ be16 l ++ be16 t ++ [p, m])
  | .getRegion r => some (0x10, [r])
  | .setRegion r b c n e w y q => some (0x11, [r] ++ be32 b ++ [c] ++ be16 n ++ be16 e ++ [w] ++ be32 y ++ [q])
  | .enableRegion r => some (0x12, [r])
  | .disableRegion r => some (0x13, [r])
  | .getTract r t => some (0x20, [r] ++ be16 t)
  | .forgetTract r t => some (0x21, [r] ++ be16 t)
  | .repairTract r t => some (0x22, [r] ++ be16 t)
  | .getContext n => some (0x30, [n])
  | .peekFault => some (0x40, [])
  | .popFault => some (0x41, [])
  | .getHold => some (0x50, [])
  | .releaseHold r => some (0x51, [r])
  | .clearAlert m => some (0x60, [m])
  | .restart => some (0x7E, [])
  | _ => none

/-- The bytes of the request frame that spells a command: code, arguments, CRC-8 (R170, R171). A BAD_CRC frame carries the CRC
byte received; a BAD_OP frame is the code and its CRC (R174). None for the happenings that are no whole request frame. -/
def requestFrame : Instr → Option (List Byte)
  | .badCrc code args crc => some (code :: args ++ [crc])
  | .badOp code => some [code, crc8 [code]]
  | i => (requestBody i).map fun b => b.1 :: b.2 ++ [crc8 (b.1 :: b.2)]

/-- The command that a code and its argument bytes name (R194, section 10.2). -/
def commandOf (code : Byte) (args : List Byte) : Option Instr :=
  match code.toNat, args with
  | 0x01, [] => some .getStatus
  | 0x02, [] => some .getParams
  | 0x03, [d1, d0, l1, l0, t1, t0, p, m] => some (.setParams (ofBe16 d1 d0) (ofBe16 l1 l0) (ofBe16 t1 t0) p m)
  | 0x10, [r] => some (.getRegion r)
  | 0x11, [r, b3, b2, b1, b0, c, n1, n0, e1, e0, w, y3, y2, y1, y0, q] =>
    some (.setRegion r (ofBe32 b3 b2 b1 b0) c (ofBe16 n1 n0) (ofBe16 e1 e0) w (ofBe32 y3 y2 y1 y0) q)
  | 0x12, [r] => some (.enableRegion r)
  | 0x13, [r] => some (.disableRegion r)
  | 0x20, [r, t1, t0] => some (.getTract r (ofBe16 t1 t0))
  | 0x21, [r, t1, t0] => some (.forgetTract r (ofBe16 t1 t0))
  | 0x22, [r, t1, t0] => some (.repairTract r (ofBe16 t1 t0))
  | 0x30, [n] => some (.getContext n)
  | 0x40, [] => some .peekFault
  | 0x41, [] => some .popFault
  | 0x50, [] => some .getHold
  | 0x51, [r] => some (.releaseHold r)
  | 0x60, [m] => some (.clearAlert m)
  | 0x7E, [] => some .restart
  | _, _ => none

/-- What the port makes of the complete bytes clocked in one selection after its fall of MCS, with `bits` more bits before MCS
rises: no frame without a complete byte (R168), an aborted frame without the CRC byte (R175), a bad-CRC frame (R173), an
unknown code (R174), or the command, the bytes after its CRC byte being ignored (R179, R194). -/
def portReads (bytes : List Byte) (bits : BitVec 3) : Option Instr :=
  match bytes with
  | [] => none
  | code :: rest =>
    match rest.drop (argsTaken code) with
    | [] => some (.frameAbort bytes bits)
    | crc :: _ =>
      if crc = crc8 (code :: rest.take (argsTaken code)) then
        match commandOf code (rest.take (argsTaken code)) with
        | some i => some i
        | none => some (.badOp code)
      else some (.badCrc code (rest.take (argsTaken code)) crc)

/-- What the port makes of the levels of MDI at the rising edges of MCK between a fall and the next rise of MCS (R167, R168). -/
def portSamples (samples : List Bool) : Option Instr :=
  portReads (sampledBytes samples).1 (BitVec.ofNat 3 (sampledBytes samples).2)

/-- The levels of MDI, one for each rising edge of MCK, that send the request frame of a command (R167, R193). -/
def requestSamples (i : Instr) : Option (List Bool) := (requestFrame i).map wireBits

end Sys2Proof
end

