-- ==== Sys2Proof/Machine/Arbiter.lean ====
section
/-! DEFINITION. The memory link arbiter's choice (R50) and the end of a happening: the grant due and the ALERT output. -/

namespace Sys2Proof.Machine

/-- The passage claims the memory link exactly in CLAIMING (R44). -/
def State.passageClaims (s : State) : Bool :=
  match s.passage.state with
  | .claiming _ => true
  | _ => false

/-- The reader claims the memory link exactly while its job is in phase CLAIMING (R115, R119). -/
def State.readerClaims (s : State) : Bool :=
  match s.reader.job with
  | some j => decide (j.phase = .claiming)
  | none => false

/-- A claimant waits. -/
def State.claims (s : State) : Claimant → Bool
  | .passage => s.passageClaims
  | .reader => s.readerClaims

/-- The grant R50 makes at a happening that finds the link free: the one claimant, or of both the passage unless the
passed-over count has reached patience. -/
def State.grantChoice (s : State) : Option Claimant :=
  if s.passageClaims then
    if s.readerClaims && decide (s.params.patience ≤ s.arbiter.passedOver) then some .reader else some .passage
  else if s.readerClaims then some .reader
  else none

/-- The grant a happening leaves (R50): none while the link is busy; a grant already made stands while its claimant still waits;
otherwise the arbiter chooses. It is carried out before any other happening is taken (log 5). -/
def State.grantDue (s : State) : Option Claimant :=
  if s.arbiter.link = .free then
    match s.arbiter.granting with
    | some c => if s.claims c then some c else s.grantChoice
    | none => s.grantChoice
  else none

/-- The arbiter's part of a happening. -/
def State.arbitrate (s : State) : State := { s with arbiter := { s.arbiter with granting := s.grantDue } }

/-- The end of a happening: the arbiter makes its grant (R50) and ALERT follows the causes (R164). -/
def State.conclude (s : State) : State := s.arbitrate.followAlert

/-- The reader's claim withdrawn with no grant: the passed-over count returns to 0 (R51). -/
def State.clearPassedOver (s : State) : State := { s with arbiter := { s.arbiter with passedOver := 0 } }

/-- The memory link freed at the arrival of a burst's last response (R49). -/
def State.freeLink (s : State) : State := { s with arbiter := { s.arbiter with link := .free } }

end Sys2Proof.Machine
end

