-- ==== Sys2Proof/Machine/Reader.lean ====
section
/-! DEFINITION. The scrub cursor's walk (R143 to R147), the tract reader's search for work (R116 to R119), the end of its
bursts and of its jobs (R122 to R129). -/

namespace Sys2Proof.Machine

/-! ## The scrub cursor -/

/-- Region n is ENABLED. -/
def State.enabled (s : State) (n : Fin 8) : Bool := decide ((s.region n).state = .enabled)

/-- The lowest-numbered ENABLED region numbered above n (R144). -/
def State.enabledAbove (s : State) (n : Fin 8) : Option (Fin 8) :=
  regionNumbers.find? fun m => decide (n < m) && s.enabled m

/-- The lowest-numbered ENABLED region. -/
def State.lowestEnabled (s : State) : Option (Fin 8) := regionNumbers.find? fun m => s.enabled m

/-- The cursor put on tract 0 of a region, or parked. -/
def State.setCursor (s : State) (n : Option (Fin 8)) : State :=
  { s with scrubber := { s.scrubber with cursor := n.map fun m => ⟨m, 0⟩ } }

/-- A wrap of the cursor: the pass count rises, wrapping, and PASS is set (R144). -/
def State.countPass (s : State) : State :=
  State.setCause { s with scrubber := { s.scrubber with passCount := s.scrubber.passCount + 1 } } .pass

/-- The cursor advanced from a position (R144). -/
def State.advanceCursor (s : State) (t : TractRef) : State :=
  if t.tract + 1 < (s.region t.region).count.toNat then
    { s with scrubber := { s.scrubber with cursor := some ⟨t.region, t.tract + 1⟩ } }
  else
    match s.enabledAbove t.region with
    | some m => s.setCursor (some m)
    | none => (s.setCursor s.lowestEnabled).countPass

/-- The cursor moved off a region that leaves tracking (R147), taken once the region is no longer ENABLED. No pass is
counted. -/
def State.moveCursorOff (s : State) (n : Fin 8) : State :=
  match s.scrubber.cursor with
  | none => s
  | some t =>
    if t.region = n then
      match s.enabledAbove n with
      | some m => s.setCursor (some m)
      | none => s.setCursor s.lowestEnabled
    else s

/-! ## Taking work -/

/-- A job started (R119). -/
def State.startJob (s : State) (k : JobKind) (t : TractRef) (st : TractState) : State :=
  { s with reader := { s.reader with
      job := some
        { kind := k, ref := t, nextOffset := 0, phase := .claiming, rem := crcInit (s.region t.region).width,
          startState := st, overtaken := false, abandoned := false, errorOffset := none } } }

/-- The last source set to the source of a take (R116). -/
def State.setLastSource (s : State) (src : Source) : State := { s with reader := { s.reader with lastSource := src } }

/-- A take from the queue (R111, R117): the head entry removed, its flag cleared, a REFRESH job if the tract is STALE. -/
def State.takeFromQueue (s : State) : State :=
  match s.queue with
  | [] => s
  | t :: rest =>
    let s := (State.setQueued { s with queue := rest } t false).setLastSource .queue
    if (s.record t).state = .stale then s.startJob .refresh t .stale else s

/-- A take of the scrub step (R118): the flag cleared, the tract under the cursor read, the cursor advanced, and a job
started as the table of R118 gives. -/
def State.takeScrubStep (s : State) : State :=
  let s := State.setLastSource { s with scrubber := { s.scrubber with stepPending := false } } .scrub
  match s.scrubber.cursor with
  | none => s
  | some t =>
    let rec' := s.record t
    let s := s.advanceCursor t
    match rec'.state with
    | .current => s.startJob .verify t .current
    | .unknown => s.startJob .establish t .unknown
    | .stale => if rec'.queued then s else s.startJob .establish t .stale
    | .opened => s
    | .faulted => s

/-- The source an IDLE reader takes from (R116): the one that waits, or of both the one that is not its last source. -/
def State.nextSource (s : State) : Option Source :=
  match s.queue.isEmpty, s.scrubber.stepPending with
  | true, false => none
  | true, true => some .scrub
  | false, false => some .queue
  | false, true => if s.reader.lastSource = .queue then some .scrub else some .queue

/-- One take. -/
def State.take (s : State) : Source → State
  | .queue => s.takeFromQueue
  | .scrub => s.takeScrubStep

/-- The reader looks for work until a take starts a job or neither source waits (R116), for at most so many takes. -/
def State.lookFor : Nat → State → State
  | 0, s => s
  | k + 1, s =>
    match s.reader.job with
    | some _ => s
    | none =>
      match s.nextSource with
      | none => s
      | some src => State.lookFor k (s.take src)

/-- The reader's search in a happening (R116). A take uses up a queue entry or the one pending step, so the bound is never
reached. -/
def State.look (s : State) : State := State.lookFor (s.queue.length + 2) s

/-! ## The end of a burst -/

/-- The job record removed; the reader IDLE (R123, R125, R129). -/
def State.endJob (s : State) : State := { s with reader := { s.reader with job := none } }

/-- The job record replaced. -/
def State.setJob (s : State) (j : Job) : State := { s with reader := { s.reader with job := some j } }

/-- The completion of a job (R127, R128), before the job record is removed. -/
def State.completeJob (s : State) (j : Job) : State :=
  let r := s.region j.ref.region
  let computed := crcFinal r.width j.rem
  let tract := s.record j.ref
  match j.kind with
  | .verify =>
    if j.overtaken ∨ tract.state ≠ .current ∨ computed = tract.check then s
    else
      (s.setTractState j.ref .faulted).offerFault
        ⟨.scrubMismatch, j.ref, s.tractAddr j.ref, some tract.check, some computed, s.timebase.tickCounter, none⟩
  | _ => if j.overtaken ∨ tract.state ≠ j.startState then s else s.learn j.ref computed

/-- The end of a long operation at the port: IDLE, and READY set (R33, R38, R39, R182). -/
def State.endLongOp (s : State) : State := State.setCause { s with port := { s.port with longOp := .idle } } .ready

/-- The end of an abandoned job's burst (R39, R125): the job removed, its region DISABLED, the long operation ended, and the
reader looks. -/
def State.endRetiring (s : State) (j : Job) : State :=
  ((s.endJob.setRegionState j.ref.region .disabled).endLongOp).look

/-- The end of a burst of a job that is not abandoned (R122, R123, R127 to R129). -/
def State.endJobBurst (s : State) (j : Job) : State :=
  match j.errorOffset with
  | some off =>
    (s.offerFault
      ⟨.readerError, j.ref, s.tractAddr j.ref, none, none, s.timebase.tickCounter, some off⟩).endJob.look
  | none =>
    if j.nextOffset + 64 < (s.region j.ref.region).size then
      s.setJob { j with nextOffset := j.nextOffset + 64, phase := .claiming }
    else (s.completeJob j).endJob.look

/-- The sixteenth beat of a reader burst has arrived, and what follows from it in its happening is still owed (log 4). -/
def State.burstEndOwed (s : State) : Bool :=
  decide (s.reader.burstBeats = Config.readerBurstBeats) &&
    (decide (s.arbiter.link = .reader) || decide (s.arbiter.link = .detached))

/-- The link freed by the sixteenth beat of a reader burst, and the beat count cleared (R49). -/
def State.releaseReaderLink (s : State) : State :=
  { s.freeLink with reader := { s.reader with burstBeats := 0 } }

/-- The end of the reader's burst on the link (R49, R122, R126). -/
def State.endBurst (s : State) : State :=
  let f := s.releaseReaderLink
  if s.arbiter.link = .detached then f.conclude
  else
    match s.reader.job with
    | none => f.conclude
    | some j => if j.abandoned then (f.endRetiring j).conclude else (f.endJobBurst j).conclude

end Sys2Proof.Machine
end

