-- ==== Sys2Proof/Machine/Grants.lean ====
section
/-! DEFINITION. The two grants of the memory link (R45, R50 to R53, R120), and the grant that a happening leaves owed (log 5). -/

namespace Sys2Proof.Machine

/-! ## Small updates -/

/-- The passage's state replaced. -/
def State.setPassage (s : State) (p : PassageState) : State := { s with passage := { s.passage with state := p } }

/-- An item issued on the memory link. -/
def State.issue (s : State) (m : MemoryIssue) : State := { s with pins := { s.pins with memoryLink := some m } }

/-- The reader's started job marked overtaken when a test on its tract says so (R124). -/
def State.overtakeWhere (s : State) (q : TractRef → Bool) : State :=
  match s.reader.job with
  | some j => if q j.ref then s.setJob { j with overtaken := true } else s
  | none => s

/-! ## The grant to the passage -/

/-- The passed-over count at a grant to the passage: up by one while the reader waits, never above 15 (R51). -/
def State.countPassedOver (s : State) : State :=
  if s.readerClaims ∧ s.arbiter.passedOver ≠ 15 then
    { s with arbiter := { s.arbiter with passedOver := s.arbiter.passedOver + 1 } }
  else s

/-- The memory link taken by a burst (R49). -/
def State.takeLink (s : State) (u : LinkUser) : State := { s with arbiter := { s.arbiter with link := u } }

/-- The touch of a granted WRITE burst (R53, R124). -/
def State.touch (s : State) (t : Transaction) : State :=
  match t.dir with
  | .read => s
  | .write => s.overtakeWhere (s.touches t)

/-- The grant to the passage (R45, R51, R53): the recorded request issued, the passage CARRYING, a WRITE burst's tracts
touched. -/
def State.grantPassage (s : State) (t : Transaction) : State :=
  ((((s.countPassedOver.takeLink .passage).setPassage (.carrying t)).issue (.request t.addr t.beats t.dir)).touch t).conclude

/-! ## The grant to the reader -/

/-- The address of a job's next burst (R120). -/
def State.burstAddr (s : State) (j : Job) : Word := s.tractAddr j.ref + BitVec.ofNat 32 j.nextOffset

/-- The job's phase READING, its error offset cleared, and the beat count of its new burst at 0 (R115, R120). -/
def State.beginBurst (s : State) (j : Job) : State :=
  { s with reader := { s.reader with job := some { j with phase := .reading, errorOffset := none }, burstBeats := 0 } }

/-- The grant to the reader (R50, R51, R120): a READ burst of 16 beats issued, the passed-over count 0. -/
def State.grantReader (s : State) (j : Job) : State :=
  ((((s.takeLink .reader).clearPassedOver).beginBurst j).issue
    (.request (s.burstAddr j) Config.readerBurstBeats .read)).conclude

/-! ## The grant owed -/

/-- The arbiter has made a grant in the happening before, its claimant still waits, and the grant is not yet carried out. -/
def State.grantOwed (s : State) : Bool :=
  match s.arbiter.granting with
  | some c => s.claims c
  | none => false

/-- The grant carried out if it is owed (R50). -/
def State.settleGrant (s : State) : State :=
  match s.arbiter.granting with
  | none => s
  | some .passage =>
    match s.passage.state with
    | .claiming t => s.grantPassage t
    | _ => s
  | some .reader =>
    match s.reader.job with
    | some j => if j.phase = .claiming then s.grantReader j else s
    | none => s

end Sys2Proof.Machine
end

