-- ==== Sys2Proof/Machine/Happening.lean ====
section
/-! DEFINITION. What a happening leaves to be carried out in that same happening (log 3, log 4, log 5): the underflow and the
hold timeout of a tick, the burst end of a reader burst's sixteenth beat, and the grant of the memory link, each done by its
own command or, before any other command, by `settle`. -/

namespace Sys2Proof.Machine

/-! ## The underflow -/

/-- A scrub step posted (R140); a slip when one is pending (R141). -/
def State.postStep (s : State) : State :=
  if s.scrubber.stepPending then
    State.setCause { s with scrubber := { s.scrubber with slipCount := saturate16 s.scrubber.slipCount } } .slip
  else { s with scrubber := { s.scrubber with stepPending := true } }

/-- The pacing counter reloaded from the latch (R138). -/
def State.reloadPacing (s : State) : State :=
  { s with scrubber := { s.scrubber with pacing := s.params.latch, underflowOwed := false } }

/-- An underflow (R138 to R142): the reload, and with a latch above 0 a step posted, for which an IDLE reader looks. -/
def State.underflow (s : State) : State :=
  if s.params.latch = 0 then s.reloadPacing else s.reloadPacing.postStep.look.conclude

/-! ## The hold timeout -/

/-- The hold counter has reached 0 and the timeout is still owed (R101, R103). -/
def State.timeoutOwed (s : State) : Bool :=
  match s.passage.hold with
  | some h => decide (h.ticksRemaining = some 0)
  | none => false

/-- The held beat given a response, which makes it deliverable, and the hold record removed (R102, R103, R105). -/
def State.releaseHeld (s : State) (r : Resp) : State :=
  { s with passage := { s.passage with
      buffer := s.passage.buffer.map fun e => if e.resp = none then { e with resp := some r } else e
      hold := none } }

/-- The end of a hold by timeout (R103): ERROR for the held beat and a HOLD-EXPIRED record offered. -/
def State.expireHold (s : State) : State :=
  match s.passage.hold with
  | none => s
  | some h =>
    ((s.releaseHeld .error).offerFault
      ⟨.holdExpired, h.ref, s.tractAddr h.ref, some h.stored, none, s.timebase.tickCounter, none⟩).conclude

/-! ## Settling -/

/-- The burst end carried out if it is owed. -/
def State.settleBurst (s : State) : State := if s.burstEndOwed then s.endBurst else s

/-- The underflow carried out if it is owed. -/
def State.settleUnderflow (s : State) : State := if s.scrubber.underflowOwed then s.underflow else s

/-- The hold timeout carried out if it is owed. -/
def State.settleTimeout (s : State) : State := if s.timeoutOwed then s.expireHold else s

/-- The burst end, the underflow and the hold timeout carried out if they are owed. -/
def State.settleEffects (s : State) : State := s.settleBurst.settleUnderflow.settleTimeout

/-- Everything still owed by the happening before, the grant made in it last, carried out before the next one is taken (R50,
R136, R181; log 3, log 4, log 5). -/
def State.settle (s : State) : State := s.settleEffects.settleGrant

end Sys2Proof.Machine
end

