-- ==== Sys2Proof/Machine/Lines.lean ====
section
/-! DEFINITION. The lines of the burst link (R41, R42, R198): what the lines of one link carry while an item crosses it, what
the part drives on each link, and the item a command brings in. -/

namespace Sys2Proof.Machine

/-- The 32 address/data lines: an address in the request phase, the four bytes of a beat after it (R198). Which line carries
which bit of which lane the manual does not say. -/
inductive AddressData where
  | address (a : Word)
  | data (d : Lanes)
  deriving DecidableEq, Repr

/-- The 41 lines of one link (section 10.6). A group for which the manual gives no level while an item crosses is none. -/
structure LinkLines where
  addressData : Option AddressData
  laneMask : Option (BitVec 4)
  direction : Option Dir
  requestValid : Bool
  beatValid : Bool
  beatReady : Bool
  response : Option (BitVec 1)
  deriving DecidableEq, Repr

/-- What crosses a link (R41, R42): a request, a write beat, the response to a write beat, or a read beat with its response. -/
inductive LinkItem where
  | request (addr : Word) (countLessOne : BitVec 4) (dir : Dir)
  | writeBeat (data : Lanes) (mask : BitVec 4)
  | writeResponse (resp : Resp)
  | readBeat (data : Lanes) (resp : Resp)
  deriving DecidableEq, Repr

/-- The response line: 0 for OKAY, 1 for ERROR (R198). -/
def responseLine : Resp → BitVec 1
  | .okay => 0
  | .error => 1

/-- The response a level of the response line stands for (R198). -/
def responseOfLine (b : BitVec 1) : Resp := if b = 0 then .okay else .error

/-- The lines while an item crosses (R198): in the request phase the start address, and the beat count less one on the
lane-mask lines; then each beat's data, a write beat's lane mask, and the response, marked by beat-valid and beat-ready. -/
def LinkItem.lines : LinkItem → LinkLines
  | .request a n d => ⟨some (.address a), some n, some d, true, false, false, none⟩
  | .writeBeat d m => ⟨some (.data d), some m, none, false, true, true, none⟩
  | .writeResponse r => ⟨none, none, none, false, true, true, some (responseLine r)⟩
  | .readBeat d r => ⟨some (.data d), none, none, false, true, true, some (responseLine r)⟩

/-- The item that lines carry; none for lines on which no item crosses. -/
def LinkLines.item (l : LinkLines) : Option LinkItem :=
  match l.requestValid, l.beatValid && l.beatReady, l.addressData, l.laneMask, l.direction, l.response with
  | true, false, some (.address a), some n, some d, none => some (.request a n d)
  | false, true, some (.data d), some m, none, none => some (.writeBeat d m)
  | false, true, none, none, none, some r => some (.writeResponse (responseOfLine r))
  | false, true, some (.data d), none, none, some r => some (.readBeat d (responseOfLine r))
  | _, _, _, _, _, _ => none

/-- The command that an item taken from the host is (R44, R46). -/
def LinkItem.hostCommand : LinkItem → Option Instr
  | .request a n d => some (.hostRequest a n d)
  | .writeBeat d m => some (.writeBeatForwarded d m)
  | .writeResponse _ => none
  | .readBeat _ _ => none

/-- The command that an item taken from memory is, by whose burst is on the memory link (R46, R47, R121). -/
def State.memoryCommand (s : State) : LinkItem → Option Instr
  | .writeResponse r => some (.writeResponse r)
  | .readBeat d r =>
    match s.arbiter.link with
    | .passage => some (.readBeatArrival d r)
    | .reader => some (.readerBeat d r)
    | .detached => some (.readerBeat d r)
    | .free => none
  | .request _ _ _ => none
  | .writeBeat _ _ => none

/-- What the part issues on the memory link, as it crosses: the beat count goes out as a count less one (R41). -/
def MemoryIssue.item : MemoryIssue → LinkItem
  | .request a n d => .request a (BitVec.ofNat 4 (n - 1)) d
  | .writeBeat _ d m => .writeBeat d m

/-- What the part delivers on the host link, as it crosses (R42). -/
def HostDelivery.item (h : HostDelivery) : LinkItem :=
  match h.data with
  | some d => .readBeat d h.resp
  | none => .writeResponse h.resp

/-- The lines of the memory link as the last item issued there drove them (log 15). -/
def State.memoryLines (s : State) : Option LinkLines := s.pins.memoryLink.map fun m => m.item.lines

/-- The lines of the host link as the last response delivered there drove them (log 15). -/
def State.hostLines (s : State) : Option LinkLines := s.pins.hostLink.map fun h => h.item.lines

/-- The response the part offers on the host link, its beat-valid asserted for it (R42, R47): the oldest buffered one in
CARRYING, unless it is held. The host's beat-ready then makes the transfer, which is RESPONSE_DELIVERY. -/
def State.offered (s : State) : Option HostDelivery :=
  match s.passage.state, s.passage.buffer with
  | .carrying _, ⟨some r, d⟩ :: _ => some ⟨r, d⟩
  | _, _ => none

/-- The part's beat-ready for the host's write beats (R44, R46, R58): asserted in CARRYING on a WRITE burst with beats not yet
forwarded, and in no other state. -/
def State.takesWriteBeats (s : State) : Bool :=
  match s.passage.state with
  | .carrying t => decide (t.dir = .write ∧ t.forwarded < t.beats)
  | _ => false

end Sys2Proof.Machine
end

