-- ==== Sys2Proof/Machine/Links.lean ====
section
/-! DEFINITION. The happenings of the host link and the memory link: HRST, HOST_REQUEST, PASSAGE_GRANT,
WRITE_BEAT_FORWARDED, WRITE_RESPONSE, PADDING_BEAT, READ_BEAT_ARRIVAL, RESPONSE_DELIVERY (Chapters 3 and 5) and READER_GRANT,
READER_BEAT, READER_BURST_END (Chapter 6). A happening the state does not offer changes nothing (log 6). -/

namespace Sys2Proof.Machine

/-! ## Small updates -/

/-- An entry put at the tail of the beat buffer (R43). -/
def State.pushBuffer (s : State) (e : BufferEntry) : State :=
  { s with passage := { s.passage with buffer := s.passage.buffer ++ [e] } }

/-! ## HRST -/

/-- The passage emptied by HRST: buffer, held beat and hold discarded with no delivery (R58, R59, R104). -/
def State.discardUpstream (s : State) : State := { s with passage := { s.passage with buffer := [], hold := none } }

/-- The assertion of HRST acting on the passage (R57 to R60). -/
def State.cut (s : State) : State :=
  match s.passage.state with
  | .idle => s
  | .claiming _ => s.setPassage .idle
  | .carrying t =>
    if t.arrived < t.beats then s.discardUpstream.setPassage (.draining { t with cut := true })
    else s.discardUpstream.setPassage .idle
  | .draining _ => s

/-- HRST (R57, R198): its assertion cuts the passage's transaction; its fall changes only the level (R44; log 7). -/
def execHrst (level : Bool) (s : State) : Host.Outcome State Fault Refusal :=
  let s := s.settle
  let s := { s with pins := { s.pins with hrst := level } }
  if level then .next s.cut.conclude else .next s

/-! ## Requests and grants -/

/-- The transaction a request makes (R41, R43). -/
def Transaction.ofRequest (addr : Word) (countLessOne : BitVec 4) (dir : Dir) : Transaction :=
  { dir := dir, addr := alignAddr addr, beats := countLessOne.toNat + 1, forwarded := 0, padded := 0, arrived := 0,
    delivered := 0, cut := false }

/-- HOST_REQUEST (R44): taken by an IDLE passage while HRST is low; otherwise left on the host link (log 8). -/
def execHostRequest (addr : Word) (countLessOne : BitVec 4) (dir : Dir) (s : State) : Host.Outcome State Fault Refusal :=
  let s := s.settle
  if s.passage.state = .idle ∧ s.pins.hrst = false then
    .next (s.setPassage (.claiming (Transaction.ofRequest addr countLessOne dir))).conclude
  else .next s

/-- PASSAGE_GRANT (R45, R50, R51, R53): what is owed is carried out, the arbiter's grant to the passage with it (log 5). -/
def execPassageGrant (s : State) : Host.Outcome State Fault Refusal :=
  let s := s.settleEffects
  match s.arbiter.granting, s.passage.state with
  | some .passage, .claiming t => .next (s.grantPassage t)
  | _, _ => .next s.settleGrant

/-! ## Write bursts -/

/-- The pool's handling of a beat at an address: nothing for an untracked beat (R55). -/
def State.placed (s : State) (a : Word) (f : State → Place → State) : State :=
  match s.place a with
  | none => s
  | some p => f s p

/-- WRITE_BEAT_FORWARDED (R46): the next beat of a WRITE burst in CARRYING forwarded unchanged and handed to the pool. -/
def execWriteBeatForwarded (data : Lanes) (mask : BitVec 4) (s : State) : Host.Outcome State Fault Refusal :=
  let s := s.settle
  match s.passage.state with
  | .carrying t =>
    if t.dir = .write ∧ t.forwarded < t.beats then
      let a := t.beatAddr t.forwarded
      let s := (s.setPassage (.carrying { t with forwarded := t.forwarded + 1 })).issue (.writeBeat a data mask)
      .next (s.placed a fun s p => s.poolWrite p mask data).look.conclude
    else .next s
  | _ => .next s

/-- The link freed when the burst's last response has arrived (R49). -/
def State.freeLinkWhen (s : State) (last : Bool) : State := if last then s.freeLink else s

/-- WRITE_RESPONSE (R46, R58, R60, R76, R77): the response to the oldest issued beat that has none. In CARRYING it is handed
to the pool and buffered; in DRAINING it is handed to the pool if its beat was forwarded, and discarded. -/
def execWriteResponse (resp : Resp) (s : State) : Host.Outcome State Fault Refusal :=
  let s := s.settle
  match s.passage.state with
  | .carrying t =>
    if t.dir = .write ∧ t.arrived < t.forwarded then
      let s := s.placed (t.beatAddr t.arrived) fun s p => s.poolWriteResponse p resp
      let s := (s.setPassage (.carrying { t with arrived := t.arrived + 1 })).pushBuffer ⟨some resp, none⟩
      .next (s.freeLinkWhen (t.arrived + 1 = t.beats)).look.conclude
    else .next s
  | .draining t =>
    if t.dir = .write ∧ t.arrived < t.forwarded + t.padded then
      let s := if t.arrived < t.forwarded then s.placed (t.beatAddr t.arrived) fun s p => s.poolWriteResponse p resp else s
      if t.arrived + 1 = t.beats then .next (s.setPassage .idle).freeLink.look.conclude
      else .next (s.setPassage (.draining { t with arrived := t.arrived + 1 })).look.conclude
    else .next s
  | _ => .next s

/-- PADDING_BEAT (R58): the next beat of a cut WRITE burst issued with lane mask 0000b and data 0, and not placed. -/
def execPaddingBeat (s : State) : Host.Outcome State Fault Refusal :=
  let s := s.settle
  match s.passage.state with
  | .draining t =>
    if t.dir = .write ∧ t.forwarded + t.padded < t.beats then
      .next ((s.setPassage (.draining { t with padded := t.padded + 1 })).issue
        (.writeBeat (t.beatAddr (t.forwarded + t.padded)) Lanes.zero 0))
    else .next s
  | _ => .next s

/-! ## Read bursts -/

/-- A tracked read beat is fenced: its region's policy is POISON or HOLD and its tract is FAULTED (R93). -/
def State.fences (s : State) (t : TractRef) : Bool :=
  decide ((s.region t.region).policy ≠ .report) && decide ((s.record t).state = .faulted)

/-- A hold begun on a verdict beat (R96, R97), with the HOLD cause set. -/
def State.beginHold (s : State) (v : Verdict) (data : Lanes) : State :=
  State.setCause
    { s with passage := { s.passage with
        hold := some
          { ref := v.ref, beatAddr := v.beatAddr, data := data, stored := v.stored, computed := v.computed,
            stamp := s.timebase.tickCounter,
            ticksRemaining := if s.params.holdTimeout = 0 then none else some s.params.holdTimeout } } } .hold

/-- The passage's decision on a tracked read beat (R47, R91, R93), the beat put into the buffer: by policy for a verdict
beat, ERROR where fencing applies, else memory's response. -/
def State.decideRead (s : State) (p : Place) (v : Option Verdict) (data : Lanes) (resp : Resp) : State :=
  match v with
  | some v =>
    match (s.region p.ref.region).policy with
    | .report => s.pushBuffer ⟨some resp, some data⟩
    | .poison => s.pushBuffer ⟨some .error, some data⟩
    | .hold => (s.beginHold v data).pushBuffer ⟨none, some data⟩
  | none => s.pushBuffer ⟨some (if s.fences p.ref then .error else resp), some data⟩

/-- A read beat handled whole at its arrival (R47): placed, handled by the pool, decided, buffered. -/
def State.arriveRead (s : State) (a : Word) (data : Lanes) (resp : Resp) : State :=
  match s.place a with
  | none => s.pushBuffer ⟨some resp, some data⟩
  | some p => (s.poolRead p a data resp).1.decideRead p (s.poolRead p a data resp).2 data resp

/-- READ_BEAT_ARRIVAL (R47, R59, R60): in CARRYING handled whole; in DRAINING taken and discarded unplaced. -/
def execReadBeatArrival (data : Lanes) (resp : Resp) (s : State) : Host.Outcome State Fault Refusal :=
  let s := s.settle
  match s.passage.state with
  | .carrying t =>
    if t.dir = .read ∧ t.arrived < t.beats then
      let s := s.arriveRead (t.beatAddr t.arrived) data resp
      let s := s.setPassage (.carrying { t with arrived := t.arrived + 1 })
      .next (s.freeLinkWhen (t.arrived + 1 = t.beats)).look.conclude
    else .next s
  | .draining t =>
    if t.dir = .read ∧ t.arrived < t.beats then
      if t.arrived + 1 = t.beats then .next (s.setPassage .idle).freeLink.conclude
      else .next (s.setPassage (.draining { t with arrived := t.arrived + 1 }))
    else .next s
  | _ => .next s

/-! ## Delivery upward -/

/-- RESPONSE_DELIVERY (R47, R48): the response offered, the oldest buffered one unless it is held, delivered to the host; with the burst's
last response the transaction ends. -/
def execResponseDelivery (s : State) : Host.Outcome State Fault Refusal :=
  let s := s.settle
  match s.passage.state, s.offered with
  | .carrying t, some h =>
    let rest := s.passage.buffer.tail
    let s := { s with
      passage := { s.passage with buffer := rest }
      pins := { s.pins with hostLink := some h } }
    if t.arrived = t.beats ∧ rest = [] then .next (s.setPassage .idle)
    else .next (s.setPassage (.carrying { t with delivered := t.delivered + 1 }))
  | _, _ => .next s

/-! ## The reader's bursts -/

/-- READER_GRANT (R50, R51, R120): what is owed is carried out, the arbiter's grant to the reader with it (log 5). -/
def execReaderGrant (s : State) : Host.Outcome State Fault Refusal :=
  let s := s.settleEffects
  match s.arbiter.granting, s.reader.job with
  | some .reader, some j => if j.phase = .claiming then .next (s.grantReader j) else .next s.settleGrant
  | _, _ => .next s.settleGrant

/-- The job after beat k of its burst (R121): folded, recorded as the burst's first ERROR, or taken and not folded; a beat of
an abandoned job is discarded (R38). -/
def Job.takeBeat (j : Job) (r : Region) (k : Nat) (data : Lanes) (resp : Resp) : Job :=
  if j.abandoned then j
  else
    match j.errorOffset with
    | some _ => j
    | none =>
      match resp with
      | .okay => { j with rem := crcBeat r.width r.poly j.rem data }
      | .error => { j with errorOffset := some (j.nextOffset + 4 * k) }

/-- One more beat of the reader burst has arrived. -/
def State.countBurstBeat (s : State) : State :=
  { s with reader := { s.reader with burstBeats := s.reader.burstBeats + 1 } }

/-- READER_BEAT (R121, R126): the next beat of the reader burst on the link. -/
def execReaderBeat (data : Lanes) (resp : Resp) (s : State) : Host.Outcome State Fault Refusal :=
  let s := s.settle
  if s.reader.burstBeats < Config.readerBurstBeats then
    match s.arbiter.link with
    | .reader =>
      match s.reader.job with
      | some j => .next (s.setJob (j.takeBeat (s.region j.ref.region) s.reader.burstBeats data resp)).countBurstBeat
      | none => .next s.countBurstBeat
    | .detached => .next s.countBurstBeat
    | _ => .next s
  else .next s

/-- READER_BURST_END (R122, R123, R126 to R129): what follows from the sixteenth beat; no effect where none is owed. -/
def execReaderBurstEnd (s : State) : Host.Outcome State Fault Refusal := .next s.settleBurst

end Sys2Proof.Machine
end

