-- ==== Sys2Proof/WellFormed.lean ====
section
/-! DEFINITION. Which operands spell a happening that exists. Every command's operands do, but for the three that carry the
bytes of a request frame (log 9). -/

namespace Sys2Proof

open Machine

/-- The bytes of a bad-CRC frame (R170, R173): as many argument bytes as the code takes, and a CRC byte that differs from the
CRC-8 of the code and arguments. -/
def wfBadCrc (code : Byte) (args : List Byte) (crc : Byte) : Bool :=
  decide (args.length = argsTaken code) && decide (crc ≠ crc8 (code :: args))

/-- The code of a BAD-OP frame names no command (R174). -/
def wfBadOp (code : Byte) : Bool := (commandArgs code).isNone

/-- The complete bytes of an aborted frame (R175): at least the code byte, and the CRC byte not among them. -/
def wfFrameAbort (bytes : List Byte) : Bool :=
  match bytes with
  | [] => false
  | code :: rest => decide (rest.length ≤ argsTaken code)

/-- The command's operands spell a happening that exists. -/
def Instr.wellFormed : Instr → Bool
  | .badCrc code args crc => wfBadCrc code args crc
  | .badOp code => wfBadOp code
  | .frameAbort bytes _ => wfFrameAbort bytes
  | .powerOn _ _ | .hrst _ | .hostRequest _ _ _ | .passageGrant | .writeBeatForwarded _ _ | .writeResponse _ | .paddingBeat
  | .readBeatArrival _ _ | .responseDelivery | .readerGrant | .readerBeat _ _ | .readerBurstEnd | .tick | .underflow
  | .holdTimeout | .preparationEnd | .getStatus | .getParams | .setParams _ _ _ _ _ | .getRegion _
  | .setRegion _ _ _ _ _ _ _ _ | .enableRegion _ | .disableRegion _ | .getTract _ _ | .forgetTract _ _ | .repairTract _ _
  | .getContext _ | .peekFault | .popFault | .getHold | .releaseHold _ | .clearAlert _ | .restart | .responseCutShort
  | .fallOfMcs | .responseSent | .riseOfMcs => true

end Sys2Proof
end

