-- ==== Sys2Proof/Machine/Port.lean ====
section
/-! DEFINITION. The management port: requests and their answers (R172, R177), frame errors (R173 to R176), and the rise and
fall of MCS (R168, R169, R179). -/

namespace Sys2Proof.Machine

/-! ## Answers -/

/-- The bytes of a response: status, results, CRC-8 over both (R177). -/
def responseBytes (st : Status) (results : List Byte) : List Byte :=
  st.byte :: results ++ [crc8 (st.byte :: results)]

/-- A frame with `args` argument bytes has its CRC byte complete and is answered: RESPONSE, its bytes settled (R172, R181). -/
def State.answer (s : State) (args : Nat) (st : Status) (results : List Byte) : State :=
  { s with port := { s.port with frame := .response (responseBytes st results) 0, bitCount := 8 * (args + 2) } }

/-- What a command's execution settles (R172): the state after its effect, its status and its result bytes. -/
structure Reply where
  state : State
  status : Status
  results : List Byte
  deriving DecidableEq, Repr

/-- A refusal by status: nothing changes and no results are sent (R178, R180). -/
def Reply.refuse (s : State) (st : Status) : Reply := ⟨s, st, []⟩

/-- OK with no result bytes. -/
def Reply.done (s : State) : Reply := ⟨s, .ok, []⟩

/-- A management command: executed whole when its frame is in REQUEST at the completion of its CRC byte (R172, R181). In any
other state of the port the bits are ignored (R167, R169; log 6, log 9). -/
def State.request (s : State) (args : Nat) (act : State → Reply) : State :=
  let s := s.settle
  if s.port.frame = .request then (act s).state.answer args (act s).status (act s).results else s

/-! ## Frame errors -/

/-- A frame error: the count rises, staying at 255, and LINK is set (R173, R175, R176). -/
def State.frameError (s : State) : State :=
  State.setCause { s with port := { s.port with frameErrors := saturate8 s.port.frameErrors } } .link

/-- BAD_CRC (R173): nothing executed, a frame error, the answer BAD-CRC. -/
def execBadCrc (code : Byte) (args : List Byte) (crc : Byte) (s : State) : Host.Outcome State Fault Refusal :=
  if wfBadCrc code args crc then
    .next (s.request args.length fun s => ⟨s.frameError.conclude, .badCrc, []⟩)
  else .refused .illFormed

/-- BAD_OP (R174): nothing executed, no frame error, the answer BAD-OP. -/
def execBadOp (code : Byte) (s : State) : Host.Outcome State Fault Refusal :=
  if wfBadOp code then .next (s.request 0 fun s => .refuse s .badOp) else .refused .illFormed

/-- The frame state replaced. -/
def State.setFrame (s : State) (f : Frame) : State := { s with port := { s.port with frame := f } }

/-- FRAME_ABORT (R175): MCS rises in REQUEST after a complete byte and before the CRC byte's last bit: a frame error, no
response, DESELECTED. -/
def execFrameAbort (bytes : List Byte) (bits : BitVec 3) (s : State) : Host.Outcome State Fault Refusal :=
  if wfFrameAbort bytes then
    let s := s.settle
    if s.port.frame = .request then
      let s := { s with port := { s.port with frame := .deselected, bitCount := 8 * bytes.length + bits.toNat } }
      .next s.frameError.conclude
    else .next s
  else .refused .illFormed

/-! ## The edges of a selection -/

/-- RESPONSE_CUT_SHORT (R169, R179): MCS rises in RESPONSE, and the bits not yet sent are lost. If edges of MCK have by then left
the frame SPENT, the rise of MCS still makes the port DESELECTED (R169). -/
def execResponseCutShort (s : State) : Host.Outcome State Fault Refusal :=
  let s := s.settle
  match s.port.frame with
  | .response _ _ => .next (s.setFrame .deselected)
  | .spent => .next (s.setFrame .deselected)
  | .deselected => .next s
  | .request => .next s

/-- FALL_OF_MCS (R168, R169): a selection begins, its bit count at zero. -/
def execFallOfMcs (s : State) : Host.Outcome State Fault Refusal :=
  let s := s.settle
  if s.port.frame = .deselected then .next { s with port := { s.port with frame := .request, bitCount := 0 } } else .next s

/-- A falling edge of MCK in RESPONSE presents the next bit on MDO (R177); the falling edge after the last bit, which has by
then been presented, leaves the frame SPENT (R169, R179; log 10). In any other frame it changes nothing. -/
def Frame.mckFall : Frame → Frame
  | .response bytes sent => if sent < (wireBits bytes).length then .response bytes (sent + 1) else .spent
  | .deselected => .deselected
  | .request => .request
  | .spent => .spent

/-- The level of MDO (R167, R169, R177): in RESPONSE the bit last presented; high before the first one and in every other
frame. -/
def Frame.mdo : Frame → Bool
  | .response bytes (k + 1) => (wireBits bytes).getD k true
  | .response _ 0 => true
  | .deselected => true
  | .request => true
  | .spent => true

/-- The MDO pin (R167, R198). -/
def State.mdo (s : State) : Bool := s.port.frame.mdo

/-- So many falling edges of MCK, one after the other. -/
def Frame.mckFalls (f : Frame) : Nat → Frame
  | 0 => f
  | n + 1 => Frame.mckFalls f.mckFall n

/-- The edges of MCK that come in a REFCLK period with no command waiting (R167, R177; log 10): in RESPONSE as many falling edges
as the controller gives, a free value; in any other frame an edge changes nothing. -/
def State.mckEdges (s : State) : State :=
  match s.port.frame with
  | .response _ _ =>
    { s.setFrame (s.port.frame.mckFalls (Config.mckFalls s.freeCount)) with freeCount := s.freeCount + 1 }
  | .deselected => s
  | .request => s
  | .spent => s

/-- RESPONSE_SENT (R169, R179): the falling edges of MCK that are left come, the last bit is presented, and the frame is
SPENT. -/
def execResponseSent (s : State) : Host.Outcome State Fault Refusal :=
  let s := s.settle
  match s.port.frame with
  | .response _ _ => .next (s.setFrame .spent)
  | _ => .next s

/-- RISE_OF_MCS (R168, R169): the selection ends with no frame error; DESELECTED is entered at each rise. -/
def execRiseOfMcs (s : State) : Host.Outcome State Fault Refusal :=
  let s := s.settle
  .next (s.setFrame .deselected)

end Sys2Proof.Machine
end

