-- ==== Sys2Proof/Machine/Readout.lean ====
section
/-! DEFINITION. The commands that read or set the part as a whole: GET_STATUS, GET_PARAMS, SET_PARAMS, GET_CONTEXT, the fault
log's PEEK_FAULT and POP_FAULT, GET_HOLD, RELEASE_HOLD and CLEAR_ALERT. -/

namespace Sys2Proof.Machine

/-- GET_STATUS (R183). -/
def execGetStatus (s : State) : Host.Outcome State Fault Refusal :=
  .next (s.request 0 fun s => ⟨s, .ok, s.statusBlock⟩)

/-- GET_PARAMS (R184). -/
def execGetParams (s : State) : Host.Outcome State Fault Refusal :=
  .next (s.request 0 fun s => ⟨s, .ok, s.params.report⟩)

/-- The checks and effect of SET-PARAMS (R185): patience checked, then all five parameters replaced together. -/
def State.setParams (s : State) (divider latch holdTimeout : BitVec 16) (patience mask : Byte) : Reply :=
  if patience.toNat = 0 ∨ 15 < patience.toNat then .refuse s .badArg
  else .done (State.conclude { s with params := ⟨divider, latch, holdTimeout, patience.extractLsb' 0 4, mask⟩ })

/-- SET_PARAMS (R185, R186). -/
def execSetParams (divider latch holdTimeout : BitVec 16) (patience mask : Byte) (s : State) :
    Host.Outcome State Fault Refusal :=
  .next (s.request 8 fun s => s.setParams divider latch holdTimeout patience mask)

/-- GET_CONTEXT (R187). -/
def execGetContext (slot : Byte) (s : State) : Host.Outcome State Fault Refusal :=
  .next (s.request 1 fun s =>
    match smallNumber slot with
    | none => .refuse s .badArg
    | some i => ⟨s, .ok, s.pool.report i⟩)

/-- PEEK_FAULT (R156). -/
def execPeekFault (s : State) : Host.Outcome State Fault Refusal :=
  .next (s.request 0 fun s =>
    match s.log.records with
    | [] => .refuse s .empty
    | f :: _ => ⟨s, .ok, f.report⟩)

/-- POP_FAULT (R157). -/
def execPopFault (s : State) : Host.Outcome State Fault Refusal :=
  .next (s.request 0 fun s =>
    match s.log.records with
    | [] => .refuse s .empty
    | f :: rest => ⟨{ s with log := { s.log with records := rest } }, .ok, f.report⟩)

/-- GET_HOLD (R97, R188). -/
def execGetHold (s : State) : Host.Outcome State Fault Refusal :=
  .next (s.request 0 fun s =>
    match s.passage.hold with
    | none => .refuse s .noHold
    | some h => ⟨s, .ok, h.report⟩)

/-- RELEASE_HOLD (R102): the argument checked before the hold is looked for. -/
def execReleaseHold (response : Byte) (s : State) : Host.Outcome State Fault Refusal :=
  .next (s.request 1 fun s =>
    match respOf response with
    | none => .refuse s .badArg
    | some r =>
      match s.passage.hold with
      | none => .refuse s .noHold
      | some _ => .done (s.releaseHeld r))

/-- The named causes cleared, and the counts that go with DROP, SLIP and LINK zeroed when theirs is named (R161, R162). -/
def State.clearCauses (s : State) (mask : Byte) : State :=
  { s with
    alert := { s.alert with causes := s.alert.causes &&& ~~~mask }
    log := if Cause.drop.isIn mask then { s.log with dropped := 0 } else s.log
    scrubber := if Cause.slip.isIn mask then { s.scrubber with slipCount := 0 } else s.scrubber
    port := if Cause.link.isIn mask then { s.port with frameErrors := 0 } else s.port }

/-- CLEAR_ALERT (R161): the result is the causes as they stand after the clearing. -/
def execClearAlert (mask : Byte) (s : State) : Host.Outcome State Fault Refusal :=
  .next (s.request 1 fun s => ⟨(s.clearCauses mask).conclude, .ok, [(s.clearCauses mask).alert.causes]⟩)

end Sys2Proof.Machine
end

