-- ==== Sys2Proof/Machine/Regions.lean ====
section
/-! DEFINITION. The region commands: GET_REGION, SET_REGION, ENABLE_REGION, DISABLE_REGION (Chapter 2). -/

namespace Sys2Proof.Machine

/-- GET_REGION (R27). -/
def execGetRegion (region : Byte) (s : State) : Host.Outcome State Fault Refusal :=
  .next (s.request 1 fun s =>
    match smallNumber region with
    | none => .refuse s .badArg
    | some n => ⟨s, .ok, (s.region n).report⟩)

/-- The descriptor of a SET-REGION whose fields pass the four steps of R25, in a DISABLED region; none where a step refuses
it. Step 1 has forced the size code. -/
def checkedRegion (base : Word) (sizeCode : Byte) (count entryBase : BitVec 16) (width : Byte) (poly : Word) (policy : Byte) :
    Option Region :=
  let code := forcedCode sizeCode
  if base.toNat % tractSizeOf code ≠ 0 then none
  else
    match widthOf width, policyOf policy with
    | some w, some pol =>
      if polyOk w poly = false then none
      else if count.toNat = 0 ∨ 4096 < count.toNat ∨ 4096 < entryBase.toNat + count.toNat ∨
          2 ^ 32 < base.toNat + tractSizeOf code * count.toNat then none
      else some ⟨base, code, count, entryBase, w, poly, pol, .disabled⟩
    | _, _ => none

/-- The checks and effect of SET-REGION (R24 to R26). -/
def State.changeRegion (s : State) (region : Byte) (base : Word) (sizeCode : Byte) (count entryBase : BitVec 16)
    (width : Byte) (poly : Word) (policy : Byte) : Reply :=
  match smallNumber region with
  | none => .refuse s .badArg
  | some n =>
    if s.port.longOp ≠ .idle then .refuse s .busy
    else if (s.region n).state ≠ .disabled then .refuse s .state
    else
      match checkedRegion base sizeCode count entryBase width poly policy with
      | none => .refuse s .badArg
      | some r => ⟨s.setRegion n r, if codeForced sizeCode then .adjusted else .ok, []⟩

/-- SET_REGION (R24 to R26). -/
def execSetRegion (region : Byte) (base : Word) (sizeCode : Byte) (count entryBase : BitVec 16) (width : Byte) (poly : Word)
    (policy : Byte) (s : State) : Host.Outcome State Fault Refusal :=
  .next (s.request 16 fun s => s.changeRegion region base sizeCode count entryBase width poly policy)

/-- Some other region that is not DISABLED overlaps region n in span or entry range (R31). -/
def State.overlapsOther (s : State) (n : Fin 8) : Bool :=
  regionNumbers.any fun m =>
    decide (m ≠ n) && decide ((s.region m).state ≠ .disabled) && (s.region n).overlaps (s.region m)

/-- The long-operation state changed (R29). -/
def State.setLongOp (s : State) (l : LongOp) : State := { s with port := { s.port with longOp := l } }

/-- The checks and effect of ENABLE-REGION (R30 to R32). The records are initialised by the preparation end (log 13). -/
def State.enable (s : State) (region : Byte) : Reply :=
  match smallNumber region with
  | none => .refuse s .badArg
  | some n =>
    if s.port.longOp ≠ .idle then .refuse s .busy
    else if (s.region n).state ≠ .disabled then .refuse s .state
    else if (s.region n).count = 0 then .refuse s .badArg
    else if s.overlapsOther n then .refuse s .overlap
    else .done ((s.setRegionState n .preparing).setLongOp (.enabling n))

/-- ENABLE_REGION (R30 to R32). -/
def execEnableRegion (region : Byte) (s : State) : Host.Outcome State Fault Refusal :=
  .next (s.request 1 fun s => s.enable region)

/-- The held tract lies in region n (R36). -/
def State.holdsRegion (s : State) (n : Fin 8) : Bool :=
  match s.passage.hold with
  | some h => decide (h.ref.region = n)
  | none => false

/-- What an accepted DISABLE-REGION removes in every case (R37, R112, R147): contexts, queue entries, the cursor's place. The
region is no longer ENABLED when it is taken. -/
def State.withdrawRegion (s : State) (n : Fin 8) : State :=
  State.moveCursorOff
    { s with
      pool := s.pool.freeWhere fun t => decide (t.region = n)
      queue := s.queue.filter fun t => decide (t.region ≠ n) } n

/-- The effect of an accepted DISABLE-REGION (R37, R38, R125). -/
def State.disableAccepted (s : State) (n : Fin 8) : State :=
  match s.reader.job with
  | some j =>
    if j.ref.region = n then
      match j.phase with
      | .reading =>
        (((s.setRegionState n .retiring).withdrawRegion n).setJob { j with abandoned := true }).setLongOp (.disabling n)
          |>.conclude
      | .claiming =>
        (((s.setRegionState n .disabled).withdrawRegion n).endJob.clearPassedOver.setCause .ready).look.conclude
    else (((s.setRegionState n .disabled).withdrawRegion n).setCause .ready).conclude
  | none => (((s.setRegionState n .disabled).withdrawRegion n).setCause .ready).conclude

/-- The checks and effect of DISABLE-REGION (R36 to R38). -/
def State.disable (s : State) (region : Byte) : Reply :=
  match smallNumber region with
  | none => .refuse s .badArg
  | some n =>
    if s.port.longOp ≠ .idle then .refuse s .busy
    else if (s.region n).state ≠ .enabled then .refuse s .state
    else if s.holdsRegion n then .refuse s .held
    else .done (s.disableAccepted n)

/-- DISABLE_REGION (R36 to R38). -/
def execDisableRegion (region : Byte) (s : State) : Host.Outcome State Fault Refusal :=
  .next (s.request 1 fun s => s.disable region)

end Sys2Proof.Machine
end

