-- ==== Sys2Proof/Machine/Resets.lean ====
section
/-! DEFINITION. POWER_ON (R62) and RESTART (R189). -/

namespace Sys2Proof.Machine

/-- POWER_ON (R9, R22, R52, R62, R67, R108, R114, R131, R137, R148, R158, R165, R192): every block at its power-on state. The
port is DESELECTED if MCS is high at the release and SPENT if it is low (R192). The commands still waiting in the queue stay. -/
def execPowerOn (mcsHigh hrstHigh : Bool) (s : State) : Host.Outcome State Fault Refusal :=
  .next
    { State.reset with
      pending := s.pending
      pins := ⟨hrstHigh, none, none⟩
      port := { State.reset.port with frame := if mcsHigh then .deselected else .spent }
      freeCount := s.freeCount }

/-- A preparation cut short by RESTART (R9, R35): of its entry range some records are initialised and some not; which is a
free value (log 12). -/
def State.cutPreparation (s : State) : State :=
  match s.port.longOp with
  | .enabling n =>
    { s with
      store := CheckStore.initialise s.store fun k =>
        (s.region n).inEntryRange k && Config.preparationReached s.freeCount k
      freeCount := s.freeCount + 1 }
  | _ => s

/-- A reader burst on the link becomes a detached burst (R126). -/
def LinkUser.detach : LinkUser → LinkUser
  | .reader => .detached
  | .free => .free
  | .passage => .passage
  | .detached => .detached

/-- RESTART acting on the passage (R61, R105): a hold ended with ERROR for the held beat, nothing else. -/
def State.restartPassage (s : State) : State :=
  match s.passage.hold with
  | some _ => s.releaseHeld .error
  | none => s

/-- The effect of RESTART (R189), block by block; descriptors and parameters are kept, the check store is not written but for
what a cut preparation had reached. -/
def State.restart (s : State) : State :=
  let s := s.cutPreparation.disableAll.restartPassage
  State.conclude
    { s with
      arbiter := { s.arbiter with link := s.arbiter.link.detach, passedOver := 0 }
      pool := Pool.empty
      queue := []
      reader := { s.reader with job := none, lastSource := .scrub }
      timebase := ⟨0, s.params.divider, 0⟩
      scrubber := ⟨0, false, false, none, 0, 0⟩
      log := ⟨[], 0, 0⟩
      alert := { s.alert with causes := Cause.ready.mask }
      port := { s.port with longOp := .idle, frameErrors := 0 } }

/-- RESTART (R189 to R191): answered OK in the same selection (R190). -/
def execRestart (s : State) : Host.Outcome State Fault Refusal :=
  .next (s.request 0 fun s => .done s.restart)

end Sys2Proof.Machine
end

