-- ==== Sys2Proof/Machine/Timebase.lean ====
section
/-! DEFINITION. The timebase's happenings: TICK, UNDERFLOW and HOLD_TIMEOUT, the passing of a REFCLK period (R133, R134), and
PREPARATION_END (R33). -/

namespace Sys2Proof.Machine

/-- The number of REFCLK periods a divider field stands for: 0000h is 65536 (R195). -/
def dividerPeriods (d : BitVec 16) : Nat := if d = 0 then 65536 else d.toNat

/-- The timebase at a tick: the tick counter rises (R135), the REFCLK count starts again and the next interval runs on the
divider as last written (R133, R134). -/
def State.advanceTimebase (s : State) : State :=
  { s with timebase :=
      { refclkCount := 0, intervalDivider := s.params.divider, tickCounter := s.timebase.tickCounter + 1 } }

/-- The pacing counter at a tick (R138): it falls by one above 0, and at 0 the tick is an underflow. -/
def State.advancePacing (s : State) : State :=
  if s.scrubber.pacing = 0 then { s with scrubber := { s.scrubber with underflowOwed := true } }
  else { s with scrubber := { s.scrubber with pacing := s.scrubber.pacing - 1 } }

/-- The hold record after a tick: its counter, if it has one, lowered by one (R101). -/
def HoldRecord.tick (h : HoldRecord) : HoldRecord := { h with ticksRemaining := h.ticksRemaining.map fun k => k - 1 }

/-- The hold counter at a tick (R101, R103). -/
def State.advanceHold (s : State) : State :=
  { s with passage := { s.passage with hold := s.passage.hold.map HoldRecord.tick } }

/-- What TICK itself does; the underflow and the timeout of the same tick are then owed (R136). -/
def State.tick (s : State) : State := s.advanceTimebase.advancePacing.advanceHold

/-- TICK (R133 to R138, R101). -/
def execTick (s : State) : Host.Outcome State Fault Refusal := .next s.settle.tick

/-- UNDERFLOW (R138): the underflow of the tick just taken; no effect where none is owed. -/
def execUnderflow (s : State) : Host.Outcome State Fault Refusal := .next s.settleUnderflow

/-- HOLD_TIMEOUT (R103): the timeout of the tick just taken; no effect where none is owed. -/
def execHoldTimeout (s : State) : Host.Outcome State Fault Refusal := .next s.settleTimeout

/-- One REFCLK period with no command waiting (R133, R134; log 2): the count toward the next tick rises, and when it reaches
the divider of the interval the tick is taken whole. -/
def State.refclkPeriod (s : State) : State :=
  let s := s.settle
  if s.timebase.refclkCount + 1 < dividerPeriods s.timebase.intervalDivider then
    { s with timebase := { s.timebase with refclkCount := s.timebase.refclkCount + 1 } }
  else s.tick.settle

/-- A preparation's end (R33): the entry range initialised (R9, R32), the region ENABLED, the long operation ended, a parked
cursor moved to its tract 0 (R146). -/
def State.endPreparation (s : State) (n : Fin 8) : State :=
  let r := s.region n
  let s := { s with store := CheckStore.initialise s.store fun k => r.inEntryRange k }
  let s := (s.setRegionState n .enabled).endLongOp
  match s.scrubber.cursor with
  | none => (s.setCursor (some n)).conclude
  | some _ => s.conclude

/-- PREPARATION_END (R33): no effect where no preparation is in flight (R35). -/
def execPreparationEnd (s : State) : Host.Outcome State Fault Refusal :=
  let s := s.settle
  match s.port.longOp with
  | .enabling n => .next (s.endPreparation n)
  | _ => .next s

end Sys2Proof.Machine
end

