-- ==== Sys2Proof/Machine/Tracts.lean ====
section
/-! DEFINITION. The tract commands: GET_TRACT, FORGET_TRACT, REPAIR_TRACT (section 1.4). -/

namespace Sys2Proof.Machine

/-- The checks of R15 in their order: the tract named, or the status that refuses the command. -/
def State.checkTract (s : State) (region : Byte) (tract : BitVec 16) : Except Status TractRef :=
  match smallNumber region with
  | none => .error .badArg
  | some n =>
    if (s.region n).state ≠ .enabled then .error .state
    else if tract.toNat < (s.region n).count.toNat then .ok ⟨n, tract.toNat⟩
    else .error .badArg

/-- The tract is the held tract (R17, R19). -/
def State.holdsTract (s : State) (t : TractRef) : Bool :=
  match s.passage.hold with
  | some h => decide (h.ref = t)
  | none => false

/-- GET_TRACT (R15, R16). -/
def execGetTract (region : Byte) (tract : BitVec 16) (s : State) : Host.Outcome State Fault Refusal :=
  .next (s.request 3 fun s =>
    match s.checkTract region tract with
    | .error st => .refuse s st
    | .ok t => ⟨s, .ok, s.tractReport t⟩)

/-- Any context on a tract freed, with no break outcome and no verdict (R18). -/
def State.freeTract (s : State) (t : TractRef) : State :=
  { s with pool := s.pool.freeWhere fun q => decide (q = t) }

/-- The effect of an accepted FORGET-TRACT (R17, R18): contexts freed, a reader job on the tract overtaken, UNKNOWN. -/
def State.forget (s : State) (t : TractRef) : State :=
  ((s.freeTract t).overtakeWhere fun q => decide (q = t)).setTractState t .unknown

/-- FORGET_TRACT (R15, R17, R18). -/
def execForgetTract (region : Byte) (tract : BitVec 16) (s : State) : Host.Outcome State Fault Refusal :=
  .next (s.request 3 fun s =>
    match s.checkTract region tract with
    | .error st => .refuse s st
    | .ok t => if s.holdsTract t then .refuse s .held else .done (s.forget t))

/-- The effect of an accepted REPAIR-TRACT (R20): STALE, a VERIFY context freed, an entry appended if the flag was clear, for
which an IDLE reader looks (R116). -/
def State.repair (s : State) (t : TractRef) : State :=
  let u := (s.freeVerify t).setTractState t .stale
  if (s.record t).queued then u else (u.append t).look.conclude

/-- REPAIR_TRACT (R15, R19, R20). -/
def execRepairTract (region : Byte) (tract : BitVec 16) (s : State) : Host.Outcome State Fault Refusal :=
  .next (s.request 3 fun s =>
    match s.checkTract region tract with
    | .error st => .refuse s st
    | .ok t =>
      if s.holdsTract t then .refuse s .held
      else if (s.record t).state ≠ .faulted then .refuse s .state
      else if (s.record t).queued = false ∧ Config.queueDepth ≤ s.queue.length then .refuse s .full
      else .done (s.repair t))

end Sys2Proof.Machine
end

