-- ==== Sys2Proof/Machine/Dispatch.lean ====
section
/-! DEFINITION. The meaning of every command: one arm per constructor of Instr. -/

namespace Sys2Proof.Machine

def exec (i : Instr) (s : State) : Host.Outcome State Fault Refusal :=
  match i with
  | .powerOn mcsHigh hrstHigh => Sys2Proof.Machine.execPowerOn mcsHigh hrstHigh s
  | .hrst level => Sys2Proof.Machine.execHrst level s
  | .hostRequest addr countLessOne dir => Sys2Proof.Machine.execHostRequest addr countLessOne dir s
  | .passageGrant => Sys2Proof.Machine.execPassageGrant s
  | .writeBeatForwarded data mask => Sys2Proof.Machine.execWriteBeatForwarded data mask s
  | .writeResponse resp => Sys2Proof.Machine.execWriteResponse resp s
  | .paddingBeat => Sys2Proof.Machine.execPaddingBeat s
  | .readBeatArrival data resp => Sys2Proof.Machine.execReadBeatArrival data resp s
  | .responseDelivery => Sys2Proof.Machine.execResponseDelivery s
  | .readerGrant => Sys2Proof.Machine.execReaderGrant s
  | .readerBeat data resp => Sys2Proof.Machine.execReaderBeat data resp s
  | .readerBurstEnd => Sys2Proof.Machine.execReaderBurstEnd s
  | .tick => Sys2Proof.Machine.execTick s
  | .underflow => Sys2Proof.Machine.execUnderflow s
  | .holdTimeout => Sys2Proof.Machine.execHoldTimeout s
  | .preparationEnd => Sys2Proof.Machine.execPreparationEnd s
  | .getStatus => Sys2Proof.Machine.execGetStatus s
  | .getParams => Sys2Proof.Machine.execGetParams s
  | .setParams divider latch timeout patience mask => Sys2Proof.Machine.execSetParams divider latch timeout patience mask s
  | .getRegion region => Sys2Proof.Machine.execGetRegion region s
  | .setRegion region base code count entry width poly policy => Sys2Proof.Machine.execSetRegion region base code count entry width poly policy s
  | .enableRegion region => Sys2Proof.Machine.execEnableRegion region s
  | .disableRegion region => Sys2Proof.Machine.execDisableRegion region s
  | .getTract region tract => Sys2Proof.Machine.execGetTract region tract s
  | .forgetTract region tract => Sys2Proof.Machine.execForgetTract region tract s
  | .repairTract region tract => Sys2Proof.Machine.execRepairTract region tract s
  | .getContext slot => Sys2Proof.Machine.execGetContext slot s
  | .peekFault => Sys2Proof.Machine.execPeekFault s
  | .popFault => Sys2Proof.Machine.execPopFault s
  | .getHold => Sys2Proof.Machine.execGetHold s
  | .releaseHold response => Sys2Proof.Machine.execReleaseHold response s
  | .clearAlert mask => Sys2Proof.Machine.execClearAlert mask s
  | .restart => Sys2Proof.Machine.execRestart s
  | .badCrc code args crc => Sys2Proof.Machine.execBadCrc code args crc s
  | .badOp code => Sys2Proof.Machine.execBadOp code s
  | .frameAbort bytes bits => Sys2Proof.Machine.execFrameAbort bytes bits s
  | .responseCutShort => Sys2Proof.Machine.execResponseCutShort s
  | .fallOfMcs => Sys2Proof.Machine.execFallOfMcs s
  | .responseSent => Sys2Proof.Machine.execResponseSent s
  | .riseOfMcs => Sys2Proof.Machine.execRiseOfMcs s

end Sys2Proof.Machine
end

