-- ==== Sys2Proof/Safety.lean ====
section
/-! DEFINITION. What claims about the part are stated with: a state with nothing owed, a request that will be executed, and the
laws that every state of the part keeps. -/

namespace Sys2Proof.Machine

/-! ## Between happenings -/

/-- No burst end, underflow or hold timeout is owed by the happening before (log 3, log 4): nothing but a grant can be. -/
def State.grantNext (s : State) : Bool := !s.burstEndOwed && !s.scrubber.underflowOwed && !s.timeoutOwed

/-- Nothing is owed by the happening before (log 3, log 4, log 5): the state stands between two happenings. -/
def State.settled (s : State) : Bool := s.grantNext && !s.grantOwed

/-- The state stands between two happenings and the port is in REQUEST, so that a request whose CRC byte completes next is
executed (R172). -/
def State.listening (s : State) : Bool := s.settled && decide (s.port.frame = .request)

/-- An IDLE reader has no source waiting, which R116 gives after every happening. -/
def State.searched (s : State) : Bool := s.reader.job.isSome || (s.queue.isEmpty && !s.scrubber.stepPending)

/-! ## The laws -/

/-- The tract is a tract of an ENABLED region: its record is reachable (R5, R28). -/
def State.tracked (s : State) (t : TractRef) : Prop :=
  (s.region t.region).state = .enabled ∧ t.tract < (s.region t.region).count.toNat

/-- The check store is in its canonical form. -/
def State.storeCanonical (s : State) : Prop := CheckStore.wf s.store = true

/-- Each record's sequence number is one more than that of the record before it, and the counter one more than the last
record's (R152). -/
def numberedUpTo : List FaultRecord → Word → Prop
  | [], _ => True
  | [r], c => c = r.seq + 1
  | r :: q :: rest, c => q.seq = r.seq + 1 ∧ numberedUpTo (q :: rest) c

/-- The log holds at most 16 records, numbered in order (R152). -/
def State.logInOrder (s : State) : Prop :=
  s.log.records.length ≤ Config.logDepth ∧ numberedUpTo s.log.records s.log.seqCounter

/-- ALERT is low exactly when the causes and the mask have a position in common (R164, R166). -/
def State.alertAgrees (s : State) : Prop := s.alert.low = alertLevel s.alert.causes s.params.mask

/-- The recency order holds exactly the slots in use, each once (R64). -/
def State.poolInStep (s : State) : Prop :=
  s.pool.recency.Nodup ∧ ∀ i : Fin 8, i ∈ s.pool.recency ↔ (s.pool.slot i).isSome = true

/-- No two regions that are not DISABLED overlap in span or entry range (R31). -/
def State.regionsDisjoint (s : State) : Prop :=
  ∀ n m : Fin 8, n ≠ m → (s.region n).state ≠ .disabled → (s.region m).state ≠ .disabled →
    (s.region n).overlaps (s.region m) = false

/-- The long-operation state is ENABLING n exactly while region n is PREPARING and DISABLING n exactly while it is RETIRING
(R29); an abandoned job is one of the region being retired (R125). -/
def State.longOpAgrees (s : State) : Prop :=
  (∀ n : Fin 8, ((s.region n).state = .preparing ↔ s.port.longOp = .enabling n) ∧
      ((s.region n).state = .retiring ↔ s.port.longOp = .disabling n)) ∧
    ∀ j, s.reader.job = some j → j.abandoned = true → s.port.longOp = .disabling j.ref.region

/-- A descriptor that SET-REGION can have accepted (R21, R25). -/
def Region.accepted (r : Region) : Prop :=
  r.sizeCode.toNat ≤ 4 ∧ r.base.toNat % r.size = 0 ∧ 1 ≤ r.count.toNat ∧ r.count.toNat ≤ 4096 ∧
    r.entryBase.toNat + r.count.toNat ≤ 4096 ∧ r.base.toNat + r.span ≤ 2 ^ 32 ∧ polyOk r.width r.poly = true

/-- A region never set keeps the power-on descriptor, whose count is 0; every other descriptor is one SET-REGION accepted, and
a region that is not DISABLED has a count above 0 (R21, R28, R30). -/
def State.descriptorsSound (s : State) : Prop :=
  ∀ n : Fin 8, (s.region n).accepted ∨ s.region n = Region.reset

/-- The queue holds at most 32 entries, no tract twice, tracts of ENABLED regions only, and a tract of an ENABLED region has
its flag set exactly while it has an entry (R109). -/
def State.queueInStep (s : State) : Prop :=
  s.queue.length ≤ Config.queueDepth ∧ s.queue.Nodup ∧ (∀ t ∈ s.queue, s.tracked t) ∧
    ∀ t, s.tracked t → ((s.record t).queued = true ↔ t ∈ s.queue)

/-- Every context refers to a tract of an ENABLED region, no two to one tract (R65), and a tract of an ENABLED region is OPEN
exactly while an ASSEMBLE context refers to it (R66). -/
def State.contextsInStep (s : State) : Prop :=
  (∀ i c, s.pool.slot i = some c → s.tracked c.ref) ∧
    (∀ i k c d, s.pool.slot i = some c → s.pool.slot k = some d → c.ref = d.ref → i = k) ∧
    ∀ t, s.tracked t →
      ((s.record t).state = .opened ↔ ∃ i c o, s.pool.slot i = some c ∧ c.ref = t ∧ c.kind = .assemble o)

/-- A job that is not abandoned is on a tract of an ENABLED region, and no job began on an OPEN or FAULTED tract (R115). -/
def State.jobSound (s : State) : Prop :=
  ∀ j, s.reader.job = some j →
    (j.abandoned = true ∨ s.tracked j.ref) ∧ j.startState ≠ .opened ∧ j.startState ≠ .faulted

/-- The cursor is parked or names a tract of an ENABLED region (R143). -/
def State.cursorSound (s : State) : Prop := ∀ t, s.scrubber.cursor = some t → s.tracked t

/-- The counts of the transaction and the length of the beat buffer agree (R43 to R48, R58 to R60): nothing is buffered or
counted before the grant; in CARRYING the buffer holds what has arrived and is not yet delivered; in DRAINING nothing is
buffered and the burst is not yet ended on the memory link. -/
def State.passageSound (s : State) : Prop :=
  match s.passage.state with
  | .idle => s.passage.buffer = []
  | .claiming t =>
    s.passage.buffer = [] ∧ 1 ≤ t.beats ∧ t.beats ≤ 16 ∧ t.forwarded = 0 ∧ t.padded = 0 ∧ t.arrived = 0 ∧ t.delivered = 0
  | .carrying t =>
    t.delivered + s.passage.buffer.length = t.arrived ∧ t.arrived ≤ t.beats ∧ t.beats ≤ 16 ∧
      (t.dir = .write → t.arrived ≤ t.forwarded ∧ t.forwarded ≤ t.beats ∧ t.padded = 0)
  | .draining t =>
    s.passage.buffer = [] ∧ t.arrived < t.beats ∧ t.beats ≤ 16 ∧
      (t.dir = .write → t.arrived ≤ t.forwarded + t.padded ∧ t.forwarded + t.padded ≤ t.beats)

/-- The passage's burst is on the memory link: granted, and its last response not yet arrived (R49). -/
def State.passageBurst (s : State) : Prop :=
  match s.passage.state with
  | .carrying t => t.arrived < t.beats
  | .draining _ => True
  | .idle | .claiming _ => False

/-- The memory link is the passage's exactly while the passage's burst is on it, and the reader's exactly while its job is in
phase READING (R49, R115); a grant stands only while the link is free, and while the link is free and a claimant waits one
does, of a claimant that waits (R50). -/
def State.linkSound (s : State) : Prop :=
  (s.arbiter.link = .passage ↔ s.passageBurst) ∧
    (s.arbiter.link = .reader ↔ ∃ j, s.reader.job = some j ∧ j.phase = .reading) ∧
    (s.arbiter.granting ≠ none → s.arbiter.link = .free) ∧
    (s.arbiter.link = .free → ∀ c, s.claims c = true → ∃ d, s.arbiter.granting = some d ∧ s.claims d = true)

/-- The laws of the regions, the check store, the queue, the pool, the reader and the cursor together. -/
def State.coherent (s : State) : Prop :=
  s.storeCanonical ∧ s.poolInStep ∧ s.regionsDisjoint ∧ s.longOpAgrees ∧ s.descriptorsSound ∧ s.queueInStep ∧
    s.contextsInStep ∧ s.jobSound ∧ s.cursorSound

end Sys2Proof.Machine
end

