-- ==== Sys2Proof/Certificates/Slice0/Obligations.lean ====
section
/-! DEFINITION. The statements for the provers, block by block. A state `settled` stands between two happenings (log 3, log 4, log
5); `listening`, its port is in REQUEST besides; `grantNext`, nothing is owed but at most the arbiter's grant. `State.conclude` is the end of a happening (statement ArbiterGrantsAndAlertFollows),
`State.look` the reader's search for work (statements ReaderTakesSourcesInTurn, QueueTake,
ScrubTakeAndCursorAdvance), `State.answer` the response a frame gets. -/

open Sys2Proof Sys2Proof.Machine

/-! ## The queue of commands and the whole machine -/

/-- A step takes the command at the front of the queue and runs it on the state with the queue's rest. -/
def Obligations.StepRunsFrontCommand : Prop :=
  ∀ (c : Instr) (rest : List Instr) (s : State), s.pending = c :: rest → step s = exec c { s with pending := rest }

/-- With no command waiting, a step is one REFCLK period (log 2): the count toward the next tick rises, and at the divider of
the running interval (R133, R134; 0000h is 65536, R195) the tick comes, with the counter up by one, the count started again and
the next interval on the divider as last written. The tick is the one TICK takes, with what it owes carried out. In RESPONSE
the period has as many falling edges of MCK as the controller gives, a free value that may be 0 (R167; log 10): each presents one
more bit of the response, with none the frame stays as it is, and the edge after the last bit leaves it SPENT (R177, R179). In any
other frame the edges change nothing. -/
def Obligations.IdleStepPassesOneRefclkPeriod : Prop :=
  ∀ s : State, s.pending = [] → s.settled = true →
    ∃ (frame : Frame) (freeCount : Nat),
      (∀ bytes sent, s.port.frame = .response bytes sent →
        let falls := Config.mckFalls s.freeCount
        freeCount = s.freeCount + 1 ∧
          frame = if falls = 0 ∨ sent + falls ≤ 8 * bytes.length then .response bytes (sent + falls) else .spent) ∧
      ((∀ bytes sent, s.port.frame ≠ .response bytes sent) → frame = s.port.frame ∧ freeCount = s.freeCount) ∧
      (s.timebase.refclkCount + 1 < dividerPeriods s.timebase.intervalDivider →
        step s = .next
          { s with
            timebase := { s.timebase with refclkCount := s.timebase.refclkCount + 1 }
            port := { s.port with frame := frame }
            freeCount := freeCount }) ∧
      (dividerPeriods s.timebase.intervalDivider ≤ s.timebase.refclkCount + 1 →
        ∃ t, step s = .next t ∧ t = { s.tick.settle with port := { s.port with frame := frame }, freeCount := freeCount } ∧ t.pending = [] ∧
          t.timebase = ⟨0, s.params.divider, s.timebase.tickCounter + 1⟩)

/-- Every command whose operands spell a happening that exists completes in every state and leaves the commands behind it in the
queue as they were; the others, BAD_CRC, BAD_OP and FRAME_ABORT with operands of no such frame (log 9), are refused by name. -/
def Obligations.WellFormedCommandsComplete : Prop :=
  ∀ (c : Instr) (s : State),
    (c.wellFormed = true → ∃ t, exec c s = .next t ∧ t.pending = s.pending) ∧
    (c.wellFormed = false → exec c s = .refused .illFormed)

/-- What the happening before still owes comes first (log 3, log 4, log 5): a command acts as it does once the owed burst end,
underflow, hold timeout and grant have been carried out, and READER_BURST_END, UNDERFLOW, HOLD_TIMEOUT and then a grant command
in turn carry them out. So nothing comes between a claim at a free link and its grant, and once the grant is carried out no
claimant waits at a free link (R50). Apart: the three commands that carry out one effect each, and POWER_ON, which loses
them. -/
def Obligations.OwedEffectsComeFirst : Prop :=
  ∀ (c : Instr) (s : State),
    c ≠ .underflow → c ≠ .holdTimeout → c ≠ .readerBurstEnd → (∀ m h, c ≠ .powerOn m h) →
    exec c s = exec c s.settle ∧
    ∀ a b d e : State,
      exec .readerBurstEnd s = .next a → exec .underflow a = .next b → exec .holdTimeout b = .next d →
      (exec .passageGrant d = .next e ∨ exec .readerGrant d = .next e) →
      exec c s = exec c d ∧ exec c s = exec c e ∧
        (s.linkSound → e.arbiter.link = .free → e.passageClaims = false ∧ e.readerClaims = false)

/-! ## Frames and check values -/

/-- The request frame of every management command, of every bad-CRC frame and of every frame with an unknown code is read by
the port as that command, whatever further bytes and bits are clocked before MCS rises (R170 to R174, R179, R193 to R195); and
every aborted frame is read as an aborted frame (R175), a selection with no complete byte as no frame (R168). -/
def Obligations.RequestFramesReadBack : Prop :=
  (∀ (i : Instr) (frame extra : List Byte) (bits : BitVec 3),
    i.wellFormed = true → requestFrame i = some frame → portReads (frame ++ extra) bits = some i) ∧
  (∀ (bytes : List Byte) (bits : BitVec 3),
    wfFrameAbort bytes = true → portReads bytes bits = some (.frameAbort bytes bits)) ∧
  ∀ bits : BitVec 3, portReads [] bits = none

/-- The CRC-8 of R171 tells apart any two byte strings that differ in exactly one byte, and a frame followed by its own CRC
byte leaves remainder 0. -/
def Obligations.Crc8CatchesOneChangedByte : Prop :=
  (∀ (front back : List Byte) (a b : Byte), crc8 (front ++ a :: back) = crc8 (front ++ b :: back) → a = b) ∧
  ∀ bs : List Byte, crc8 (bs ++ [crc8 bs]) = 0

/-- The check function of R1, with an odd polynomial as SET-REGION requires, tells apart any two contents of a tract that
differ in exactly one byte; at width 16 a check value lies in the low 16 bits (R3). -/
def Obligations.CheckValueCatchesOneChangedByte : Prop :=
  (∀ (w : CheckWidth) (poly : Word) (front back : List Byte) (a b : Byte), polyOk w poly = true →
    checkValue w poly (front ++ a :: back) = checkValue w poly (front ++ b :: back) → a = b) ∧
  ∀ (poly : Word) (bs : List Byte), (checkValue .w16 poly bs).toNat < 65536

/-! ## Tracts and placing -/

/-- The beat classifier's answer (R5, R23, R54, R55): where no two regions that are not DISABLED overlap, a beat is tracked
exactly when it lies in the span of an ENABLED region; its tract index is (a − base) / size with the fraction dropped, its
offset what remains, and the tract has a record. -/
def Obligations.PlaceFindsTheTract : Prop :=
  ∀ (s : State) (a : Word), s.regionsDisjoint →
    (∀ p : Place, s.place a = some p ↔
      (s.region p.ref.region).state = .enabled ∧ (s.region p.ref.region).base.toNat ≤ a.toNat ∧
        a.toNat < (s.region p.ref.region).base.toNat + (s.region p.ref.region).span ∧
        p.ref.tract = (a.toNat - (s.region p.ref.region).base.toNat) / (s.region p.ref.region).size ∧
        p.offset = (a.toNat - (s.region p.ref.region).base.toNat) % (s.region p.ref.region).size) ∧
    ∀ p : Place, s.place a = some p →
      s.tracked p.ref ∧ p.offset < (s.region p.ref.region).size ∧
        (s.region p.ref.region).base.toNat + p.ref.tract * (s.region p.ref.region).size + p.offset = a.toNat

/-- Each tract of an ENABLED region has one record of its own (R5, R6, R15): writing the record of one leaves the record of
every other tract of an ENABLED region as it was. -/
def Obligations.OneTractOneRecord : Prop :=
  ∀ (s : State) (t u : TractRef) (r : TractRecord), s.regionsDisjoint → s.tracked t → s.tracked u →
    (s.setRecord t r).record u = if u = t then r else s.record u

/-! ## Host link and memory link -/

/-- HRST by the passage's state (R57 to R60, R104, R198): nothing in IDLE and DRAINING, the claim withdrawn in CLAIMING; in
CARRYING the buffer and any hold discarded, the burst cut and drained if it has not ended on the memory link. Its fall changes
the level alone (log 7). -/
def Obligations.HrstCutsTheTransaction : Prop :=
  ∀ s : State, s.settled = true →
    exec (.hrst false) s = .next { s with pins := { s.pins with hrst := false } } ∧
    (s.passage.state = .idle → exec (.hrst true) s = .next (State.conclude { s with pins := { s.pins with hrst := true } })) ∧
    (∀ t, s.passage.state = .claiming t →
      exec (.hrst true) s = .next (State.conclude
        { s with pins := { s.pins with hrst := true }, passage := { s.passage with state := .idle } })) ∧
    (∀ t, s.passage.state = .carrying t → t.arrived < t.beats →
      exec (.hrst true) s = .next (State.conclude
        { s with pins := { s.pins with hrst := true }, passage := ⟨.draining { t with cut := true }, [], none⟩ })) ∧
    (∀ t, s.passage.state = .carrying t → t.beats ≤ t.arrived →
      exec (.hrst true) s = .next (State.conclude
        { s with pins := { s.pins with hrst := true }, passage := ⟨.idle, [], none⟩ })) ∧
    ∀ t, s.passage.state = .draining t →
      exec (.hrst true) s = .next (State.conclude { s with pins := { s.pins with hrst := true } })

/-- A request is taken in IDLE while HRST is low, whatever its address and direction, its two low address bits ignored and its
beat count one more than the link carries (R41, R44). In any other state, or with HRST high, it is left on the host link: that
the part's state then stays as it is, and the sender sends the request again, is the model's choice (log 8). -/
def Obligations.HostRequestIsTakenInIdle : Prop :=
  ∀ (s : State) (addr : Word) (countLessOne : BitVec 4) (dir : Dir), s.settled = true →
    (s.passage.state = .idle → s.pins.hrst = false →
      exec (.hostRequest addr countLessOne dir) s = .next (State.conclude
        { s with passage := { s.passage with
            state := .claiming
              { dir := dir, addr := addr &&& 0xFFFFFFFC#32, beats := countLessOne.toNat + 1, forwarded := 0, padded := 0,
                arrived := 0, delivered := 0, cut := false } } })) ∧
    (s.passage.state ≠ .idle ∨ s.pins.hrst = true → exec (.hostRequest addr countLessOne dir) s = .next s)

/-- The end of a happening changes the grant and the ALERT output only. No grant while the link is busy. With the link free and
no grant standing of a claimant that still waits, be it because none was made or because its claimant has withdrawn (R52, R57;
log 5), one claimant that waits is granted; of both, the passage, unless the passed-over count has reached reader patience (R50,
R51); with none waiting, none. A grant standing of a claimant that still waits is kept. ALERT is low exactly when some cause is both set and enabled (R164). -/
def Obligations.ArbiterGrantsAndAlertFollows : Prop :=
  ∀ s : State,
    (∃ g, s.conclude = { s with arbiter := { s.arbiter with granting := g }
                                alert := { s.alert with low := s.conclude.alert.low } }) ∧
    (s.conclude.alert.low = true ↔ ∃ i, i < 8 ∧ s.alert.causes.getLsbD i = true ∧ s.params.mask.getLsbD i = true) ∧
    (s.arbiter.link ≠ .free → s.conclude.arbiter.granting = none) ∧
    (s.arbiter.link = .free → (∀ c, s.arbiter.granting = some c → s.claims c = false) →
      (s.passageClaims = false → s.readerClaims = false → s.conclude.arbiter.granting = none) ∧
      (s.passageClaims = true → s.readerClaims = false → s.conclude.arbiter.granting = some .passage) ∧
      (s.passageClaims = false → s.readerClaims = true → s.conclude.arbiter.granting = some .reader) ∧
      (s.passageClaims = true → s.readerClaims = true →
        s.conclude.arbiter.granting =
          if s.arbiter.passedOver.toNat < s.params.patience.toNat then some .passage else some .reader)) ∧
    ∀ c, s.arbiter.link = .free → s.arbiter.granting = some c → s.claims c = true → s.conclude.arbiter.granting = some c

/-- The grant to the passage (R45, R51, R53, R124): CARRYING, the recorded request issued, the link taken, the passed-over count
up by one if the reader waits (never above 15), and a started job on a tract in which a beat of a WRITE burst falls marked
overtaken. -/
def Obligations.PassageGrantStartsTheBurst : Prop :=
  ∀ (s : State) (t : Transaction), s.grantNext = true → s.arbiter.granting = some .passage → s.passage.state = .claiming t →
    ∃ job,
      exec .passageGrant s = .next (State.conclude
        { s with
          arbiter := { s.arbiter with
            link := .passage
            passedOver :=
              if s.readerClaims = true ∧ s.arbiter.passedOver ≠ 15 then s.arbiter.passedOver + 1 else s.arbiter.passedOver }
          passage := { s.passage with state := .carrying t }
          pins := { s.pins with memoryLink := some (.request t.addr t.beats t.dir) }
          reader := { s.reader with job := job } }) ∧
      (s.reader.job = none → job = none) ∧
      ∀ j, s.reader.job = some j →
        ((t.dir = .write ∧ ∃ k p, k < t.beats ∧ s.place (beatAddr t.addr k) = some p ∧ p.ref = j.ref) →
          job = some { j with overtaken := true }) ∧
        (¬(t.dir = .write ∧ ∃ k p, k < t.beats ∧ s.place (beatAddr t.addr k) = some p ∧ p.ref = j.ref) → job = some j)

/-- WRITE_BEAT_FORWARDED (R46, R54, R55): the next beat of a WRITE burst goes out at its own address with data and mask
unchanged, and a tracked beat is handed to the pool in the same happening. -/
def Obligations.WriteBeatIsForwardedAndPlaced : Prop :=
  ∀ (s : State) (t : Transaction) (data : Lanes) (mask : BitVec 4),
    s.settled = true → s.passage.state = .carrying t → t.dir = .write → t.forwarded < t.beats →
    let u : State :=
      { s with
        passage := { s.passage with state := .carrying { t with forwarded := t.forwarded + 1 } }
        pins := { s.pins with memoryLink := some (.writeBeat (beatAddr t.addr t.forwarded) data mask) } }
    (s.place (beatAddr t.addr t.forwarded) = none →
      exec (.writeBeatForwarded data mask) s = .next (State.look u).conclude) ∧
    ∀ p, s.place (beatAddr t.addr t.forwarded) = some p →
      exec (.writeBeatForwarded data mask) s = .next (State.look (u.poolWrite p mask data)).conclude

/-- WRITE_RESPONSE in CARRYING (R46, R49): the response to the oldest beat without one is handed to the pool if its beat's
address is tracked, put into the buffer unchanged, and the last one frees the link. -/
def Obligations.WriteResponseIsBuffered : Prop :=
  ∀ (s : State) (t : Transaction) (resp : Resp),
    s.settled = true → s.passage.state = .carrying t → t.dir = .write → t.arrived < t.forwarded →
    ∃ v : State,
      (s.place (beatAddr t.addr t.arrived) = none → v = s) ∧
      (∀ p, s.place (beatAddr t.addr t.arrived) = some p → v = s.poolWriteResponse p resp) ∧
      exec (.writeResponse resp) s = .next (State.conclude (State.look
        { v with
          passage := { s.passage with
            state := .carrying { t with arrived := t.arrived + 1 }
            buffer := s.passage.buffer ++ [⟨some resp, none⟩] }
          arbiter := { s.arbiter with link := if t.arrived + 1 = t.beats then .free else s.arbiter.link } }))

/-- A burst cut by HRST is finished on the memory link (R58 to R60): the beats not forwarded go out as padding, not placed;
responses to forwarded beats still reach the pool, other responses and all read beats are discarded; the last arrival frees the
link and makes the passage IDLE. The count of padding beats is the model's (log 14). -/
def Obligations.DrainingFinishesTheBurst : Prop :=
  ∀ (s : State) (t : Transaction), s.settled = true → s.passage.state = .draining t →
    (t.dir = .write → t.forwarded + t.padded < t.beats →
      exec .paddingBeat s = .next
        { s with
          passage := { s.passage with state := .draining { t with padded := t.padded + 1 } }
          pins := { s.pins with
            memoryLink := some (.writeBeat (beatAddr t.addr (t.forwarded + t.padded)) ⟨0, 0, 0, 0⟩ 0) } }) ∧
    (t.dir = .write → t.arrived < t.forwarded + t.padded → ∀ resp,
      ∃ v : State,
        (t.forwarded ≤ t.arrived ∨ s.place (beatAddr t.addr t.arrived) = none → v = s) ∧
        (∀ p, t.arrived < t.forwarded → s.place (beatAddr t.addr t.arrived) = some p → v = s.poolWriteResponse p resp) ∧
        exec (.writeResponse resp) s = .next (State.conclude (State.look
          { v with
            passage := { s.passage with
              state := if t.arrived + 1 = t.beats then .idle else .draining { t with arrived := t.arrived + 1 } }
            arbiter := { s.arbiter with link := if t.arrived + 1 = t.beats then .free else s.arbiter.link } }))) ∧
    (t.dir = .read → t.arrived + 1 < t.beats → ∀ data resp,
      exec (.readBeatArrival data resp) s = .next
        { s with passage := { s.passage with state := .draining { t with arrived := t.arrived + 1 } } }) ∧
    (t.dir = .read → t.arrived + 1 = t.beats → ∀ data resp,
      exec (.readBeatArrival data resp) s = .next (State.conclude
        { s with passage := { s.passage with state := .idle }, arbiter := { s.arbiter with link := .free } }))

/-- READ_BEAT_ARRIVAL in CARRYING (R47, R49): an untracked beat enters the buffer with memory's response; a tracked one is
handled by the pool and then decided by the passage; the last beat frees the link. -/
def Obligations.ReadBeatIsHandledWhole : Prop :=
  ∀ (s : State) (t : Transaction) (data : Lanes) (resp : Resp),
    s.settled = true → s.passage.state = .carrying t → t.dir = .read → t.arrived < t.beats →
    ∃ v : State,
      (s.place (beatAddr t.addr t.arrived) = none →
        v = { s with passage := { s.passage with buffer := s.passage.buffer ++ [⟨some resp, some data⟩] } }) ∧
      (∀ p, s.place (beatAddr t.addr t.arrived) = some p →
        v = (s.poolRead p (beatAddr t.addr t.arrived) data resp).1.decideRead p
          (s.poolRead p (beatAddr t.addr t.arrived) data resp).2 data resp) ∧
      exec (.readBeatArrival data resp) s = .next (State.conclude (State.look
        { v with
          passage := { v.passage with state := .carrying { t with arrived := t.arrived + 1 } }
          arbiter := { v.arbiter with link := if t.arrived + 1 = t.beats then .free else v.arbiter.link } }))

/-- The decision on a tracked read beat (R91, R93, R96, R97): without a verdict, ERROR in a FAULTED tract of a POISON or HOLD
region and memory's response otherwise; with one, by policy: OKAY as memory gave it, ERROR, or withheld with the hold record
filled, its counter loaded from the hold timeout (none for 0) and HOLD set. -/
def Obligations.ReadBeatIsDecidedByPolicyAndFencing : Prop :=
  ∀ (s : State) (p : Place) (data : Lanes) (resp : Resp),
    s.decideRead p none data resp =
      { s with passage := { s.passage with
          buffer := s.passage.buffer ++
            [⟨some (if (s.region p.ref.region).policy ≠ .report ∧ (s.record p.ref).state = .faulted then .error else resp),
              some data⟩] } } ∧
    ∀ v : Verdict,
      ((s.region p.ref.region).policy = .report →
        s.decideRead p (some v) data resp =
          { s with passage := { s.passage with buffer := s.passage.buffer ++ [⟨some resp, some data⟩] } }) ∧
      ((s.region p.ref.region).policy = .poison →
        s.decideRead p (some v) data resp =
          { s with passage := { s.passage with buffer := s.passage.buffer ++ [⟨some .error, some data⟩] } }) ∧
      ((s.region p.ref.region).policy = .hold →
        s.decideRead p (some v) data resp =
          { s with
            passage := { s.passage with
              buffer := s.passage.buffer ++ [⟨none, some data⟩]
              hold := some
                { ref := v.ref, beatAddr := v.beatAddr, data := data, stored := v.stored, computed := v.computed,
                  stamp := s.timebase.tickCounter,
                  ticksRemaining := if s.params.holdTimeout = 0 then none else some s.params.holdTimeout } }
            alert := { s.alert with causes := s.alert.causes ||| 0x04#8 } })

/-- RESPONSE_DELIVERY (R47, R48): the oldest buffered response goes to the host with its data; the transaction ends with the
burst's last one; a held beat at the head is withheld, and what is behind it waits (log 6: a delivery then
changes nothing). -/
def Obligations.ResponsesAreDeliveredInOrder : Prop :=
  ∀ (s : State) (t : Transaction) (e : BufferEntry) (rest : List BufferEntry),
    s.settled = true → s.passage.state = .carrying t → s.passage.buffer = e :: rest →
    (∀ r, e.resp = some r →
      exec .responseDelivery s = .next
        { s with
          passage := { s.passage with
            state :=
              if t.arrived = t.beats ∧ rest = [] then .idle else .carrying { t with delivered := t.delivered + 1 }
            buffer := rest }
          pins := { s.pins with hostLink := some ⟨r, e.data⟩ } }) ∧
    (e.resp = none → exec .responseDelivery s = .next s)

/-! ## Stream contexts and the refresh queue -/

/-- The pool's slots and their order (R63 to R65, R70, R74, R86): a context put into a slot is the most recent and no other slot
changes; a freed one leaves the order; a new context takes the lowest free slot; the context found on a tract is the one that
refers to it; freeing a VERIFY context changes its slot alone; an evicted ASSEMBLE context is a break, an evicted VERIFY context
a freeing. -/
def Obligations.ContextSlotsAndRecency : Prop :=
  (∀ (p : Pool) (i k : Fin 8) (c : Context),
    (p.put i c).slot k = (if k = i then some c else p.slot k) ∧ (p.free i).slot k = (if k = i then none else p.slot k)) ∧
  (∀ (p : Pool) (i : Fin 8) (c : Context),
    (p.put i c).recency = i :: p.recency.filter (fun k => decide (k ≠ i)) ∧
      (p.free i).recency = p.recency.filter (fun k => decide (k ≠ i))) ∧
  (∀ (p : Pool) (i : Fin 8),
    (p.lowestFree = some i ↔ p.slot i = none ∧ ∀ k, k < i → p.slot k ≠ none) ∧
      (p.lowestFree = none ↔ ∀ k, p.slot k ≠ none)) ∧
  (∀ (p : Pool) (t : TractRef),
    (∀ i k c d, p.slot i = some c → p.slot k = some d → c.ref = d.ref → i = k) →
    (∀ i c, p.find t = some (i, c) ↔ p.slot i = some c ∧ c.ref = t) ∧
      (p.find t = none ↔ ∀ i c, p.slot i = some c → c.ref ≠ t)) ∧
  (∀ (s : State) (t : TractRef),
    (∀ i c, s.pool.find t = some (i, c) → c.kind = .verify → s.freeVerify t = { s with pool := s.pool.free i }) ∧
      ((∀ i c, s.pool.find t = some (i, c) → c.kind ≠ .verify) → s.freeVerify t = s)) ∧
  ∀ (s : State) (i : Fin 8) (c : Context), s.pool.slot i = some c →
    (c.kind = .verify → s.evict i = { s with pool := s.pool.free i }) ∧
      ∀ o, c.kind = .assemble o → s.evict i = s.breakAssembly i c.ref o

/-- An opening write beat (R69 to R71, R86): on a tract that is not OPEN a VERIFY context is freed, a slot taken (the lowest
free one, or the least recent one after its eviction), an ASSEMBLE context opened with the tract's state as its origin, and the
tract made OPEN; on an OPEN tract the assembly is restarted in place with its origin. -/
def Obligations.OpeningWriteOpensOrRestartsAnAssembly : Prop :=
  ∀ (s : State) (p : Place) (d : Lanes), p.offset = 0 →
    let r := s.region p.ref.region
    let first := crcBeat r.width r.poly (crcInit r.width) d
    let v := s.freeVerify p.ref
    (∀ o : Origin,
      ((s.record p.ref).state, o) ∈
          [(TractState.unknown, Origin.unknown), (.current, .current), (.stale, .stale), (.faulted, .faulted)] →
      (∀ i, v.pool.lowestFree = some i →
        s.poolWrite p 0xF d =
          State.setTractState { v with pool := v.pool.put i ⟨.assemble o, p.ref, 4, first⟩ } p.ref .opened) ∧
      (v.pool.lowestFree = none → ∀ i, v.pool.recency.getLast? = some i →
        s.poolWrite p 0xF d =
          State.setTractState { v.evict i with pool := (v.evict i).pool.put i ⟨.assemble o, p.ref, 4, first⟩ } p.ref
            .opened)) ∧
    ((s.record p.ref).state = .opened → ∀ i c, s.pool.find p.ref = some (i, c) →
      s.poolWrite p 0xF d = { s with pool := s.pool.put i { c with next := 4, rem := first } })

/-- A write beat on an OPEN tract that is not an opening one (R69, R72, R73, R75): at the next offset with a full lane mask it
advances the assembly, or at the tract's last beat closes it, learning the value; any other breaks it. A break frees the context
and returns the tract by its origin (R13, R75) with its check value and queued flag as they were, offered to the refresh queue
when the origin was CURRENT or STALE. -/
def Obligations.AssemblyAdvancesClosesOrBreaks : Prop :=
  (∀ (s : State) (p : Place) (mask : BitVec 4) (d : Lanes) (i : Fin 8) (c : Context) (o : Origin),
    (s.record p.ref).state = .opened → s.pool.find p.ref = some (i, c) → c.kind = .assemble o →
    let r := s.region p.ref.region
    let folded := crcBeat r.width r.poly c.rem d
    (p.offset = c.next → p.offset ≠ 0 → p.offset + 4 < r.size →
      s.poolWrite p 0xF d = { s with pool := s.pool.put i { c with next := c.next + 4, rem := folded } }) ∧
    (p.offset = c.next → p.offset ≠ 0 → p.offset + 4 = r.size →
      s.poolWrite p 0xF d =
        State.setRecord { s with pool := s.pool.free i } p.ref
          { s.record p.ref with state := .current, check := folded ^^^ crcOnes r.width }) ∧
    ((p.offset ≠ c.next ∨ mask ≠ 0xF#4) → ¬(p.offset = 0 ∧ mask = 0xF#4) →
      s.poolWrite p mask d = s.breakAssembly i p.ref o)) ∧
  ∀ (s : State) (i : Fin 8) (t : TractRef),
    let v : State := { s with pool := s.pool.free i }
    let back (st : TractState) : State := v.setRecord t { s.record t with state := st }
    s.breakAssembly i t .unknown = back .unknown ∧
    s.breakAssembly i t .current = (back .stale).offer t ∧
    s.breakAssembly i t .stale = (back .stale).offer t ∧
    s.breakAssembly i t .faulted = back .faulted

/-- A non-opening write beat on a tract that is not OPEN (R74): any VERIFY context freed; CURRENT becomes STALE and is offered,
STALE is offered again, UNKNOWN and FAULTED stay. Memory's response to a tracked write beat (R76, R77): OKAY has no effect on
the pool or any record; ERROR frees a VERIFY context, breaks an OPEN tract's assembly, makes a CURRENT tract STALE and offers it,
and leaves the others. -/
def Obligations.PiecemealWritesAndErrorsActByState : Prop :=
  (∀ (s : State) (p : Place) (mask : BitVec 4) (d : Lanes), ¬(p.offset = 0 ∧ mask = 0xF#4) →
    let v := s.freeVerify p.ref
    ((s.record p.ref).state = .current →
      s.poolWrite p mask d = (v.setRecord p.ref { s.record p.ref with state := .stale }).offer p.ref) ∧
    ((s.record p.ref).state = .stale → s.poolWrite p mask d = v.offer p.ref) ∧
    ((s.record p.ref).state = .unknown ∨ (s.record p.ref).state = .faulted → s.poolWrite p mask d = v)) ∧
  ∀ (s : State) (p : Place),
    s.poolWriteResponse p .okay = s ∧
    let v := s.freeVerify p.ref
    (∀ i c o, (s.record p.ref).state = .opened → s.pool.find p.ref = some (i, c) → c.kind = .assemble o →
      s.poolWriteResponse p .error = s.breakAssembly i p.ref o) ∧
    ((s.record p.ref).state = .current →
      s.poolWriteResponse p .error = (v.setRecord p.ref { s.record p.ref with state := .stale }).offer p.ref) ∧
    ((s.record p.ref).state ∈ [TractState.stale, .unknown, .faulted] → s.poolWriteResponse p .error = v)

/-- An offer to the refresh queue (R79, R110, R113): with the tract's flag set it changes nothing, even when the queue is full;
with the flag clear and fewer than 32 entries the tract is appended at the tail and its flag set; with the flag clear and 32
entries it is refused and QUEUE-FULL set. -/
def Obligations.OfferToTheRefreshQueue : Prop :=
  ∀ (s : State) (t : TractRef),
    ((s.record t).queued = true → s.offer t = s) ∧
    ((s.record t).queued = false → s.queue.length < 32 →
      s.offer t = State.setRecord { s with queue := s.queue ++ [t] } t { s.record t with queued := true }) ∧
    ((s.record t).queued = false → 32 ≤ s.queue.length →
      s.offer t = { s with alert := { s.alert with causes := s.alert.causes ||| 0x08#8 } })

/-- Host read beats short of a completion (R80 to R82, R84, R86): a beat answered ERROR, or of a tract that is not CURRENT,
frees a VERIFY context on the tract and does nothing else; at offset 0 a verify opens, or restarts in place; at its next offset
it advances; any other beat leaves the pool as it is. No verdict in any case. -/
def Obligations.VerifyOpensRestartsAdvances : Prop :=
  ∀ (s : State) (p : Place) (addr : Word) (d : Lanes),
    let r := s.region p.ref.region
    let first := crcBeat r.width r.poly (crcInit r.width) d
    (∀ resp, (s.record p.ref).state ≠ .current ∨ resp = .error → s.poolRead p addr d resp = (s.freeVerify p.ref, none)) ∧
    ((s.record p.ref).state = .current →
      (p.offset = 0 → s.pool.find p.ref = none →
        (∀ i, s.pool.lowestFree = some i →
          s.poolRead p addr d .okay = ({ s with pool := s.pool.put i ⟨.verify, p.ref, 4, first⟩ }, none)) ∧
        (s.pool.lowestFree = none → ∀ i, s.pool.recency.getLast? = some i →
          s.poolRead p addr d .okay =
            ({ s.evict i with pool := (s.evict i).pool.put i ⟨.verify, p.ref, 4, first⟩ }, none))) ∧
      (p.offset ≠ 0 → s.pool.find p.ref = none → s.poolRead p addr d .okay = (s, none)) ∧
      ∀ i c, s.pool.find p.ref = some (i, c) →
        (p.offset = 0 →
          s.poolRead p addr d .okay = ({ s with pool := s.pool.put i { c with next := 4, rem := first } }, none)) ∧
        (p.offset ≠ 0 → p.offset = c.next → p.offset + 4 < r.size →
          s.poolRead p addr d .okay =
            ({ s with pool := s.pool.put i { c with next := c.next + 4, rem := crcBeat r.width r.poly c.rem d } }, none)) ∧
        (p.offset ≠ 0 → p.offset ≠ c.next → s.poolRead p addr d .okay = (s, none)))

/-- The last beat of a host verify (R3, R83): the context freed; on a match nothing else; on a mismatch the tract FAULTED with
its check value kept, a READ-MISMATCH offered, and a verdict given. -/
def Obligations.VerifyCompletes : Prop :=
  ∀ (s : State) (p : Place) (addr : Word) (d : Lanes) (i : Fin 8) (c : Context),
    (s.record p.ref).state = .current → s.pool.find p.ref = some (i, c) → p.offset ≠ 0 → p.offset = c.next →
    p.offset + 4 = (s.region p.ref.region).size →
    let r := s.region p.ref.region
    let stored := (s.record p.ref).check
    let computed := crcBeat r.width r.poly c.rem d ^^^ crcOnes r.width
    let v : State := { s with pool := s.pool.free i }
    (computed = stored → s.poolRead p addr d .okay = (v, none)) ∧
    (computed ≠ stored →
      s.poolRead p addr d .okay =
        ((v.setRecord p.ref { s.record p.ref with state := .faulted }).offerFault
          { kind := .readMismatch, ref := p.ref, addr := r.base + BitVec.ofNat 32 (p.ref.tract * r.size),
            stored := some stored, computed := some computed, stamp := s.timebase.tickCounter, errorOffset := none },
         some { ref := p.ref, beatAddr := addr, stored := stored, computed := computed }))

/-- An offer to the fault log (R153, R154): below 16 records it is accepted at the tail under the counter's number, the counter
rises and FAULT is set; at 16 it is dropped, the dropped count rises, staying at 65535, and DROP is set. -/
def Obligations.FaultLogAcceptsOrDrops : Prop :=
  ∀ (s : State) (f : Finding),
    (s.log.records.length < 16 →
      s.offerFault f =
        { s with
          log := { s.log with records := s.log.records ++ [⟨s.log.seqCounter, f⟩], seqCounter := s.log.seqCounter + 1 }
          alert := { s.alert with causes := s.alert.causes ||| 0x01#8 } }) ∧
    (16 ≤ s.log.records.length →
      s.offerFault f =
        { s with
          log := { s.log with
            dropped := if s.log.dropped.toNat < 65535 then s.log.dropped + 1 else s.log.dropped }
          alert := { s.alert with causes := s.alert.causes ||| 0x02#8 } })

/-! ## The tract reader -/

/-- The grant to the reader (R50, R51, R120): READING, a READ burst of 16 beats issued at the tract address plus the next burst
offset, the passed-over count 0, the error offset cleared. -/
def Obligations.ReaderGrantIssuesTheBurst : Prop :=
  ∀ (s : State) (j : Job),
    s.grantNext = true → s.arbiter.granting = some .reader → s.reader.job = some j → j.phase = .claiming →
    exec .readerGrant s = .next (State.conclude
      { s with
        arbiter := { s.arbiter with link := .reader, passedOver := 0 }
        reader := { s.reader with job := some { j with phase := .reading, errorOffset := none }, burstBeats := 0 }
        pins := { s.pins with
          memoryLink := some (.request
            ((s.region j.ref.region).base + BitVec.ofNat 32 (j.ref.tract * (s.region j.ref.region).size) +
              BitVec.ofNat 32 j.nextOffset) 16 .read) } })

/-- A beat of a reader burst (R38, R121, R126): folded when OKAY and no earlier beat of the burst was answered ERROR; the first
ERROR recorded by its tract offset; taken and not folded after that, for an abandoned job, and for a detached burst. -/
def Obligations.ReaderBeatIsFoldedOrDiscarded : Prop :=
  ∀ (s : State) (data : Lanes) (resp : Resp), s.settled = true → s.reader.burstBeats < 16 →
    (s.arbiter.link = .detached →
      exec (.readerBeat data resp) s = .next { s with reader := { s.reader with burstBeats := s.reader.burstBeats + 1 } }) ∧
    ∀ j, s.arbiter.link = .reader → s.reader.job = some j →
      (j.abandoned = true ∨ j.errorOffset ≠ none →
        exec (.readerBeat data resp) s = .next { s with reader := { s.reader with burstBeats := s.reader.burstBeats + 1 } }) ∧
      (j.abandoned = false → j.errorOffset = none → resp = .okay →
        exec (.readerBeat data resp) s = .next
          { s with reader := { s.reader with
              burstBeats := s.reader.burstBeats + 1
              job := some { j with
                rem := crcBeat (s.region j.ref.region).width (s.region j.ref.region).poly j.rem data } } }) ∧
      (j.abandoned = false → j.errorOffset = none → resp = .error →
        exec (.readerBeat data resp) s = .next
          { s with reader := { s.reader with
              burstBeats := s.reader.burstBeats + 1
              job := some { j with errorOffset := some (j.nextOffset + 4 * s.reader.burstBeats) } } })

/-- The sixteenth beat's consequences (R38, R39, R49, R122, R123, R125, R126, R129): the link free; a detached burst ends with
nothing else; an abandoned job ends its region's retiring with READY; an ERROR ends the job with a READER-ERROR; more of the
tract makes the job claim again 64 bytes on; the last burst completes the job. -/
def Obligations.ReaderBurstEndsByJob : Prop :=
  ∀ s : State, s.reader.burstBeats = 16 →
    let f : State := { s with arbiter := { s.arbiter with link := .free }, reader := { s.reader with burstBeats := 0 } }
    (s.arbiter.link = .detached → exec .readerBurstEnd s = .next f.conclude) ∧
    ∀ j, s.arbiter.link = .reader → s.reader.job = some j →
      (j.abandoned = true →
        exec .readerBurstEnd s = .next (State.conclude (State.look
          { f with
            reader := { f.reader with job := none }
            regions := s.regions.set j.ref.region.val { s.region j.ref.region with state := .disabled } j.ref.region.isLt
            port := { s.port with longOp := .idle }
            alert := { s.alert with causes := s.alert.causes ||| 0x80#8 } }))) ∧
      (∀ off, j.abandoned = false → j.errorOffset = some off →
        exec .readerBurstEnd s = .next (State.conclude (State.look
          { f.offerFault
              { kind := .readerError, ref := j.ref,
                addr := (s.region j.ref.region).base + BitVec.ofNat 32 (j.ref.tract * (s.region j.ref.region).size),
                stored := none, computed := none, stamp := s.timebase.tickCounter, errorOffset := some off } with
            reader := { f.reader with job := none } }))) ∧
      (j.abandoned = false → j.errorOffset = none → j.nextOffset + 64 < (s.region j.ref.region).size →
        exec .readerBurstEnd s = .next (State.conclude
          { f with reader := { f.reader with
              job := some { j with nextOffset := j.nextOffset + 64, phase := .claiming } } })) ∧
      (j.abandoned = false → j.errorOffset = none → (s.region j.ref.region).size ≤ j.nextOffset + 64 →
        exec .readerBurstEnd s = .next (State.conclude (State.look
          { f.completeJob j with reader := { f.reader with job := none } })))

/-- The completion of a job (R127, R128): a REFRESH or ESTABLISH result is learned, making the tract CURRENT with its queued
flag kept, when the job was not overtaken and the tract is still in its start state; a VERIFY result that differs from the check
value of a CURRENT tract, the job not overtaken, makes it FAULTED and offers a SCRUB-MISMATCH; every other result is
discarded. -/
def Obligations.JobCompletionLearnsOrVerifies : Prop :=
  ∀ (s : State) (j : Job),
    let r := s.region j.ref.region
    let computed := j.rem ^^^ crcOnes r.width
    let tract := s.record j.ref
    (j.kind ≠ .verify →
      (j.overtaken = false → tract.state = j.startState →
        s.completeJob j = s.setRecord j.ref { tract with state := .current, check := computed }) ∧
      (j.overtaken = true ∨ tract.state ≠ j.startState → s.completeJob j = s)) ∧
    (j.kind = .verify →
      (j.overtaken = false → tract.state = .current → computed ≠ tract.check →
        s.completeJob j =
          (s.setRecord j.ref { tract with state := .faulted }).offerFault
            { kind := .scrubMismatch, ref := j.ref, addr := r.base + BitVec.ofNat 32 (j.ref.tract * r.size),
              stored := some tract.check, computed := some computed, stamp := s.timebase.tickCounter,
              errorOffset := none }) ∧
      (j.overtaken = true ∨ tract.state ≠ .current ∨ computed = tract.check → s.completeJob j = s))

/-- The reader's search (R116): a BUSY reader, or one with no source waiting, takes nothing; an IDLE one takes from the source
that waits, of both from the one that is not its last source, and looks again. -/
def Obligations.ReaderTakesSourcesInTurn : Prop :=
  ∀ s : State,
    (s.reader.job ≠ none → s.look = s) ∧
    (s.reader.job = none →
      (s.queue = [] → s.scrubber.stepPending = false → s.look = s) ∧
      (s.queue ≠ [] → s.scrubber.stepPending = false ∨ s.reader.lastSource = .scrub → s.look = s.takeFromQueue.look) ∧
      (s.scrubber.stepPending = true → s.queue = [] ∨ s.reader.lastSource = .queue → s.look = s.takeScrubStep.look))

/-- A take from the queue (R111, R116, R117, R119): the head entry removed, its tract's flag cleared whatever its state, the
last source QUEUE; a STALE tract starts a REFRESH job, which claims the link, and any other entry is discarded. -/
def Obligations.QueueTake : Prop :=
  ∀ (s : State) (t : TractRef) (rest : List TractRef), s.queue = t :: rest →
    let v : State := State.setRecord { s with queue := rest } t { s.record t with queued := false }
    ((s.record t).state ≠ .stale → s.takeFromQueue = { v with reader := { s.reader with lastSource := .queue } }) ∧
    ((s.record t).state = .stale →
      s.takeFromQueue =
        { v with reader := { s.reader with
            lastSource := .queue
            job := some
              { kind := .refresh, ref := t, nextOffset := 0, phase := .claiming,
                rem := crcOnes (s.region t.region).width, startState := .stale, overtaken := false, abandoned := false,
                errorOffset := none } } })

/-- A take of the scrub step (R116, R118, R119, R144, R145): the flag cleared, the last source SCRUB; a parked cursor stays;
otherwise the cursor advances and the tract it named starts a VERIFY job when CURRENT, an ESTABLISH job when UNKNOWN or when
STALE with its flag clear, and none otherwise. The advance (R143, R144) is to the next tract of the region; from a region's last
tract to tract 0 of the lowest-numbered ENABLED region above it, or, where there is none, of the lowest-numbered ENABLED region,
with the pass count up by one, wrapping, and PASS set. -/
def Obligations.ScrubTakeAndCursorAdvance : Prop :=
  (∀ s : State,
    let v : State :=
      { s with scrubber := { s.scrubber with stepPending := false }, reader := { s.reader with lastSource := .scrub } }
    (s.scrubber.cursor = none → s.takeScrubStep = v) ∧
    ∀ t, s.scrubber.cursor = some t →
      let started (k : JobKind) : State :=
        { v.advanceCursor t with reader := { s.reader with
            lastSource := .scrub
            job := some
              { kind := k, ref := t, nextOffset := 0, phase := .claiming, rem := crcOnes (s.region t.region).width,
                startState := (s.record t).state, overtaken := false, abandoned := false, errorOffset := none } } }
      ((s.record t).state = .current → s.takeScrubStep = started .verify) ∧
      ((s.record t).state = .unknown → s.takeScrubStep = started .establish) ∧
      ((s.record t).state = .stale → (s.record t).queued = false → s.takeScrubStep = started .establish) ∧
      ((s.record t).state = .stale ∧ (s.record t).queued = true ∨ (s.record t).state = .opened ∨
          (s.record t).state = .faulted →
        s.takeScrubStep = v.advanceCursor t)) ∧
  ∀ (s : State) (t : TractRef),
    (t.tract + 1 < (s.region t.region).count.toNat →
      s.advanceCursor t = { s with scrubber := { s.scrubber with cursor := some ⟨t.region, t.tract + 1⟩ } }) ∧
    ((s.region t.region).count.toNat ≤ t.tract + 1 →
      (∀ m, t.region < m → (s.region m).state = .enabled →
        (∀ k, t.region < k → k < m → (s.region k).state ≠ .enabled) →
        s.advanceCursor t = { s with scrubber := { s.scrubber with cursor := some ⟨m, 0⟩ } }) ∧
      (∀ m, (∀ k, t.region < k → (s.region k).state ≠ .enabled) → (s.region m).state = .enabled →
        (∀ k, k < m → (s.region k).state ≠ .enabled) →
        s.advanceCursor t =
          { s with
            scrubber := { s.scrubber with cursor := some ⟨m, 0⟩, passCount := s.scrubber.passCount + 1 }
            alert := { s.alert with causes := s.alert.causes ||| 0x10#8 } }))

/-! ## Time -/

/-- TICK (R101, R133 to R136, R138): the tick counter up by one, wrapping, the REFCLK count started again on the divider as last
written, the pacing counter down by one or, at 0, the underflow due, and the counter of a hold that has one down by one. The
underflow and the timeout of the tick are then owed (log 3). -/
def Obligations.TickAdvancesTheCounters : Prop :=
  ∀ s : State, s.settled = true →
    exec .tick s = .next
      { s with
        timebase := ⟨0, s.params.divider, s.timebase.tickCounter + 1⟩
        scrubber :=
          if s.scrubber.pacing = 0 then { s.scrubber with underflowOwed := true }
          else { s.scrubber with pacing := s.scrubber.pacing - 1 }
        passage := { s.passage with
          hold := s.passage.hold.map fun h => { h with ticksRemaining := h.ticksRemaining.map fun k => k - 1 } } }

/-- UNDERFLOW (R138 to R141): the pacing counter reloaded from the latch; with a latch of 0 nothing else; otherwise a step posted
for which an IDLE reader looks, or, with one pending, a slip counted, staying at 65535, and SLIP set. -/
def Obligations.UnderflowPostsAStep : Prop :=
  ∀ s : State, s.scrubber.underflowOwed = true →
    let v : State := { s with scrubber := { s.scrubber with pacing := s.params.latch, underflowOwed := false } }
    (s.params.latch = 0 → exec .underflow s = .next v) ∧
    (s.params.latch ≠ 0 → s.scrubber.stepPending = false →
      exec .underflow s = .next (State.conclude (State.look
        { v with scrubber := { v.scrubber with stepPending := true } }))) ∧
    (s.params.latch ≠ 0 → s.scrubber.stepPending = true →
      exec .underflow s = .next (State.conclude (State.look
        { v with
          scrubber := { v.scrubber with
            slipCount := if s.scrubber.slipCount.toNat < 65535 then s.scrubber.slipCount + 1 else s.scrubber.slipCount }
          alert := { s.alert with causes := s.alert.causes ||| 0x20#8 } })))

/-- HOLD_TIMEOUT (R103): the held beat given ERROR, which makes it deliverable, the hold removed, and a HOLD-EXPIRED offered
with the hold's stored check, no computed check, and the tick counter as it stands. -/
def Obligations.HoldTimeoutAnswersError : Prop :=
  ∀ (s : State) (h : HoldRecord), s.passage.hold = some h → h.ticksRemaining = some 0 →
    exec .holdTimeout s = .next (State.conclude (State.offerFault
      { s with passage := { s.passage with
          buffer := s.passage.buffer.map fun e => ⟨some (e.resp.getD .error), e.data⟩
          hold := none } }
      { kind := .holdExpired, ref := h.ref,
        addr := (s.region h.ref.region).base + BitVec.ofNat 32 (h.ref.tract * (s.region h.ref.region).size),
        stored := some h.stored, computed := none, stamp := s.timebase.tickCounter, errorOffset := none }))

/-- PREPARATION_END (R9, R32, R33, R146): the records of the entry range UNKNOWN, check value 0, flag clear, and no other record
changed; the region ENABLED, the long operation ended, READY set, a parked cursor moved to the region's tract 0. That the
records are initialised at this happening and not before is the model's choice (log 13). -/
def Obligations.PreparationEndEnablesTheRegion : Prop :=
  ∀ (s : State) (n : Fin 8), s.settled = true → s.port.longOp = .enabling n →
    ∃ store,
      exec .preparationEnd s = .next (State.conclude
        { s with
          store := store
          regions := s.regions.set n.val { s.region n with state := .enabled } n.isLt
          port := { s.port with longOp := .idle }
          alert := { s.alert with causes := s.alert.causes ||| 0x80#8 }
          scrubber := { s.scrubber with
            cursor := if s.scrubber.cursor = none then some ⟨n, 0⟩ else s.scrubber.cursor } }) ∧
      ∀ k, CheckStore.read store k =
        if (s.region n).entryBase.toNat ≤ k ∧ k < (s.region n).entryBase.toNat + (s.region n).count.toNat
        then ⟨.unknown, 0, false⟩ else CheckStore.read s.store k

/-! ## The management port -/

/-- Every answer (R172, R177, R178, R180, R194, R196): a well-formed command taken in REQUEST leaves the frame in RESPONSE with
the byte of a status, the result bytes and the CRC-8 of both, no bit of it presented yet; result bytes come with OK only, as many
as the command's code has. The twelve statuses have the bytes 00h to 0Bh of R196, and an answer changes the frame and its bit
count alone. -/
def Obligations.ResponsesCarryStatusResultsAndCrc : Prop :=
  let statusBytes : List (Status × Byte) :=
    [(.ok, 0x00), (.adjusted, 0x01), (.busy, 0x02), (.badCrc, 0x03), (.badOp, 0x04), (.badArg, 0x05), (.state, 0x06),
      (.overlap, 0x07), (.held, 0x08), (.full, 0x09), (.empty, 0x0A), (.noHold, 0x0B)]
  (∀ (c : Instr) (code : Byte) (args : List Byte) (s t : State),
    s.listening = true → requestBody c = some (code, args) → exec c s = .next t →
    ∃ (st : Status) (b : Byte) (results : List Byte),
      (st, b) ∈ statusBytes ∧
      t.port.frame = .response (b :: results ++ [crc8 (b :: results)]) 0 ∧
      t.port.bitCount = 8 * (args.length + 2) ∧
      (st ≠ .ok → results = []) ∧
      (st = .ok → (code, results.length) ∈
        [(0x01#8, 27), (0x02#8, 8), (0x03#8, 0), (0x10#8, 16), (0x11#8, 0), (0x12#8, 0), (0x13#8, 0), (0x20#8, 10),
          (0x21#8, 0), (0x22#8, 0), (0x30#8, 13), (0x40#8, 26), (0x41#8, 26), (0x50#8, 26), (0x51#8, 0), (0x60#8, 1),
          (0x7E#8, 0)])) ∧
  ∀ (s : State) (args : Nat) (st : Status) (b : Byte) (results : List Byte), (st, b) ∈ statusBytes →
    s.answer args st results =
      { s with port := { s.port with
          frame := .response (b :: results ++ [crc8 (b :: results)]) 0
          bitCount := 8 * (args + 2) } }

/-- A command answered with a status other than OK and ADJUSTED leaves the state of the part as it found it but for the frame
and its bit count (R180). -/
def Obligations.RefusedCommandsChangeNothing : Prop :=
  ∀ (c : Instr) (code : Byte) (args : List Byte) (s t : State) (b : Byte) (rest : List Byte) (sent : Nat),
    s.listening = true → requestBody c = some (code, args) → exec c s = .next t →
    t.port.frame = .response (b :: rest) sent → b ≠ 0x00#8 → b ≠ 0x01#8 →
    t = { s with port := { s.port with frame := t.port.frame, bitCount := t.port.bitCount } }

/-- The commands that read (R27, R97, R150, R156, R183, R184, R187, R188): each is answered with its report, laid out byte by
byte as section 10.2 and section 10.4 give it (R193, R197), or refused as its rule gives, and nothing else changes. -/
def Obligations.ReadCommandsReportAndChangeNothing : Prop :=
  ∀ s : State, s.listening = true →
    let two (x : BitVec 16) : List Byte := [BitVec.ofNat 8 (x.toNat / 256), BitVec.ofNat 8 x.toNat]
    let four (x : Word) : List Byte :=
      [BitVec.ofNat 8 (x.toNat / 2 ^ 24), BitVec.ofNat 8 (x.toNat / 2 ^ 16), BitVec.ofNat 8 (x.toNat / 2 ^ 8),
        BitVec.ofNat 8 x.toNat]
    let yes (b : Bool) : Byte := if b then 0x01 else 0x00
    let state (st : RegionState) : Byte :=
      match st with
      | .disabled => 0x00
      | .preparing => 0x01
      | .enabled => 0x02
      | .retiring => 0x03
    let longOp : Byte :=
      match s.port.longOp with
      | .idle => 0x00
      | .enabling n => BitVec.ofNat 8 (16 + n.val)
      | .disabling n => BitVec.ofNat 8 (32 + n.val)
    let reader : Byte :=
      match s.reader.job.map Job.kind with
      | none => 0x00
      | some .refresh => 0x81
      | some .establish => 0x82
      | some .verify => 0x83
    let width (w : CheckWidth) : Byte :=
      match w with
      | .w16 => 0x10
      | .w32 => 0x20
    let policy (p : ReadPolicy) : Byte :=
      match p with
      | .report => 0x00
      | .poison => 0x01
      | .hold => 0x02
    let contextKind (k : ContextKind) : Byte :=
      match k with
      | .assemble _ => 0x01
      | .verify => 0x02
    let origin (k : ContextKind) : Byte :=
      match k with
      | .assemble .unknown => 0x00
      | .assemble .current => 0x01
      | .assemble .stale => 0x02
      | .assemble .faulted => 0x04
      | .verify => 0x00
    let faultKind (k : FaultKind) : Byte :=
      match k with
      | .readMismatch => 0x01
      | .scrubMismatch => 0x02
      | .readerError => 0x03
      | .holdExpired => 0x04
    exec .getStatus s = .next (s.answer 0 .ok
      ([longOp, state (s.region 0).state, state (s.region 1).state, state (s.region 2).state, state (s.region 3).state,
          state (s.region 4).state, state (s.region 5).state, state (s.region 6).state, state (s.region 7).state,
          BitVec.ofNat 8 s.queue.length, BitVec.ofNat 8 s.log.records.length] ++
        two s.log.dropped ++
        [BitVec.ofNat 8 s.pool.recency.length, reader, yes s.passage.hold.isSome, s.alert.causes, s.params.mask,
          s.port.frameErrors] ++
        two s.scrubber.passCount ++ two s.scrubber.slipCount ++ four s.timebase.tickCounter)) ∧
    exec .getParams s = .next (s.answer 0 .ok
      (two s.params.divider ++ two s.params.latch ++ two s.params.holdTimeout ++
        [BitVec.ofNat 8 s.params.patience.toNat, s.params.mask])) ∧
    (∀ n : Fin 8,
      exec (.getRegion (BitVec.ofNat 8 n.val)) s = .next (s.answer 1 .ok
        (four (s.region n).base ++ [BitVec.ofNat 8 (s.region n).sizeCode.toNat] ++ two (s.region n).count ++
          two (s.region n).entryBase ++
          [width (s.region n).width] ++ four (s.region n).poly ++
          [policy (s.region n).policy, state (s.region n).state])) ∧
      (s.pool.slot n = none →
        exec (.getContext (BitVec.ofNat 8 n.val)) s = .next (s.answer 1 .ok [0, 0, 0, 0, 0, 0, 0, 0, 0, 0, 0, 0, 0])) ∧
      ∀ c, s.pool.slot n = some c →
        exec (.getContext (BitVec.ofNat 8 n.val)) s = .next (s.answer 1 .ok
          ([0x01, contextKind c.kind, BitVec.ofNat 8 c.ref.region.val] ++ two (BitVec.ofNat 16 c.ref.tract) ++
            two (BitVec.ofNat 16 c.next) ++ four c.rem ++ [origin c.kind, BitVec.ofNat 8 (s.pool.recency.idxOf n)]))) ∧
    (∀ b : Byte, 8 ≤ b.toNat →
      exec (.getRegion b) s = .next (s.answer 1 .badArg []) ∧ exec (.getContext b) s = .next (s.answer 1 .badArg [])) ∧
    (∀ h, s.passage.hold = some h →
      exec .getHold s = .next (s.answer 0 .ok
        ([BitVec.ofNat 8 h.ref.region.val] ++ two (BitVec.ofNat 16 h.ref.tract) ++ four h.beatAddr ++
          [h.data.lane0, h.data.lane1, h.data.lane2, h.data.lane3] ++ four h.stored ++ four h.computed ++ four h.stamp ++
          [yes h.ticksRemaining.isSome] ++ two (h.ticksRemaining.getD 0)))) ∧
    (s.passage.hold = none → exec .getHold s = .next (s.answer 0 .noHold [])) ∧
    (∀ f rest, s.log.records = f :: rest →
      exec .peekFault s = .next (s.answer 0 .ok
        (four f.seq ++
          [faultKind f.finding.kind, BitVec.ofNat 8 f.finding.ref.region.val] ++ two (BitVec.ofNat 16 f.finding.ref.tract) ++ four f.finding.addr ++ four (f.finding.stored.getD 0) ++
          four (f.finding.computed.getD 0) ++ four f.finding.stamp ++
          two (BitVec.ofNat 16 (f.finding.errorOffset.getD 0))))) ∧
    (s.log.records = [] → exec .peekFault s = .next (s.answer 0 .empty []))

/-- The three tract commands check their arguments in one order (R15): the region number, the region's state, the tract index
against the region's tract count; and GET-TRACT reports the record of the tract that passes, laid out byte by byte as section 10.2
gives it (tract address, tract state by its code of R197, queued flag, check value), changing nothing (R16). -/
def Obligations.TractCommandsCheckInOrder : Prop :=
  ∀ (s : State) (region : Byte) (tract : BitVec 16), s.listening = true →
    let four (x : Word) : List Byte :=
      [BitVec.ofNat 8 (x.toNat / 2 ^ 24), BitVec.ofNat 8 (x.toNat / 2 ^ 16), BitVec.ofNat 8 (x.toNat / 2 ^ 8),
        BitVec.ofNat 8 x.toNat]
    let state (st : TractState) : Byte :=
      match st with
      | .unknown => 0x00
      | .current => 0x01
      | .stale => 0x02
      | .opened => 0x03
      | .faulted => 0x04
    (8 ≤ region.toNat → ∀ c, c = .getTract region tract ∨ c = .forgetTract region tract ∨ c = .repairTract region tract →
      exec c s = .next (s.answer 3 .badArg [])) ∧
    ∀ n : Fin 8, region = BitVec.ofNat 8 n.val →
      ((s.region n).state ≠ .enabled →
        ∀ c, c = .getTract region tract ∨ c = .forgetTract region tract ∨ c = .repairTract region tract →
          exec c s = .next (s.answer 3 .state [])) ∧
      ((s.region n).state = .enabled → (s.region n).count.toNat ≤ tract.toNat →
        ∀ c, c = .getTract region tract ∨ c = .forgetTract region tract ∨ c = .repairTract region tract →
          exec c s = .next (s.answer 3 .badArg [])) ∧
      ((s.region n).state = .enabled → tract.toNat < (s.region n).count.toNat →
        exec (.getTract region tract) s = .next (s.answer 3 .ok
          (four ((s.region n).base + BitVec.ofNat 32 (tract.toNat * (s.region n).size)) ++
            [state (s.record ⟨n, tract.toNat⟩).state, if (s.record ⟨n, tract.toNat⟩).queued = true then 0x01 else 0x00] ++
            four (s.record ⟨n, tract.toNat⟩).check)))

/-- FORGET-TRACT of a tract that passes R15 (R17, R18): refused with HELD on the held tract; otherwise the tract becomes UNKNOWN
with its check value and flag kept, a context on it is freed and leaves the recency order, the others stay and keep theirs (R64),
and a job on it is marked overtaken. -/
def Obligations.ForgetTractMakesUnknown : Prop :=
  ∀ (s : State) (n : Fin 8) (tract : BitVec 16), s.listening = true → (s.region n).state = .enabled →
    tract.toNat < (s.region n).count.toNat →
    let t : TractRef := ⟨n, tract.toNat⟩
    (∀ h, s.passage.hold = some h → h.ref = t →
      exec (.forgetTract (BitVec.ofNat 8 n.val) tract) s = .next (s.answer 3 .held [])) ∧
    ((∀ h, s.passage.hold = some h → h.ref ≠ t) →
      ∃ (pool : Pool) (job : Option Job),
        exec (.forgetTract (BitVec.ofNat 8 n.val) tract) s = .next (State.answer
          (State.setRecord { s with pool := pool, reader := { s.reader with job := job } } t
            { s.record t with state := .unknown }) 3 .ok []) ∧
        (∀ i, pool.slot i = none ↔ s.pool.slot i = none ∨ ∃ c, s.pool.slot i = some c ∧ c.ref = t) ∧
        (∀ i c, pool.slot i = some c → s.pool.slot i = some c) ∧
        pool.recency = (s.pool.recency.filter fun i => (s.pool.slot i).all fun c => decide (c.ref ≠ t)) ∧
        (∀ j, s.reader.job = some j → j.ref = t → job = some { j with overtaken := true }) ∧
        ((∀ j, s.reader.job = some j → j.ref ≠ t) → job = s.reader.job))

/-- REPAIR-TRACT of a tract that passes R15 (R19, R20): refused with HELD on the held tract, with STATE when not FAULTED, with
FULL when its flag is clear and the queue holds 32 entries; otherwise STALE, its check value kept and a VERIFY context freed,
and appended to the queue if its flag was clear. -/
def Obligations.RepairTractQueuesTheTract : Prop :=
  ∀ (s : State) (n : Fin 8) (tract : BitVec 16), s.listening = true → (s.region n).state = .enabled →
    tract.toNat < (s.region n).count.toNat →
    let t : TractRef := ⟨n, tract.toNat⟩
    let v := s.freeVerify t
    (∀ h, s.passage.hold = some h → h.ref = t →
      exec (.repairTract (BitVec.ofNat 8 n.val) tract) s = .next (s.answer 3 .held [])) ∧
    ((∀ h, s.passage.hold = some h → h.ref ≠ t) →
      ((s.record t).state ≠ .faulted →
        exec (.repairTract (BitVec.ofNat 8 n.val) tract) s = .next (s.answer 3 .state [])) ∧
      ((s.record t).state = .faulted → (s.record t).queued = false → 32 ≤ s.queue.length →
        exec (.repairTract (BitVec.ofNat 8 n.val) tract) s = .next (s.answer 3 .full [])) ∧
      ((s.record t).state = .faulted → (s.record t).queued = true →
        exec (.repairTract (BitVec.ofNat 8 n.val) tract) s = .next
          ((v.setRecord t { s.record t with state := .stale }).answer 3 .ok [])) ∧
      ((s.record t).state = .faulted → (s.record t).queued = false → s.queue.length < 32 →
        ∃ u : State,
          exec (.repairTract (BitVec.ofNat 8 n.val) tract) s = .next (u.look.conclude.answer 3 .ok []) ∧
          u = { v with queue := s.queue ++ [t], store := u.store } ∧
          ∀ k, CheckStore.read u.store k =
            if k = (s.region n).entryBase.toNat + tract.toNat then { s.record t with state := .stale, queued := true }
            else CheckStore.read s.store k))

/-- SET-REGION's checks and effect (R24 to R26, R195): BAD-ARG, BUSY, STATE; then size codes 5 to 7 forced to 256 bytes, the base
a multiple of the size, width, polynomial and policy in range, the counts in range; then the descriptor replaced whole, the
region still DISABLED, nothing else changed, OK or, with the code forced, ADJUSTED. -/
def Obligations.SetRegionReplacesTheDescriptor : Prop :=
  ∀ (s : State) (region : Byte) (base : Word) (sizeCode : Byte) (count entryBase : BitVec 16) (width : Byte) (poly : Word)
    (policy : Byte), s.listening = true →
    let c : Instr := .setRegion region base sizeCode count entryBase width poly policy
    let low := sizeCode.toNat % 8
    let code : BitVec 3 := if 4 < low then 2 else BitVec.ofNat 3 low
    let size := 64 * 2 ^ code.toNat
    (8 ≤ region.toNat → exec c s = .next (s.answer 16 .badArg [])) ∧
    ∀ n : Fin 8, region = BitVec.ofNat 8 n.val →
      (s.port.longOp ≠ .idle → exec c s = .next (s.answer 16 .busy [])) ∧
      (s.port.longOp = .idle → (s.region n).state ≠ .disabled → exec c s = .next (s.answer 16 .state [])) ∧
      (s.port.longOp = .idle → (s.region n).state = .disabled →
        ((base.toNat % size ≠ 0 ∨ (width ≠ 0x10#8 ∧ width ≠ 0x20#8) ∨ poly.toNat % 2 = 0 ∨
            (width = 0x10#8 ∧ 65536 ≤ poly.toNat) ∨ 3 ≤ policy.toNat ∨ count.toNat = 0 ∨ 4096 < count.toNat ∨
            4096 < entryBase.toNat + count.toNat ∨ 2 ^ 32 < base.toNat + size * count.toNat) →
          exec c s = .next (s.answer 16 .badArg [])) ∧
        (base.toNat % size = 0 → poly.toNat % 2 = 1 → 1 ≤ count.toNat → count.toNat ≤ 4096 →
          entryBase.toNat + count.toNat ≤ 4096 → base.toNat + size * count.toNat ≤ 2 ^ 32 →
          ∀ w pol, (width, w) ∈ [(0x10#8, CheckWidth.w16), (0x20#8, .w32)] → (w = .w16 → poly.toNat < 65536) →
          (policy, pol) ∈ [(0x00#8, ReadPolicy.report), (0x01#8, .poison), (0x02#8, .hold)] →
          exec c s = .next (State.answer
            { s with
              regions := s.regions.set n.val (Region.mk base code count entryBase w poly pol .disabled) n.isLt } 16
            (if 4 < low then .adjusted else .ok) [])))

/-- ENABLE-REGION's checks and effect (R29 to R32): BAD-ARG, BUSY, STATE, BAD-ARG for a tract count of 0, OVERLAP when span or
entry range of another region that is not DISABLED overlaps; otherwise PREPARING, ENABLING n, and OK (R32). That the check store
is left as it is at the acceptance, its records initialised at the preparation's end, is the model's choice (log 13). -/
def Obligations.EnableRegionBeginsPreparation : Prop :=
  ∀ (s : State) (region : Byte), s.listening = true →
    (8 ≤ region.toNat → exec (.enableRegion region) s = .next (s.answer 1 .badArg [])) ∧
    ∀ n : Fin 8, region = BitVec.ofNat 8 n.val →
      (s.port.longOp ≠ .idle → exec (.enableRegion region) s = .next (s.answer 1 .busy [])) ∧
      (s.port.longOp = .idle →
        ((s.region n).state ≠ .disabled → exec (.enableRegion region) s = .next (s.answer 1 .state [])) ∧
        ((s.region n).state = .disabled → (s.region n).count.toNat = 0 →
          exec (.enableRegion region) s = .next (s.answer 1 .badArg [])) ∧
        (∀ m, (s.region n).state = .disabled → (s.region n).count.toNat ≠ 0 → m ≠ n → (s.region m).state ≠ .disabled →
          (((s.region n).base.toNat < (s.region m).base.toNat + (s.region m).span ∧
              (s.region m).base.toNat < (s.region n).base.toNat + (s.region n).span) ∨
            ((s.region n).entryBase.toNat < (s.region m).entryBase.toNat + (s.region m).count.toNat ∧
              (s.region m).entryBase.toNat < (s.region n).entryBase.toNat + (s.region n).count.toNat)) →
          exec (.enableRegion region) s = .next (s.answer 1 .overlap [])) ∧
        ((s.region n).state = .disabled → (s.region n).count.toNat ≠ 0 →
          (∀ m, m ≠ n → (s.region m).state ≠ .disabled →
            ¬((s.region n).base.toNat < (s.region m).base.toNat + (s.region m).span ∧
              (s.region m).base.toNat < (s.region n).base.toNat + (s.region n).span) ∧
            ¬((s.region n).entryBase.toNat < (s.region m).entryBase.toNat + (s.region m).count.toNat ∧
              (s.region m).entryBase.toNat < (s.region n).entryBase.toNat + (s.region n).count.toNat)) →
          exec (.enableRegion region) s = .next (State.answer
            { s with
              regions := s.regions.set n.val { s.region n with state := .preparing } n.isLt
              port := { s.port with longOp := .enabling n } } 1 .ok [])))

/-- DISABLE-REGION's checks and effect (R36 to R38, R112, R125, R147): BAD-ARG, BUSY, STATE, HELD; otherwise the region's
contexts freed and out of the recency order, the others keeping theirs (R64), its queue entries removed and the cursor moved off
it; then RETIRING with the job abandoned when a burst of a job
of the region is on the link, and else DISABLED with READY set, a waiting job removed, the passed-over count 0, and the reader
looking. -/
def Obligations.DisableRegionRetiresOrDisables : Prop :=
  ∀ (s : State) (region : Byte), s.listening = true →
    (8 ≤ region.toNat → exec (.disableRegion region) s = .next (s.answer 1 .badArg [])) ∧
    ∀ n : Fin 8, region = BitVec.ofNat 8 n.val →
      (s.port.longOp ≠ .idle → exec (.disableRegion region) s = .next (s.answer 1 .busy [])) ∧
      (s.port.longOp = .idle → (s.region n).state ≠ .enabled →
        exec (.disableRegion region) s = .next (s.answer 1 .state [])) ∧
      (∀ h, s.port.longOp = .idle → (s.region n).state = .enabled → s.passage.hold = some h → h.ref.region = n →
        exec (.disableRegion region) s = .next (s.answer 1 .held [])) ∧
      (s.port.longOp = .idle → (s.region n).state = .enabled → (∀ h, s.passage.hold = some h → h.ref.region ≠ n) →
        ∃ (pool : Pool) (cursor : Option TractRef),
          let out (st : RegionState) : State :=
            { s with
              regions := s.regions.set n.val { s.region n with state := st } n.isLt
              pool := pool
              queue := s.queue.filter fun t => decide (t.region ≠ n)
              scrubber := { s.scrubber with cursor := cursor } }
          let ready (u : State) : State := { u with alert := { u.alert with causes := u.alert.causes ||| 0x80#8 } }
          (∀ i, pool.slot i = none ↔ s.pool.slot i = none ∨ ∃ c, s.pool.slot i = some c ∧ c.ref.region = n) ∧
          (∀ i c, pool.slot i = some c → s.pool.slot i = some c) ∧
          pool.recency = (s.pool.recency.filter fun i => (s.pool.slot i).all fun c => decide (c.ref.region ≠ n)) ∧
          ((∀ t, s.scrubber.cursor = some t → t.region ≠ n) → cursor = s.scrubber.cursor) ∧
          (∀ t, s.scrubber.cursor = some t → t.region = n →
            (∀ m, n < m → (s.region m).state = .enabled → (∀ k, n < k → k < m → (s.region k).state ≠ .enabled) →
              cursor = some ⟨m, 0⟩) ∧
            ((∀ k, n < k → (s.region k).state ≠ .enabled) → ∀ m, m < n → (s.region m).state = .enabled →
              (∀ k, k < m → (s.region k).state ≠ .enabled) → cursor = some ⟨m, 0⟩) ∧
            ((∀ k, k ≠ n → (s.region k).state ≠ .enabled) → cursor = none)) ∧
          ((∀ j, s.reader.job = some j → j.ref.region ≠ n) →
            exec (.disableRegion region) s = .next ((ready (out .disabled)).conclude.answer 1 .ok [])) ∧
          (∀ j, s.reader.job = some j → j.ref.region = n → j.phase = .claiming →
            exec (.disableRegion region) s = .next (State.answer (State.conclude (State.look
              { ready (out .disabled) with
                reader := { s.reader with job := none }
                arbiter := { s.arbiter with passedOver := 0 } })) 1 .ok [])) ∧
          ∀ j, s.reader.job = some j → j.ref.region = n → j.phase = .reading →
            exec (.disableRegion region) s = .next (State.answer (State.conclude
              { out .retiring with
                reader := { s.reader with job := some { j with abandoned := true } }
                port := { s.port with longOp := .disabling n } }) 1 .ok []))

/-- SET-PARAMS (R185, R186): a reader patience of 0 or above 15 is refused with BAD-ARG; otherwise all five parameters are
replaced together, ALERT follows the new mask, and nothing else changes. -/
def Obligations.SetParamsReplacesAllFive : Prop :=
  ∀ (s : State) (divider latch holdTimeout : BitVec 16) (patience mask : Byte), s.listening = true →
    (patience.toNat = 0 ∨ 15 < patience.toNat →
      exec (.setParams divider latch holdTimeout patience mask) s = .next (s.answer 8 .badArg [])) ∧
    (1 ≤ patience.toNat → patience.toNat ≤ 15 →
      exec (.setParams divider latch holdTimeout patience mask) s = .next (State.answer (State.conclude
        { s with params := ⟨divider, latch, holdTimeout, BitVec.ofNat 4 patience.toNat, mask⟩ }) 8 .ok []))

/-- POP-FAULT (R157): answered with the head record, which leaves the log; the sequence counter, the dropped count and the causes
stay; EMPTY with nothing changed on an empty log. -/
def Obligations.PopFaultRemovesTheHead : Prop :=
  ∀ s : State, s.listening = true →
    (∀ f rest, s.log.records = f :: rest →
      exec .popFault s = .next (State.answer { s with log := { s.log with records := rest } } 0 .ok f.report)) ∧
    (s.log.records = [] → exec .popFault s = .next (s.answer 0 .empty []))

/-- RELEASE-HOLD (R102, R188): an argument that names no response is refused with BAD-ARG before the hold is looked for; with no
hold NO-HOLD; otherwise the held beat is given the named response and the hold removed, and nothing else changes. -/
def Obligations.ReleaseHoldAnswersTheHeldBeat : Prop :=
  ∀ (s : State) (b : Byte), s.listening = true →
    (2 ≤ b.toNat → exec (.releaseHold b) s = .next (s.answer 1 .badArg [])) ∧
    (b.toNat < 2 → s.passage.hold = none → exec (.releaseHold b) s = .next (s.answer 1 .noHold [])) ∧
    ∀ r, (b, r) ∈ [(0x00#8, Resp.okay), (0x01#8, .error)] → s.passage.hold ≠ none →
      exec (.releaseHold b) s = .next (State.answer
        { s with passage := { s.passage with
            buffer := s.passage.buffer.map fun e => ⟨some (e.resp.getD r), e.data⟩
            hold := none } } 1 .ok [])

/-- CLEAR-ALERT (R161, R162, R164): the causes named are cleared and the others left; the dropped count, the slip count and the
frame-error count go to 0 when DROP, SLIP or LINK is named, set or not; the result is the causes after the clearing. -/
def Obligations.ClearAlertClearsNamedCauses : Prop :=
  ∀ (s : State) (mask : Byte), s.listening = true →
    exec (.clearAlert mask) s = .next (State.answer (State.conclude
      { s with
        alert := { s.alert with causes := s.alert.causes &&& ~~~mask }
        log := { s.log with dropped := if mask.getLsbD 1 then 0 else s.log.dropped }
        scrubber := { s.scrubber with slipCount := if mask.getLsbD 5 then 0 else s.scrubber.slipCount }
        port := { s.port with frameErrors := if mask.getLsbD 6 then 0 else s.port.frameErrors } })
      1 .ok [s.alert.causes &&& ~~~mask])

/-- RESTART (R189, R190 and the rules they name): in one happening every region DISABLED with its descriptor kept, a held beat
given ERROR, the passed-over count 0, the pool, queue, job and log empty, a reader burst detached, the counters 0, READY the one
cause set, parameters kept, and OK answered. A record outside the range of a preparation in flight is not written, and a record
inside it is kept or initialised (the free value of log 12). -/
def Obligations.RestartResetsSoftly : Prop :=
  ∀ s : State, s.listening = true →
    ∃ (store : CheckStore) (freeCount : Nat),
      exec .restart s = .next (State.answer (State.conclude
        { s with
          regions := s.regions.map fun r => { r with state := .disabled }
          store := store
          passage := { s.passage with
            buffer :=
              if s.passage.hold = none then s.passage.buffer
              else s.passage.buffer.map fun e => ⟨some (e.resp.getD .error), e.data⟩
            hold := none }
          arbiter := { s.arbiter with
            link := if s.arbiter.link = .reader then .detached else s.arbiter.link
            passedOver := 0 }
          pool := ⟨Vector.replicate 8 none, []⟩
          queue := []
          reader := { s.reader with job := none, lastSource := .scrub }
          timebase := { refclkCount := 0, intervalDivider := s.params.divider, tickCounter := 0 }
          scrubber :=
            { pacing := 0, underflowOwed := false, stepPending := false, cursor := none, passCount := 0, slipCount := 0 }
          log := { records := [], seqCounter := 0, dropped := 0 }
          alert := { s.alert with causes := 0x80#8 }
          port := { s.port with longOp := .idle, frameErrors := 0 }
          freeCount := freeCount }) 0 .ok []) ∧
      ((∀ n, s.port.longOp ≠ .enabling n) → store = s.store ∧ freeCount = s.freeCount) ∧
      ∀ n, s.port.longOp = .enabling n → ∀ k,
        CheckStore.read store k = CheckStore.read s.store k ∨
          ((s.region n).entryBase.toNat ≤ k ∧ k < (s.region n).entryBase.toNat + (s.region n).count.toNat ∧
            CheckStore.read store k = ⟨.unknown, 0, false⟩)

/-- POWER_ON in every state (R21, R22, R29, R52, R62, R67, R108, R114, R131, R137, R148, R158, R165, R176, R184, R192): the
values at the release of RSTN; the port DESELECTED with MCS high and SPENT with it low. -/
def Obligations.PowerOnResetsTheWholePart : Prop :=
  ∀ (s : State) (mcsHigh hrstHigh : Bool), ∃ t : State, exec (.powerOn mcsHigh hrstHigh) s = .next t ∧
    (∀ n, t.region n =
      { base := 0, sizeCode := 2, count := 0, entryBase := 0, width := .w32, poly := 0x04C11DB7#32, policy := .report,
        state := .disabled }) ∧
    t.passage = ⟨.idle, [], none⟩ ∧ t.arbiter.link = .free ∧ t.passageClaims = false ∧ t.readerClaims = false ∧
    t.arbiter.passedOver = 0 ∧ (∀ i, t.pool.slot i = none) ∧ t.pool.recency = [] ∧ t.queue = [] ∧ t.reader.job = none ∧
    t.reader.lastSource = .scrub ∧ t.timebase = ⟨0, 1000#16, 0⟩ ∧
    (t.scrubber.pacing = 0 ∧ t.scrubber.stepPending = false ∧ t.scrubber.cursor = none ∧ t.scrubber.passCount = 0 ∧
      t.scrubber.slipCount = 0) ∧
    t.log = ⟨[], 0, 0⟩ ∧ t.alert = ⟨0, false⟩ ∧ t.params = ⟨1000#16, 0, 500#16, 4#4, 0x6F#8⟩ ∧ t.port.longOp = .idle ∧
    t.port.frameErrors = 0 ∧ t.port.frame = (if mcsHigh then .deselected else .spent) ∧ t.pins.hrst = hrstHigh

/-- The frame's edges (R167 to R169, R177, R179): a fall of MCS in DESELECTED begins a request with the bit count at 0; the last
bit of a response makes the frame SPENT; a rise of MCS during a response ends it early, and makes the port DESELECTED just so
when the frame is already SPENT (R169), as any other rise does. None is a frame error. MDO carries the bit of the response last presented, each byte most significant bit first, and
is high before the first one and outside RESPONSE. That RESPONSE_SENT stands for all the edges of MCK that are left, at every bit
position, and that the frame is still RESPONSE while its last bit is on MDO, is the model's choice (log 10). -/
def Obligations.SelectionEdgesMoveTheFrame : Prop :=
  ∀ s : State, s.settled = true →
    (s.port.frame = .deselected →
      exec .fallOfMcs s = .next { s with port := { s.port with frame := .request, bitCount := 0 } }) ∧
    (∀ bytes sent, s.port.frame = .response bytes sent →
      exec .responseSent s = .next { s with port := { s.port with frame := .spent } } ∧
      exec .responseCutShort s = .next { s with port := { s.port with frame := .deselected } } ∧
      (sent = 0 → s.mdo = true) ∧
      ∀ k (h : k < bytes.length) (i : Nat), i < 8 → sent = 8 * k + i + 1 → s.mdo = bytes[k].getLsbD (7 - i)) ∧
    (s.port.frame = .spent →
      exec .responseCutShort s = .next { s with port := { s.port with frame := .deselected } }) ∧
    ((∀ bytes sent, s.port.frame ≠ .response bytes sent) → s.mdo = true) ∧
    exec .riseOfMcs s = .next { s with port := { s.port with frame := .deselected } }

/-- Frames that execute nothing (R173 to R176): a bad CRC is a frame error answered BAD-CRC; an unknown code with a right CRC is
answered BAD-OP and is no frame error; an abort is a frame error with no answer. A frame error raises the count, which stays at
255, and sets LINK. -/
def Obligations.FrameErrorsCountAndSetLink : Prop :=
  ∀ s : State, s.listening = true →
    let errors := if s.port.frameErrors.toNat < 255 then s.port.frameErrors + 1 else s.port.frameErrors
    let link : Alert := { s.alert with causes := s.alert.causes ||| 0x40#8 }
    (∀ code args crc, args.length = (commandArgs code).getD 0 → crc ≠ crc8 (code :: args) →
      exec (.badCrc code args crc) s = .next (State.answer (State.conclude
        { s with port := { s.port with frameErrors := errors }, alert := link }) args.length .badCrc [])) ∧
    (∀ code, commandArgs code = none → exec (.badOp code) s = .next (s.answer 0 .badOp [])) ∧
    ∀ code rest bits, rest.length ≤ (commandArgs code).getD 0 →
      exec (.frameAbort (code :: rest) bits) s = .next (State.conclude
        { s with
          port := { s.port with
            frame := .deselected
            bitCount := 8 * (rest.length + 1) + bits.toNat
            frameErrors := errors }
          alert := link })

/-- What the lines carry (R41, R42, R167, R193, R198). A request goes out with the start address on the address/data lines and
the beat count less one on the lane-mask lines, for the passage as it was recorded, for the reader at the tract address plus the
next burst offset (R120) with 15; a write beat with its data and lane mask; a delivery with 0 for OKAY and 1 for ERROR on the response line, and it is the response the part offered. A request or write beat
of the host is read back from its lines. The bits of a request frame on MDI, most significant bit of each byte first, are read as
the command it spells, whatever bits follow it. -/
def Obligations.LinesCarryItemsAndFrames : Prop :=
  (∀ (s : State) (t : Transaction), s.grantNext = true → s.arbiter.granting = some .passage → s.passage.state = .claiming t →
    1 ≤ t.beats → t.beats ≤ 16 →
    ∃ u, exec .passageGrant s = .next u ∧
      ∃ n : BitVec 4, n.toNat + 1 = t.beats ∧
        u.memoryLines = some ⟨some (.address t.addr), some n, some t.dir, true, false, false, none⟩) ∧
  (∀ (s : State) (j : Job), s.grantNext = true → s.arbiter.granting = some .reader → s.reader.job = some j →
    j.phase = .claiming →
    ∃ u, exec .readerGrant s = .next u ∧
      u.memoryLines = some ⟨some (.address (s.tractAddr j.ref + BitVec.ofNat 32 j.nextOffset)), some 15, some .read, true,
        false, false, none⟩) ∧
  (∀ (s : State) (t : Transaction) (data : Lanes) (mask : BitVec 4),
    s.settled = true → s.passage.state = .carrying t → t.dir = .write → t.forwarded < t.beats →
    ∃ u, exec (.writeBeatForwarded data mask) s = .next u ∧
      u.memoryLines = some ⟨some (.data data), some mask, none, false, true, true, none⟩) ∧
  (∀ (s : State) (h : HostDelivery), s.settled = true → s.offered = some h →
    ∃ u, exec .responseDelivery s = .next u ∧
      u.hostLines = some ⟨h.data.map .data, none, none, false, true, true, some (if h.resp = .error then 1 else 0)⟩) ∧
  (∀ (addr : Word) (n : BitVec 4) (dir : Dir) (data : Lanes) (mask : BitVec 4),
    (LinkLines.item ⟨some (.address addr), some n, some dir, true, false, false, none⟩).bind LinkItem.hostCommand =
        some (.hostRequest addr n dir) ∧
      (LinkLines.item ⟨some (.data data), some mask, none, false, true, true, none⟩).bind LinkItem.hostCommand =
        some (.writeBeatForwarded data mask)) ∧
  ∀ (i : Instr) (samples extra : List Bool),
    i.wellFormed = true → requestSamples i = some samples → portSamples (samples ++ extra) = some i

/-! ## Laws that every step keeps -/

/-- The laws of the regions, the check store, the queue, the pool, the reader and the cursor (R21, R29, R31, R64 to R66, R109,
R115, R125, R143) hold after every step from every state in which they hold. -/
def Obligations.EveryStepKeepsThePartCoherent : Prop :=
  ∀ s t : State, s.coherent → step s = .next t → t.coherent

/-- The log stays within 16 records numbered in order (R152), ALERT agrees with causes and mask (R164, R166), and an IDLE reader
has no source waiting (R116), after every step from every state in which they hold. -/
def Obligations.EveryStepKeepsLogAlertAndSearch : Prop :=
  ∀ s t : State, step s = .next t →
    (s.logInOrder → t.logInOrder) ∧ (s.alertAgrees → t.alertAgrees) ∧ (s.searched = true → t.searched = true)

/-- The transaction's counts and the beat buffer stay in step (R43 to R48, R58 to R60), and the memory link is the passage's
exactly while its burst is on it and the reader's exactly while its job is READING (R49, R115), and while the link is free a
waiting claimant has its grant (R50), after every step. -/
def Obligations.EveryStepKeepsPassageAndLinkInStep : Prop :=
  ∀ s t : State, s.passageSound → s.linkSound → step s = .next t → t.passageSound ∧ t.linkSound

/-- The state after reset meets the laws. -/
def Obligations.ResetMeetsTheLaws : Prop :=
  State.reset.coherent ∧ State.reset.logInOrder ∧ State.reset.alertAgrees ∧ State.reset.searched = true ∧
    State.reset.passageSound ∧ State.reset.linkSound ∧ State.reset.settled = true
end

