-- ==== Sys2Proof/Laws/State.lean ====
section
/-! SUPPORT. One lemma per field per update of State: what each shared update does to each field. -/

namespace Sys2Proof.Machine

variable (s : State)

/-! ### setRegion -/

@[simp] theorem State.setRegion_pending (n : Fin 8) (r : Region) : (s.setRegion n r).pending = s.pending := rfl
@[simp] theorem State.setRegion_pins (n : Fin 8) (r : Region) : (s.setRegion n r).pins = s.pins := rfl
@[simp] theorem State.setRegion_regions (n : Fin 8) (r : Region) : (s.setRegion n r).regions = s.regions.set n.val r n.isLt := rfl
@[simp] theorem State.setRegion_store (n : Fin 8) (r : Region) : (s.setRegion n r).store = s.store := rfl
@[simp] theorem State.setRegion_passage (n : Fin 8) (r : Region) : (s.setRegion n r).passage = s.passage := rfl
@[simp] theorem State.setRegion_arbiter (n : Fin 8) (r : Region) : (s.setRegion n r).arbiter = s.arbiter := rfl
@[simp] theorem State.setRegion_pool (n : Fin 8) (r : Region) : (s.setRegion n r).pool = s.pool := rfl
@[simp] theorem State.setRegion_queue (n : Fin 8) (r : Region) : (s.setRegion n r).queue = s.queue := rfl
@[simp] theorem State.setRegion_reader (n : Fin 8) (r : Region) : (s.setRegion n r).reader = s.reader := rfl
@[simp] theorem State.setRegion_timebase (n : Fin 8) (r : Region) : (s.setRegion n r).timebase = s.timebase := rfl
@[simp] theorem State.setRegion_scrubber (n : Fin 8) (r : Region) : (s.setRegion n r).scrubber = s.scrubber := rfl
@[simp] theorem State.setRegion_log (n : Fin 8) (r : Region) : (s.setRegion n r).log = s.log := rfl
@[simp] theorem State.setRegion_alert (n : Fin 8) (r : Region) : (s.setRegion n r).alert = s.alert := rfl
@[simp] theorem State.setRegion_params (n : Fin 8) (r : Region) : (s.setRegion n r).params = s.params := rfl
@[simp] theorem State.setRegion_port (n : Fin 8) (r : Region) : (s.setRegion n r).port = s.port := rfl
@[simp] theorem State.setRegion_freeCount (n : Fin 8) (r : Region) : (s.setRegion n r).freeCount = s.freeCount := rfl

/-! ### setRecord -/

@[simp] theorem State.setRecord_pending (t : TractRef) (r : TractRecord) : (s.setRecord t r).pending = s.pending := rfl
@[simp] theorem State.setRecord_pins (t : TractRef) (r : TractRecord) : (s.setRecord t r).pins = s.pins := rfl
@[simp] theorem State.setRecord_regions (t : TractRef) (r : TractRecord) : (s.setRecord t r).regions = s.regions := rfl
@[simp] theorem State.setRecord_store (t : TractRef) (r : TractRecord) : (s.setRecord t r).store = CheckStore.write s.store ((s.region t.region).recordNumber t.tract) r := rfl
@[simp] theorem State.setRecord_passage (t : TractRef) (r : TractRecord) : (s.setRecord t r).passage = s.passage := rfl
@[simp] theorem State.setRecord_arbiter (t : TractRef) (r : TractRecord) : (s.setRecord t r).arbiter = s.arbiter := rfl
@[simp] theorem State.setRecord_pool (t : TractRef) (r : TractRecord) : (s.setRecord t r).pool = s.pool := rfl
@[simp] theorem State.setRecord_queue (t : TractRef) (r : TractRecord) : (s.setRecord t r).queue = s.queue := rfl
@[simp] theorem State.setRecord_reader (t : TractRef) (r : TractRecord) : (s.setRecord t r).reader = s.reader := rfl
@[simp] theorem State.setRecord_timebase (t : TractRef) (r : TractRecord) : (s.setRecord t r).timebase = s.timebase := rfl
@[simp] theorem State.setRecord_scrubber (t : TractRef) (r : TractRecord) : (s.setRecord t r).scrubber = s.scrubber := rfl
@[simp] theorem State.setRecord_log (t : TractRef) (r : TractRecord) : (s.setRecord t r).log = s.log := rfl
@[simp] theorem State.setRecord_alert (t : TractRef) (r : TractRecord) : (s.setRecord t r).alert = s.alert := rfl
@[simp] theorem State.setRecord_params (t : TractRef) (r : TractRecord) : (s.setRecord t r).params = s.params := rfl
@[simp] theorem State.setRecord_port (t : TractRef) (r : TractRecord) : (s.setRecord t r).port = s.port := rfl
@[simp] theorem State.setRecord_freeCount (t : TractRef) (r : TractRecord) : (s.setRecord t r).freeCount = s.freeCount := rfl

/-! ### setCause -/

@[simp] theorem State.setCause_pending (c : Cause) : (s.setCause c).pending = s.pending := rfl
@[simp] theorem State.setCause_pins (c : Cause) : (s.setCause c).pins = s.pins := rfl
@[simp] theorem State.setCause_regions (c : Cause) : (s.setCause c).regions = s.regions := rfl
@[simp] theorem State.setCause_store (c : Cause) : (s.setCause c).store = s.store := rfl
@[simp] theorem State.setCause_passage (c : Cause) : (s.setCause c).passage = s.passage := rfl
@[simp] theorem State.setCause_arbiter (c : Cause) : (s.setCause c).arbiter = s.arbiter := rfl
@[simp] theorem State.setCause_pool (c : Cause) : (s.setCause c).pool = s.pool := rfl
@[simp] theorem State.setCause_queue (c : Cause) : (s.setCause c).queue = s.queue := rfl
@[simp] theorem State.setCause_reader (c : Cause) : (s.setCause c).reader = s.reader := rfl
@[simp] theorem State.setCause_timebase (c : Cause) : (s.setCause c).timebase = s.timebase := rfl
@[simp] theorem State.setCause_scrubber (c : Cause) : (s.setCause c).scrubber = s.scrubber := rfl
@[simp] theorem State.setCause_log (c : Cause) : (s.setCause c).log = s.log := rfl
@[simp] theorem State.setCause_alert (c : Cause) : (s.setCause c).alert = { s.alert with causes := s.alert.causes ||| c.mask } := rfl
@[simp] theorem State.setCause_params (c : Cause) : (s.setCause c).params = s.params := rfl
@[simp] theorem State.setCause_port (c : Cause) : (s.setCause c).port = s.port := rfl
@[simp] theorem State.setCause_freeCount (c : Cause) : (s.setCause c).freeCount = s.freeCount := rfl

/-! ### followAlert -/

@[simp] theorem State.followAlert_pending : (s.followAlert).pending = s.pending := rfl
@[simp] theorem State.followAlert_pins : (s.followAlert).pins = s.pins := rfl
@[simp] theorem State.followAlert_regions : (s.followAlert).regions = s.regions := rfl
@[simp] theorem State.followAlert_store : (s.followAlert).store = s.store := rfl
@[simp] theorem State.followAlert_passage : (s.followAlert).passage = s.passage := rfl
@[simp] theorem State.followAlert_arbiter : (s.followAlert).arbiter = s.arbiter := rfl
@[simp] theorem State.followAlert_pool : (s.followAlert).pool = s.pool := rfl
@[simp] theorem State.followAlert_queue : (s.followAlert).queue = s.queue := rfl
@[simp] theorem State.followAlert_reader : (s.followAlert).reader = s.reader := rfl
@[simp] theorem State.followAlert_timebase : (s.followAlert).timebase = s.timebase := rfl
@[simp] theorem State.followAlert_scrubber : (s.followAlert).scrubber = s.scrubber := rfl
@[simp] theorem State.followAlert_log : (s.followAlert).log = s.log := rfl
@[simp] theorem State.followAlert_alert : (s.followAlert).alert = { s.alert with low := alertLevel s.alert.causes s.params.mask } := rfl
@[simp] theorem State.followAlert_params : (s.followAlert).params = s.params := rfl
@[simp] theorem State.followAlert_port : (s.followAlert).port = s.port := rfl
@[simp] theorem State.followAlert_freeCount : (s.followAlert).freeCount = s.freeCount := rfl

/-! ### arbitrate -/

@[simp] theorem State.arbitrate_pending : (s.arbitrate).pending = s.pending := rfl
@[simp] theorem State.arbitrate_pins : (s.arbitrate).pins = s.pins := rfl
@[simp] theorem State.arbitrate_regions : (s.arbitrate).regions = s.regions := rfl
@[simp] theorem State.arbitrate_store : (s.arbitrate).store = s.store := rfl
@[simp] theorem State.arbitrate_passage : (s.arbitrate).passage = s.passage := rfl
@[simp] theorem State.arbitrate_arbiter : (s.arbitrate).arbiter = { s.arbiter with granting := s.grantDue } := rfl
@[simp] theorem State.arbitrate_pool : (s.arbitrate).pool = s.pool := rfl
@[simp] theorem State.arbitrate_queue : (s.arbitrate).queue = s.queue := rfl
@[simp] theorem State.arbitrate_reader : (s.arbitrate).reader = s.reader := rfl
@[simp] theorem State.arbitrate_timebase : (s.arbitrate).timebase = s.timebase := rfl
@[simp] theorem State.arbitrate_scrubber : (s.arbitrate).scrubber = s.scrubber := rfl
@[simp] theorem State.arbitrate_log : (s.arbitrate).log = s.log := rfl
@[simp] theorem State.arbitrate_alert : (s.arbitrate).alert = s.alert := rfl
@[simp] theorem State.arbitrate_params : (s.arbitrate).params = s.params := rfl
@[simp] theorem State.arbitrate_port : (s.arbitrate).port = s.port := rfl
@[simp] theorem State.arbitrate_freeCount : (s.arbitrate).freeCount = s.freeCount := rfl

/-! ### beginBurst -/

@[simp] theorem State.beginBurst_pending (j : Job) : (s.beginBurst j).pending = s.pending := rfl
@[simp] theorem State.beginBurst_pins (j : Job) : (s.beginBurst j).pins = s.pins := rfl
@[simp] theorem State.beginBurst_regions (j : Job) : (s.beginBurst j).regions = s.regions := rfl
@[simp] theorem State.beginBurst_store (j : Job) : (s.beginBurst j).store = s.store := rfl
@[simp] theorem State.beginBurst_passage (j : Job) : (s.beginBurst j).passage = s.passage := rfl
@[simp] theorem State.beginBurst_arbiter (j : Job) : (s.beginBurst j).arbiter = s.arbiter := rfl
@[simp] theorem State.beginBurst_pool (j : Job) : (s.beginBurst j).pool = s.pool := rfl
@[simp] theorem State.beginBurst_queue (j : Job) : (s.beginBurst j).queue = s.queue := rfl
@[simp] theorem State.beginBurst_reader (j : Job) : (s.beginBurst j).reader = { s.reader with job := some { j with phase := .reading, errorOffset := none }, burstBeats := 0 } := rfl
@[simp] theorem State.beginBurst_timebase (j : Job) : (s.beginBurst j).timebase = s.timebase := rfl
@[simp] theorem State.beginBurst_scrubber (j : Job) : (s.beginBurst j).scrubber = s.scrubber := rfl
@[simp] theorem State.beginBurst_log (j : Job) : (s.beginBurst j).log = s.log := rfl
@[simp] theorem State.beginBurst_alert (j : Job) : (s.beginBurst j).alert = s.alert := rfl
@[simp] theorem State.beginBurst_params (j : Job) : (s.beginBurst j).params = s.params := rfl
@[simp] theorem State.beginBurst_port (j : Job) : (s.beginBurst j).port = s.port := rfl
@[simp] theorem State.beginBurst_freeCount (j : Job) : (s.beginBurst j).freeCount = s.freeCount := rfl

/-! ### freeSlot -/

@[simp] theorem State.freeSlot_pending (i : Fin 8) : (s.freeSlot i).pending = s.pending := rfl
@[simp] theorem State.freeSlot_pins (i : Fin 8) : (s.freeSlot i).pins = s.pins := rfl
@[simp] theorem State.freeSlot_regions (i : Fin 8) : (s.freeSlot i).regions = s.regions := rfl
@[simp] theorem State.freeSlot_store (i : Fin 8) : (s.freeSlot i).store = s.store := rfl
@[simp] theorem State.freeSlot_passage (i : Fin 8) : (s.freeSlot i).passage = s.passage := rfl
@[simp] theorem State.freeSlot_arbiter (i : Fin 8) : (s.freeSlot i).arbiter = s.arbiter := rfl
@[simp] theorem State.freeSlot_pool (i : Fin 8) : (s.freeSlot i).pool = s.pool.free i := rfl
@[simp] theorem State.freeSlot_queue (i : Fin 8) : (s.freeSlot i).queue = s.queue := rfl
@[simp] theorem State.freeSlot_reader (i : Fin 8) : (s.freeSlot i).reader = s.reader := rfl
@[simp] theorem State.freeSlot_timebase (i : Fin 8) : (s.freeSlot i).timebase = s.timebase := rfl
@[simp] theorem State.freeSlot_scrubber (i : Fin 8) : (s.freeSlot i).scrubber = s.scrubber := rfl
@[simp] theorem State.freeSlot_log (i : Fin 8) : (s.freeSlot i).log = s.log := rfl
@[simp] theorem State.freeSlot_alert (i : Fin 8) : (s.freeSlot i).alert = s.alert := rfl
@[simp] theorem State.freeSlot_params (i : Fin 8) : (s.freeSlot i).params = s.params := rfl
@[simp] theorem State.freeSlot_port (i : Fin 8) : (s.freeSlot i).port = s.port := rfl
@[simp] theorem State.freeSlot_freeCount (i : Fin 8) : (s.freeSlot i).freeCount = s.freeCount := rfl

/-! ### putContext -/

@[simp] theorem State.putContext_pending (i : Fin 8) (c : Context) : (s.putContext i c).pending = s.pending := rfl
@[simp] theorem State.putContext_pins (i : Fin 8) (c : Context) : (s.putContext i c).pins = s.pins := rfl
@[simp] theorem State.putContext_regions (i : Fin 8) (c : Context) : (s.putContext i c).regions = s.regions := rfl
@[simp] theorem State.putContext_store (i : Fin 8) (c : Context) : (s.putContext i c).store = s.store := rfl
@[simp] theorem State.putContext_passage (i : Fin 8) (c : Context) : (s.putContext i c).passage = s.passage := rfl
@[simp] theorem State.putContext_arbiter (i : Fin 8) (c : Context) : (s.putContext i c).arbiter = s.arbiter := rfl
@[simp] theorem State.putContext_pool (i : Fin 8) (c : Context) : (s.putContext i c).pool = s.pool.put i c := rfl
@[simp] theorem State.putContext_queue (i : Fin 8) (c : Context) : (s.putContext i c).queue = s.queue := rfl
@[simp] theorem State.putContext_reader (i : Fin 8) (c : Context) : (s.putContext i c).reader = s.reader := rfl
@[simp] theorem State.putContext_timebase (i : Fin 8) (c : Context) : (s.putContext i c).timebase = s.timebase := rfl
@[simp] theorem State.putContext_scrubber (i : Fin 8) (c : Context) : (s.putContext i c).scrubber = s.scrubber := rfl
@[simp] theorem State.putContext_log (i : Fin 8) (c : Context) : (s.putContext i c).log = s.log := rfl
@[simp] theorem State.putContext_alert (i : Fin 8) (c : Context) : (s.putContext i c).alert = s.alert := rfl
@[simp] theorem State.putContext_params (i : Fin 8) (c : Context) : (s.putContext i c).params = s.params := rfl
@[simp] theorem State.putContext_port (i : Fin 8) (c : Context) : (s.putContext i c).port = s.port := rfl
@[simp] theorem State.putContext_freeCount (i : Fin 8) (c : Context) : (s.putContext i c).freeCount = s.freeCount := rfl

/-! ### setCursor -/

@[simp] theorem State.setCursor_pending (n : Option (Fin 8)) : (s.setCursor n).pending = s.pending := rfl
@[simp] theorem State.setCursor_pins (n : Option (Fin 8)) : (s.setCursor n).pins = s.pins := rfl
@[simp] theorem State.setCursor_regions (n : Option (Fin 8)) : (s.setCursor n).regions = s.regions := rfl
@[simp] theorem State.setCursor_store (n : Option (Fin 8)) : (s.setCursor n).store = s.store := rfl
@[simp] theorem State.setCursor_passage (n : Option (Fin 8)) : (s.setCursor n).passage = s.passage := rfl
@[simp] theorem State.setCursor_arbiter (n : Option (Fin 8)) : (s.setCursor n).arbiter = s.arbiter := rfl
@[simp] theorem State.setCursor_pool (n : Option (Fin 8)) : (s.setCursor n).pool = s.pool := rfl
@[simp] theorem State.setCursor_queue (n : Option (Fin 8)) : (s.setCursor n).queue = s.queue := rfl
@[simp] theorem State.setCursor_reader (n : Option (Fin 8)) : (s.setCursor n).reader = s.reader := rfl
@[simp] theorem State.setCursor_timebase (n : Option (Fin 8)) : (s.setCursor n).timebase = s.timebase := rfl
@[simp] theorem State.setCursor_scrubber (n : Option (Fin 8)) : (s.setCursor n).scrubber = { s.scrubber with cursor := n.map fun m => ⟨m, 0⟩ } := rfl
@[simp] theorem State.setCursor_log (n : Option (Fin 8)) : (s.setCursor n).log = s.log := rfl
@[simp] theorem State.setCursor_alert (n : Option (Fin 8)) : (s.setCursor n).alert = s.alert := rfl
@[simp] theorem State.setCursor_params (n : Option (Fin 8)) : (s.setCursor n).params = s.params := rfl
@[simp] theorem State.setCursor_port (n : Option (Fin 8)) : (s.setCursor n).port = s.port := rfl
@[simp] theorem State.setCursor_freeCount (n : Option (Fin 8)) : (s.setCursor n).freeCount = s.freeCount := rfl

/-! ### setLastSource -/

@[simp] theorem State.setLastSource_pending (src : Source) : (s.setLastSource src).pending = s.pending := rfl
@[simp] theorem State.setLastSource_pins (src : Source) : (s.setLastSource src).pins = s.pins := rfl
@[simp] theorem State.setLastSource_regions (src : Source) : (s.setLastSource src).regions = s.regions := rfl
@[simp] theorem State.setLastSource_store (src : Source) : (s.setLastSource src).store = s.store := rfl
@[simp] theorem State.setLastSource_passage (src : Source) : (s.setLastSource src).passage = s.passage := rfl
@[simp] theorem State.setLastSource_arbiter (src : Source) : (s.setLastSource src).arbiter = s.arbiter := rfl
@[simp] theorem State.setLastSource_pool (src : Source) : (s.setLastSource src).pool = s.pool := rfl
@[simp] theorem State.setLastSource_queue (src : Source) : (s.setLastSource src).queue = s.queue := rfl
@[simp] theorem State.setLastSource_reader (src : Source) : (s.setLastSource src).reader = { s.reader with lastSource := src } := rfl
@[simp] theorem State.setLastSource_timebase (src : Source) : (s.setLastSource src).timebase = s.timebase := rfl
@[simp] theorem State.setLastSource_scrubber (src : Source) : (s.setLastSource src).scrubber = s.scrubber := rfl
@[simp] theorem State.setLastSource_log (src : Source) : (s.setLastSource src).log = s.log := rfl
@[simp] theorem State.setLastSource_alert (src : Source) : (s.setLastSource src).alert = s.alert := rfl
@[simp] theorem State.setLastSource_params (src : Source) : (s.setLastSource src).params = s.params := rfl
@[simp] theorem State.setLastSource_port (src : Source) : (s.setLastSource src).port = s.port := rfl
@[simp] theorem State.setLastSource_freeCount (src : Source) : (s.setLastSource src).freeCount = s.freeCount := rfl

/-! ### setJob -/

@[simp] theorem State.setJob_pending (j : Job) : (s.setJob j).pending = s.pending := rfl
@[simp] theorem State.setJob_pins (j : Job) : (s.setJob j).pins = s.pins := rfl
@[simp] theorem State.setJob_regions (j : Job) : (s.setJob j).regions = s.regions := rfl
@[simp] theorem State.setJob_store (j : Job) : (s.setJob j).store = s.store := rfl
@[simp] theorem State.setJob_passage (j : Job) : (s.setJob j).passage = s.passage := rfl
@[simp] theorem State.setJob_arbiter (j : Job) : (s.setJob j).arbiter = s.arbiter := rfl
@[simp] theorem State.setJob_pool (j : Job) : (s.setJob j).pool = s.pool := rfl
@[simp] theorem State.setJob_queue (j : Job) : (s.setJob j).queue = s.queue := rfl
@[simp] theorem State.setJob_reader (j : Job) : (s.setJob j).reader = { s.reader with job := some j } := rfl
@[simp] theorem State.setJob_timebase (j : Job) : (s.setJob j).timebase = s.timebase := rfl
@[simp] theorem State.setJob_scrubber (j : Job) : (s.setJob j).scrubber = s.scrubber := rfl
@[simp] theorem State.setJob_log (j : Job) : (s.setJob j).log = s.log := rfl
@[simp] theorem State.setJob_alert (j : Job) : (s.setJob j).alert = s.alert := rfl
@[simp] theorem State.setJob_params (j : Job) : (s.setJob j).params = s.params := rfl
@[simp] theorem State.setJob_port (j : Job) : (s.setJob j).port = s.port := rfl
@[simp] theorem State.setJob_freeCount (j : Job) : (s.setJob j).freeCount = s.freeCount := rfl

/-! ### endJob -/

@[simp] theorem State.endJob_pending : (s.endJob).pending = s.pending := rfl
@[simp] theorem State.endJob_pins : (s.endJob).pins = s.pins := rfl
@[simp] theorem State.endJob_regions : (s.endJob).regions = s.regions := rfl
@[simp] theorem State.endJob_store : (s.endJob).store = s.store := rfl
@[simp] theorem State.endJob_passage : (s.endJob).passage = s.passage := rfl
@[simp] theorem State.endJob_arbiter : (s.endJob).arbiter = s.arbiter := rfl
@[simp] theorem State.endJob_pool : (s.endJob).pool = s.pool := rfl
@[simp] theorem State.endJob_queue : (s.endJob).queue = s.queue := rfl
@[simp] theorem State.endJob_reader : (s.endJob).reader = { s.reader with job := none } := rfl
@[simp] theorem State.endJob_timebase : (s.endJob).timebase = s.timebase := rfl
@[simp] theorem State.endJob_scrubber : (s.endJob).scrubber = s.scrubber := rfl
@[simp] theorem State.endJob_log : (s.endJob).log = s.log := rfl
@[simp] theorem State.endJob_alert : (s.endJob).alert = s.alert := rfl
@[simp] theorem State.endJob_params : (s.endJob).params = s.params := rfl
@[simp] theorem State.endJob_port : (s.endJob).port = s.port := rfl
@[simp] theorem State.endJob_freeCount : (s.endJob).freeCount = s.freeCount := rfl

/-! ### countBurstBeat -/

@[simp] theorem State.countBurstBeat_pending : (s.countBurstBeat).pending = s.pending := rfl
@[simp] theorem State.countBurstBeat_pins : (s.countBurstBeat).pins = s.pins := rfl
@[simp] theorem State.countBurstBeat_regions : (s.countBurstBeat).regions = s.regions := rfl
@[simp] theorem State.countBurstBeat_store : (s.countBurstBeat).store = s.store := rfl
@[simp] theorem State.countBurstBeat_passage : (s.countBurstBeat).passage = s.passage := rfl
@[simp] theorem State.countBurstBeat_arbiter : (s.countBurstBeat).arbiter = s.arbiter := rfl
@[simp] theorem State.countBurstBeat_pool : (s.countBurstBeat).pool = s.pool := rfl
@[simp] theorem State.countBurstBeat_queue : (s.countBurstBeat).queue = s.queue := rfl
@[simp] theorem State.countBurstBeat_reader : (s.countBurstBeat).reader = { s.reader with burstBeats := s.reader.burstBeats + 1 } := rfl
@[simp] theorem State.countBurstBeat_timebase : (s.countBurstBeat).timebase = s.timebase := rfl
@[simp] theorem State.countBurstBeat_scrubber : (s.countBurstBeat).scrubber = s.scrubber := rfl
@[simp] theorem State.countBurstBeat_log : (s.countBurstBeat).log = s.log := rfl
@[simp] theorem State.countBurstBeat_alert : (s.countBurstBeat).alert = s.alert := rfl
@[simp] theorem State.countBurstBeat_params : (s.countBurstBeat).params = s.params := rfl
@[simp] theorem State.countBurstBeat_port : (s.countBurstBeat).port = s.port := rfl
@[simp] theorem State.countBurstBeat_freeCount : (s.countBurstBeat).freeCount = s.freeCount := rfl

/-! ### setPassage -/

@[simp] theorem State.setPassage_pending (p : PassageState) : (s.setPassage p).pending = s.pending := rfl
@[simp] theorem State.setPassage_pins (p : PassageState) : (s.setPassage p).pins = s.pins := rfl
@[simp] theorem State.setPassage_regions (p : PassageState) : (s.setPassage p).regions = s.regions := rfl
@[simp] theorem State.setPassage_store (p : PassageState) : (s.setPassage p).store = s.store := rfl
@[simp] theorem State.setPassage_passage (p : PassageState) : (s.setPassage p).passage = { s.passage with state := p } := rfl
@[simp] theorem State.setPassage_arbiter (p : PassageState) : (s.setPassage p).arbiter = s.arbiter := rfl
@[simp] theorem State.setPassage_pool (p : PassageState) : (s.setPassage p).pool = s.pool := rfl
@[simp] theorem State.setPassage_queue (p : PassageState) : (s.setPassage p).queue = s.queue := rfl
@[simp] theorem State.setPassage_reader (p : PassageState) : (s.setPassage p).reader = s.reader := rfl
@[simp] theorem State.setPassage_timebase (p : PassageState) : (s.setPassage p).timebase = s.timebase := rfl
@[simp] theorem State.setPassage_scrubber (p : PassageState) : (s.setPassage p).scrubber = s.scrubber := rfl
@[simp] theorem State.setPassage_log (p : PassageState) : (s.setPassage p).log = s.log := rfl
@[simp] theorem State.setPassage_alert (p : PassageState) : (s.setPassage p).alert = s.alert := rfl
@[simp] theorem State.setPassage_params (p : PassageState) : (s.setPassage p).params = s.params := rfl
@[simp] theorem State.setPassage_port (p : PassageState) : (s.setPassage p).port = s.port := rfl
@[simp] theorem State.setPassage_freeCount (p : PassageState) : (s.setPassage p).freeCount = s.freeCount := rfl

/-! ### discardUpstream -/

@[simp] theorem State.discardUpstream_pending : (s.discardUpstream).pending = s.pending := rfl
@[simp] theorem State.discardUpstream_pins : (s.discardUpstream).pins = s.pins := rfl
@[simp] theorem State.discardUpstream_regions : (s.discardUpstream).regions = s.regions := rfl
@[simp] theorem State.discardUpstream_store : (s.discardUpstream).store = s.store := rfl
@[simp] theorem State.discardUpstream_passage : (s.discardUpstream).passage = { s.passage with buffer := [], hold := none } := rfl
@[simp] theorem State.discardUpstream_arbiter : (s.discardUpstream).arbiter = s.arbiter := rfl
@[simp] theorem State.discardUpstream_pool : (s.discardUpstream).pool = s.pool := rfl
@[simp] theorem State.discardUpstream_queue : (s.discardUpstream).queue = s.queue := rfl
@[simp] theorem State.discardUpstream_reader : (s.discardUpstream).reader = s.reader := rfl
@[simp] theorem State.discardUpstream_timebase : (s.discardUpstream).timebase = s.timebase := rfl
@[simp] theorem State.discardUpstream_scrubber : (s.discardUpstream).scrubber = s.scrubber := rfl
@[simp] theorem State.discardUpstream_log : (s.discardUpstream).log = s.log := rfl
@[simp] theorem State.discardUpstream_alert : (s.discardUpstream).alert = s.alert := rfl
@[simp] theorem State.discardUpstream_params : (s.discardUpstream).params = s.params := rfl
@[simp] theorem State.discardUpstream_port : (s.discardUpstream).port = s.port := rfl
@[simp] theorem State.discardUpstream_freeCount : (s.discardUpstream).freeCount = s.freeCount := rfl

/-! ### pushBuffer -/

@[simp] theorem State.pushBuffer_pending (e : BufferEntry) : (s.pushBuffer e).pending = s.pending := rfl
@[simp] theorem State.pushBuffer_pins (e : BufferEntry) : (s.pushBuffer e).pins = s.pins := rfl
@[simp] theorem State.pushBuffer_regions (e : BufferEntry) : (s.pushBuffer e).regions = s.regions := rfl
@[simp] theorem State.pushBuffer_store (e : BufferEntry) : (s.pushBuffer e).store = s.store := rfl
@[simp] theorem State.pushBuffer_passage (e : BufferEntry) : (s.pushBuffer e).passage = { s.passage with buffer := s.passage.buffer ++ [e] } := rfl
@[simp] theorem State.pushBuffer_arbiter (e : BufferEntry) : (s.pushBuffer e).arbiter = s.arbiter := rfl
@[simp] theorem State.pushBuffer_pool (e : BufferEntry) : (s.pushBuffer e).pool = s.pool := rfl
@[simp] theorem State.pushBuffer_queue (e : BufferEntry) : (s.pushBuffer e).queue = s.queue := rfl
@[simp] theorem State.pushBuffer_reader (e : BufferEntry) : (s.pushBuffer e).reader = s.reader := rfl
@[simp] theorem State.pushBuffer_timebase (e : BufferEntry) : (s.pushBuffer e).timebase = s.timebase := rfl
@[simp] theorem State.pushBuffer_scrubber (e : BufferEntry) : (s.pushBuffer e).scrubber = s.scrubber := rfl
@[simp] theorem State.pushBuffer_log (e : BufferEntry) : (s.pushBuffer e).log = s.log := rfl
@[simp] theorem State.pushBuffer_alert (e : BufferEntry) : (s.pushBuffer e).alert = s.alert := rfl
@[simp] theorem State.pushBuffer_params (e : BufferEntry) : (s.pushBuffer e).params = s.params := rfl
@[simp] theorem State.pushBuffer_port (e : BufferEntry) : (s.pushBuffer e).port = s.port := rfl
@[simp] theorem State.pushBuffer_freeCount (e : BufferEntry) : (s.pushBuffer e).freeCount = s.freeCount := rfl

/-! ### issue -/

@[simp] theorem State.issue_pending (m : MemoryIssue) : (s.issue m).pending = s.pending := rfl
@[simp] theorem State.issue_pins (m : MemoryIssue) : (s.issue m).pins = { s.pins with memoryLink := some m } := rfl
@[simp] theorem State.issue_regions (m : MemoryIssue) : (s.issue m).regions = s.regions := rfl
@[simp] theorem State.issue_store (m : MemoryIssue) : (s.issue m).store = s.store := rfl
@[simp] theorem State.issue_passage (m : MemoryIssue) : (s.issue m).passage = s.passage := rfl
@[simp] theorem State.issue_arbiter (m : MemoryIssue) : (s.issue m).arbiter = s.arbiter := rfl
@[simp] theorem State.issue_pool (m : MemoryIssue) : (s.issue m).pool = s.pool := rfl
@[simp] theorem State.issue_queue (m : MemoryIssue) : (s.issue m).queue = s.queue := rfl
@[simp] theorem State.issue_reader (m : MemoryIssue) : (s.issue m).reader = s.reader := rfl
@[simp] theorem State.issue_timebase (m : MemoryIssue) : (s.issue m).timebase = s.timebase := rfl
@[simp] theorem State.issue_scrubber (m : MemoryIssue) : (s.issue m).scrubber = s.scrubber := rfl
@[simp] theorem State.issue_log (m : MemoryIssue) : (s.issue m).log = s.log := rfl
@[simp] theorem State.issue_alert (m : MemoryIssue) : (s.issue m).alert = s.alert := rfl
@[simp] theorem State.issue_params (m : MemoryIssue) : (s.issue m).params = s.params := rfl
@[simp] theorem State.issue_port (m : MemoryIssue) : (s.issue m).port = s.port := rfl
@[simp] theorem State.issue_freeCount (m : MemoryIssue) : (s.issue m).freeCount = s.freeCount := rfl

/-! ### takeLink -/

@[simp] theorem State.takeLink_pending (u : LinkUser) : (s.takeLink u).pending = s.pending := rfl
@[simp] theorem State.takeLink_pins (u : LinkUser) : (s.takeLink u).pins = s.pins := rfl
@[simp] theorem State.takeLink_regions (u : LinkUser) : (s.takeLink u).regions = s.regions := rfl
@[simp] theorem State.takeLink_store (u : LinkUser) : (s.takeLink u).store = s.store := rfl
@[simp] theorem State.takeLink_passage (u : LinkUser) : (s.takeLink u).passage = s.passage := rfl
@[simp] theorem State.takeLink_arbiter (u : LinkUser) : (s.takeLink u).arbiter = { s.arbiter with link := u } := rfl
@[simp] theorem State.takeLink_pool (u : LinkUser) : (s.takeLink u).pool = s.pool := rfl
@[simp] theorem State.takeLink_queue (u : LinkUser) : (s.takeLink u).queue = s.queue := rfl
@[simp] theorem State.takeLink_reader (u : LinkUser) : (s.takeLink u).reader = s.reader := rfl
@[simp] theorem State.takeLink_timebase (u : LinkUser) : (s.takeLink u).timebase = s.timebase := rfl
@[simp] theorem State.takeLink_scrubber (u : LinkUser) : (s.takeLink u).scrubber = s.scrubber := rfl
@[simp] theorem State.takeLink_log (u : LinkUser) : (s.takeLink u).log = s.log := rfl
@[simp] theorem State.takeLink_alert (u : LinkUser) : (s.takeLink u).alert = s.alert := rfl
@[simp] theorem State.takeLink_params (u : LinkUser) : (s.takeLink u).params = s.params := rfl
@[simp] theorem State.takeLink_port (u : LinkUser) : (s.takeLink u).port = s.port := rfl
@[simp] theorem State.takeLink_freeCount (u : LinkUser) : (s.takeLink u).freeCount = s.freeCount := rfl

/-! ### freeLink -/

@[simp] theorem State.freeLink_pending : (s.freeLink).pending = s.pending := rfl
@[simp] theorem State.freeLink_pins : (s.freeLink).pins = s.pins := rfl
@[simp] theorem State.freeLink_regions : (s.freeLink).regions = s.regions := rfl
@[simp] theorem State.freeLink_store : (s.freeLink).store = s.store := rfl
@[simp] theorem State.freeLink_passage : (s.freeLink).passage = s.passage := rfl
@[simp] theorem State.freeLink_arbiter : (s.freeLink).arbiter = { s.arbiter with link := .free } := rfl
@[simp] theorem State.freeLink_pool : (s.freeLink).pool = s.pool := rfl
@[simp] theorem State.freeLink_queue : (s.freeLink).queue = s.queue := rfl
@[simp] theorem State.freeLink_reader : (s.freeLink).reader = s.reader := rfl
@[simp] theorem State.freeLink_timebase : (s.freeLink).timebase = s.timebase := rfl
@[simp] theorem State.freeLink_scrubber : (s.freeLink).scrubber = s.scrubber := rfl
@[simp] theorem State.freeLink_log : (s.freeLink).log = s.log := rfl
@[simp] theorem State.freeLink_alert : (s.freeLink).alert = s.alert := rfl
@[simp] theorem State.freeLink_params : (s.freeLink).params = s.params := rfl
@[simp] theorem State.freeLink_port : (s.freeLink).port = s.port := rfl
@[simp] theorem State.freeLink_freeCount : (s.freeLink).freeCount = s.freeCount := rfl

/-! ### clearPassedOver -/

@[simp] theorem State.clearPassedOver_pending : (s.clearPassedOver).pending = s.pending := rfl
@[simp] theorem State.clearPassedOver_pins : (s.clearPassedOver).pins = s.pins := rfl
@[simp] theorem State.clearPassedOver_regions : (s.clearPassedOver).regions = s.regions := rfl
@[simp] theorem State.clearPassedOver_store : (s.clearPassedOver).store = s.store := rfl
@[simp] theorem State.clearPassedOver_passage : (s.clearPassedOver).passage = s.passage := rfl
@[simp] theorem State.clearPassedOver_arbiter : (s.clearPassedOver).arbiter = { s.arbiter with passedOver := 0 } := rfl
@[simp] theorem State.clearPassedOver_pool : (s.clearPassedOver).pool = s.pool := rfl
@[simp] theorem State.clearPassedOver_queue : (s.clearPassedOver).queue = s.queue := rfl
@[simp] theorem State.clearPassedOver_reader : (s.clearPassedOver).reader = s.reader := rfl
@[simp] theorem State.clearPassedOver_timebase : (s.clearPassedOver).timebase = s.timebase := rfl
@[simp] theorem State.clearPassedOver_scrubber : (s.clearPassedOver).scrubber = s.scrubber := rfl
@[simp] theorem State.clearPassedOver_log : (s.clearPassedOver).log = s.log := rfl
@[simp] theorem State.clearPassedOver_alert : (s.clearPassedOver).alert = s.alert := rfl
@[simp] theorem State.clearPassedOver_params : (s.clearPassedOver).params = s.params := rfl
@[simp] theorem State.clearPassedOver_port : (s.clearPassedOver).port = s.port := rfl
@[simp] theorem State.clearPassedOver_freeCount : (s.clearPassedOver).freeCount = s.freeCount := rfl

/-! ### setLongOp -/

@[simp] theorem State.setLongOp_pending (l : LongOp) : (s.setLongOp l).pending = s.pending := rfl
@[simp] theorem State.setLongOp_pins (l : LongOp) : (s.setLongOp l).pins = s.pins := rfl
@[simp] theorem State.setLongOp_regions (l : LongOp) : (s.setLongOp l).regions = s.regions := rfl
@[simp] theorem State.setLongOp_store (l : LongOp) : (s.setLongOp l).store = s.store := rfl
@[simp] theorem State.setLongOp_passage (l : LongOp) : (s.setLongOp l).passage = s.passage := rfl
@[simp] theorem State.setLongOp_arbiter (l : LongOp) : (s.setLongOp l).arbiter = s.arbiter := rfl
@[simp] theorem State.setLongOp_pool (l : LongOp) : (s.setLongOp l).pool = s.pool := rfl
@[simp] theorem State.setLongOp_queue (l : LongOp) : (s.setLongOp l).queue = s.queue := rfl
@[simp] theorem State.setLongOp_reader (l : LongOp) : (s.setLongOp l).reader = s.reader := rfl
@[simp] theorem State.setLongOp_timebase (l : LongOp) : (s.setLongOp l).timebase = s.timebase := rfl
@[simp] theorem State.setLongOp_scrubber (l : LongOp) : (s.setLongOp l).scrubber = s.scrubber := rfl
@[simp] theorem State.setLongOp_log (l : LongOp) : (s.setLongOp l).log = s.log := rfl
@[simp] theorem State.setLongOp_alert (l : LongOp) : (s.setLongOp l).alert = s.alert := rfl
@[simp] theorem State.setLongOp_params (l : LongOp) : (s.setLongOp l).params = s.params := rfl
@[simp] theorem State.setLongOp_port (l : LongOp) : (s.setLongOp l).port = { s.port with longOp := l } := rfl
@[simp] theorem State.setLongOp_freeCount (l : LongOp) : (s.setLongOp l).freeCount = s.freeCount := rfl

/-! ### setFrame -/

@[simp] theorem State.setFrame_pending (f : Frame) : (s.setFrame f).pending = s.pending := rfl
@[simp] theorem State.setFrame_pins (f : Frame) : (s.setFrame f).pins = s.pins := rfl
@[simp] theorem State.setFrame_regions (f : Frame) : (s.setFrame f).regions = s.regions := rfl
@[simp] theorem State.setFrame_store (f : Frame) : (s.setFrame f).store = s.store := rfl
@[simp] theorem State.setFrame_passage (f : Frame) : (s.setFrame f).passage = s.passage := rfl
@[simp] theorem State.setFrame_arbiter (f : Frame) : (s.setFrame f).arbiter = s.arbiter := rfl
@[simp] theorem State.setFrame_pool (f : Frame) : (s.setFrame f).pool = s.pool := rfl
@[simp] theorem State.setFrame_queue (f : Frame) : (s.setFrame f).queue = s.queue := rfl
@[simp] theorem State.setFrame_reader (f : Frame) : (s.setFrame f).reader = s.reader := rfl
@[simp] theorem State.setFrame_timebase (f : Frame) : (s.setFrame f).timebase = s.timebase := rfl
@[simp] theorem State.setFrame_scrubber (f : Frame) : (s.setFrame f).scrubber = s.scrubber := rfl
@[simp] theorem State.setFrame_log (f : Frame) : (s.setFrame f).log = s.log := rfl
@[simp] theorem State.setFrame_alert (f : Frame) : (s.setFrame f).alert = s.alert := rfl
@[simp] theorem State.setFrame_params (f : Frame) : (s.setFrame f).params = s.params := rfl
@[simp] theorem State.setFrame_port (f : Frame) : (s.setFrame f).port = { s.port with frame := f } := rfl
@[simp] theorem State.setFrame_freeCount (f : Frame) : (s.setFrame f).freeCount = s.freeCount := rfl

/-! ### answer -/

@[simp] theorem State.answer_pending (n : Nat) (st : Status) (bs : List Byte) : (s.answer n st bs).pending = s.pending := rfl
@[simp] theorem State.answer_pins (n : Nat) (st : Status) (bs : List Byte) : (s.answer n st bs).pins = s.pins := rfl
@[simp] theorem State.answer_regions (n : Nat) (st : Status) (bs : List Byte) : (s.answer n st bs).regions = s.regions := rfl
@[simp] theorem State.answer_store (n : Nat) (st : Status) (bs : List Byte) : (s.answer n st bs).store = s.store := rfl
@[simp] theorem State.answer_passage (n : Nat) (st : Status) (bs : List Byte) : (s.answer n st bs).passage = s.passage := rfl
@[simp] theorem State.answer_arbiter (n : Nat) (st : Status) (bs : List Byte) : (s.answer n st bs).arbiter = s.arbiter := rfl
@[simp] theorem State.answer_pool (n : Nat) (st : Status) (bs : List Byte) : (s.answer n st bs).pool = s.pool := rfl
@[simp] theorem State.answer_queue (n : Nat) (st : Status) (bs : List Byte) : (s.answer n st bs).queue = s.queue := rfl
@[simp] theorem State.answer_reader (n : Nat) (st : Status) (bs : List Byte) : (s.answer n st bs).reader = s.reader := rfl
@[simp] theorem State.answer_timebase (n : Nat) (st : Status) (bs : List Byte) : (s.answer n st bs).timebase = s.timebase := rfl
@[simp] theorem State.answer_scrubber (n : Nat) (st : Status) (bs : List Byte) : (s.answer n st bs).scrubber = s.scrubber := rfl
@[simp] theorem State.answer_log (n : Nat) (st : Status) (bs : List Byte) : (s.answer n st bs).log = s.log := rfl
@[simp] theorem State.answer_alert (n : Nat) (st : Status) (bs : List Byte) : (s.answer n st bs).alert = s.alert := rfl
@[simp] theorem State.answer_params (n : Nat) (st : Status) (bs : List Byte) : (s.answer n st bs).params = s.params := rfl
@[simp] theorem State.answer_port (n : Nat) (st : Status) (bs : List Byte) : (s.answer n st bs).port = { s.port with frame := .response (responseBytes st bs) 0, bitCount := 8 * (n + 2) } := rfl
@[simp] theorem State.answer_freeCount (n : Nat) (st : Status) (bs : List Byte) : (s.answer n st bs).freeCount = s.freeCount := rfl

/-! ### reloadPacing -/

@[simp] theorem State.reloadPacing_pending : (s.reloadPacing).pending = s.pending := rfl
@[simp] theorem State.reloadPacing_pins : (s.reloadPacing).pins = s.pins := rfl
@[simp] theorem State.reloadPacing_regions : (s.reloadPacing).regions = s.regions := rfl
@[simp] theorem State.reloadPacing_store : (s.reloadPacing).store = s.store := rfl
@[simp] theorem State.reloadPacing_passage : (s.reloadPacing).passage = s.passage := rfl
@[simp] theorem State.reloadPacing_arbiter : (s.reloadPacing).arbiter = s.arbiter := rfl
@[simp] theorem State.reloadPacing_pool : (s.reloadPacing).pool = s.pool := rfl
@[simp] theorem State.reloadPacing_queue : (s.reloadPacing).queue = s.queue := rfl
@[simp] theorem State.reloadPacing_reader : (s.reloadPacing).reader = s.reader := rfl
@[simp] theorem State.reloadPacing_timebase : (s.reloadPacing).timebase = s.timebase := rfl
@[simp] theorem State.reloadPacing_scrubber : (s.reloadPacing).scrubber = { s.scrubber with pacing := s.params.latch, underflowOwed := false } := rfl
@[simp] theorem State.reloadPacing_log : (s.reloadPacing).log = s.log := rfl
@[simp] theorem State.reloadPacing_alert : (s.reloadPacing).alert = s.alert := rfl
@[simp] theorem State.reloadPacing_params : (s.reloadPacing).params = s.params := rfl
@[simp] theorem State.reloadPacing_port : (s.reloadPacing).port = s.port := rfl
@[simp] theorem State.reloadPacing_freeCount : (s.reloadPacing).freeCount = s.freeCount := rfl

/-! ### advanceTimebase -/

@[simp] theorem State.advanceTimebase_pending : (s.advanceTimebase).pending = s.pending := rfl
@[simp] theorem State.advanceTimebase_pins : (s.advanceTimebase).pins = s.pins := rfl
@[simp] theorem State.advanceTimebase_regions : (s.advanceTimebase).regions = s.regions := rfl
@[simp] theorem State.advanceTimebase_store : (s.advanceTimebase).store = s.store := rfl
@[simp] theorem State.advanceTimebase_passage : (s.advanceTimebase).passage = s.passage := rfl
@[simp] theorem State.advanceTimebase_arbiter : (s.advanceTimebase).arbiter = s.arbiter := rfl
@[simp] theorem State.advanceTimebase_pool : (s.advanceTimebase).pool = s.pool := rfl
@[simp] theorem State.advanceTimebase_queue : (s.advanceTimebase).queue = s.queue := rfl
@[simp] theorem State.advanceTimebase_reader : (s.advanceTimebase).reader = s.reader := rfl
@[simp] theorem State.advanceTimebase_timebase : (s.advanceTimebase).timebase = ⟨0, s.params.divider, s.timebase.tickCounter + 1⟩ := rfl
@[simp] theorem State.advanceTimebase_scrubber : (s.advanceTimebase).scrubber = s.scrubber := rfl
@[simp] theorem State.advanceTimebase_log : (s.advanceTimebase).log = s.log := rfl
@[simp] theorem State.advanceTimebase_alert : (s.advanceTimebase).alert = s.alert := rfl
@[simp] theorem State.advanceTimebase_params : (s.advanceTimebase).params = s.params := rfl
@[simp] theorem State.advanceTimebase_port : (s.advanceTimebase).port = s.port := rfl
@[simp] theorem State.advanceTimebase_freeCount : (s.advanceTimebase).freeCount = s.freeCount := rfl

/-! ### advanceHold -/

@[simp] theorem State.advanceHold_pending : (s.advanceHold).pending = s.pending := rfl
@[simp] theorem State.advanceHold_pins : (s.advanceHold).pins = s.pins := rfl
@[simp] theorem State.advanceHold_regions : (s.advanceHold).regions = s.regions := rfl
@[simp] theorem State.advanceHold_store : (s.advanceHold).store = s.store := rfl
@[simp] theorem State.advanceHold_passage : (s.advanceHold).passage = { s.passage with hold := s.passage.hold.map HoldRecord.tick } := rfl
@[simp] theorem State.advanceHold_arbiter : (s.advanceHold).arbiter = s.arbiter := rfl
@[simp] theorem State.advanceHold_pool : (s.advanceHold).pool = s.pool := rfl
@[simp] theorem State.advanceHold_queue : (s.advanceHold).queue = s.queue := rfl
@[simp] theorem State.advanceHold_reader : (s.advanceHold).reader = s.reader := rfl
@[simp] theorem State.advanceHold_timebase : (s.advanceHold).timebase = s.timebase := rfl
@[simp] theorem State.advanceHold_scrubber : (s.advanceHold).scrubber = s.scrubber := rfl
@[simp] theorem State.advanceHold_log : (s.advanceHold).log = s.log := rfl
@[simp] theorem State.advanceHold_alert : (s.advanceHold).alert = s.alert := rfl
@[simp] theorem State.advanceHold_params : (s.advanceHold).params = s.params := rfl
@[simp] theorem State.advanceHold_port : (s.advanceHold).port = s.port := rfl
@[simp] theorem State.advanceHold_freeCount : (s.advanceHold).freeCount = s.freeCount := rfl

end Sys2Proof.Machine
end

