-- ==== Sys2Proof/Laws/Store.lean ====
section
/-! SUPPORT. The check store: a read after a write, and the canonical form that every store operation keeps. -/

namespace Sys2Proof.Machine

/-- Every listed number is above a bound. -/
def CheckStore.above (st : CheckStore) (n : Nat) : Prop := ∀ e ∈ st, n < e.1

/-- The canonical form of a list with a head entry. -/
theorem CheckStore.wf_cons (k : Nat) (r : TractRecord) (st : CheckStore) :
    CheckStore.wf ((k, r) :: st) = true ↔ r ≠ .initial ∧ CheckStore.above st k ∧ CheckStore.wf st = true := by
  induction st generalizing k r with
  | nil => simp [CheckStore.wf, CheckStore.above]
  | cons e st ih =>
    obtain ⟨k', r'⟩ := e
    simp only [CheckStore.wf, Bool.and_eq_true, decide_eq_true_eq]
    constructor
    · rintro ⟨⟨hr, hk⟩, hw⟩
      refine ⟨hr, ?_, hw⟩
      intro e he
      rcases List.mem_cons.mp he with rfl | he
      · exact hk
      · exact hk.trans (((ih k' r').mp hw).2.1 e he)
    · rintro ⟨hr, ha, hw⟩
      exact ⟨⟨hr, ha (k', r') (by simp)⟩, hw⟩

/-- A filtered store keeps the canonical form. -/
theorem CheckStore.wf_filter (p : Nat × TractRecord → Bool) (st : CheckStore) (h : CheckStore.wf st = true) :
    CheckStore.wf (List.filter p st) = true := by
  induction st with
  | nil => rfl
  | cons e st ih =>
    obtain ⟨k, r⟩ := e
    obtain ⟨hr, ha, hw⟩ := (CheckStore.wf_cons k r st).mp h
    by_cases hp : p (k, r) = true
    · rw [List.filter_cons_of_pos hp]
      exact (CheckStore.wf_cons _ _ _).mpr ⟨hr, fun e he => ha e (List.mem_filter.mp he).1, ih hw⟩
    · rw [List.filter_cons_of_neg hp]
      exact ih hw

/-- Preparation keeps the canonical form. -/
theorem CheckStore.wf_initialise (p : Nat → Bool) (st : CheckStore) (h : CheckStore.wf st = true) :
    CheckStore.wf (CheckStore.initialise st p) = true := CheckStore.wf_filter _ st h

/-- Removing an entry keeps the canonical form. -/
theorem CheckStore.wf_erase (n : Nat) (st : CheckStore) (h : CheckStore.wf st = true) :
    CheckStore.wf (CheckStore.erase st n) = true := CheckStore.wf_filter _ st h

/-- What an insertion lists. -/
theorem CheckStore.mem_insert (st : CheckStore) (n : Nat) (r : TractRecord) (e : Nat × TractRecord) :
    e ∈ CheckStore.insert st n r ↔ e = (n, r) ∨ e ∈ st := by
  induction st with
  | nil => simp [CheckStore.insert]
  | cons q st ih =>
    obtain ⟨k, q⟩ := q
    simp only [CheckStore.insert]
    split
    · simp
    · simp only [List.mem_cons, ih]
      tauto

/-- Inserting a record under a number that has no entry keeps the canonical form. -/
theorem CheckStore.wf_insert (st : CheckStore) (n : Nat) (r : TractRecord) (h : CheckStore.wf st = true) (hr : r ≠ .initial)
    (hn : ∀ e ∈ st, e.1 ≠ n) : CheckStore.wf (CheckStore.insert st n r) = true := by
  induction st with
  | nil => simp [CheckStore.insert, CheckStore.wf, hr]
  | cons e st ih =>
    obtain ⟨k, q⟩ := e
    obtain ⟨hq, ha, hw⟩ := (CheckStore.wf_cons k q st).mp h
    have hk : k ≠ n := hn (k, q) (by simp)
    simp only [CheckStore.insert]
    split
    · rename_i hlt
      refine (CheckStore.wf_cons _ _ _).mpr ⟨hr, ?_, h⟩
      intro e he
      rcases List.mem_cons.mp he with rfl | he
      · exact hlt
      · exact hlt.trans (ha e he)
    · rename_i hge
      refine (CheckStore.wf_cons _ _ _).mpr ⟨hq, ?_, ih hw fun e he => hn e (by simp [he])⟩
      intro e he
      rcases (CheckStore.mem_insert st n r e).mp he with rfl | he
      · show k < n
        omega
      · exact ha e he

/-- Every record write keeps the canonical form. -/
theorem CheckStore.wf_write (st : CheckStore) (n : Nat) (r : TractRecord) (h : CheckStore.wf st = true) :
    CheckStore.wf (CheckStore.write st n r) = true := by
  unfold CheckStore.write
  split
  · exact CheckStore.wf_erase n st h
  · rename_i hr
    refine CheckStore.wf_insert _ n r (CheckStore.wf_erase n st h) hr ?_
    intro e he
    simpa [CheckStore.erase] using (List.mem_filter.mp he).2

/-- A number with no entry reads as the initial record. -/
theorem CheckStore.read_unlisted (st : CheckStore) (n : Nat) (h : ∀ e ∈ st, e.1 ≠ n) :
    CheckStore.read st n = .initial := by
  induction st with
  | nil => rfl
  | cons e st ih =>
    obtain ⟨k, r⟩ := e
    have hk : k ≠ n := h (k, r) (by simp)
    simp only [CheckStore.read, hk, if_false]
    exact ih fun e he => h e (by simp [he])

/-- Preparation: the records it reaches read as the initial record, the others as before. -/
theorem CheckStore.read_initialise (st : CheckStore) (p : Nat → Bool) (n : Nat) :
    CheckStore.read (CheckStore.initialise st p) n = if p n then .initial else CheckStore.read st n := by
  induction st with
  | nil => simp [CheckStore.initialise, CheckStore.read]
  | cons e st ih =>
    obtain ⟨k, r⟩ := e
    unfold CheckStore.initialise at ih ⊢
    by_cases hp : p k = true
    · rw [List.filter_cons_of_neg (by simpa using hp), ih]
      by_cases hkn : k = n
      · subst hkn
        simp [hp]
      · simp [CheckStore.read, hkn]
    · rw [List.filter_cons_of_pos (by simpa using hp)]
      by_cases hkn : k = n
      · subst hkn
        simp [CheckStore.read, hp]
      · simp [CheckStore.read, hkn, ih]

/-- An erased number reads as the initial record, every other as before. -/
theorem CheckStore.read_erase (st : CheckStore) (m n : Nat) :
    CheckStore.read (CheckStore.erase st m) n = if n = m then .initial else CheckStore.read st n := by
  have h := CheckStore.read_initialise st (fun k => k == m) n
  have he : CheckStore.initialise st (fun k => k == m) = CheckStore.erase st m := by
    simp only [CheckStore.initialise, CheckStore.erase, bne]
  rw [he] at h
  simpa using h

/-- Reading after an insertion under a number that has no entry. -/
theorem CheckStore.read_insert (st : CheckStore) (m n : Nat) (r : TractRecord) (h : ∀ e ∈ st, e.1 ≠ m) :
    CheckStore.read (CheckStore.insert st m r) n = if n = m then r else CheckStore.read st n := by
  induction st with
  | nil =>
    simp only [CheckStore.insert, CheckStore.read, eq_comm (a := m)]
  | cons e st ih =>
    obtain ⟨k, q⟩ := e
    have hk : k ≠ m := h (k, q) (by simp)
    simp only [CheckStore.insert]
    split
    · simp only [CheckStore.read, eq_comm (a := m)]
    · have ih' := ih fun e he => h e (by simp [he])
      simp only [CheckStore.read, ih']
      by_cases hkn : k = n
      · subst hkn
        simp [hk]
      · simp [hkn]

/-- A record written reads back; every other record reads as before. -/
theorem CheckStore.read_write (st : CheckStore) (m n : Nat) (r : TractRecord) :
    CheckStore.read (CheckStore.write st m r) n = if n = m then r else CheckStore.read st n := by
  unfold CheckStore.write
  split
  · rename_i hr
    rw [CheckStore.read_erase, hr]
  · have hn : ∀ e ∈ CheckStore.erase st m, e.1 ≠ m := by
      intro e he
      simpa [CheckStore.erase] using (List.mem_filter.mp he).2
    rw [CheckStore.read_insert _ _ _ _ hn, CheckStore.read_erase]
    by_cases hnm : n = m <;> simp [hnm]

/-- The written record reads back. -/
theorem CheckStore.read_write_same (st : CheckStore) (n : Nat) (r : TractRecord) :
    CheckStore.read (CheckStore.write st n r) n = r := by simp [CheckStore.read_write]

/-- Another record reads as before. -/
theorem CheckStore.read_write_other (st : CheckStore) {m n : Nat} (r : TractRecord) (h : n ≠ m) :
    CheckStore.read (CheckStore.write st m r) n = CheckStore.read st n := by simp [CheckStore.read_write, h]

/-- The record of a tract just written. -/
@[simp] theorem State.record_setRecord_same (s : State) (t : TractRef) (r : TractRecord) : (s.setRecord t r).record t = r :=
  CheckStore.read_write_same _ _ _

/-- The record of a tract after another record is written. -/
theorem State.record_setRecord_other (s : State) (t q : TractRef) (r : TractRecord)
    (h : (s.region q.region).recordNumber q.tract ≠ (s.region t.region).recordNumber t.tract) :
    (s.setRecord t r).record q = s.record q := CheckStore.read_write_other _ _ h

/-- Every record write of a state keeps its store's canonical form. -/
theorem State.setRecord_keeps_wf (s : State) (t : TractRef) (r : TractRecord) (h : CheckStore.wf s.store = true) :
    CheckStore.wf (s.setRecord t r).store = true := CheckStore.wf_write _ _ _ h

end Sys2Proof.Machine
end

