-- ==== Sys2Proof/Laws/Ops.lean ====
section
/-! SUPPORT. For each shared operation of the part, what it can do, said once: the end of a happening, offers, the reader's
search, settling, and the execution of a request. -/

namespace Sys2Proof.Machine

/-! ## The end of a happening -/

/-- The end of a happening changes the standing grant and the ALERT level only. -/
theorem State.conclude_eq (s : State) :
    s.conclude =
      { s with
        arbiter := { s.arbiter with granting := s.grantDue }
        alert := { s.alert with low := alertLevel s.alert.causes s.params.mask } } := rfl

@[simp] theorem State.conclude_pending (s : State) : s.conclude.pending = s.pending := rfl
@[simp] theorem State.conclude_pins (s : State) : s.conclude.pins = s.pins := rfl
@[simp] theorem State.conclude_regions (s : State) : s.conclude.regions = s.regions := rfl
@[simp] theorem State.conclude_store (s : State) : s.conclude.store = s.store := rfl
@[simp] theorem State.conclude_passage (s : State) : s.conclude.passage = s.passage := rfl
@[simp] theorem State.conclude_arbiter (s : State) :
    s.conclude.arbiter = { s.arbiter with granting := s.grantDue } := rfl
@[simp] theorem State.conclude_pool (s : State) : s.conclude.pool = s.pool := rfl
@[simp] theorem State.conclude_queue (s : State) : s.conclude.queue = s.queue := rfl
@[simp] theorem State.conclude_reader (s : State) : s.conclude.reader = s.reader := rfl
@[simp] theorem State.conclude_timebase (s : State) : s.conclude.timebase = s.timebase := rfl
@[simp] theorem State.conclude_scrubber (s : State) : s.conclude.scrubber = s.scrubber := rfl
@[simp] theorem State.conclude_log (s : State) : s.conclude.log = s.log := rfl
@[simp] theorem State.conclude_alert (s : State) :
    s.conclude.alert = ⟨s.alert.causes, alertLevel s.alert.causes s.params.mask⟩ := rfl
@[simp] theorem State.conclude_params (s : State) : s.conclude.params = s.params := rfl
@[simp] theorem State.conclude_port (s : State) : s.conclude.port = s.port := rfl
@[simp] theorem State.conclude_freeCount (s : State) : s.conclude.freeCount = s.freeCount := rfl

/-- After the end of a happening ALERT agrees with the causes and the mask. -/
theorem State.conclude_alertAgrees (s : State) : s.conclude.alertAgrees := rfl

/-! ## Offers -/

/-- Everything an offer to the refresh queue can do (R79). -/
theorem State.offer_cases (s : State) (t : TractRef) :
    ((s.record t).queued = true ∧ s.offer t = s) ∨
      ((s.record t).queued = false ∧ s.queue.length < Config.queueDepth ∧ s.offer t = s.append t) ∨
      ((s.record t).queued = false ∧ Config.queueDepth ≤ s.queue.length ∧ s.offer t = s.setCause .queueFull) := by
  unfold State.offer
  by_cases hq : (s.record t).queued = true
  · exact .inl ⟨hq, by simp [hq]⟩
  · have hq' : (s.record t).queued = false := by simpa using hq
    by_cases hl : s.queue.length < Config.queueDepth
    · exact .inr (.inl ⟨hq', hl, by simp [hq', hl]⟩)
    · exact .inr (.inr ⟨hq', by omega, by simp [hq', hl]⟩)

/-- Everything an offer to the fault log can do (R153, R154). -/
theorem State.offerFault_cases (s : State) (f : Finding) :
    (s.log.records.length < Config.logDepth ∧
        s.offerFault f =
          State.setCause
            { s with log :=
                { s.log with records := s.log.records ++ [⟨s.log.seqCounter, f⟩], seqCounter := s.log.seqCounter + 1 } }
            .fault) ∨
      (Config.logDepth ≤ s.log.records.length ∧
        s.offerFault f =
          State.setCause { s with log := { s.log with dropped := saturate16 s.log.dropped } } .drop) := by
  unfold State.offerFault
  by_cases h : s.log.records.length < Config.logDepth
  · exact .inl ⟨h, by simp [h]⟩
  · exact .inr ⟨by omega, by simp [h]⟩

/-- An offer to the fault log touches the log and the causes only. -/
theorem State.offerFault_frame (s : State) (f : Finding) :
    ∃ l a, s.offerFault f = { s with log := l, alert := a } := by
  rcases s.offerFault_cases f with ⟨-, h⟩ | ⟨-, h⟩ <;> exact ⟨_, _, h⟩

/-- An offer to the refresh queue touches the queue, the check store and the causes only. -/
theorem State.offer_frame (s : State) (t : TractRef) :
    ∃ q st a, s.offer t = { s with queue := q, store := st, alert := a } := by
  rcases s.offer_cases t with ⟨-, h⟩ | ⟨-, -, h⟩ | ⟨-, -, h⟩ <;> exact ⟨_, _, _, h⟩

/-- A break touches the pool, the check store, the queue and the causes only. -/
theorem State.breakAssembly_frame (s : State) (i : Fin 8) (t : TractRef) (o : Origin) :
    ∃ p q st a, s.breakAssembly i t o = { s with pool := p, queue := q, store := st, alert := a } := by
  unfold State.breakAssembly
  split
  · obtain ⟨q, st, a, h⟩ := State.offer_frame ((s.freeSlot i).setTractState t o.afterBreak) t
    exact ⟨_, q, st, a, h⟩
  · exact ⟨_, _, _, _, rfl⟩

/-! ## The reader's search -/

/-- A reader that is BUSY, or that no source waits for, finds nothing to do. -/
theorem State.look_searched (s : State) (h : s.searched = true) : s.look = s := by
  unfold State.look
  cases hj : s.reader.job with
  | some j => simp [State.lookFor, hj]
  | none =>
    have hw : s.queue.isEmpty = true ∧ s.scrubber.stepPending = false := by
      simpa [State.searched, hj] using h
    have hn : s.nextSource = none := by simp [State.nextSource, hw.1, hw.2]
    simp [State.lookFor, hj, hn]

/-- The cursor's advance touches the scrubber and the causes only. -/
theorem State.advanceCursor_frame (s : State) (t : TractRef) :
    ∃ sc a, s.advanceCursor t = { s with scrubber := sc, alert := a } := by
  unfold State.advanceCursor
  split
  · exact ⟨_, _, rfl⟩
  · split <;> exact ⟨_, _, rfl⟩

/-- A take touches the queue, the check store, the reader, the scrubber and the causes only. -/
theorem State.take_frame (s : State) (src : Source) :
    ∃ q st r sc a, s.take src = { s with queue := q, store := st, reader := r, scrubber := sc, alert := a } := by
  cases src with
  | queue =>
    change ∃ q st r sc a, s.takeFromQueue = _
    unfold State.takeFromQueue
    dsimp only
    split
    · exact ⟨_, _, _, _, _, rfl⟩
    · split <;> exact ⟨_, _, _, _, _, rfl⟩
  | scrub =>
    change ∃ q st r sc a, s.takeScrubStep = _
    unfold State.takeScrubStep
    dsimp only
    split
    · exact ⟨_, _, _, _, _, rfl⟩
    · rename_i t _
      obtain ⟨sc, a, h⟩ := State.advanceCursor_frame
        (State.setLastSource { s with scrubber := { s.scrubber with stepPending := false } } .scrub) t
      rw [h]
      split
      · exact ⟨_, _, _, _, _, rfl⟩
      · exact ⟨_, _, _, _, _, rfl⟩
      · split <;> exact ⟨_, _, _, _, _, rfl⟩
      · exact ⟨_, _, _, _, _, rfl⟩
      · exact ⟨_, _, _, _, _, rfl⟩

/-- A search touches the queue, the check store, the reader, the scrubber and the causes only. -/
theorem State.lookFor_frame (k : Nat) (s : State) :
    ∃ q st r sc a, State.lookFor k s = { s with queue := q, store := st, reader := r, scrubber := sc, alert := a } := by
  induction k generalizing s with
  | zero => exact ⟨_, _, _, _, _, rfl⟩
  | succ k ih =>
    unfold State.lookFor
    split
    · exact ⟨_, _, _, _, _, rfl⟩
    · split
      · exact ⟨_, _, _, _, _, rfl⟩
      · rename_i src _
        obtain ⟨q, st, r, sc, a, h⟩ := State.take_frame s src
        obtain ⟨q', st', r', sc', a', h'⟩ := ih (s.take src)
        refine ⟨q', st', r', sc', a', ?_⟩
        rw [h', h]

/-- The reader's search touches the queue, the check store, the reader, the scrubber and the causes only. -/
theorem State.look_frame (s : State) :
    ∃ q st r sc a, s.look = { s with queue := q, store := st, reader := r, scrubber := sc, alert := a } :=
  State.lookFor_frame _ _

/-! ## Settling -/

/-- With no burst end, underflow or hold timeout owed, carrying them out changes nothing. -/
theorem State.settleEffects_of_grantNext (s : State) (h : s.grantNext = true) : s.settleEffects = s := by
  simp only [State.grantNext, Bool.and_eq_true, Bool.not_eq_true'] at h
  obtain ⟨⟨hb, hu⟩, ht⟩ := h
  simp [State.settleEffects, State.settleBurst, State.settleUnderflow, State.settleTimeout, hb, hu, ht]

/-- Everything that carrying out the grant can do (R50): nothing where none is owed, the passage's grant, or the reader's. -/
theorem State.settleGrant_cases (s : State) :
    (s.grantOwed = false ∧ s.settleGrant = s) ∨
      (∃ t, s.arbiter.granting = some .passage ∧ s.passage.state = .claiming t ∧ s.settleGrant = s.grantPassage t) ∨
      ∃ j, s.arbiter.granting = some .reader ∧ s.reader.job = some j ∧ j.phase = .claiming ∧
        s.settleGrant = s.grantReader j := by
  unfold State.settleGrant State.grantOwed
  cases hg : s.arbiter.granting with
  | none => exact .inl ⟨rfl, rfl⟩
  | some c =>
    cases c with
    | passage => cases hp : s.passage.state <;> simp [State.claims, State.passageClaims, hp]
    | reader =>
      cases hj : s.reader.job with
      | none => simp [State.claims, State.readerClaims, hj]
      | some j => by_cases h : j.phase = .claiming <;> simp [State.claims, State.readerClaims, hj, h]

/-- With no grant owed, carrying it out changes nothing. -/
theorem State.settleGrant_of_none (s : State) (h : s.grantOwed = false) : s.settleGrant = s := by
  rcases s.settleGrant_cases with ⟨-, e⟩ | ⟨t, hg, hp, -⟩ | ⟨j, hg, hj, hc, -⟩
  · exact e
  · simp [State.grantOwed, hg, State.claims, State.passageClaims, hp] at h
  · simp [State.grantOwed, hg, State.claims, State.readerClaims, hj, hc] at h

/-- A touch changes at most the reader's job, and of it the overtaken mark alone (R53, R124). -/
theorem State.touch_frame (s : State) (t : Transaction) :
    s.touch t = s ∨ ∃ j, s.reader.job = some j ∧
      s.touch t = { s with reader := { s.reader with job := some { j with overtaken := true } } } := by
  unfold State.touch
  split
  · exact .inl rfl
  · unfold State.overtakeWhere
    split
    · rename_i j hj
      split
      · exact .inr ⟨j, hj, rfl⟩
      · exact .inl rfl
    · exact .inl rfl

/-- The grant to the passage (R45, R51, R53): the link, the passed-over count, the passage's state, the issued request, and at
most the overtaken mark of the job; then the end of the happening. -/
theorem State.grantPassage_frame (s : State) (t : Transaction) :
    ∃ job, s.grantPassage t = State.conclude
        { s with
          arbiter := { s.countPassedOver.arbiter with link := .passage }
          passage := { s.passage with state := .carrying t }
          pins := { s.pins with memoryLink := some (.request t.addr t.beats t.dir) }
          reader := { s.reader with job := job } } ∧
      (job = s.reader.job ∨ ∃ j, s.reader.job = some j ∧ job = some { j with overtaken := true }) := by
  unfold State.grantPassage
  have hc : s.countPassedOver = { s with arbiter := s.countPassedOver.arbiter } := by
    unfold State.countPassedOver
    split <;> rfl
  rw [hc]
  rcases State.touch_frame (((State.takeLink { s with arbiter := s.countPassedOver.arbiter } .passage).setPassage
      (.carrying t)).issue (.request t.addr t.beats t.dir)) t with h | ⟨j, hj, h⟩
  · exact ⟨s.reader.job, by rw [h]; rfl, .inl rfl⟩
  · exact ⟨some { j with overtaken := true }, by rw [h]; rfl, .inr ⟨j, hj, rfl⟩⟩

/-- The grant to the reader (R50, R51, R120). -/
theorem State.grantReader_eq (s : State) (j : Job) :
    s.grantReader j = State.conclude
      { s with
        arbiter := { s.arbiter with link := .reader, passedOver := 0 }
        reader := { s.reader with job := some { j with phase := .reading, errorOffset := none }, burstBeats := 0 }
        pins := { s.pins with memoryLink := some (.request (s.burstAddr j) Config.readerBurstBeats .read) } } := rfl

/-- With nothing owed, settling changes nothing. -/
theorem State.settle_of_settled (s : State) (h : s.settled = true) : s.settle = s := by
  simp only [State.settled, Bool.and_eq_true, Bool.not_eq_true'] at h
  rw [State.settle, s.settleEffects_of_grantNext h.1, s.settleGrant_of_none h.2]

/-- The two grant commands carry out what is owed, the grant with it (log 5). -/
theorem execPassageGrant_eq (s : State) : execPassageGrant s = .next s.settle := by
  unfold execPassageGrant State.settle State.settleGrant
  dsimp only
  split <;> simp_all

theorem execReaderGrant_eq (s : State) : execReaderGrant s = .next s.settle := by
  unfold execReaderGrant State.settle State.settleGrant
  dsimp only
  split
  · split <;> simp_all
  · rfl

/-- The passage's grant made in the happening before is what PASSAGE_GRANT carries out (R45). -/
theorem execPassageGrant_of_granting (s : State) (t : Transaction) (h : s.grantNext = true)
    (hg : s.arbiter.granting = some .passage) (hp : s.passage.state = .claiming t) :
    execPassageGrant s = .next (s.grantPassage t) := by
  simp [execPassageGrant, s.settleEffects_of_grantNext h, hg, hp]

/-- The reader's grant made in the happening before is what READER_GRANT carries out (R120). -/
theorem execReaderGrant_of_granting (s : State) (j : Job) (h : s.grantNext = true)
    (hg : s.arbiter.granting = some .reader) (hj : s.reader.job = some j) (hc : j.phase = .claiming) :
    execReaderGrant s = .next (s.grantReader j) := by
  simp [execReaderGrant, s.settleEffects_of_grantNext h, hg, hj, hc]

/-! ## The execution of a request -/

/-- A request whose CRC byte completes in REQUEST is executed and answered (R172). -/
theorem State.request_listening (s : State) (n : Nat) (act : State → Reply) (h : s.listening = true) :
    s.request n act = (act s).state.answer n (act s).status (act s).results := by
  simp only [State.listening, Bool.and_eq_true, decide_eq_true_eq] at h
  simp [State.request, State.settle_of_settled s h.1, h.2]

/-- In any other state of the port nothing is executed. -/
theorem State.request_ignored (s : State) (n : Nat) (act : State → Reply) (h : s.settled = true)
    (hf : s.port.frame ≠ .request) : s.request n act = s := by
  simp [State.request, State.settle_of_settled s h, hf]

end Sys2Proof.Machine
end

