-- ==== Sys2Proof/Laws/PerInstr.lean ====
section
/-! SUPPORT. Laws of the commands as syntax, one lemma per constructor: the arguments a command's request carries are as many
as its code takes (R170, R194). -/

namespace Sys2Proof.Laws.RequestShape

open Sys2Proof Sys2Proof.Machine

/-- A command that a request spells carries as many argument bytes as the port takes after its code. -/
def Statement (i : Instr) : Prop :=
  ∀ code args, requestBody i = some (code, args) → commandArgs code = some args.length

theorem of_none (i : Instr) (h : requestBody i = none) : Statement i := by
  intro code args e
  rw [h] at e
  cases e

theorem of_some (i : Instr) (code : Byte) (args : List Byte) (h : requestBody i = some (code, args))
    (e : commandArgs code = some args.length) : Statement i := by
  intro code' args' e'
  rw [h] at e'
  cases e'
  exact e

theorem powerOn (mcsHigh hrstHigh : Bool) : Statement (.powerOn mcsHigh hrstHigh) :=
  of_none _ rfl

theorem hrst (level : Bool) : Statement (.hrst level) :=
  of_none _ rfl

theorem hostRequest (addr : Word) (countLessOne : BitVec 4) (dir : Dir) : Statement (.hostRequest addr countLessOne dir) :=
  of_none _ rfl

theorem passageGrant : Statement .passageGrant :=
  of_none _ rfl

theorem writeBeatForwarded (data : Lanes) (mask : BitVec 4) : Statement (.writeBeatForwarded data mask) :=
  of_none _ rfl

theorem writeResponse (resp : Resp) : Statement (.writeResponse resp) :=
  of_none _ rfl

theorem paddingBeat : Statement .paddingBeat :=
  of_none _ rfl

theorem readBeatArrival (data : Lanes) (resp : Resp) : Statement (.readBeatArrival data resp) :=
  of_none _ rfl

theorem responseDelivery : Statement .responseDelivery :=
  of_none _ rfl

theorem readerGrant : Statement .readerGrant :=
  of_none _ rfl

theorem readerBeat (data : Lanes) (resp : Resp) : Statement (.readerBeat data resp) :=
  of_none _ rfl

theorem readerBurstEnd : Statement .readerBurstEnd :=
  of_none _ rfl

theorem tick : Statement .tick :=
  of_none _ rfl

theorem underflow : Statement .underflow :=
  of_none _ rfl

theorem holdTimeout : Statement .holdTimeout :=
  of_none _ rfl

theorem preparationEnd : Statement .preparationEnd :=
  of_none _ rfl

theorem getStatus : Statement .getStatus :=
  of_some _ _ _ rfl rfl

theorem getParams : Statement .getParams :=
  of_some _ _ _ rfl rfl

theorem setParams (divider latch holdTimeout : BitVec 16) (patience mask : Byte) : Statement (.setParams divider latch holdTimeout patience mask) :=
  of_some _ _ _ rfl rfl

theorem getRegion (region : Byte) : Statement (.getRegion region) :=
  of_some _ _ _ rfl rfl

theorem setRegion (region : Byte) (base : Word) (sizeCode : Byte) (count entryBase : BitVec 16) (width : Byte) (poly : Word) (policy : Byte) : Statement (.setRegion region base sizeCode count entryBase width poly policy) :=
  of_some _ _ _ rfl rfl

theorem enableRegion (region : Byte) : Statement (.enableRegion region) :=
  of_some _ _ _ rfl rfl

theorem disableRegion (region : Byte) : Statement (.disableRegion region) :=
  of_some _ _ _ rfl rfl

theorem getTract (region : Byte) (tract : BitVec 16) : Statement (.getTract region tract) :=
  of_some _ _ _ rfl rfl

theorem forgetTract (region : Byte) (tract : BitVec 16) : Statement (.forgetTract region tract) :=
  of_some _ _ _ rfl rfl

theorem repairTract (region : Byte) (tract : BitVec 16) : Statement (.repairTract region tract) :=
  of_some _ _ _ rfl rfl

theorem getContext (slot : Byte) : Statement (.getContext slot) :=
  of_some _ _ _ rfl rfl

theorem peekFault : Statement .peekFault :=
  of_some _ _ _ rfl rfl

theorem popFault : Statement .popFault :=
  of_some _ _ _ rfl rfl

theorem getHold : Statement .getHold :=
  of_some _ _ _ rfl rfl

theorem releaseHold (response : Byte) : Statement (.releaseHold response) :=
  of_some _ _ _ rfl rfl

theorem clearAlert (mask : Byte) : Statement (.clearAlert mask) :=
  of_some _ _ _ rfl rfl

theorem restart : Statement .restart :=
  of_some _ _ _ rfl rfl

theorem badCrc (code : Byte) (args : List Byte) (crc : Byte) : Statement (.badCrc code args crc) :=
  of_none _ rfl

theorem badOp (code : Byte) : Statement (.badOp code) :=
  of_none _ rfl

theorem frameAbort (bytes : List Byte) (bits : BitVec 3) : Statement (.frameAbort bytes bits) :=
  of_none _ rfl

theorem responseCutShort : Statement .responseCutShort :=
  of_none _ rfl

theorem fallOfMcs : Statement .fallOfMcs :=
  of_none _ rfl

theorem responseSent : Statement .responseSent :=
  of_none _ rfl

theorem riseOfMcs : Statement .riseOfMcs :=
  of_none _ rfl

end Sys2Proof.Laws.RequestShape
end

