-- ==== Sys2Proof/Laws/Pool.lean ====
section
/-! SUPPORT. The pool's slots and its recency order after contexts are freed (R37, R64). -/

namespace Sys2Proof.Machine

/-- Freeing one slot empties it and no other. -/
theorem Pool.free_slot (p : Pool) (i k : Fin 8) : (p.free i).slot k = if k = i then none else p.slot k := by
  unfold Pool.slot Pool.free
  by_cases h : k = i
  · subst h; simp
  · have : i.val ≠ k.val := fun e => h (Fin.ext e.symm)
    simp [h, this]

/-- What `Pool.freeIf` does to the slots. -/
theorem Pool.freeIf_slot (q : TractRef → Bool) (p : Pool) (i k : Fin 8) :
    (Pool.freeIf q p i).slot k = if k = i then (p.slot k).filter (fun c => !q c.ref) else p.slot k := by
  unfold Pool.freeIf
  cases h : p.slot i with
  | none => by_cases hk : k = i <;> simp_all
  | some c =>
    by_cases hq : q c.ref <;> by_cases hk : k = i <;> simp_all [Pool.free_slot, Option.filter]

/-- What `Pool.freeIf` does to the order. -/
theorem Pool.freeIf_recency (q : TractRef → Bool) (p : Pool) (i : Fin 8) :
    (Pool.freeIf q p i).recency = p.recency.filter fun k => k != i || (p.slot k).all fun c => !q c.ref := by
  unfold Pool.freeIf
  cases h : p.slot i with
  | none =>
    symm; rw [List.filter_eq_self]
    intro k _
    by_cases hk : k = i <;> simp_all
  | some c =>
    by_cases hq : q c.ref
    · simp only [hq, if_true, Pool.free]
      apply List.filter_congr
      intro k _
      by_cases hk : k = i <;> simp_all
    · simp only [hq]
      symm
      simp only [Bool.false_eq_true, if_false]
      rw [List.filter_eq_self]
      intro k _
      by_cases hk : k = i <;> simp_all

/-- What `Pool.freeIf` does over a list of slots. -/
theorem Pool.foldl_freeIf (q : TractRef → Bool) (l : List (Fin 8)) (p : Pool) :
    (∀ k, (l.foldl (Pool.freeIf q) p).slot k = if k ∈ l then (p.slot k).filter (fun c => !q c.ref) else p.slot k) ∧
      (l.foldl (Pool.freeIf q) p).recency =
        p.recency.filter fun k => decide (k ∉ l) || (p.slot k).all fun c => !q c.ref := by
  induction l generalizing p with
  | nil => simp
  | cons i l ih =>
    obtain ⟨h1, h2⟩ := ih (Pool.freeIf q p i)
    refine ⟨fun k => ?_, ?_⟩
    · rw [List.foldl_cons, h1, Pool.freeIf_slot]
      by_cases hk : k = i
      · subst hk
        cases p.slot k with
        | none => simp
        | some c => by_cases hq : q c.ref <;> simp [Option.filter, hq]
      · by_cases hl : k ∈ l <;> simp [hk, hl]
    · rw [List.foldl_cons, h2, Pool.freeIf_recency, List.filter_filter]
      apply List.filter_congr
      intro k _
      rw [Pool.freeIf_slot]
      by_cases hk : k = i
      · subst hk
        cases p.slot k with
        | none => simp
        | some c => by_cases hq : q c.ref <;> simp [Option.filter, hq]
      · by_cases hl : k ∈ l <;> simp [hk, hl]

/-- Freeing the contexts that a predicate on tracts names (R37, R64): their slots are empty, the others keep their context, and
the order keeps the rest in its order. -/
theorem Pool.freeWhere_eq (p : Pool) (q : TractRef → Bool) :
    (∀ k, (p.freeWhere q).slot k = (p.slot k).filter fun c => !q c.ref) ∧
      (p.freeWhere q).recency = p.recency.filter fun k => (p.slot k).all fun c => !q c.ref := by
  have hm : ∀ k : Fin 8, k ∈ slotNumbers := by decide
  obtain ⟨h1, h2⟩ := Pool.foldl_freeIf q slotNumbers p
  exact ⟨fun k => (h1 k).trans (if_pos (hm k)), h2.trans (by simp [hm])⟩

/-- FORGET-TRACT's freeing changes the pool alone (R18). -/
theorem State.freeTract_eq (s : State) (t : TractRef) :
    s.freeTract t = { s with pool := s.pool.freeWhere fun q => decide (q = t) } := by
  rw [State.freeTract]

/-- The cursor's move off a region changes the cursor alone (R147). -/
theorem State.moveCursorOff_frame (s : State) (n : Fin 8) :
    ∃ c, s.moveCursorOff n = { s with scrubber := { s.scrubber with cursor := c } } := by
  unfold State.moveCursorOff
  split
  · exact ⟨s.scrubber.cursor, rfl⟩
  · split
    · split <;> exact ⟨_, rfl⟩
    · exact ⟨s.scrubber.cursor, rfl⟩

/-- What an accepted DISABLE-REGION removes in every case (R37): pool, queue and cursor, and nothing else. -/
theorem State.withdrawRegion_frame (s : State) (n : Fin 8) :
    ∃ c, s.withdrawRegion n =
      { s with
        pool := s.pool.freeWhere fun t => decide (t.region = n)
        queue := s.queue.filter fun t => decide (t.region ≠ n)
        scrubber := { s.scrubber with cursor := c } } := by
  rw [State.withdrawRegion]
  generalize s.pool.freeWhere _ = p
  exact State.moveCursorOff_frame { s with pool := p, queue := s.queue.filter fun t => decide (t.region ≠ n) } n

end Sys2Proof.Machine
end

