-- ==== Sys2Proof/Laws/Settle.lean ====
section
/-! SUPPORT. Settling leaves nothing owed, and settling twice is settling once (log 3, log 4, log 5). -/

namespace Sys2Proof.Machine

/-! ## What the shared operations leave of the flag that an underflow is owed -/

theorem State.advanceCursor_underflowOwed (s : State) (t : TractRef) :
    (s.advanceCursor t).scrubber.underflowOwed = s.scrubber.underflowOwed := by
  unfold State.advanceCursor
  split
  · rfl
  · split <;> rfl

theorem State.take_underflowOwed (s : State) (src : Source) :
    (s.take src).scrubber.underflowOwed = s.scrubber.underflowOwed := by
  cases src with
  | queue =>
    change s.takeFromQueue.scrubber.underflowOwed = _
    unfold State.takeFromQueue
    dsimp only
    split
    · rfl
    · split <;> rfl
  | scrub =>
    change s.takeScrubStep.scrubber.underflowOwed = _
    unfold State.takeScrubStep
    dsimp only
    split
    · rfl
    · rename_i t _
      have h := State.advanceCursor_underflowOwed
        (State.setLastSource { s with scrubber := { s.scrubber with stepPending := false } } .scrub) t
      split
      · exact h
      · exact h
      · split <;> exact h
      · exact h
      · exact h

theorem State.lookFor_underflowOwed (k : Nat) (s : State) :
    (State.lookFor k s).scrubber.underflowOwed = s.scrubber.underflowOwed := by
  induction k generalizing s with
  | zero => rfl
  | succ k ih =>
    unfold State.lookFor
    split
    · rfl
    · split
      · rfl
      · rw [ih, State.take_underflowOwed]

/-- The reader's search leaves the owed underflow as it is. -/
theorem State.look_underflowOwed (s : State) : s.look.scrubber.underflowOwed = s.scrubber.underflowOwed :=
  State.lookFor_underflowOwed _ _

/-- The reader's search leaves the memory link and the hold as they are. -/
theorem State.look_arbiter (s : State) : s.look.arbiter = s.arbiter := by
  obtain ⟨_, _, _, _, _, h⟩ := s.look_frame
  rw [h]

theorem State.look_passage (s : State) : s.look.passage = s.passage := by
  obtain ⟨_, _, _, _, _, h⟩ := s.look_frame
  rw [h]

theorem State.offerFault_arbiter (s : State) (f : Finding) : (s.offerFault f).arbiter = s.arbiter := by
  obtain ⟨_, _, h⟩ := s.offerFault_frame f
  rw [h]

theorem State.offerFault_passage (s : State) (f : Finding) : (s.offerFault f).passage = s.passage := by
  obtain ⟨_, _, h⟩ := s.offerFault_frame f
  rw [h]

theorem State.offerFault_scrubber (s : State) (f : Finding) : (s.offerFault f).scrubber = s.scrubber := by
  obtain ⟨_, _, h⟩ := s.offerFault_frame f
  rw [h]

/-! ## The burst end -/

theorem State.completeJob_arbiter (s : State) (j : Job) : (s.completeJob j).arbiter = s.arbiter := by
  unfold State.completeJob
  dsimp only
  split
  · split
    · rfl
    · rw [State.offerFault_arbiter]
      rfl
  · split <;> rfl

theorem State.endJobBurst_arbiter (s : State) (j : Job) : (s.endJobBurst j).arbiter = s.arbiter := by
  unfold State.endJobBurst
  split
  · rw [State.look_arbiter]
    exact State.offerFault_arbiter _ _
  · split
    · rfl
    · rw [State.look_arbiter]
      exact State.completeJob_arbiter _ _

theorem State.endRetiring_arbiter (s : State) (j : Job) : (s.endRetiring j).arbiter = s.arbiter := by
  unfold State.endRetiring
  rw [State.look_arbiter]
  rfl

/-- The end of a reader burst frees the memory link (R49). -/
theorem State.endBurst_link (s : State) : s.endBurst.arbiter.link = .free := by
  unfold State.endBurst
  dsimp only
  split
  · rfl
  · split
    · rfl
    · split
      · change ((s.releaseReaderLink).endRetiring _).arbiter.link = .free
        rw [State.endRetiring_arbiter]
        rfl
      · change ((s.releaseReaderLink).endJobBurst _).arbiter.link = .free
        rw [State.endJobBurst_arbiter]
        rfl

theorem State.settleBurst_burstEndOwed (s : State) : s.settleBurst.burstEndOwed = false := by
  unfold State.settleBurst
  split
  · simp [State.burstEndOwed, State.endBurst_link]
  · rename_i h
    simpa using h

/-! ## The underflow -/

theorem State.postStep_frame (s : State) :
    s.postStep.scrubber.underflowOwed = s.scrubber.underflowOwed ∧ s.postStep.arbiter = s.arbiter ∧
      s.postStep.passage = s.passage ∧ s.postStep.reader = s.reader := by
  unfold State.postStep
  split <;> exact ⟨rfl, rfl, rfl, rfl⟩

/-- An underflow leaves none owed, and the memory link and the passage as they are. -/
theorem State.underflow_frame (s : State) :
    s.underflow.scrubber.underflowOwed = false ∧ s.underflow.arbiter.link = s.arbiter.link ∧
      s.underflow.passage = s.passage := by
  unfold State.underflow
  split
  · exact ⟨rfl, rfl, rfl⟩
  · refine ⟨?_, ?_, ?_⟩
    · rw [State.conclude_scrubber, State.look_underflowOwed, s.reloadPacing.postStep_frame.1]
      rfl
    · rw [State.conclude_arbiter, State.look_arbiter, s.reloadPacing.postStep_frame.2.1]
      rfl
    · rw [State.conclude_passage, State.look_passage, s.reloadPacing.postStep_frame.2.2.1]
      rfl

theorem State.settleUnderflow_underflowOwed (s : State) : s.settleUnderflow.scrubber.underflowOwed = false := by
  unfold State.settleUnderflow
  split
  · exact s.underflow_frame.1
  · rename_i h
    simpa using h

/-- The reader holds a burst count that an owed burst end can be read from only while the link is not free. -/
theorem State.burstEndOwed_of_free (s : State) (h : s.arbiter.link = .free) : s.burstEndOwed = false := by
  simp [State.burstEndOwed, h]

/-- A search leaves the count of burst beats as it is. -/
theorem State.take_burstBeats (s : State) (src : Source) : (s.take src).reader.burstBeats = s.reader.burstBeats := by
  cases src with
  | queue =>
    change s.takeFromQueue.reader.burstBeats = _
    unfold State.takeFromQueue
    dsimp only
    split
    · rfl
    · split <;> rfl
  | scrub =>
    change s.takeScrubStep.reader.burstBeats = _
    unfold State.takeScrubStep
    dsimp only
    split
    · rfl
    · rename_i t _
      obtain ⟨sc, a, h⟩ := State.advanceCursor_frame
        (State.setLastSource { s with scrubber := { s.scrubber with stepPending := false } } .scrub) t
      rw [h]
      split
      · rfl
      · rfl
      · split <;> rfl
      · rfl
      · rfl

theorem State.lookFor_burstBeats (k : Nat) (s : State) :
    (State.lookFor k s).reader.burstBeats = s.reader.burstBeats := by
  induction k generalizing s with
  | zero => rfl
  | succ k ih =>
    unfold State.lookFor
    split
    · rfl
    · split
      · rfl
      · rw [ih, State.take_burstBeats]

theorem State.underflow_burstBeats (s : State) : s.underflow.reader.burstBeats = s.reader.burstBeats := by
  unfold State.underflow
  split
  · rfl
  · rw [State.conclude_reader]
    unfold State.look
    rw [State.lookFor_burstBeats, s.reloadPacing.postStep_frame.2.2.2]
    rfl

theorem State.settleUnderflow_burstEndOwed (s : State) (h : s.burstEndOwed = false) :
    s.settleUnderflow.burstEndOwed = false := by
  unfold State.settleUnderflow
  split
  · unfold State.burstEndOwed at h ⊢
    rw [State.underflow_burstBeats, s.underflow_frame.2.1]
    exact h
  · exact h

/-! ## The hold timeout -/

/-- A hold's end by timeout leaves no hold, and the reader, the scrubber and the memory link's user as they are. -/
theorem State.expireHold_frame (s : State) (h : s.passage.hold.isSome = true) :
    s.expireHold.passage.hold = none ∧ s.expireHold.arbiter.link = s.arbiter.link ∧ s.expireHold.scrubber = s.scrubber ∧
      s.expireHold.reader = s.reader := by
  unfold State.expireHold
  split
  · rename_i hn
    simp [hn] at h
  · rename_i r _
    refine ⟨?_, ?_, ?_, ?_⟩
    · rw [State.conclude_passage, State.offerFault_passage]
      rfl
    · rw [State.conclude_arbiter, State.offerFault_arbiter]
      rfl
    · rw [State.conclude_scrubber, State.offerFault_scrubber]
      rfl
    · obtain ⟨l, a, hf⟩ := State.offerFault_frame (s.releaseHeld .error)
        ⟨.holdExpired, r.ref, s.tractAddr r.ref, some r.stored, none, s.timebase.tickCounter, none⟩
      rw [State.conclude_reader, hf]
      rfl

/-- A timeout owed means a hold in place. -/
theorem State.hold_of_timeoutOwed (s : State) (h : s.timeoutOwed = true) : s.passage.hold.isSome = true := by
  unfold State.timeoutOwed at h
  split at h
  · rename_i r hr
    simp [hr]
  · simp at h

/-! ## Settling -/

/-- After the burst end, the underflow and the hold timeout are carried out none of them is owed. -/
theorem State.settleEffects_grantNext (s : State) : s.settleEffects.grantNext = true := by
  have hb := (s.settleBurst).settleUnderflow_burstEndOwed s.settleBurst_burstEndOwed
  have hu := s.settleBurst.settleUnderflow_underflowOwed
  unfold State.settleEffects State.settleTimeout
  split
  · rename_i ht
    obtain ⟨h1, h2, h3, h4⟩ := State.expireHold_frame _ (State.hold_of_timeoutOwed _ ht)
    simp only [State.grantNext, Bool.and_eq_true, Bool.not_eq_true']
    refine ⟨⟨?_, ?_⟩, ?_⟩
    · unfold State.burstEndOwed at hb ⊢
      rw [h2, h4]
      exact hb
    · rw [h3]
      exact hu
    · simp [State.timeoutOwed, h1]
  · rename_i ht
    simp only [State.grantNext, Bool.and_eq_true, Bool.not_eq_true']
    exact ⟨⟨hb, hu⟩, by simpa using ht⟩

/-- While the memory link is busy the end of a happening makes no grant (R50). -/
theorem State.grantDue_of_busy (s : State) (h : s.arbiter.link ≠ .free) : s.grantDue = none := by
  simp [State.grantDue, h]

/-- Carrying out the grant leaves nothing owed. -/
theorem State.settleGrant_settled (s : State) (h : s.grantNext = true) : s.settleGrant.settled = true := by
  have h' := h
  simp only [State.grantNext, Bool.and_eq_true, Bool.not_eq_true'] at h'
  obtain ⟨⟨-, hu⟩, ht⟩ := h'
  rcases s.settleGrant_cases with ⟨hn, e⟩ | ⟨t, -, -, e⟩ | ⟨j, -, -, -, e⟩
  · simp [e, State.settled, h, hn]
  · obtain ⟨job, h1, -⟩ := s.grantPassage_frame t
    rw [e, h1]
    simp only [State.settled, State.grantNext, State.grantOwed, State.burstEndOwed, State.timeoutOwed, State.conclude_arbiter,
      State.conclude_scrubber, State.conclude_passage, State.conclude_reader]
    rw [State.grantDue_of_busy _ (by simp)]
    simpa [State.timeoutOwed, hu] using ht
  · rw [e, State.grantReader_eq]
    simp only [State.settled, State.grantNext, State.grantOwed, State.burstEndOwed, State.timeoutOwed, State.conclude_arbiter,
      State.conclude_scrubber, State.conclude_passage, State.conclude_reader]
    rw [State.grantDue_of_busy _ (by simp)]
    simpa [State.timeoutOwed, hu, Config.readerBurstBeats] using ht

/-- After settling nothing is owed: the state stands between two happenings. -/
theorem State.settle_settled (s : State) : s.settle.settled = true :=
  State.settleGrant_settled _ s.settleEffects_grantNext

/-- Settling twice is settling once. -/
theorem State.settle_settle (s : State) : s.settle.settle = s.settle := State.settle_of_settled _ s.settle_settled

/-- Settling after the burst end, the underflow and the hold timeout is settling (log 3, log 4). -/
theorem State.settle_settleEffects (s : State) : s.settleEffects.settle = s.settle := by
  rw [State.settle, State.settleEffects_of_grantNext _ s.settleEffects_grantNext, State.settle]

end Sys2Proof.Machine
end

