-- ==== Sys2Proof/Laws/Wire.lean ====
section
/-! SUPPORT. The bits of bytes on MDI and MDO (R167, R193), the shifting out of a response (R177), and the lines of a link
(R198). -/

namespace Sys2Proof.Machine

/-- Eight samples to a byte (R167). -/
theorem wireBits_length (bs : List Byte) : (wireBits bs).length = 8 * bs.length := by
  induction bs with
  | nil => rfl
  | cons b bs ih => simp only [wireBits, List.flatMap_cons, List.length_append, List.length_cons] at ih ⊢; rw [ih]; simp [byteBits]; omega

/-- The eight samples of a byte make that byte. -/
theorem byteOfSamples_bits (b : Byte) :
    byteOfSamples (b.getLsbD 7) (b.getLsbD 6) (b.getLsbD 5) (b.getLsbD 4) (b.getLsbD 3) (b.getLsbD 2) (b.getLsbD 1)
      (b.getLsbD 0) = b := by
  revert b
  decide +kernel

/-- The samples of a run of bytes are read as those bytes, then what follows. -/
theorem sampledBytes_wireBits (bs : List Byte) (extra : List Bool) :
    sampledBytes (wireBits bs ++ extra) = (bs ++ (sampledBytes extra).1, (sampledBytes extra).2) := by
  induction bs with
  | nil => rfl
  | cons b bs ih =>
    have e : wireBits (b :: bs) ++ extra = byteBits b ++ (wireBits bs ++ extra) := by simp [wireBits]
    rw [e]
    simp only [byteBits, List.cons_append, List.nil_append, sampledBytes, ih, byteOfSamples_bits]

/-- A falling edge of MCK in RESPONSE presents one more bit, or leaves the frame SPENT when none is left (R177, R179). -/
theorem Frame.mckFall_response (bytes : List Byte) (sent : Nat) :
    Frame.mckFall (.response bytes sent) = if sent < 8 * bytes.length then .response bytes (sent + 1) else .spent := by
  simp only [Frame.mckFall, wireBits_length]

/-- In any other frame it changes nothing. -/
theorem Frame.mckFall_other (f : Frame) (h : ∀ bytes sent, f ≠ .response bytes sent) : f.mckFall = f := by
  cases f with
  | response bytes sent => exact absurd rfl (h bytes sent)
  | _ => rfl

/-- So many falling edges in RESPONSE (R177, R179): that many more bits are presented while there are so many, and none with no
edge, for as long as MCK is stopped (R167); else the frame is SPENT. -/
theorem Frame.mckFalls_response (bytes : List Byte) (sent n : Nat) :
    Frame.mckFalls (.response bytes sent) n =
      if n = 0 ∨ sent + n ≤ 8 * bytes.length then .response bytes (sent + n) else .spent := by
  have spent : ∀ k, Frame.mckFalls .spent k = .spent := fun k => by
    induction k with
    | zero => rfl
    | succ k ih => exact ih
  induction n generalizing sent with
  | zero => simp [Frame.mckFalls]
  | succ n ih =>
    rw [Frame.mckFalls, Frame.mckFall_response]
    split
    · rw [ih]; split <;> split <;> first | omega | rfl | (congr 1; omega)
    · rw [spent, if_neg (by omega)]

/-- What the edges of a REFCLK period can do: to a response, present bits of it; to any other frame, nothing. -/
theorem State.mckEdges_spec (s : State) :
    (∃ bytes sent, s.port.frame = .response bytes sent ∧
      s.mckEdges = { s with
        port := { s.port with frame := Frame.mckFalls (.response bytes sent) (Config.mckFalls s.freeCount) }
        freeCount := s.freeCount + 1 }) ∨
    ((∀ bytes sent, s.port.frame ≠ .response bytes sent) ∧ s.mckEdges = s) := by
  cases h : s.port.frame with
  | response bytes sent => exact .inl ⟨bytes, sent, rfl, by simp only [State.mckEdges, State.setFrame, h]⟩
  | _ => exact .inr ⟨by simp, by simp only [State.mckEdges, h]⟩

/-- The item is read back from its lines (R198). -/
theorem LinkItem.lines_item (i : LinkItem) : i.lines.item = some i := by
  cases i with
  | request a n d => rfl
  | writeBeat d m => rfl
  | writeResponse r => cases r <;> rfl
  | readBeat d r => cases r <;> rfl

end Sys2Proof.Machine
end

