-- ==== Sys2Proof/Tests/Slice0.lean ====
section
/-! SUPPORT. Tests on fixed values, each by `decide`, and for every obligation with hypotheses a witness: a concrete state and
operands that meet them together, for each clause. Expected values come from the spec (the section is named) or are worked out
by hand from its rules. -/

namespace Sys2Proof.Tests

set_option Elab.async false

open Sys2Proof Sys2Proof.Machine

/-! ## The bench -/

/-- The outcome is a next state with a property. -/
def gives (o : Host.Outcome State Fault Refusal) (p : State → Bool) : Bool :=
  match o with
  | .next t => p t
  | _ => false

/-- The outcome is a refusal for ill-formed operands. -/
def refusesIllFormed (o : Host.Outcome State Fault Refusal) : Bool :=
  match o with
  | .refused .illFormed => true
  | _ => false

/-- Two 64-byte tracts from address 0, records 0 and 1, width 32, policy HOLD, ENABLED. -/
def desc : Region :=
  { base := 0, sizeCode := 0, count := 2, entryBase := 0, width := .w32, poly := 0x04C11DB7#32, policy := .hold,
    state := .enabled }

/-- Region 0 as `desc`, the port in REQUEST. -/
def bench : State :=
  { State.reset with
    regions := State.reset.regions.set 0 desc
    port := { State.reset.port with frame := .request } }

/-- The first tract of the bench. -/
def tract0 : TractRef := ⟨0, 0⟩

/-- The bench with a record for its first tract. -/
def benchAt (st : TractState) (check : Word) (queued : Bool) : State := { bench with store := [(0, ⟨st, check, queued⟩)] }

/-- A transaction of a whole 64-byte tract at address 0. -/
def txn (dir : Dir) (forwarded arrived : Nat) : Transaction :=
  { dir := dir, addr := 0, beats := 16, forwarded := forwarded, padded := 0, arrived := arrived, delivered := 0, cut := false }

/-- A state with the passage in a state and a buffer, the link the passage's. -/
def carry (s : State) (p : PassageState) (buffer : List BufferEntry) : State :=
  { s with passage := ⟨p, buffer, none⟩, arbiter := ⟨.passage, none, 0⟩ }

/-- A job on the bench's first tract. -/
def job (k : JobKind) (phase : JobPhase) (start : TractState) : Job :=
  { kind := k, ref := tract0, nextOffset := 0, phase := phase, rem := 0xFFFFFFFF#32, startState := start, overtaken := false,
    abandoned := false, errorOffset := none }

/-- The bench with a job whose burst is on the link and has so many beats. -/
def benchReading (j : Job) (beats : Nat) : State :=
  { bench with reader := ⟨some j, .scrub, beats⟩, arbiter := ⟨.reader, none, 0⟩ }

/-- A context on the bench's first tract. -/
def ctx (k : ContextKind) (next : Nat) : Context := ⟨k, tract0, next, 0x12345678#32⟩

/-- The bench's first tract in a state, with a context on it in slot 2. -/
def benchStream (st : TractState) (c : Context) : State :=
  { benchAt st 5 false with pool := ⟨State.reset.pool.slots.set 2 (some c), [2]⟩ }

/-- A hold on the bench's first tract. -/
def held (ticks : Option (BitVec 16)) : HoldRecord := ⟨tract0, 60, ⟨1, 2, 3, 4⟩, 5, 6, 7, ticks⟩

/-- The bench with a hold in place and the held beat buffered. -/
def benchHeld (ticks : Option (BitVec 16)) : State :=
  { benchAt .faulted 5 false with
    passage := ⟨.carrying (txn .read 0 16), [⟨none, some ⟨1, 2, 3, 4⟩⟩], some (held ticks)⟩ }

/-- A fault record. -/
def fault (n : Nat) : FaultRecord := ⟨BitVec.ofNat 32 n, ⟨.readerError, tract0, 0, none, none, 0, some 4⟩⟩

/-- A full log. -/
def fullLog : FaultLog := ⟨(List.range 16).map fault, 16, 65535⟩

/-- A full queue. -/
def fullQueue : List TractRef := (List.range 32).map fun k => ⟨1, k⟩

/-- The bench with every slot holding a VERIFY context of another tract, slot 7 the least recent. -/
def benchFull (st : TractState) : State :=
  { benchAt st 5 false with
    pool := ⟨Vector.ofFn fun i => some ⟨.verify, ⟨1, i.val⟩, 4, 0⟩, [0, 1, 2, 3, 4, 5, 6, 7]⟩ }

/-! ## Well-formedness -/

theorem test_wellFormed_badCrc_refuses_right_crc : wfBadCrc 0x01 [] 0xD9 = false := by decide +kernel
theorem test_wellFormed_badCrc_refuses_wrong_length : wfBadCrc 0x51 [] 0x00 = false := by decide +kernel
theorem test_wellFormed_badOp_refuses_known_code : wfBadOp 0x01 = false := by decide +kernel
theorem test_wellFormed_frameAbort_refuses_no_byte : wfFrameAbort [] = false := by decide +kernel
theorem test_wellFormed_frameAbort_refuses_complete_crc : wfFrameAbort [0x01, 0xD9] = false := by decide +kernel
theorem test_illFormed_badOp_is_refused : refusesIllFormed (exec (.badOp 0x01) bench) = true := by decide +kernel

/-! ## Check functions and frames (section 1.1, 9.2, 10.1) -/

/-- The nine bytes 31h to 39h of R1's note. -/
def nine : List Byte := [0x31, 0x32, 0x33, 0x34, 0x35, 0x36, 0x37, 0x38, 0x39]

theorem test_checkValue_width32 : checkValue .w32 0x04C11DB7#32 nine = 0xFC891918#32 := by decide +kernel
theorem test_checkValue_width16 : checkValue .w16 0x1021#32 nine = 0xD64E#32 := by decide +kernel
theorem test_crc8_of_00 : crc8 [0x00] = 0xC4#8 := by decide +kernel
theorem test_crc8_of_0000 : crc8 [0x00, 0x00] = 0x41#8 := by decide +kernel
theorem test_crc8_of_FF : crc8 [0xFF] = 0x00#8 := by decide +kernel
theorem test_frame_getStatus : portReads [0x01, 0xD9] 0 = some .getStatus := by decide +kernel
theorem test_frame_releaseHold : portReads [0x51, 0x00, 0x53] 0 = some (.releaseHold 0x00) := by decide +kernel
theorem test_response_ok_is_two_bytes : responseBytes .ok [] = [0x00, 0xC4] := by decide +kernel
theorem test_response_badOp_is_two_bytes : responseBytes .badOp [] = [0x04, 0xB0] := by decide +kernel
/-- SET-REGION's 16 arguments laid out by section 10.2. -/
theorem test_requestBody_setRegion :
    requestBody (.setRegion 2 0x11223344 0 0x0102 0x0304 0x20 0x04C11DB7 1) =
      some (0x11, [2, 0x11, 0x22, 0x33, 0x44, 0, 1, 2, 3, 4, 0x20, 0x04, 0xC1, 0x1D, 0xB7, 1]) := by decide +kernel

/-! ## One step of each command -/

/-- R62, R192: MCS low at the release of RSTN leaves the port SPENT; the waiting commands stay. -/
theorem test_powerOn_mcs_low :
    gives (exec (.powerOn false true) { bench with pending := [.tick] }) (fun t =>
      decide (t.port.frame = .spent ∧ t.pins.hrst = true ∧ t.pending = [.tick] ∧ (t.region 0).state = .disabled)) = true := by
  decide +kernel

/-- R58: HRST in CARRYING with the burst not ended drains it. -/
theorem test_hrst_drains :
    gives (exec (.hrst true) (carry bench (.carrying (txn .write 3 1)) [⟨some .okay, none⟩])) (fun t =>
      decide (t.passage.state = .draining { txn .write 3 1 with cut := true } ∧ t.passage.buffer = [])) = true := by
  decide +kernel

/-- R41, R44: the two low address bits are ignored, the count is one more than the link carries, and the free link is granted. -/
theorem test_hostRequest_taken :
    gives (exec (.hostRequest 0x43 15 .write) bench) (fun t =>
      decide (t.passage.state = .claiming { txn .write 0 0 with addr := 0x40 } ∧ t.arbiter.granting = some .passage)) = true := by
  decide +kernel

/-- R44: no request is taken while HRST is high. -/
theorem test_hostRequest_waits_under_hrst :
    gives (exec (.hostRequest 0 0 .read) { bench with pins := ⟨true, none, none⟩ }) (fun t => decide (t.passage.state = .idle)) =
      true := by decide +kernel

/-- R45, R51, R53: the grant of a WRITE burst issues it, counts the waiting reader and overtakes its job. -/
theorem test_passageGrant_overtakes :
    gives (exec .passageGrant
        { bench with
          passage := ⟨.claiming (txn .write 0 0), [], none⟩
          arbiter := ⟨.free, some .passage, 2⟩
          reader := ⟨some (job .refresh .claiming .stale), .queue, 0⟩ }) (fun t =>
      decide (t.arbiter = ⟨.passage, none, 3⟩ ∧ t.pins.memoryLink = some (.request 0 16 .write) ∧
        t.reader.job = some { job .refresh .claiming .stale with overtaken := true })) = true := by decide +kernel

/-- R70: an opening write beat on a STALE tract makes it OPEN with origin STALE in the lowest free slot. -/
theorem test_writeBeat_opens :
    gives (exec (.writeBeatForwarded ⟨1, 2, 3, 4⟩ 0xF)
        (carry (benchAt .stale 5 false) (.carrying (txn .write 0 0)) [])) (fun t =>
      decide (t.record tract0 = ⟨.opened, 5, false⟩ ∧ t.pool.recency = [0] ∧
        t.pool.slot 0 = some ⟨.assemble .stale, tract0, 4, crcBytes .w32 0x04C11DB7 0xFFFFFFFF [1, 2, 3, 4]⟩)) = true := by
  decide +kernel

/-- R74, R110, R116: a partial write makes a CURRENT tract STALE and offers it, and an IDLE reader takes the entry at once. -/
theorem test_writeBeat_piecemeal_refreshes :
    gives (exec (.writeBeatForwarded ⟨1, 2, 3, 4⟩ 0x1)
        (carry (benchAt .current 5 false) (.carrying (txn .write 0 0)) [])) (fun t =>
      decide (t.record tract0 = ⟨.stale, 5, false⟩ ∧ t.queue = [] ∧
        t.reader.job = some (job .refresh .claiming .stale))) = true := by decide +kernel

/-- R77: an ERROR response makes a CURRENT tract STALE; R46: it is buffered as memory gave it. -/
theorem test_writeResponse_error :
    gives (exec (.writeResponse .error) (carry (benchAt .current 5 false) (.carrying (txn .write 1 0)) [])) (fun t =>
      decide ((t.record tract0).state = .stale ∧ t.passage.buffer = [⟨some .error, none⟩])) = true := by decide +kernel

/-- R58: the first beat not forwarded goes out as padding at its own address. -/
theorem test_paddingBeat_at_its_address :
    gives (exec .paddingBeat (carry bench (.draining (txn .write 3 1)) [])) (fun t =>
      decide (t.pins.memoryLink = some (.writeBeat 12 ⟨0, 0, 0, 0⟩ 0) ∧
        t.passage.state = .draining { txn .write 3 1 with padded := 1 })) = true := by decide +kernel

/-- R83, R96, R97: the last beat of a failed verify in a HOLD region is withheld, with HOLD and FAULT set. -/
theorem test_readBeat_begins_hold :
    gives (exec (.readBeatArrival ⟨1, 2, 3, 4⟩ .okay)
        (carry (benchStream .current (ctx .verify 60)) (.carrying { txn .read 0 15 with delivered := 15 }) [])) (fun t =>
      decide ((t.record tract0).state = .faulted ∧ t.passage.buffer = [⟨none, some ⟨1, 2, 3, 4⟩⟩] ∧
        t.passage.hold.isSome = true ∧ t.alert.causes = 0x05 ∧ t.alert.low = true ∧ t.log.records.length = 1 ∧
        t.arbiter.link = .free)) = true := by decide +kernel

/-- R93: a read beat of a FAULTED tract in a HOLD region is answered ERROR. -/
theorem test_readBeat_fenced :
    gives (exec (.readBeatArrival ⟨1, 2, 3, 4⟩ .okay) (carry (benchAt .faulted 5 false) (.carrying (txn .read 0 0)) [])) (fun t =>
      decide (t.passage.buffer = [⟨some .error, some ⟨1, 2, 3, 4⟩⟩])) = true := by decide +kernel

/-- R48: the delivery of the last response ends the transaction. -/
theorem test_responseDelivery_ends :
    gives (exec .responseDelivery
        (carry bench (.carrying { txn .read 0 16 with delivered := 15 }) [⟨some .okay, some ⟨1, 2, 3, 4⟩⟩])) (fun t =>
      decide (t.passage.state = .idle ∧ t.pins.hostLink = some ⟨.okay, some ⟨1, 2, 3, 4⟩⟩)) = true := by decide +kernel

/-- R120: the burst begins at the tract address plus the next burst offset; the error offset is cleared. -/
theorem test_readerGrant_issues :
    gives (exec .readerGrant
        { bench with
          reader := ⟨some { job .verify .claiming .current with nextOffset := 64, ref := ⟨0, 1⟩ }, .scrub, 0⟩
          arbiter := ⟨.free, some .reader, 3⟩ }) (fun t =>
      decide (t.pins.memoryLink = some (.request 128 16 .read) ∧ t.arbiter = ⟨.reader, none, 0⟩)) = true := by decide +kernel

/-- R121: the first ERROR of a burst is recorded by its tract offset. -/
theorem test_readerBeat_error_offset :
    gives (exec (.readerBeat ⟨1, 2, 3, 4⟩ .error) (benchReading (job .refresh .reading .stale) 3)) (fun t =>
      decide (t.reader = ⟨some { job .refresh .reading .stale with errorOffset := some 12 }, .scrub, 4⟩)) = true := by
  decide +kernel

/-- R122, R127: the last burst's sixteenth beat completes a REFRESH job; the remainder FFFFFFFFh has the final XOR 0. -/
theorem test_readerBurstEnd_learns :
    gives (exec .readerBurstEnd
        { benchReading (job .refresh .reading .stale) 16 with store := [(0, ⟨.stale, 5, true⟩)] }) (fun t =>
      decide (t.record tract0 = ⟨.current, 0, true⟩ ∧ t.reader.job = none ∧ t.arbiter.link = .free)) = true := by decide +kernel

/-- R135, R138, R101: the tick counter wraps, a pacing counter above 0 falls, and a hold counter falls. -/
theorem test_tick_counts :
    gives (exec .tick
        { benchHeld (some 2) with
          timebase := ⟨7, 1000, 0xFFFFFFFF⟩
          scrubber := ⟨1, false, false, none, 0, 0⟩ }) (fun t =>
      decide (t.timebase = ⟨0, 1000, 0⟩ ∧ t.scrubber.pacing = 0 ∧ t.scrubber.underflowOwed = false ∧
        t.passage.hold = some (held (some 1)))) = true := by decide +kernel

/-- R118, R119, R138, R140: an underflow reloads, posts, and an IDLE reader takes the step at once. -/
theorem test_underflow_posts :
    gives (exec .underflow
        { bench with
          params := { State.reset.params with latch := 9 }
          scrubber := ⟨0, true, false, some tract0, 0, 0⟩ }) (fun t =>
      decide (t.scrubber = ⟨9, false, false, some ⟨0, 1⟩, 0, 0⟩ ∧
        t.reader.job = some (job .establish .claiming .unknown))) = true := by decide +kernel

/-- R141: a step posted while one is pending is a slip. -/
theorem test_underflow_slips :
    gives (exec .underflow
        { benchReading (job .refresh .reading .stale) 3 with
          params := { State.reset.params with latch := 1 }
          scrubber := ⟨0, true, true, none, 0, 65535⟩ }) (fun t =>
      decide (t.scrubber = ⟨1, false, true, none, 0, 65535⟩ ∧ t.alert = ⟨0x20, true⟩)) = true := by decide +kernel

/-- R103: the held beat is answered ERROR and a HOLD-EXPIRED record made. -/
theorem test_holdTimeout_expires :
    gives (exec .holdTimeout (benchHeld (some 0))) (fun t =>
      decide (t.passage.hold = none ∧ t.passage.buffer = [⟨some .error, some ⟨1, 2, 3, 4⟩⟩] ∧
        t.log.records = [⟨0, ⟨.holdExpired, tract0, 0, some 5, none, 0, none⟩⟩])) = true := by decide +kernel

/-- R33: the region ENABLED, records initialised, READY set, a parked cursor moved. -/
theorem test_preparationEnd_enables :
    gives (exec .preparationEnd
        { benchAt .current 5 true with port := { bench.port with longOp := .enabling 0 } }) (fun t =>
      decide (t.record tract0 = ⟨.unknown, 0, false⟩ ∧ t.scrubber.cursor = some tract0 ∧ t.alert = ⟨0x80, false⟩ ∧
        t.port.longOp = .idle)) = true := by decide +kernel

/-- The status block of section 10.4 directly after power-on: the enable mask 6Fh (R197) and zeros. -/
theorem test_getStatus_block :
    gives (exec .getStatus { State.reset with port := bench.port }) (fun t =>
      decide (t.port.frame = .response (responseBytes .ok
        [0, 0, 0, 0, 0, 0, 0, 0, 0, 0, 0, 0, 0, 0, 0, 0, 0, 0x6F, 0, 0, 0, 0, 0, 0, 0, 0, 0]) 0)) = true := by decide +kernel

/-- R184: the power-on parameters 1000, 0, 500, 4, 6Fh. -/
theorem test_getParams_report :
    gives (exec .getParams bench) (fun t =>
      decide (t.port.frame = .response (responseBytes .ok [0x03, 0xE8, 0, 0, 0x01, 0xF4, 4, 0x6F]) 0)) = true := by decide +kernel

/-- R185: a patience of 16 is refused with BAD-ARG. -/
theorem test_setParams_refuses_patience_16 :
    gives (exec (.setParams 1 2 3 16 0) bench) (fun t =>
      decide (t.params = bench.params ∧ t.port.frame = .response (responseBytes .badArg []) 0)) = true := by decide +kernel

/-- R21, R27: the power-on descriptor as section 10.2 lays it out. -/
theorem test_getRegion_powerOn_descriptor :
    gives (exec (.getRegion 7) bench) (fun t =>
      decide (t.port.frame = .response (responseBytes .ok
        [0, 0, 0, 0, 2, 0, 0, 0, 0, 0x20, 0x04, 0xC1, 0x1D, 0xB7, 0, 0]) 0)) = true := by decide +kernel

/-- R25, R195: a size code byte of 0Dh is forced to 2 and answered ADJUSTED. -/
theorem test_setRegion_adjusts :
    gives (exec (.setRegion 1 0x100 0x0D 4096 0 0x10 0x1021 2) bench) (fun t =>
      decide (t.region 1 = ⟨0x100, 2, 4096, 0, .w16, 0x1021, .hold, .disabled⟩ ∧
        t.port.frame = .response (responseBytes .adjusted []) 0)) = true := by decide +kernel

/-- R31: spans that overlap refuse an enable. -/
theorem test_enableRegion_overlap :
    gives (exec (.enableRegion 1)
        { bench with regions := bench.regions.set 1 { desc with base := 64, count := 1, entryBase := 8, state := .disabled } })
      (fun t => decide (t.port.frame = .response (responseBytes .overlap []) 0)) = true := by decide +kernel

/-- R37, R38: a job waiting for its grant ends, the region is DISABLED at once, its queue entry goes, READY is set. -/
theorem test_disableRegion_withdraws :
    gives (exec (.disableRegion 0)
        { bench with
          reader := ⟨some (job .refresh .claiming .stale), .queue, 0⟩
          arbiter := ⟨.passage, none, 4⟩
          queue := [⟨0, 1⟩]
          scrubber := ⟨0, false, false, some tract0, 0, 0⟩ }) (fun t =>
      decide (t.reader.job = none ∧ (t.region 0).state = .disabled ∧ t.queue = [] ∧ t.arbiter.passedOver = 0 ∧
        t.scrubber.cursor = none ∧ t.alert.causes = 0x80 ∧ t.port.longOp = .idle)) = true := by decide +kernel

/-- R16: address, state, flag and check value of tract 1. -/
theorem test_getTract_report :
    gives (exec (.getTract 0 1) { bench with store := [(1, ⟨.faulted, 0xAABBCCDD, true⟩)] }) (fun t =>
      decide (t.port.frame = .response (responseBytes .ok [0, 0, 0, 0x40, 4, 1, 0xAA, 0xBB, 0xCC, 0xDD]) 0)) = true := by
  decide +kernel

/-- R18: a freed ASSEMBLE context has no break outcome; the tract is UNKNOWN and not offered. -/
theorem test_forgetTract_no_break :
    gives (exec (.forgetTract 0 0) (benchStream .opened (ctx (.assemble .current) 8))) (fun t =>
      decide (t.record tract0 = ⟨.unknown, 5, false⟩ ∧ t.pool.recency = [] ∧ t.queue = [])) = true := by decide +kernel

/-- R20: a FAULTED tract becomes STALE and queued, and an IDLE reader takes it. -/
theorem test_repairTract_queues :
    gives (exec (.repairTract 0 0) (benchAt .faulted 5 false)) (fun t =>
      decide (t.record tract0 = ⟨.stale, 5, false⟩ ∧ t.reader.job = some (job .refresh .claiming .stale))) = true := by
  decide +kernel

/-- R187, section 10.4: the slot report of a VERIFY context. -/
theorem test_getContext_report :
    gives (exec (.getContext 2) (benchStream .current (ctx .verify 8))) (fun t =>
      decide (t.port.frame = .response (responseBytes .ok [1, 2, 0, 0, 0, 0, 8, 0x12, 0x34, 0x56, 0x78, 0, 0]) 0)) = true := by
  decide +kernel

/-- R150, R156: a READER-ERROR record with its absent fields as zero. -/
theorem test_peekFault_report :
    gives (exec .peekFault { bench with log := fullLog }) (fun t =>
      decide (t.log = fullLog ∧ t.port.frame = .response (responseBytes .ok
        [0, 0, 0, 0, 3, 0, 0, 0, 0, 0, 0, 0, 0, 0, 0, 0, 0, 0, 0, 0, 0, 0, 0, 0, 0, 4]) 0)) = true := by decide +kernel

/-- R157: the head leaves, the counters stay. -/
theorem test_popFault_removes_head :
    gives (exec .popFault { bench with log := fullLog }) (fun t =>
      decide (t.log.records.length = 15 ∧ t.log.records.head? = some (fault 1) ∧ t.log.seqCounter = 16 ∧
        t.log.dropped = 65535)) = true := by decide +kernel

/-- R188: a hold with no counter sends counter loaded 00h and ticks remaining 0000h. -/
theorem test_getHold_no_counter :
    gives (exec .getHold (benchHeld none)) (fun t =>
      decide (t.port.frame = .response (responseBytes .ok
        [0, 0, 0, 0, 0, 0, 60, 1, 2, 3, 4, 0, 0, 0, 5, 0, 0, 0, 6, 0, 0, 0, 7, 0, 0, 0]) 0)) = true := by decide +kernel

/-- R102: the named response makes the held beat deliverable. -/
theorem test_releaseHold_okay :
    gives (exec (.releaseHold 0) (benchHeld (some 9))) (fun t =>
      decide (t.passage.hold = none ∧ t.passage.buffer = [⟨some .okay, some ⟨1, 2, 3, 4⟩⟩])) = true := by decide +kernel

/-- R161, R162: DROP cleared with its count; the others stay. -/
theorem test_clearAlert_drop :
    gives (exec (.clearAlert 0x02) { bench with log := fullLog, alert := ⟨0x03, true⟩ }) (fun t =>
      decide (t.alert = ⟨0x01, true⟩ ∧ t.log.dropped = 0 ∧ t.port.frame = .response (responseBytes .ok [0x01]) 0)) = true := by
  decide +kernel

/-- R126, R189: a reader burst on the link is detached, the queue and log empty, READY the one cause. -/
theorem test_restart_detaches :
    gives (exec .restart
        { benchReading (job .refresh .reading .stale) 3 with log := fullLog, queue := [⟨0, 1⟩], alert := ⟨0x41, true⟩ }) (fun t =>
      decide (t.arbiter.link = .detached ∧ t.reader = ⟨none, .scrub, 3⟩ ∧ t.queue = [] ∧ t.log = ⟨[], 0, 0⟩ ∧
        t.alert = ⟨0x80, false⟩ ∧ (t.region 0).state = .disabled)) = true := by decide +kernel

/-- R173: the count stays at 255 and LINK is set. -/
theorem test_badCrc_saturates :
    gives (exec (.badCrc 0x7E [] 0x00) { bench with port := { bench.port with frameErrors := 255 } }) (fun t =>
      decide (t.port.frameErrors = 255 ∧ t.alert = ⟨0x40, true⟩ ∧ t.port.frame = .response (responseBytes .badCrc []) 0)) =
      true := by decide +kernel

/-- R174: an unknown code is no frame error. -/
theorem test_badOp_is_no_error :
    gives (exec (.badOp 0xFF) bench) (fun t =>
      decide (t.port.frameErrors = 0 ∧ t.alert.causes = 0 ∧ t.port.frame = .response [0x04, 0xB0] 0)) = true := by decide +kernel

/-- R175: an abort among the argument bytes. -/
theorem test_frameAbort_counts :
    gives (exec (.frameAbort [0x20, 0x00] 5) bench) (fun t =>
      decide (t.port = ⟨.deselected, 21, 1, .idle⟩ ∧ t.alert.causes = 0x40)) = true := by decide +kernel

/-- R179: a response cut short is no frame error. -/
theorem test_responseCutShort :
    gives (exec .responseCutShort { bench with port := { bench.port with frame := .response [0x00, 0xC4] 0 } }) (fun t =>
      decide (t.port = State.reset.port ∧ t.alert.causes = 0)) = true := by decide +kernel

/-- R168: the bit count starts from zero at the fall of MCS. -/
theorem test_fallOfMcs : gives (exec .fallOfMcs State.reset) (fun t => decide (t.port = bench.port)) = true := by decide +kernel

/-- R169: SPENT after the response, and a fall of MCS is not taken there. -/
theorem test_responseSent :
    gives (exec .responseSent { bench with port := { bench.port with frame := .response [0x00, 0xC4] 3 } }) (fun t =>
      decide (t.port.frame = .spent)) = true := by decide +kernel

/-- R167, R177: the tenth falling edge of MCK puts the second bit of C4h, a 1, on MDO; R169: after the last bit, SPENT. -/
theorem test_mckFall :
    Frame.mckFall (.response [0x00, 0xC4] 9) = .response [0x00, 0xC4] 10 ∧ Frame.mdo (.response [0x00, 0xC4] 10) = true ∧
    Frame.mckFall (.response [0x00, 0xC4] 16) = .spent := by decide +kernel

/-- R167: with MCK stopped a response stays where it is; ten edges present ten bits; the edge after the sixteenth leaves SPENT. -/
theorem test_mckFalls :
    Frame.mckFalls (.response [0x00, 0xC4] 3) 0 = .response [0x00, 0xC4] 3 ∧
    Frame.mckFalls (.response [0x00, 0xC4] 0) 10 = .response [0x00, 0xC4] 10 ∧
    Frame.mckFalls (.response [0x00, 0xC4] 0) 16 = .response [0x00, 0xC4] 16 ∧
    Frame.mckFalls (.response [0x00, 0xC4] 0) 17 = .spent := by decide +kernel

/-- R167: an idle period with no edge of MCK leaves a response as it is. -/
theorem test_idle_with_mck_stopped (h : Config.mckFalls 0 = 0) :
    gives (step { bench with port := { bench.port with frame := .response [0x00, 0xC4] 3 } }) (fun t =>
      decide (t.port.frame = .response [0x00, 0xC4] 3)) = true := by
  show decide (Frame.mckFalls (.response [0x00, 0xC4] 3) (Config.mckFalls 0) = _) = true
  rw [h]
  decide +kernel

/-- R169: MCS rising after the response has been sent makes the port DESELECTED. -/
theorem test_responseCutShort_spent :
    gives (exec .responseCutShort { bench with port := { bench.port with frame := .spent } }) (fun t =>
      decide (t.port.frame = .deselected)) = true := by decide +kernel

/-- R167: MDO is high before the first bit, and the first bit of status 00h is a 0. -/
theorem test_mdo_first_bit :
    Frame.mdo (.response [0x00, 0xC4] 0) = true ∧ Frame.mdo (.response [0x00, 0xC4] 1) = false ∧
    Frame.mdo (.response [0x80, 0x01] 1) = true ∧ Frame.mdo (.response [0x80, 0x01] 15) = false := by decide +kernel

/-- R167, R193: GET-STATUS is 01h, D9h (section 10.1), each byte most significant bit first; three samples are no byte. -/
theorem test_samples_getStatus :
    portSamples [false, false, false, false, false, false, false, true, true, true, false, true, true, false, false, true] =
      some .getStatus ∧ portSamples [true, false, true] = none ∧
    portSamples [false, false, false, false, false, false, false, true, true] = some (.frameAbort [0x01] 1) := by decide +kernel

/-- R41, R198: a request of 16 beats has 15 on the lane-mask lines, and ERROR is a 1 on the response line. -/
theorem test_lines :
    (MemoryIssue.request 64 16 .read).item.lines.laneMask = some 15 ∧
    (HostDelivery.item ⟨.error, none⟩).lines.response = some 1 ∧
    (HostDelivery.item ⟨.okay, some ⟨1, 2, 3, 4⟩⟩).lines.addressData = some (.data ⟨1, 2, 3, 4⟩) := by decide +kernel

/-- R50: nothing comes between a claim at a free link and its grant; HRST after the claim finds the passage CARRYING (R57). -/
theorem test_grant_comes_before_hrst :
    gives (exec (.hrst true)
        { bench with passage := ⟨.claiming (txn .write 0 0), [], none⟩, arbiter := ⟨.free, some .passage, 0⟩ }) (fun t =>
      decide (t.passage.state = .draining { txn .write 0 0 with cut := true } ∧ t.arbiter.link = .passage)) = true := by
  decide +kernel

/-- R199: a lone reader that claims is granted the free link at once, before the next tick. -/
theorem test_reader_granted_before_tick :
    gives (exec .tick
        { bench with reader := ⟨some (job .refresh .claiming .stale), .queue, 0⟩, arbiter := ⟨.free, some .reader, 0⟩ }) (fun t =>
      decide (t.arbiter = ⟨.reader, none, 0⟩ ∧ t.timebase.tickCounter = 1)) = true := by decide +kernel

/-- R168: a selection with no complete byte is no frame error. -/
theorem test_riseOfMcs_no_frame : gives (exec .riseOfMcs bench) (fun t => decide (t.port = State.reset.port)) = true := by
  decide +kernel

/-- R144: the last tract of the one ENABLED region wraps to its tract 0 and counts a pass. -/
theorem test_cursor_wraps :
    decide (((bench.advanceCursor ⟨0, 1⟩).scrubber = ⟨0, false, false, some tract0, 1, 0⟩ ∧
      (bench.advanceCursor ⟨0, 1⟩).alert.causes = 0x10)) = true := by decide +kernel

/-- R86: with all slots in use the least recent one is evicted and its slot taken. -/
theorem test_eviction_takes_least_recent :
    decide (((benchFull .current).poolRead ⟨tract0, 0⟩ 0 ⟨1, 2, 3, 4⟩ .okay).1.pool.recency = [7, 0, 1, 2, 3, 4, 5, 6]) = true := by
  decide +kernel


/-! ## Witnesses: the hypotheses of each obligation hold together somewhere, clause by clause -/

theorem witness_StepRunsFrontCommand :
    ({ bench with pending := [.tick, .getStatus] } : State).pending = .tick :: [.getStatus] :=
  rfl

theorem witness_IdleStep_below_divider :
    bench.pending = [] ∧ bench.settled = true ∧
    ({ bench with timebase := ⟨998, 1000, 0⟩ } : State).timebase.refclkCount + 1 < dividerPeriods 1000 :=
  by decide +kernel

theorem witness_IdleStep_response :
    (let s : State := { bench with port := { bench.port with frame := .response [0x00, 0xC4] 15 } }
     s.pending = [] ∧ s.settled = true ∧ s.port.frame = .response [0x00, 0xC4] 15) :=
  by decide +kernel

theorem witness_IdleStep_at_divider :
    ({ bench with timebase := ⟨999, 1000, 0⟩ } : State).settled = true ∧ dividerPeriods 1000 ≤ 999 + 1 ∧
    dividerPeriods 0 ≤ 65535 + 1 :=
  by decide +kernel

theorem witness_WellFormedCommandsComplete :
    Instr.wellFormed (.badCrc 0x51 [0x00] 0x54) = true ∧ Instr.wellFormed (.badCrc 0x51 [0x00] 0x53) = false :=
  by decide +kernel

theorem witness_OwedEffectsComeFirst :
    Instr.tick ≠ .underflow ∧ Instr.tick ≠ .holdTimeout ∧ Instr.tick ≠ .readerBurstEnd ∧ Instr.tick ≠ .powerOn true false ∧
    ({ bench with scrubber := ⟨0, true, false, none, 0, 0⟩ } : State).settled = false :=
  by decide +kernel

/-- A claim at the free link, its grant owed. -/
def benchClaim : State :=
  { bench with passage := ⟨.claiming (txn .write 0 0), [], none⟩, arbiter := ⟨.free, some .passage, 0⟩ }

theorem witness_OwedEffectsComeFirst_chain :
    exec .readerBurstEnd benchClaim = .next benchClaim ∧ exec .underflow benchClaim = .next benchClaim ∧
    exec .holdTimeout benchClaim = .next benchClaim ∧
    gives (exec .passageGrant benchClaim) (fun e => decide (e.arbiter.link = .passage)) = true ∧
    gives (exec .readerGrant benchClaim) (fun e => decide (e.arbiter.link = .passage)) = true :=
  ⟨rfl, rfl, rfl, by decide +kernel, by decide +kernel⟩

theorem witness_OwedEffectsComeFirst_no_claim :
    exec .readerBurstEnd bench = .next bench ∧ exec .underflow bench = .next bench ∧ exec .holdTimeout bench = .next bench ∧
    exec .readerGrant bench = .next bench ∧ bench.arbiter.link = .free :=
  ⟨rfl, rfl, rfl, rfl, rfl⟩

theorem witness_OwedEffectsComeFirst_linkSound : benchClaim.linkSound ∧ bench.linkSound := by
  refine ⟨⟨⟨fun h => absurd h (by decide +kernel), fun h => h.elim⟩, ?_, by decide +kernel,
    fun _ c _ => ⟨.passage, rfl, by decide +kernel⟩⟩,
    ⟨⟨fun h => absurd h (by decide +kernel), fun h => h.elim⟩, ?_, by decide +kernel, ?_⟩⟩
  · exact ⟨fun h => absurd h (by decide +kernel), fun ⟨j, h, _⟩ => by cases h⟩
  · exact ⟨fun h => absurd h (by decide +kernel), fun ⟨j, h, _⟩ => by cases h⟩
  · intro _ c h
    cases c <;> exact absurd h (by decide +kernel)

theorem witness_RequestFramesReadBack :
    Instr.wellFormed (.releaseHold 0) = true ∧ requestFrame (.releaseHold 0) = some [0x51, 0x00, 0x53] ∧
    Instr.wellFormed (.badOp 0xFF) = true ∧ requestFrame (.badOp 0xFF) = some [0xFF, 0x00] ∧
    wfFrameAbort [0x51, 0x00] = true ∧ wfFrameAbort [0xFF] = true :=
  by decide +kernel

theorem witness_Crc8CatchesOneChangedByte :
    crc8 ([1] ++ 2 :: [3]) = crc8 ([1] ++ 2 :: [3]) :=
  rfl

theorem witness_CheckValueCatchesOneChangedByte :
    polyOk .w16 0x1021 = true ∧ polyOk .w32 0x04C11DB7 = true ∧ polyOk .w16 0x11021 = false ∧
    checkValue .w16 0x1021 ([1] ++ 2 :: [3]) = checkValue .w16 0x1021 ([1] ++ 2 :: [3]) :=
  by decide +kernel

theorem witness_regionsDisjoint :
    bench.regionsDisjoint :=
  by unfold State.regionsDisjoint; decide +kernel

theorem witness_PlaceFindsTheTract_bounds :
    bench.place 0 = some ⟨tract0, 0⟩ ∧ bench.place 124 = some ⟨⟨0, 1⟩, 60⟩ ∧ bench.place 128 = none :=
  by decide +kernel

theorem witness_OneTractOneRecord_tracked :
    bench.tracked tract0 ∧ bench.tracked ⟨0, 1⟩ :=
  by unfold State.tracked; decide +kernel

theorem witness_HrstCutsTheTransaction_idle :
    (carry bench (.idle) []).settled = true ∧
    (carry bench (.idle) []).passage.state = .idle :=
  by decide +kernel

theorem witness_HrstCutsTheTransaction_claiming :
    (carry bench (.claiming (txn .write 0 0)) []).settled = true ∧
    (carry bench (.claiming (txn .write 0 0)) []).passage.state = .claiming (txn .write 0 0) :=
  by decide +kernel

theorem witness_HrstCutsTheTransaction_carrying_open :
    (carry bench (.carrying (txn .read 0 15)) []).settled = true ∧
    (carry bench (.carrying (txn .read 0 15)) []).passage.state = .carrying (txn .read 0 15) ∧ (txn .read 0 15).arrived < (txn .read 0 15).beats :=
  by decide +kernel

theorem witness_HrstCutsTheTransaction_carrying_ended :
    (carry bench (.carrying (txn .read 0 16)) []).settled = true ∧
    (carry bench (.carrying (txn .read 0 16)) []).passage.state = .carrying (txn .read 0 16) ∧ (txn .read 0 16).beats ≤ (txn .read 0 16).arrived :=
  by decide +kernel

theorem witness_HrstCutsTheTransaction_draining :
    (carry bench (.draining (txn .read 0 15)) []).settled = true ∧
    (carry bench (.draining (txn .read 0 15)) []).passage.state = .draining (txn .read 0 15) :=
  by decide +kernel

theorem witness_HostRequestIsTakenInIdle :
    bench.settled = true ∧ bench.passage.state = .idle ∧ bench.pins.hrst = false :=
  by decide +kernel

theorem witness_HostRequestIsTakenInIdle_left :
    ({ bench with pins := ⟨true, none, none⟩ } : State).settled = true ∧
    ({ bench with pins := ⟨true, none, none⟩ } : State).pins.hrst = true ∧ (carry bench (.draining (txn .read 0 15)) []).passage.state ≠ .idle :=
  by decide +kernel

theorem witness_ArbiterGrants_passage :
    (let s : State := { bench with passage := ⟨.claiming (txn .read 0 0), [], none⟩ }
     s.arbiter.link = .free ∧ s.arbiter.granting = none ∧ s.passageClaims = true ∧ s.readerClaims = false) :=
  by decide +kernel

theorem witness_ArbiterGrants_reader :
    (let s : State := { bench with reader := ⟨some (job .refresh .claiming .stale), .queue, 0⟩ }
     s.arbiter.link = .free ∧ s.arbiter.granting = none ∧ s.passageClaims = false ∧ s.readerClaims = true) :=
  by decide +kernel

theorem witness_ArbiterGrants_both :
    (let s : State := { bench with
        passage := ⟨.claiming (txn .read 0 0), [], none⟩
        reader := ⟨some (job .refresh .claiming .stale), .queue, 0⟩
        arbiter := ⟨.free, none, 4⟩ }
     s.arbiter.link = .free ∧ s.passageClaims = true ∧ s.readerClaims = true ∧ s.params.patience.toNat ≤ s.arbiter.passedOver.toNat) :=
  by decide +kernel

theorem witness_ArbiterGrants_neither_and_busy :
    bench.arbiter.link = .free ∧ bench.arbiter.granting = none ∧ bench.passageClaims = false ∧ bench.readerClaims = false ∧
    (carry bench .idle []).arbiter.link ≠ .free :=
  by decide +kernel

theorem witness_ArbiterGrants_standing :
    (let s : State := { bench with
        passage := ⟨.claiming (txn .read 0 0), [], none⟩, arbiter := ⟨.free, some .passage, 0⟩ }
     s.arbiter.link = .free ∧ s.arbiter.granting = some .passage ∧ s.claims .passage = true) :=
  by decide +kernel

theorem witness_ArbiterGrants_withdrawn :
    (let s : State := { bench with
        reader := ⟨some (job .refresh .claiming .stale), .queue, 0⟩, arbiter := ⟨.free, some .passage, 0⟩ }
     s.arbiter.link = .free ∧ s.arbiter.granting = some .passage ∧ s.claims .passage = false ∧ s.passageClaims = false ∧
       s.readerClaims = true) :=
  by decide +kernel

theorem witness_PassageGrant_touching :
    (let s : State := { bench with
        passage := ⟨.claiming (txn .write 0 0), [], none⟩
        arbiter := ⟨.free, some .passage, 15⟩
        reader := ⟨some (job .refresh .claiming .stale), .queue, 0⟩ }
     s.grantNext = true ∧ s.arbiter.granting = some .passage ∧ s.passage.state = .claiming (txn .write 0 0) ∧
       s.reader.job = some (job .refresh .claiming .stale) ∧ (txn .write 0 0).dir = .write ∧ 0 < (txn .write 0 0).beats ∧
       s.place (beatAddr 0 0) = some ⟨tract0, 0⟩) :=
  by decide +kernel

theorem witness_PassageGrant_not_touching :
    (let s : State := { bench with
        passage := ⟨.claiming (txn .read 0 0), [], none⟩, arbiter := ⟨.free, some .passage, 0⟩
        reader := ⟨some (job .refresh .claiming .stale), .queue, 0⟩ }
     s.grantNext = true ∧ s.arbiter.granting = some .passage ∧ s.passage.state = .claiming (txn .read 0 0) ∧
       (txn .read 0 0).dir ≠ .write) :=
  by decide +kernel

theorem witness_WriteBeatIsForwardedAndPlaced_first :
    (carry bench (.carrying (txn .write 0 0)) []).settled = true ∧ (txn .write 0 0).dir = .write ∧
    (txn .write 0 0).forwarded < (txn .write 0 0).beats ∧
    (carry bench (.carrying (txn .write 0 0)) []).place (beatAddr 0 0) = some ⟨tract0, 0⟩ :=
  by decide +kernel

theorem witness_WriteBeatIsForwardedAndPlaced_last :
    (carry bench (.carrying (txn .write 15 0)) []).settled = true ∧ (txn .write 15 0).dir = .write ∧
    (txn .write 15 0).forwarded < (txn .write 15 0).beats ∧
    (carry bench (.carrying (txn .write 15 0)) []).place (beatAddr 0 15) = some ⟨tract0, 60⟩ :=
  by decide +kernel

theorem witness_WriteBeatIsForwardedAndPlaced_untracked :
    (carry bench (.carrying { txn .write 0 0 with addr := 128 }) []).settled = true ∧
    (carry bench (.carrying { txn .write 0 0 with addr := 128 }) []).place (beatAddr 128 0) = none :=
  by decide +kernel

theorem witness_WriteResponseIsBuffered_last :
    (carry bench (.carrying (txn .write 16 15)) []).settled = true ∧ (txn .write 16 15).dir = .write ∧
    (txn .write 16 15).arrived < (txn .write 16 15).forwarded ∧ (txn .write 16 15).arrived + 1 = (txn .write 16 15).beats ∧
    (carry bench (.carrying (txn .write 16 15)) []).place (beatAddr 0 15) = some ⟨tract0, 60⟩ :=
  by decide +kernel

theorem witness_WriteResponseIsBuffered_untracked :
    (carry bench (.carrying { txn .write 1 0 with addr := 128 }) []).settled = true ∧
    (carry bench (.carrying { txn .write 1 0 with addr := 128 }) []).place (beatAddr 128 0) = none :=
  by decide +kernel

theorem witness_Draining_padding :
    (carry bench (.draining (txn .write 15 0)) []).settled = true ∧ (txn .write 15 0).dir = .write ∧
    (txn .write 15 0).forwarded + (txn .write 15 0).padded < (txn .write 15 0).beats :=
  by decide +kernel

theorem witness_Draining_response_of_forwarded :
    (carry bench (.draining (txn .write 3 2)) []).settled = true ∧ (txn .write 3 2).dir = .write ∧
    (txn .write 3 2).arrived < (txn .write 3 2).forwarded ∧ bench.place (beatAddr 0 2) = some ⟨tract0, 8⟩ :=
  by decide +kernel

theorem witness_Draining_response_of_padding :
    (carry bench (.draining { txn .write 3 3 with padded := 13 }) []).settled = true ∧
    (txn .write 3 3).forwarded ≤ (txn .write 3 3).arrived ∧ 3 < 3 + 13 :=
  by decide +kernel

theorem witness_Draining_read :
    (carry bench (.draining (txn .read 0 14)) []).settled = true ∧ (txn .read 0 14).dir = .read ∧
    (txn .read 0 14).arrived + 1 < (txn .read 0 14).beats ∧ (txn .read 0 15).arrived + 1 = (txn .read 0 15).beats :=
  by decide +kernel

theorem witness_ReadBeatIsHandledWhole :
    (carry bench (.carrying (txn .read 0 15)) []).settled = true ∧ (txn .read 0 15).dir = .read ∧
    (txn .read 0 15).arrived < (txn .read 0 15).beats ∧
    (carry bench (.carrying (txn .read 0 15)) []).place (beatAddr 0 15) = some ⟨tract0, 60⟩ :=
  by decide +kernel

theorem witness_ReadBeatIsHandledWhole_untracked :
    (carry bench (.carrying { txn .read 0 0 with addr := 128 }) []).settled = true ∧
    (carry bench (.carrying { txn .read 0 0 with addr := 128 }) []).place (beatAddr 128 0) = none :=
  by decide +kernel

theorem witness_ReadBeatIsDecided_policies :
    (bench.region 0).policy = .hold ∧
    (({ bench with regions := bench.regions.set 0 { desc with policy := .poison } } : State).region 0).policy = .poison ∧
    (({ bench with regions := bench.regions.set 0 { desc with policy := .report } } : State).region 0).policy = .report :=
  by decide +kernel

theorem witness_ResponsesAreDeliveredInOrder :
    (let s := carry bench (.carrying { txn .read 0 16 with delivered := 15 }) [⟨some .okay, none⟩]
     s.settled = true ∧ s.passage.state = .carrying { txn .read 0 16 with delivered := 15 } ∧
       s.passage.buffer = ⟨some .okay, none⟩ :: []) :=
  by decide +kernel

theorem witness_ResponsesAreDeliveredInOrder_held :
    (let s := carry bench (.carrying (txn .read 0 1)) [⟨none, none⟩]
     s.settled = true ∧ s.passage.state = .carrying (txn .read 0 1) ∧ s.passage.buffer = ⟨none, none⟩ :: []) :=
  by decide +kernel

theorem witness_ContextSlotsAndRecency :
    (benchStream .current (ctx .verify 8)).pool.slot 2 = some (ctx .verify 8) ∧
    (benchStream .current (ctx .verify 8)).pool.find tract0 = some (2, ctx .verify 8) ∧
    (benchStream .current (ctx .verify 8)).pool.lowestFree = some 0 ∧ (benchFull .current).pool.lowestFree = none ∧
    (benchStream .opened (ctx (.assemble .stale) 8)).pool.slot 2 = some (ctx (.assemble .stale) 8) :=
  by decide +kernel

theorem witness_ContextSlots_one_per_tract :
    ∀ i k : Fin 8, ((benchFull .current).pool.slot i).map Context.ref = ((benchFull .current).pool.slot k).map Context.ref → i = k :=
  by decide +kernel

theorem witness_OpeningWrite_from_unknown :
    ((benchAt .unknown 5 false).record tract0).state = .unknown ∧
    ((benchAt .unknown 5 false).freeVerify tract0).pool.lowestFree = some 0 ∧
    ((benchFull .unknown).freeVerify tract0).pool.lowestFree = none ∧
    ((benchFull .unknown).freeVerify tract0).pool.recency.getLast? = some 7 :=
  by decide +kernel

theorem witness_OpeningWrite_from_current :
    ((benchAt .current 5 false).record tract0).state = .current ∧
    ((benchAt .current 5 false).freeVerify tract0).pool.lowestFree = some 0 ∧
    ((benchFull .current).freeVerify tract0).pool.lowestFree = none ∧
    ((benchFull .current).freeVerify tract0).pool.recency.getLast? = some 7 :=
  by decide +kernel

theorem witness_OpeningWrite_from_stale :
    ((benchAt .stale 5 false).record tract0).state = .stale ∧
    ((benchAt .stale 5 false).freeVerify tract0).pool.lowestFree = some 0 ∧
    ((benchFull .stale).freeVerify tract0).pool.lowestFree = none ∧
    ((benchFull .stale).freeVerify tract0).pool.recency.getLast? = some 7 :=
  by decide +kernel

theorem witness_OpeningWrite_from_faulted :
    ((benchAt .faulted 5 false).record tract0).state = .faulted ∧
    ((benchAt .faulted 5 false).freeVerify tract0).pool.lowestFree = some 0 ∧
    ((benchFull .faulted).freeVerify tract0).pool.lowestFree = none ∧
    ((benchFull .faulted).freeVerify tract0).pool.recency.getLast? = some 7 :=
  by decide +kernel

theorem witness_OpeningWrite_restarts :
    ((benchStream .opened (ctx (.assemble .stale) 8)).record tract0).state = .opened ∧
    (benchStream .opened (ctx (.assemble .stale) 8)).pool.find tract0 = some (2, ctx (.assemble .stale) 8) :=
  by decide +kernel

theorem witness_Assembly_advances :
    (let s := benchStream .opened (ctx (.assemble .current) 56)
     (s.record tract0).state = .opened ∧ s.pool.find tract0 = some (2, ctx (.assemble .current) 56) ∧
       56 + 4 < (s.region 0).size) :=
  by decide +kernel

theorem witness_Assembly_closes :
    (let s := benchStream .opened (ctx (.assemble .current) 60)
     (s.record tract0).state = .opened ∧ s.pool.find tract0 = some (2, ctx (.assemble .current) 60) ∧
       60 + 4 = (s.region 0).size) :=
  by decide +kernel

theorem witness_Assembly_breaks :
    (let s := benchStream .opened (ctx (.assemble .current) 8)
     (s.record tract0).state = .opened ∧ s.pool.find tract0 = some (2, ctx (.assemble .current) 8) ∧
       (12 ≠ (ctx (.assemble .current) 8).next ∨ (0xF : BitVec 4) ≠ 0xF#4) ∧ ¬(12 = 0 ∧ (0xF : BitVec 4) = 0xF#4) ∧
       ((0x7 : BitVec 4) ≠ 0xF#4 ∧ ¬(0 = 0 ∧ (0x7 : BitVec 4) = 0xF#4))) :=
  by decide +kernel

theorem witness_PiecemealWrites_states :
    ¬(4 = 0 ∧ (0xF : BitVec 4) = 0xF#4) ∧ ¬(0 = 0 ∧ (0x7 : BitVec 4) = 0xF#4) ∧
    ((benchAt .current 5 false).record tract0).state = .current ∧ ((benchAt .stale 5 false).record tract0).state = .stale ∧
    ((benchAt .unknown 0 true).record tract0).state = .unknown ∧ ((benchAt .faulted 5 false).record tract0).state = .faulted :=
  by decide +kernel

theorem witness_Offer_full_and_room :
    ((benchAt .stale 5 false).record tract0).queued = false ∧ (fullQueue.drop 1).length < 32 ∧ 32 ≤ fullQueue.length ∧
    ((benchAt .stale 5 true).record tract0).queued = true :=
  by decide +kernel

theorem witness_Verify_opens :
    (let s := benchAt .current 5 false
     (s.record tract0).state = .current ∧ s.pool.find tract0 = none ∧ s.pool.lowestFree = some 0) ∧
    (let s := benchFull .current
     (s.record tract0).state = .current ∧ s.pool.find tract0 = none ∧ s.pool.lowestFree = none ∧
       s.pool.recency.getLast? = some 7) :=
  by decide +kernel

theorem witness_Verify_advances_and_completes :
    (let s := benchStream .current (ctx .verify 56)
     (s.record tract0).state = .current ∧ s.pool.find tract0 = some (2, ctx .verify 56) ∧ 56 + 4 < (s.region 0).size) ∧
    (let s := benchStream .current (ctx .verify 60)
     (s.record tract0).state = .current ∧ s.pool.find tract0 = some (2, ctx .verify 60) ∧ 60 + 4 = (s.region 0).size) :=
  by decide +kernel

theorem witness_Verify_match_and_mismatch :
    (let good : Context := ⟨.verify, tract0, 60, 0⟩
     crcBeat .w32 0x04C11DB7 good.rem ⟨0, 0, 0, 0⟩ ^^^ crcOnes .w32 = 0xFFFFFFFF ∧
       ((benchAt .current 0xFFFFFFFF false).record tract0).check = 0xFFFFFFFF ∧
       ((benchAt .current 5 false).record tract0).check ≠ 0xFFFFFFFF) :=
  by decide +kernel

theorem witness_FaultLog_room_and_full :
    (fullLog.records.drop 1).length < 16 ∧ 16 ≤ fullLog.records.length ∧ fullLog.dropped.toNat = 65535 :=
  by decide +kernel

theorem witness_ReaderGrant :
    (let s : State := { bench with
        reader := ⟨some (job .refresh .claiming .stale), .queue, 0⟩, arbiter := ⟨.free, some .reader, 15⟩ }
     s.grantNext = true ∧ s.arbiter.granting = some .reader ∧ s.reader.job = some (job .refresh .claiming .stale) ∧
       (job .refresh .claiming .stale).phase = .claiming) :=
  by decide +kernel

theorem witness_ReaderBeat_last :
    (let s := benchReading (job .refresh .reading .stale) 15
     s.settled = true ∧ s.reader.burstBeats < 16 ∧ s.arbiter.link = .reader ∧
       s.reader.job = some (job .refresh .reading .stale) ∧ (job .refresh .reading .stale).abandoned = false ∧
       (job .refresh .reading .stale).errorOffset = none) :=
  by decide +kernel

theorem witness_ReaderBeat_discarded :
    (let j := { job .refresh .reading .stale with abandoned := true }
     (benchReading j 0).settled = true ∧ (benchReading j 0).reader.job = some j ∧ j.abandoned = true) ∧
    (let j := { job .refresh .reading .stale with errorOffset := some 0 }
     (benchReading j 1).settled = true ∧ (benchReading j 1).reader.job = some j ∧ j.errorOffset ≠ none) ∧
    (let s : State := { bench with arbiter := ⟨.detached, none, 0⟩ }
     s.settled = true ∧ s.reader.burstBeats < 16 ∧ s.arbiter.link = .detached) :=
  by decide +kernel

theorem witness_ReaderBurstEnd_abandoned_and_error :
    (let j := { job .refresh .reading .stale with abandoned := true }
     (benchReading j 16).reader.burstBeats = 16 ∧ (benchReading j 16).reader.job = some j ∧ j.abandoned = true) ∧
    (let j := { job .refresh .reading .stale with errorOffset := some 60 }
     (benchReading j 16).arbiter.link = .reader ∧ (benchReading j 16).reader.job = some j ∧ j.errorOffset = some 60) :=
  by decide +kernel

theorem witness_ReaderBurstEnd_more_and_last :
    (let s : State := { benchReading (job .refresh .reading .stale) 16 with
        regions := bench.regions.set 0 { desc with sizeCode := 1 } }
     s.reader.burstBeats = 16 ∧ (job .refresh .reading .stale).nextOffset + 64 < (s.region 0).size ∧
       (s.region 0).size ≤ { job .refresh .reading .stale with nextOffset := 64 }.nextOffset + 64) :=
  by decide +kernel

theorem witness_ReaderBurstEnd_detached :
    (let s : State := { bench with arbiter := ⟨.detached, none, 0⟩, reader := ⟨none, .scrub, 16⟩ }
     s.reader.burstBeats = 16 ∧ s.arbiter.link = .detached) :=
  by decide +kernel

theorem witness_JobCompletion_learns :
    (job .refresh .reading .stale).kind ≠ .verify ∧ (job .refresh .reading .stale).overtaken = false ∧
    ((benchAt .stale 5 true).record tract0).state = (job .refresh .reading .stale).startState ∧
    ((benchAt .current 5 true).record tract0).state ≠ (job .refresh .reading .stale).startState :=
  by decide +kernel

theorem witness_JobCompletion_verifies :
    (job .verify .reading .current).kind = .verify ∧ (job .verify .reading .current).overtaken = false ∧
    ((benchAt .current 5 false).record tract0).state = .current ∧
    (job .verify .reading .current).rem ^^^ crcOnes .w32 ≠ ((benchAt .current 5 false).record tract0).check ∧
    (job .verify .reading .current).rem ^^^ crcOnes .w32 = ((benchAt .current 0 false).record tract0).check :=
  by decide +kernel

theorem witness_ReaderTakesSources :
    (let s : State := { bench with queue := [tract0], scrubber := ⟨0, false, true, none, 0, 0⟩ }
     s.reader.job = none ∧ s.queue ≠ [] ∧ s.scrubber.stepPending = true ∧ s.reader.lastSource = .scrub) ∧
    (let s : State := { bench with reader := ⟨none, .queue, 0⟩, scrubber := ⟨0, false, true, none, 0, 0⟩ }
     s.reader.job = none ∧ s.queue = [] ∧ s.scrubber.stepPending = true ∧ s.reader.lastSource = .queue) ∧
    (benchReading (job .refresh .reading .stale) 0).reader.job ≠ none ∧
    bench.queue = [] ∧ bench.scrubber.stepPending = false :=
  by decide +kernel

theorem witness_QueueTake :
    ({ benchAt .stale 5 true with queue := [tract0, ⟨0, 1⟩] } : State).queue = tract0 :: [⟨0, 1⟩] ∧
    ((benchAt .stale 5 true).record tract0).state = .stale ∧ ((benchAt .current 5 true).record tract0).state ≠ .stale :=
  by decide +kernel

theorem witness_ScrubTake_states :
    bench.scrubber.cursor = none ∧
    ({ benchAt .stale 5 false with scrubber := ⟨0, false, true, some tract0, 0, 0⟩ } : State).scrubber.cursor = some tract0 ∧
    ((benchAt .stale 5 false).record tract0).queued = false ∧ ((benchAt .stale 5 true).record tract0).queued = true ∧
    ((benchAt .current 5 false).record tract0).state = .current ∧ (bench.record tract0).state = .unknown ∧
    ((benchAt .opened 5 false).record tract0).state = .opened :=
  by decide +kernel

theorem witness_CursorAdvance_rows :
    0 + 1 < (bench.region 0).count.toNat ∧ (bench.region 0).count.toNat ≤ 1 + 1 ∧
    (∀ k : Fin 8, 0 < k → (bench.region k).state ≠ .enabled) ∧ (bench.region 0).state = .enabled ∧
    (let s : State := { bench with regions := bench.regions.set 7 { desc with base := 128, entryBase := 2 } }
     (0 : Fin 8) < 7 ∧ (s.region 7).state = .enabled ∧ ∀ k : Fin 8, 0 < k → k < 7 → (s.region k).state ≠ .enabled) :=
  by decide +kernel

theorem witness_TickAdvancesTheCounters :
    (benchHeld (some 1)).settled = true :=
  by decide +kernel

theorem witness_UnderflowPostsAStep :
    (let s : State := { bench with scrubber := ⟨0, true, false, none, 0, 0⟩ }
     s.scrubber.underflowOwed = true ∧ s.params.latch = 0 ∧ s.scrubber.stepPending = false) ∧
    (let s : State := { bench with params := { bench.params with latch := 65535 }, scrubber := ⟨0, true, true, none, 0, 65535⟩ }
     s.scrubber.underflowOwed = true ∧ s.params.latch ≠ 0 ∧ s.scrubber.stepPending = true ∧ ¬s.scrubber.slipCount.toNat < 65535) :=
  by decide +kernel

theorem witness_HoldTimeoutAnswersError :
    (benchHeld (some 0)).passage.hold = some (held (some 0)) ∧ (held (some 0)).ticksRemaining = some 0 :=
  by decide +kernel

theorem witness_PreparationEnd :
    (let s : State := { bench with
        regions := bench.regions.set 0 { desc with state := .preparing }, port := { bench.port with longOp := .enabling 0 } }
     s.settled = true ∧ s.port.longOp = .enabling 0) :=
  by decide +kernel

theorem witness_listening :
    bench.listening = true ∧ (benchHeld (some 1)).listening = true ∧ (benchHeld none).listening = true :=
  by decide +kernel

theorem witness_ResponsesCarry :
    bench.listening = true ∧ requestBody .getStatus = some (0x01, []) ∧ requestBody (.clearAlert 0xFF) = some (0x60, [0xFF]) :=
  by decide +kernel

theorem witness_ResponsesCarry_next :
    gives (exec .getStatus bench) (fun _ => true) = true ∧ gives (exec .popFault bench) (fun t =>
      decide (t.port.frame = .response (0x0A :: [crc8 [0x0A]]) 0)) = true ∧ (0x0A : Byte) ≠ 0x00#8 ∧ (0x0A : Byte) ≠ 0x01#8 :=
  by decide +kernel

theorem witness_ResponsesCarry_status :
    (Status.noHold, (0x0B : Byte)) ∈ ([(.ok, 0x00), (.noHold, 0x0B)] : List (Status × Byte)) :=
  by decide +kernel

theorem witness_ReadCommands_bounds :
    8 ≤ (0x08 : Byte).toNat ∧ (benchHeld none).passage.hold = some (held none) ∧ bench.passage.hold = none ∧
    ({ bench with log := fullLog } : State).log.records = fault 0 :: fullLog.records.drop 1 ∧ bench.log.records = [] :=
  by decide +kernel

theorem witness_TractCommands_bounds :
    (0 : Byte) = BitVec.ofNat 8 (0 : Fin 8).val ∧ (bench.region 0).state = .enabled ∧ (1 : BitVec 16).toNat < (bench.region 0).count.toNat ∧
    (bench.region 0).count.toNat ≤ (2 : BitVec 16).toNat ∧ (7 : Byte) = BitVec.ofNat 8 (7 : Fin 8).val ∧
    (bench.region 7).state ≠ .enabled ∧ 8 ≤ (0x08 : Byte).toNat :=
  by decide +kernel

theorem witness_ForgetTract_held :
    (benchHeld none).listening = true ∧ ((benchHeld none).region 0).state = .enabled ∧
    (benchHeld none).passage.hold = some (held none) ∧ (held none).ref = tract0 :=
  by decide +kernel

theorem witness_ForgetTract_job_and_context :
    (let s : State := { benchStream .current (ctx .verify 8) with reader := ⟨some (job .verify .claiming .current), .scrub, 0⟩ }
     s.listening = true ∧ s.passage.hold = none ∧ s.reader.job = some (job .verify .claiming .current) ∧
       (job .verify .claiming .current).ref = tract0 ∧ s.pool.slot 2 = some (ctx .verify 8)) :=
  by decide +kernel

theorem witness_RepairTract_states :
    (let s := benchAt .faulted 5 false
     s.listening = true ∧ s.passage.hold = none ∧ (s.record tract0).state = .faulted ∧ (s.record tract0).queued = false ∧
       s.queue.length < 32) ∧
    (let s : State := { benchAt .faulted 5 false with queue := fullQueue }
     s.listening = true ∧ 32 ≤ s.queue.length) ∧
    ((benchAt .faulted 5 true).record tract0).queued = true ∧ ((benchAt .stale 5 true).record tract0).state ≠ .faulted :=
  by decide +kernel

theorem witness_SetRegion_accepted :
    bench.listening = true ∧ bench.port.longOp = .idle ∧ (bench.region 7).state = .disabled ∧
    (0xFFFFFC00 : Word).toNat % (64 * 2 ^ (4 : BitVec 3).toNat) = 0 ∧ (0x1021 : Word).toNat % 2 = 1 ∧
    4095 + 1 ≤ 4096 ∧ (0xFFFFFC00 : Word).toNat + 64 * 2 ^ (4 : BitVec 3).toNat * 1 ≤ 2 ^ 32 ∧ (0x1021 : Word).toNat < 65536 :=
  by decide +kernel

theorem witness_SetRegion_refused :
    (bench.region 0).state ≠ .disabled ∧ ({ bench with port := { bench.port with longOp := .disabling 3 } } : State).port.longOp ≠ .idle ∧
    ({ bench with port := { bench.port with longOp := .disabling 3 } } : State).listening = true ∧
    (64 : Word).toNat % (64 * 2 ^ (2 : BitVec 3).toNat) ≠ 0 :=
  by decide +kernel

theorem witness_EnableRegion_accepted :
    (let s : State := { bench with regions := bench.regions.set 1 { desc with base := 128, entryBase := 2, state := .disabled } }
     s.listening = true ∧ s.port.longOp = .idle ∧ (s.region 1).state = .disabled ∧ (s.region 1).count.toNat ≠ 0 ∧
       ∀ m : Fin 8, m ≠ 1 → (s.region m).state ≠ .disabled →
         ¬((s.region 1).base.toNat < (s.region m).base.toNat + (s.region m).span ∧
             (s.region m).base.toNat < (s.region 1).base.toNat + (s.region 1).span) ∧
           ¬((s.region 1).entryBase.toNat < (s.region m).entryBase.toNat + (s.region m).count.toNat ∧
             (s.region m).entryBase.toNat < (s.region 1).entryBase.toNat + (s.region 1).count.toNat)) :=
  by decide +kernel

theorem witness_EnableRegion_overlap :
    (let s : State := { bench with regions := bench.regions.set 1 { desc with base := 128, entryBase := 1, state := .disabled } }
     (s.region 1).state = .disabled ∧ (s.region 1).count.toNat ≠ 0 ∧ (0 : Fin 8) ≠ 1 ∧ (s.region 0).state ≠ .disabled ∧
       (s.region 1).entryBase.toNat < (s.region 0).entryBase.toNat + (s.region 0).count.toNat ∧
       (s.region 0).entryBase.toNat < (s.region 1).entryBase.toNat + (s.region 1).count.toNat) ∧
    (bench.region 7).count.toNat = 0 :=
  by decide +kernel

theorem witness_DisableRegion_held_and_free :
    (benchHeld none).listening = true ∧ (benchHeld none).port.longOp = .idle ∧ (held none).ref.region = 0 ∧
    bench.passage.hold = none ∧ bench.reader.job = none :=
  by decide +kernel

theorem witness_DisableRegion_jobs :
    (let s : State := { bench with reader := ⟨some (job .refresh .claiming .stale), .queue, 0⟩ }
     s.listening = true ∧ s.reader.job = some (job .refresh .claiming .stale) ∧ (job .refresh .claiming .stale).phase = .claiming) ∧
    (let s := benchReading (job .refresh .reading .stale) 3
     s.listening = true ∧ s.reader.job = some (job .refresh .reading .stale) ∧ (job .refresh .reading .stale).phase = .reading) :=
  by decide +kernel

theorem witness_DisableRegion_cursor :
    (let s : State := { bench with scrubber := ⟨0, false, false, some tract0, 0, 0⟩ }
     s.scrubber.cursor = some tract0 ∧ tract0.region = 0 ∧ ∀ k : Fin 8, k ≠ 0 → (s.region k).state ≠ .enabled) :=
  by decide +kernel

theorem witness_SetParams_bounds :
    (0 : Byte).toNat = 0 ∧ 15 < (16 : Byte).toNat ∧ 1 ≤ (1 : Byte).toNat ∧ (15 : Byte).toNat ≤ 15 :=
  by decide +kernel

theorem witness_PopFault :
    ({ bench with log := fullLog } : State).listening = true ∧
    ({ bench with log := fullLog } : State).log.records = fault 0 :: fullLog.records.drop 1 :=
  by decide +kernel

theorem witness_ReleaseHold :
    (benchHeld none).listening = true ∧ (benchHeld none).passage.hold ≠ none ∧ 2 ≤ (2 : Byte).toNat ∧ (1 : Byte).toNat < 2 :=
  by decide +kernel

theorem witness_Restart_with_preparation :
    (let s : State := { bench with port := { bench.port with longOp := .enabling 0 } }
     s.listening = true ∧ s.port.longOp = .enabling 0) ∧ ∀ n : Fin 8, bench.port.longOp ≠ .enabling n :=
  by decide +kernel

theorem witness_SelectionEdges :
    State.reset.settled = true ∧ State.reset.port.frame = .deselected ∧
    ({ bench with port := { bench.port with frame := .response [0x00, 0xC4] 0 } } : State).settled = true :=
  by decide +kernel

theorem witness_SelectionEdges_bits :
    ({ bench with port := { bench.port with frame := .response [0x00, 0xC4] 16 } } : State).settled = true ∧
    16 = 8 * 1 + 7 + 1 ∧ 1 < [0x00#8, 0xC4#8].length ∧ 1 = 8 * 0 + 0 + 1 :=
  by decide +kernel

theorem witness_SelectionEdges_spent :
    ({ bench with port := { bench.port with frame := .spent } } : State).settled = true :=
  by decide +kernel

theorem witness_LinesCarry_grants :
    benchClaim.grantNext = true ∧ benchClaim.arbiter.granting = some .passage ∧
    benchClaim.passage.state = .claiming (txn .write 0 0) ∧ 1 ≤ (txn .write 0 0).beats ∧ (txn .write 0 0).beats ≤ 16 :=
  by decide +kernel

theorem witness_LinesCarry_delivery :
    (let s := carry bench (.carrying (txn .read 0 1)) [⟨some .error, some ⟨1, 2, 3, 4⟩⟩]
     s.settled = true ∧ s.offered = some ⟨.error, some ⟨1, 2, 3, 4⟩⟩) :=
  by decide +kernel

theorem witness_LinesCarry_samples :
    Instr.wellFormed .getStatus = true ∧ (requestSamples .getStatus).isSome = true :=
  by decide +kernel

theorem witness_FrameErrors :
    bench.listening = true ∧ [0x00#8].length = (commandArgs 0x51).getD 0 ∧ (0x54 : Byte) ≠ crc8 [0x51, 0x00] ∧ commandArgs 0xFF = none ∧
    [0x00#8].length ≤ (commandArgs 0x51).getD 0 ∧ ([] : List Byte).length ≤ (commandArgs 0xFF).getD 0 :=
  by decide +kernel

/-- A state with an assembly on tract 0, tract 1 STALE and queued, a VERIFY job whose burst is on the link, and the cursor on
tract 1. -/
def benchBusy : State :=
  { benchStream .opened (ctx (.assemble .current) 8) with
    pending := [.tick]
    store := [(0, ⟨.opened, 5, false⟩), (1, ⟨.stale, 6, true⟩)]
    queue := [⟨0, 1⟩]
    reader := ⟨some { job .verify .reading .current with ref := ⟨0, 1⟩ }, .scrub, 3⟩
    arbiter := ⟨.reader, none, 0⟩
    scrubber := ⟨0, false, false, some ⟨0, 1⟩, 0, 0⟩
    log := fullLog }

theorem benchBusy_tracked (t : TractRef) : benchBusy.tracked t ↔ t = ⟨0, 0⟩ ∨ t = ⟨0, 1⟩ := by
  obtain ⟨n, k⟩ := t
  have hn : ∀ m : Fin 8, (benchBusy.region m).state = .enabled ↔ m = 0 := by decide +kernel
  have hc : (benchBusy.region 0).count.toNat = 2 := by decide +kernel
  simp only [State.tracked, hn, TractRef.mk.injEq]
  constructor
  · rintro ⟨rfl, h⟩
    rw [hc] at h
    omega
  · rintro (⟨rfl, rfl⟩ | ⟨rfl, rfl⟩) <;> simp [hc]

theorem witness_EveryStepKeepsThePartCoherent : benchBusy.coherent := by
  have hs : ∀ i c, benchBusy.pool.slot i = some c → i = 2 ∧ c = ctx (.assemble .current) 8 := by
    intro i c h
    have : ∀ i : Fin 8, benchBusy.pool.slot i = if i = 2 then some (ctx (.assemble .current) 8) else none := by decide +kernel
    rw [this] at h
    split at h
    · rename_i e
      exact ⟨e, (Option.some.inj h).symm⟩
    · cases h
  refine ⟨?_, ?_, ?_, ?_, ?_, ?_, ?_, ?_, ?_⟩
  · unfold State.storeCanonical
    decide +kernel
  · unfold State.poolInStep
    decide +kernel
  · unfold State.regionsDisjoint
    decide +kernel
  · refine ⟨by decide +kernel, ?_⟩
    intro j h ha
    cases h
    cases ha
  · unfold State.descriptorsSound Region.accepted
    decide +kernel
  · refine ⟨by decide +kernel, by decide +kernel, ?_, ?_⟩
    · intro t ht
      rw [benchBusy_tracked]
      exact .inr (List.mem_singleton.1 ht)
    · intro t ht
      rcases (benchBusy_tracked t).1 ht with rfl | rfl <;> decide +kernel
  · refine ⟨?_, ?_, ?_⟩
    · intro i c h
      rw [(hs i c h).2, benchBusy_tracked]
      exact .inl rfl
    · intro i k c d h h' _
      rw [(hs i c h).1, (hs k d h').1]
    · intro t ht
      rcases (benchBusy_tracked t).1 ht with rfl | rfl
      · exact ⟨fun _ => ⟨2, _, .current, rfl, rfl, rfl⟩, fun _ => by decide +kernel⟩
      · constructor
        · intro h
          exact absurd h (by decide +kernel)
        · rintro ⟨i, c, o, h, hr, -⟩
          rw [(hs i c h).2] at hr
          exact absurd hr (by decide +kernel)
  · intro j h
    cases h
    refine ⟨.inr ?_, by decide +kernel, by decide +kernel⟩
    rw [benchBusy_tracked]
    exact .inr rfl
  · intro t h
    cases h
    rw [benchBusy_tracked]
    exact .inr rfl

theorem witness_EveryStepKeepsThePartCoherent_next : gives (step benchBusy) (fun _ => true) = true := by decide +kernel

theorem witness_EveryStepKeepsLogAlertAndSearch :
    benchBusy.logInOrder ∧ benchBusy.alertAgrees ∧ benchBusy.searched = true := by
  refine ⟨⟨by decide +kernel, ?_⟩, by unfold State.alertAgrees; decide +kernel, by decide +kernel⟩
  change numberedUpTo ((List.range 16).map fault) 16
  simp only [List.range, List.range.loop, List.map, numberedUpTo]
  decide +kernel

theorem witness_EveryStepKeepsPassageAndLinkInStep : benchBusy.passageSound ∧ benchBusy.linkSound := by
  refine ⟨?_, ?_, ?_, ?_, ?_⟩
  · change benchBusy.passage.buffer = []
    decide +kernel
  · constructor
    · intro h
      exact absurd h (by decide +kernel)
    · intro h
      cases h
  · exact ⟨fun _ => ⟨_, rfl, rfl⟩, fun _ => by decide +kernel⟩
  · intro h
    exact absurd rfl h
  · intro h
    exact absurd h (by decide +kernel)

theorem witness_EveryStepKeepsPassageAndLinkInStep_carrying :
    (carry { bench with pending := [.tick] } (.carrying (txn .write 3 1)) [⟨some .okay, none⟩]).passageSound ∧
      gives (step (carry { bench with pending := [.tick] } (.carrying (txn .write 3 1)) [⟨some .okay, none⟩]))
        (fun _ => true) = true := by
  refine ⟨⟨by decide +kernel, by decide +kernel, by decide +kernel, fun _ => by decide +kernel⟩, by decide +kernel⟩

end Sys2Proof.Tests
end

