-- ==== Sys2Proof/Proofs/TractCommands.lean ====
section
/-! PROOFS. The tract commands: the argument checks of R15, the bytes GET-TRACT reports (R16), and the obligation about both. -/

namespace Sys2Proof.Machine

/-! ## Argument and result bytes -/

theorem smallNumber_eq_none (b : Byte) (h : 8 ≤ b.toNat) : smallNumber b = none :=
  dif_neg h.not_gt

@[simp] theorem smallNumber_ofNat (n : Fin 8) : smallNumber (BitVec.ofNat 8 n.val) = some n := by
  have hn : (BitVec.ofNat 8 n.val).toNat = n.val := by
    rw [BitVec.toNat_ofNat]
    omega
  simp [smallNumber, hn]

/-- The bytes of a four-byte field are its quotients by the powers of 2^8, the most significant first (R193). -/
theorem be32_eq_ofNat (x : Word) :
    be32 x = [BitVec.ofNat 8 (x.toNat / 2 ^ 24), BitVec.ofNat 8 (x.toNat / 2 ^ 16), BitVec.ofNat 8 (x.toNat / 2 ^ 8),
      BitVec.ofNat 8 x.toNat] := by
  simp [be32, BitVec.extractLsb', Nat.shiftRight_eq_div_pow]

/-! ## The checks of R15 -/

theorem State.checkTract_of_noRegion (s : State) (region : Byte) (tract : BitVec 16) (h : 8 ≤ region.toNat) :
    s.checkTract region tract = .error .badArg := by
  simp [State.checkTract, smallNumber_eq_none region h]

theorem State.checkTract_of_notEnabled (s : State) (n : Fin 8) (tract : BitVec 16) (h : (s.region n).state ≠ .enabled) :
    s.checkTract (BitVec.ofNat 8 n.val) tract = .error .state := by
  simp [State.checkTract, h]

theorem State.checkTract_of_count_le (s : State) (n : Fin 8) (tract : BitVec 16) (he : (s.region n).state = .enabled)
    (h : (s.region n).count.toNat ≤ tract.toNat) :
    s.checkTract (BitVec.ofNat 8 n.val) tract = .error .badArg := by
  simp [State.checkTract, he, h.not_gt]

/-- A tract of an ENABLED region passes the checks. -/
theorem State.checkTract_of_lt_count (s : State) (n : Fin 8) (tract : BitVec 16) (he : (s.region n).state = .enabled)
    (h : tract.toNat < (s.region n).count.toNat) :
    s.checkTract (BitVec.ofNat 8 n.val) tract = .ok ⟨n, tract.toNat⟩ := by
  simp [State.checkTract, he, h]

/-! ## The tract commands in a listening state -/

theorem exec_getTract (region : Byte) (tract : BitVec 16) (s : State) :
    exec (.getTract region tract) s = execGetTract region tract s := rfl

theorem exec_forgetTract (region : Byte) (tract : BitVec 16) (s : State) :
    exec (.forgetTract region tract) s = execForgetTract region tract s := rfl

theorem exec_repairTract (region : Byte) (tract : BitVec 16) (s : State) :
    exec (.repairTract region tract) s = execRepairTract region tract s := rfl

/-- A tract command that the checks of R15 refuse is answered with their status, and nothing else changes. -/
theorem exec_tractCommand_of_checkTract_error (s : State) (region : Byte) (tract : BitVec 16) (st : Status)
    (hl : s.listening = true) (he : s.checkTract region tract = .error st) (c : Instr)
    (hc : c = .getTract region tract ∨ c = .forgetTract region tract ∨ c = .repairTract region tract) :
    exec c s = .next (s.answer 3 st []) := by
  obtain rfl | rfl | rfl := hc
  · simp [exec_getTract, execGetTract, s.request_listening _ _ hl, he, Reply.refuse]
  · simp [exec_forgetTract, execForgetTract, s.request_listening _ _ hl, he, Reply.refuse]
  · simp [exec_repairTract, execRepairTract, s.request_listening _ _ hl, he, Reply.refuse]

/-- GET-TRACT of a tract that the checks of R15 pass reports its record and changes nothing (R16). -/
theorem exec_getTract_of_checkTract_ok (s : State) (region : Byte) (tract : BitVec 16) (t : TractRef)
    (hl : s.listening = true) (h : s.checkTract region tract = .ok t) :
    exec (.getTract region tract) s = .next (s.answer 3 .ok (s.tractReport t)) := by
  simp [exec_getTract, execGetTract, s.request_listening _ _ hl, h]

/-! ## The obligation -/

/-- Settles O42: each clause is one outcome of the checks of R15, and the report of a tract that passes is rewritten byte by
byte. -/
theorem tractCommandsCheckInOrder : Obligations.TractCommandsCheckInOrder := by
  intro s region tract hl four state
  refine ⟨fun h => ?badRegion, ?_⟩
  case badRegion =>
    exact exec_tractCommand_of_checkTract_error s region tract _ hl (s.checkTract_of_noRegion region tract h)
  rintro n rfl
  refine ⟨fun h => ?notEnabled, fun he h => ?badTract, fun he h => ?passes⟩
  case notEnabled =>
    exact exec_tractCommand_of_checkTract_error s _ tract _ hl (s.checkTract_of_notEnabled n tract h)
  case badTract =>
    exact exec_tractCommand_of_checkTract_error s _ tract _ hl (s.checkTract_of_count_le n tract he h)
  case passes =>
    have hfour (x : Word) : four x = be32 x := (be32_eq_ofNat x).symm
    have hstate (st : TractState) : state st = st.byte := by cases st <;> rfl
    rw [exec_getTract_of_checkTract_ok s _ tract _ hl (s.checkTract_of_lt_count n tract he h), hfour, hfour, hstate]
    rfl

end Sys2Proof.Machine
end

