-- ==== Sys2Proof/Proofs/ReadCommands.lean ====
section
/-! PROOFS. The reading commands: what each answers in a listening state, the bytes of the reports (sections 10.2 and 10.4), and
the obligation about them. -/

namespace Sys2Proof.Machine

/-! ## Result bytes -/

/-- The bytes of a two-byte field are its quotients by 2^8 and 1, the most significant first (R193). -/
theorem be16_eq_ofNat (x : BitVec 16) : be16 x = [BitVec.ofNat 8 (x.toNat / 256), BitVec.ofNat 8 x.toNat] := by
  simp [be16, BitVec.extractLsb', Nat.shiftRight_eq_div_pow]

/-- The long-operation byte is 10h or 20h plus the region number (R197). -/
theorem LongOp.byte_eq_ofNat (l : LongOp) :
    l.byte = match l with
      | .idle => 0x00
      | .enabling n => BitVec.ofNat 8 (16 + n.val)
      | .disabling n => BitVec.ofNat 8 (32 + n.val) := by
  cases l with
  | idle => rfl
  | enabling n => exact (BitVec.ofNat_add 16 n.val).symm
  | disabling n => exact (BitVec.ofNat_add 32 n.val).symm

/-- The reader byte is 00h for an IDLE reader, and else bit 7 and the kind of its job (R197). -/
theorem Reader.byte_eq_ofKind (r : Reader) :
    r.byte = match r.job.map Job.kind with
      | none => 0x00
      | some .refresh => 0x81
      | some .establish => 0x82
      | some .verify => 0x83 := by
  unfold Reader.byte
  cases r.job with
  | none => rfl
  | some j =>
    simp only [Option.map_some]
    cases j.kind <;> rfl

/-- The slot report of a free slot is thirteen bytes of 00h (R187). -/
theorem Pool.report_of_free (p : Pool) (i : Fin 8) (h : p.slot i = none) : p.report i = List.replicate 13 0 := by
  simp [Pool.report, h]

/-- The slot report of a slot in use (R187, section 10.4). -/
theorem Pool.report_of_inUse (p : Pool) (i : Fin 8) (c : Context) (h : p.slot i = some c) :
    p.report i =
      [1, c.kind.byte, byteOf c.ref.region.val] ++ be16Of c.ref.tract ++ be16Of c.next ++ be32 c.rem ++
        [c.kind.originByte, byteOf (p.recency.idxOf i)] := by
  simp [Pool.report, h]

/-! ## The reading commands in a listening state -/

section Listening

variable (s : State) (hl : s.listening = true)
include hl

theorem exec_getStatus_listening : exec .getStatus s = .next (s.answer 0 .ok s.statusBlock) := by
  change execGetStatus s = _
  simp [execGetStatus, s.request_listening _ _ hl]

theorem exec_getParams_listening : exec .getParams s = .next (s.answer 0 .ok s.params.report) := by
  change execGetParams s = _
  simp [execGetParams, s.request_listening _ _ hl]

theorem exec_getRegion_of_noRegion (b : Byte) (h : 8 ≤ b.toNat) :
    exec (.getRegion b) s = .next (s.answer 1 .badArg []) := by
  change execGetRegion b s = _
  simp [execGetRegion, s.request_listening _ _ hl, smallNumber_eq_none b h, Reply.refuse]

theorem exec_getRegion_listening (n : Fin 8) :
    exec (.getRegion (BitVec.ofNat 8 n.val)) s = .next (s.answer 1 .ok (s.region n).report) := by
  change execGetRegion _ s = _
  simp [execGetRegion, s.request_listening _ _ hl]

theorem exec_getContext_of_noSlot (b : Byte) (h : 8 ≤ b.toNat) :
    exec (.getContext b) s = .next (s.answer 1 .badArg []) := by
  change execGetContext b s = _
  simp [execGetContext, s.request_listening _ _ hl, smallNumber_eq_none b h, Reply.refuse]

theorem exec_getContext_listening (i : Fin 8) :
    exec (.getContext (BitVec.ofNat 8 i.val)) s = .next (s.answer 1 .ok (s.pool.report i)) := by
  change execGetContext _ s = _
  simp [execGetContext, s.request_listening _ _ hl]

theorem exec_peekFault_of_empty (h : s.log.records = []) : exec .peekFault s = .next (s.answer 0 .empty []) := by
  change execPeekFault s = _
  simp [execPeekFault, s.request_listening _ _ hl, h, Reply.refuse]

theorem exec_peekFault_of_head (f : FaultRecord) (rest : List FaultRecord) (h : s.log.records = f :: rest) :
    exec .peekFault s = .next (s.answer 0 .ok f.report) := by
  change execPeekFault s = _
  simp [execPeekFault, s.request_listening _ _ hl, h]

theorem exec_getHold_of_noHold (h : s.passage.hold = none) : exec .getHold s = .next (s.answer 0 .noHold []) := by
  change execGetHold s = _
  simp [execGetHold, s.request_listening _ _ hl, h, Reply.refuse]

theorem exec_getHold_of_hold (r : HoldRecord) (h : s.passage.hold = some r) :
    exec .getHold s = .next (s.answer 0 .ok r.report) := by
  change execGetHold s = _
  simp [execGetHold, s.request_listening _ _ hl, h]

end Listening

/-! ## The obligation -/

/-- Settles O41: each command's answer is its report, and the codings the statement writes out are those of the report. -/
theorem readCommandsReportAndChangeNothing : Obligations.ReadCommandsReportAndChangeNothing := by
  intro s hl two four yes state longOp reader width policy contextKind origin faultKind
  have htwo : two = be16 := funext fun x => (be16_eq_ofNat x).symm
  have hfour : four = be32 := funext fun x => (be32_eq_ofNat x).symm
  have hstate : state = RegionState.byte := by funext st; cases st <;> rfl
  have hlongOp : longOp = s.port.longOp.byte := (LongOp.byte_eq_ofNat _).symm
  have hreader : reader = s.reader.byte := (Reader.byte_eq_ofKind _).symm
  have hwidth : width = widthByte := by funext w; cases w <;> rfl
  have hpolicy : policy = ReadPolicy.byte := by funext p; cases p <;> rfl
  have hcontextKind : contextKind = ContextKind.byte := by funext k; cases k <;> rfl
  have horigin : origin = ContextKind.originByte := by
    funext k
    match k with
    | .assemble o => cases o <;> rfl
    | .verify => rfl
  have hfaultKind : faultKind = FaultKind.byte := by funext k; cases k <;> rfl
  rw [htwo, hfour, hstate, hlongOp, hreader, hwidth, hpolicy, hcontextKind, horigin, hfaultKind]
  refine ⟨exec_getStatus_listening s hl, exec_getParams_listening s hl,
    fun n => ⟨exec_getRegion_listening s hl n, fun hfree => ?freeSlot, fun c hc => ?slotInUse⟩,
    fun b hb => ⟨exec_getRegion_of_noRegion s hl b hb, exec_getContext_of_noSlot s hl b hb⟩,
    exec_getHold_of_hold s hl, exec_getHold_of_noHold s hl, exec_peekFault_of_head s hl, exec_peekFault_of_empty s hl⟩
  case freeSlot =>
    rw [exec_getContext_listening s hl, Pool.report_of_free _ _ hfree]
    rfl
  case slotInUse =>
    rw [exec_getContext_listening s hl, Pool.report_of_inUse _ _ _ hc]
    rfl

end Sys2Proof.Machine
end

