-- ==== Sys2Proof/Proofs/SetRegion.lean ====
section
/-! PROOFS. SET-REGION: its argument fields (R195), the checks of R25 on the descriptor, and the obligation about both. -/

namespace Sys2Proof.Machine

/-! ## Argument fields -/

/-- The size code field is the byte modulo 8 (R195). -/
theorem sizeCode_field_toNat (b : Byte) : (b.extractLsb' 0 3).toNat = b.toNat % 8 := by simp

theorem forcedCode_eq (b : Byte) : forcedCode b = if 4 < b.toNat % 8 then 2 else BitVec.ofNat 3 (b.toNat % 8) := by
  have hfield : b.extractLsb' 0 3 = BitVec.ofNat 3 (b.toNat % 8) := by
    rw [← sizeCode_field_toNat, BitVec.ofNat_toNat, BitVec.setWidth_eq]
  rw [forcedCode, sizeCode_field_toNat, hfield]

theorem codeForced_eq (b : Byte) : codeForced b = decide (4 < b.toNat % 8) := by
  rw [codeForced, sizeCode_field_toNat]

/-- The width field accepts the two bytes that GET-REGION reports widths with, and no other. -/
theorem widthOf_eq_some_iff (b : Byte) (w : CheckWidth) : widthOf b = some w ↔ b = widthByte w := by
  cases w <;> revert b <;> decide

/-- The policy field accepts the three bytes that GET-REGION reports policies with, and no other. -/
theorem policyOf_eq_some_iff (b : Byte) (p : ReadPolicy) : policyOf b = some p ↔ b = p.byte := by
  cases p <;> revert b <;> decide

/-- A polynomial is odd and, at width 16, below 2^16 (R25, step 3). -/
theorem polyOk_iff (w : CheckWidth) (poly : Word) :
    polyOk w poly = true ↔ poly.toNat % 2 = 1 ∧ (w = .w16 → poly.toNat < 65536) := by
  cases w <;> simp [polyOk, BitVec.getLsbD, Nat.testBit_zero]

/-! ## The checks of R25 -/

/-- The descriptor fields that pass the four steps of R25: the base a multiple of the forced tract size, width byte and policy
byte those of `w` and `pol`, the polynomial in range, the counts in range. -/
structure DescriptorFits (base : Word) (sizeCode : Byte) (count entryBase : BitVec 16) (width : Byte) (poly : Word)
    (policy : Byte) (w : CheckWidth) (pol : ReadPolicy) : Prop where
  aligned : base.toNat % tractSizeOf (forcedCode sizeCode) = 0
  width_eq : width = widthByte w
  policy_eq : policy = pol.byte
  poly_odd : poly.toNat % 2 = 1
  poly_short : w = .w16 → poly.toNat < 65536
  count_pos : 1 ≤ count.toNat
  count_le : count.toNat ≤ 4096
  entries_le : entryBase.toNat + count.toNat ≤ 4096
  span_le : base.toNat + tractSizeOf (forcedCode sizeCode) * count.toNat ≤ 2 ^ 32

section Checks

variable {base : Word} {sizeCode : Byte} {count entryBase : BitVec 16} {width : Byte} {poly : Word} {policy : Byte}

/-- Fields that fit give the descriptor that replaces the region's (R26). -/
theorem checkedRegion_of_fits {w : CheckWidth} {pol : ReadPolicy}
    (h : DescriptorFits base sizeCode count entryBase width poly policy w pol) :
    checkedRegion base sizeCode count entryBase width poly policy =
      some ⟨base, forcedCode sizeCode, count, entryBase, w, poly, pol, .disabled⟩ := by
  have hw : widthOf width = some w := (widthOf_eq_some_iff _ _).mpr h.width_eq
  have hpol : policyOf policy = some pol := (policyOf_eq_some_iff _ _).mpr h.policy_eq
  have hpoly : polyOk w poly = true := (polyOk_iff _ _).mpr ⟨h.poly_odd, h.poly_short⟩
  have hcounts : ¬(count.toNat = 0 ∨ 4096 < count.toNat ∨ 4096 < entryBase.toNat + count.toNat ∨
      2 ^ 32 < base.toNat + tractSizeOf (forcedCode sizeCode) * count.toNat) := by
    have := h.count_pos
    have := h.count_le
    have := h.entries_le
    have := h.span_le
    omega
  simp only [checkedRegion, h.aligned, hw, hpol, hpoly, ne_eq, not_true_eq_false, Bool.true_eq_false, if_false]
  exact if_neg hcounts

/-- Only fields that fit pass the checks. -/
theorem fits_of_checkedRegion {r : Region}
    (h : checkedRegion base sizeCode count entryBase width poly policy = some r) :
    ∃ w pol, DescriptorFits base sizeCode count entryBase width poly policy w pol := by
  unfold checkedRegion at h
  dsimp only at h
  split at h
  · cases h
  · rename_i haligned
    split at h
    · rename_i w pol hw hpol
      split at h
      · cases h
      · rename_i hpoly
        split at h
        · cases h
        · rename_i hcounts
          obtain ⟨hodd, hshort⟩ := (polyOk_iff w poly).mp (by simpa using hpoly)
          exact ⟨w, pol, by omega, (widthOf_eq_some_iff _ _).mp hw, (policyOf_eq_some_iff _ _).mp hpol, hodd, hshort,
            by omega, by omega, by omega, by omega⟩
    · cases h

end Checks

/-! ## SET-REGION in a listening state -/

section Listening

variable (s : State) (hl : s.listening = true) {base : Word} {sizeCode : Byte} {count entryBase : BitVec 16} {width : Byte}
  {poly : Word} {policy : Byte}
include hl

theorem exec_setRegion_of_reply {region : Byte} {u : State} {st : Status}
    (h : s.changeRegion region base sizeCode count entryBase width poly policy = ⟨u, st, []⟩) :
    exec (.setRegion region base sizeCode count entryBase width poly policy) s = .next (u.answer 16 st []) := by
  change execSetRegion region base sizeCode count entryBase width poly policy s = _
  simp [execSetRegion, s.request_listening _ _ hl, h]

theorem exec_setRegion_of_noRegion {region : Byte} (h : 8 ≤ region.toNat) :
    exec (.setRegion region base sizeCode count entryBase width poly policy) s = .next (s.answer 16 .badArg []) :=
  exec_setRegion_of_reply s hl (by simp [State.changeRegion, smallNumber_eq_none region h, Reply.refuse])

theorem exec_setRegion_of_busy (n : Fin 8) (h : s.port.longOp ≠ .idle) :
    exec (.setRegion (BitVec.ofNat 8 n.val) base sizeCode count entryBase width poly policy) s =
      .next (s.answer 16 .busy []) :=
  exec_setRegion_of_reply s hl (by simp [State.changeRegion, h, Reply.refuse])

theorem exec_setRegion_of_notDisabled (n : Fin 8) (hi : s.port.longOp = .idle) (h : (s.region n).state ≠ .disabled) :
    exec (.setRegion (BitVec.ofNat 8 n.val) base sizeCode count entryBase width poly policy) s =
      .next (s.answer 16 .state []) :=
  exec_setRegion_of_reply s hl (by simp [State.changeRegion, hi, h, Reply.refuse])

variable (n : Fin 8) (hi : s.port.longOp = .idle) (hd : (s.region n).state = .disabled)
include hi hd

theorem exec_setRegion_of_misfit
    (h : ∀ w pol, ¬DescriptorFits base sizeCode count entryBase width poly policy w pol) :
    exec (.setRegion (BitVec.ofNat 8 n.val) base sizeCode count entryBase width poly policy) s =
      .next (s.answer 16 .badArg []) := by
  have hnone : checkedRegion base sizeCode count entryBase width poly policy = none := by
    refine Option.eq_none_iff_forall_ne_some.mpr fun r hr => ?_
    obtain ⟨w, pol, hfits⟩ := fits_of_checkedRegion hr
    exact h w pol hfits
  exact exec_setRegion_of_reply s hl (by simp [State.changeRegion, hi, hd, hnone, Reply.refuse])

theorem exec_setRegion_of_fits {w : CheckWidth} {pol : ReadPolicy}
    (h : DescriptorFits base sizeCode count entryBase width poly policy w pol) :
    exec (.setRegion (BitVec.ofNat 8 n.val) base sizeCode count entryBase width poly policy) s =
      .next ((s.setRegion n ⟨base, forcedCode sizeCode, count, entryBase, w, poly, pol, .disabled⟩).answer 16
        (if codeForced sizeCode then .adjusted else .ok) []) :=
  exec_setRegion_of_reply s hl (by simp [State.changeRegion, hi, hd, checkedRegion_of_fits h])

end Listening

/-! ## The obligation -/

/-- Settles O45: each clause is one outcome of SET-REGION's checks; a field out of range is one that `DescriptorFits` rules
out. -/
theorem setRegionReplacesTheDescriptor : Obligations.SetRegionReplacesTheDescriptor := by
  intro s region base sizeCode count entryBase width poly policy hl c low code size
  have hcode : code = forcedCode sizeCode := (forcedCode_eq sizeCode).symm
  have hsize : size = tractSizeOf (forcedCode sizeCode) := congrArg tractSizeOf hcode
  refine ⟨exec_setRegion_of_noRegion s hl, ?_⟩
  rintro n rfl
  refine ⟨exec_setRegion_of_busy s hl n, exec_setRegion_of_notDisabled s hl n, fun hi hd => ?_⟩
  refine ⟨fun hout => ?outOfRange, ?inRange⟩
  case outOfRange =>
    refine exec_setRegion_of_misfit s hl n hi hd ?_
    rintro w pol ⟨haligned, rfl, rfl, hodd, hshort, hpos, hcount, hentries, hspan⟩
    rw [hsize] at hout
    obtain h | ⟨h16, h32⟩ | h | ⟨h16, h⟩ | h | h := hout
    · exact h haligned
    · cases w
      · exact h16 rfl
      · exact h32 rfl
    · omega
    · cases w
      · exact absurd (hshort rfl) h.not_gt
      · exact absurd h16 (by decide)
    · cases pol <;> exact absurd h (by decide)
    · omega
  case inRange =>
    intro haligned hodd hpos hcount hentries hspan w pol hw hshort hpol
    have hwidth : width = widthByte w := by
      simp only [List.mem_cons, Prod.mk.injEq, List.not_mem_nil, or_false] at hw
      obtain ⟨rfl, rfl⟩ | ⟨rfl, rfl⟩ := hw <;> rfl
    have hpolicy : policy = pol.byte := by
      simp only [List.mem_cons, Prod.mk.injEq, List.not_mem_nil, or_false] at hpol
      obtain ⟨rfl, rfl⟩ | ⟨rfl, rfl⟩ | ⟨rfl, rfl⟩ := hpol <;> rfl
    rw [hsize] at haligned hspan
    have hstatus : (if 4 < low then Status.adjusted else .ok) = if codeForced sizeCode then .adjusted else .ok := by
      simp only [codeForced_eq, decide_eq_true_eq, low]
    rw [hcode, hstatus]
    exact exec_setRegion_of_fits s hl n hi hd
      ⟨haligned, hwidth, hpolicy, hodd, hshort, hpos, hcount, hentries, hspan⟩

end Sys2Proof.Machine
end

