-- ==== Sys2Proof/Proofs/DisableRegion.lean ====
section
/-! PROOFS. DISABLE-REGION: the contexts it frees (R37, R64), where it leaves the cursor (R147), the state it leaves by what the
reader does (R37, R38, R125), and the obligation about all of it. -/

namespace Sys2Proof.Machine

/-! ## The contexts freed -/

/-- After a freeing a slot is empty if it was, or if its context is named. -/
theorem Pool.freeWhere_slot_eq_none_iff (p : Pool) (q : TractRef → Bool) (i : Fin 8) :
    (p.freeWhere q).slot i = none ↔ p.slot i = none ∨ ∃ c, p.slot i = some c ∧ q c.ref = true := by
  rw [(p.freeWhere_eq q).1 i]
  cases p.slot i <;> simp [Option.filter]

/-- A context in a slot after a freeing was there before. -/
theorem Pool.slot_of_freeWhere_slot (p : Pool) (q : TractRef → Bool) (i : Fin 8) (c : Context)
    (h : (p.freeWhere q).slot i = some c) : p.slot i = some c := by
  rw [(p.freeWhere_eq q).1 i] at h
  exact (Option.filter_eq_some_iff.mp h).1

/-! ## The first region that a condition names -/

theorem regionNumbers_find?_of_first (p : Fin 8 → Bool) (m : Fin 8) (hm : p m = true) (hlow : ∀ k < m, p k = false) :
    regionNumbers.find? p = some m := by
  have hnum : regionNumbers = List.finRange 8 := by decide
  rw [hnum]
  refine List.find?_eq_some_iff_getElem.mpr ⟨hm, m.val, by simp, by simp, fun k hk => ?_⟩
  simpa using hlow ⟨k, by omega⟩ hk

theorem regionNumbers_find?_of_nowhere (p : Fin 8 → Bool) (h : ∀ k, p k = false) : regionNumbers.find? p = none :=
  List.find?_eq_none.mpr fun k _ => by simp [h k]

/-! ## The cursor -/

/-- Where the cursor stands after its move off region n (R147). -/
def State.cursorOff (s : State) (n : Fin 8) : Option TractRef :=
  match s.scrubber.cursor with
  | none => none
  | some t => if t.region = n then ((s.enabledAbove n).or s.lowestEnabled).map (⟨·, 0⟩) else some t

theorem State.moveCursorOff_eq (s : State) (n : Fin 8) :
    s.moveCursorOff n = { s with scrubber := { s.scrubber with cursor := s.cursorOff n } } := by
  unfold State.moveCursorOff State.cursorOff
  cases hc : s.scrubber.cursor with
  | none => simp [← hc]
  | some t =>
    by_cases ht : t.region = n
    · cases ha : s.enabledAbove n <;> simp [ht, State.setCursor]
    · simp [ht, ← hc]

/-- What an accepted DISABLE-REGION removes in every case (R37, R112, R147). -/
theorem State.withdrawRegion_eq (s : State) (n : Fin 8) :
    s.withdrawRegion n =
      { s with
        pool := s.pool.freeWhere fun t => decide (t.region = n)
        queue := s.queue.filter fun t => decide (t.region ≠ n)
        scrubber := { s.scrubber with cursor := s.cursorOff n } } := by
  rw [State.withdrawRegion]
  generalize s.pool.freeWhere _ = p
  exact State.moveCursorOff_eq { s with pool := p, queue := s.queue.filter fun t => decide (t.region ≠ n) } n

/-- A cursor on another region, or parked, stays. -/
theorem State.cursorOff_of_elsewhere (s : State) (n : Fin 8) (h : ∀ t, s.scrubber.cursor = some t → t.region ≠ n) :
    s.cursorOff n = s.scrubber.cursor := by
  unfold State.cursorOff
  cases hc : s.scrubber.cursor with
  | none => rfl
  | some t => simp [h t hc]

/-- The ENABLED regions once region n is in a state other than ENABLED. -/
theorem State.enabled_setRegionState (s : State) (n m : Fin 8) (st : RegionState) (hst : st ≠ .enabled) :
    (s.setRegionState n st).enabled m = (decide (m ≠ n) && s.enabled m) := by
  unfold State.enabled State.setRegionState State.region State.setRegion
  by_cases h : m = n
  · subst h
    simp [hst]
  · have hv : n.val ≠ m.val := fun e => h (Fin.ext e.symm)
    simp [h, hv]

/-- The cursor's move is the same whichever state other than ENABLED region n is in. -/
theorem State.cursorOff_setRegionState (s : State) (n : Fin 8) (st : RegionState) (hst : st ≠ .enabled) :
    (s.setRegionState n st).cursorOff n = (s.setRegionState n .disabled).cursorOff n := by
  have he : (s.setRegionState n st).enabled = (s.setRegionState n .disabled).enabled := by
    funext m
    rw [s.enabled_setRegionState n m st hst, s.enabled_setRegionState n m .disabled (by decide)]
  unfold State.cursorOff State.enabledAbove State.lowestEnabled
  rw [he]
  rfl

section CursorMoved

variable (s : State) (n : Fin 8) (t : TractRef) (hc : s.scrubber.cursor = some t) (ht : t.region = n)
include hc ht

/-- A cursor on region n goes to tract 0 of the lowest ENABLED region above n, or else of the lowest of all. -/
theorem State.cursorOff_of_on : s.cursorOff n = ((s.enabledAbove n).or s.lowestEnabled).map (⟨·, 0⟩) := by
  simp [State.cursorOff, hc, ht]

theorem State.cursorOff_of_above (m : Fin 8) (hnm : n < m) (hm : s.enabled m = true)
    (hbetween : ∀ k, n < k → k < m → s.enabled k = false) : s.cursorOff n = some ⟨m, 0⟩ := by
  have ha : s.enabledAbove n = some m := by
    refine regionNumbers_find?_of_first _ m (by simp [hnm, hm]) fun k hk => ?_
    by_cases hnk : n < k
    · simp [hbetween k hnk hk]
    · simp [hnk]
  rw [s.cursorOff_of_on n t hc ht, ha]
  rfl

theorem State.cursorOff_of_lowest (m : Fin 8) (hm : s.enabled m = true) (habove : ∀ k, n < k → s.enabled k = false)
    (hbelow : ∀ k < m, s.enabled k = false) : s.cursorOff n = some ⟨m, 0⟩ := by
  have ha : s.enabledAbove n = none := by
    refine regionNumbers_find?_of_nowhere _ fun k => ?_
    by_cases hnk : n < k
    · simp [habove k hnk]
    · simp [hnk]
  have hlow : s.lowestEnabled = some m := regionNumbers_find?_of_first _ m hm hbelow
  rw [s.cursorOff_of_on n t hc ht, ha, hlow]
  rfl

theorem State.cursorOff_of_nowhere (h : ∀ k, s.enabled k = false) : s.cursorOff n = none := by
  have ha : s.enabledAbove n = none := regionNumbers_find?_of_nowhere _ fun k => by simp [h k]
  have hlow : s.lowestEnabled = none := regionNumbers_find?_of_nowhere _ h
  rw [s.cursorOff_of_on n t hc ht, ha, hlow]
  rfl

end CursorMoved

/-! ## The accepted DISABLE-REGION -/

/-- Region n in state st, out of tracking: its contexts freed, its queue entries removed, the cursor moved off it (R37, R112,
R147). -/
def State.withdrawn (s : State) (n : Fin 8) (st : RegionState) : State :=
  { s with
    regions := s.regions.set n.val { s.region n with state := st } n.isLt
    pool := s.pool.freeWhere fun t => decide (t.region = n)
    queue := s.queue.filter fun t => decide (t.region ≠ n)
    scrubber := { s.scrubber with cursor := (s.setRegionState n .disabled).cursorOff n } }

theorem State.withdrawn_reader (s : State) (n : Fin 8) (st : RegionState) : (s.withdrawn n st).reader = s.reader := rfl
theorem State.withdrawn_arbiter (s : State) (n : Fin 8) (st : RegionState) : (s.withdrawn n st).arbiter = s.arbiter := rfl
theorem State.withdrawn_port (s : State) (n : Fin 8) (st : RegionState) : (s.withdrawn n st).port = s.port := rfl

/-- The job and its claim removed, and a cause set (R51, R125), as one update. -/
theorem State.endJob_clearPassedOver_setCause (s : State) (c : Cause) :
    s.endJob.clearPassedOver.setCause c =
      { s.setCause c with reader := { s.reader with job := none }, arbiter := { s.arbiter with passedOver := 0 } } := rfl

/-- The job replaced and a long operation begun (R29, R125), as one update. -/
theorem State.setJob_setLongOp (s : State) (j : Job) (l : LongOp) :
    (s.setJob j).setLongOp l =
      { s with reader := { s.reader with job := some j }, port := { s.port with longOp := l } } := rfl

theorem State.withdrawRegion_setRegionState (s : State) (n : Fin 8) (st : RegionState) (hst : st ≠ .enabled) :
    (s.setRegionState n st).withdrawRegion n = s.withdrawn n st := by
  rw [State.withdrawRegion_eq, State.cursorOff_setRegionState s n st hst]
  rfl

/-- No job of the region: DISABLED at once, READY set (R37). -/
theorem State.disableAccepted_of_noJob (s : State) (n : Fin 8) (h : ∀ j, s.reader.job = some j → j.ref.region ≠ n) :
    s.disableAccepted n = ((s.withdrawn n .disabled).setCause .ready).conclude := by
  unfold State.disableAccepted
  rw [s.withdrawRegion_setRegionState n .disabled (by decide)]
  cases hj : s.reader.job with
  | none => rfl
  | some j => simp [h j hj]

/-- A waiting job of the region: removed with its claim, the region DISABLED, READY set, and the reader looks (R37). -/
theorem State.disableAccepted_of_claiming (s : State) (n : Fin 8) (j : Job) (hj : s.reader.job = some j)
    (hn : j.ref.region = n) (hp : j.phase = .claiming) :
    s.disableAccepted n =
      State.conclude (State.look
        { (s.withdrawn n .disabled).setCause .ready with
          reader := { s.reader with job := none }
          arbiter := { s.arbiter with passedOver := 0 } }) := by
  rw [← s.withdrawn_reader n .disabled, ← s.withdrawn_arbiter n .disabled, ← State.endJob_clearPassedOver_setCause]
  simp [State.disableAccepted, hj, hn, hp, s.withdrawRegion_setRegionState n .disabled]

/-- A job of the region with its burst on the link: abandoned, the region RETIRING (R38, R125). -/
theorem State.disableAccepted_of_reading (s : State) (n : Fin 8) (j : Job) (hj : s.reader.job = some j)
    (hn : j.ref.region = n) (hp : j.phase = .reading) :
    s.disableAccepted n =
      State.conclude
        { s.withdrawn n .retiring with
          reader := { s.reader with job := some { j with abandoned := true } }
          port := { s.port with longOp := .disabling n } } := by
  rw [← s.withdrawn_reader n .retiring, ← s.withdrawn_port n .retiring, ← State.setJob_setLongOp]
  simp [State.disableAccepted, hj, hn, hp, s.withdrawRegion_setRegionState n .retiring]

/-! ## DISABLE-REGION in a listening state -/

section Listening

variable (s : State) (hl : s.listening = true)
include hl

theorem exec_disableRegion_of_reply {region : Byte} {u : State} {st : Status} (h : s.disable region = ⟨u, st, []⟩) :
    exec (.disableRegion region) s = .next (u.answer 1 st []) := by
  change execDisableRegion region s = _
  simp [execDisableRegion, s.request_listening _ _ hl, h]

theorem exec_disableRegion_of_noRegion (region : Byte) (h : 8 ≤ region.toNat) :
    exec (.disableRegion region) s = .next (s.answer 1 .badArg []) :=
  exec_disableRegion_of_reply s hl (by simp [State.disable, smallNumber_eq_none region h, Reply.refuse])

variable (n : Fin 8)

theorem exec_disableRegion_of_busy (h : s.port.longOp ≠ .idle) :
    exec (.disableRegion (BitVec.ofNat 8 n.val)) s = .next (s.answer 1 .busy []) :=
  exec_disableRegion_of_reply s hl (by simp [State.disable, h, Reply.refuse])

variable (hi : s.port.longOp = .idle)
include hi

theorem exec_disableRegion_of_notEnabled (h : (s.region n).state ≠ .enabled) :
    exec (.disableRegion (BitVec.ofNat 8 n.val)) s = .next (s.answer 1 .state []) :=
  exec_disableRegion_of_reply s hl (by simp [State.disable, hi, h, Reply.refuse])

variable (he : (s.region n).state = .enabled)
include he

theorem exec_disableRegion_of_held (h : s.holdsRegion n = true) :
    exec (.disableRegion (BitVec.ofNat 8 n.val)) s = .next (s.answer 1 .held []) :=
  exec_disableRegion_of_reply s hl (by simp [State.disable, hi, he, h, Reply.refuse])

theorem exec_disableRegion_of_accepted (h : s.holdsRegion n = false) :
    exec (.disableRegion (BitVec.ofNat 8 n.val)) s = .next ((s.disableAccepted n).answer 1 .ok []) :=
  exec_disableRegion_of_reply s hl (by simp [State.disable, hi, he, h, Reply.done])

end Listening

/-- The held tract lies in region n (R36). -/
theorem State.holdsRegion_iff (s : State) (n : Fin 8) :
    s.holdsRegion n = true ↔ ∃ h, s.passage.hold = some h ∧ h.ref.region = n := by
  unfold State.holdsRegion
  cases s.passage.hold <;> simp

/-! ## The obligation -/

/-- Settles O47: the refusals are the outcomes of the checks; the accepted command leaves `State.withdrawn`, whose pool and
cursor are the ones the statement asks for, with the reader's part by its job. -/
theorem disableRegionRetiresOrDisables : Obligations.DisableRegionRetiresOrDisables := by
  intro s region hl
  refine ⟨exec_disableRegion_of_noRegion s hl region, ?_⟩
  rintro n rfl
  refine ⟨exec_disableRegion_of_busy s hl n, exec_disableRegion_of_notEnabled s hl n,
    fun h hi he hh hn => exec_disableRegion_of_held s hl n hi he ((s.holdsRegion_iff n).mpr ⟨h, hh, hn⟩), ?accepted⟩
  case accepted =>
    intro hi he hfree
    have haccepted := exec_disableRegion_of_accepted s hl n hi he <| Bool.eq_false_iff.mpr fun hh => by
      obtain ⟨h, hs, hn⟩ := (s.holdsRegion_iff n).mp hh
      exact hfree h hs hn
    let v := s.setRegionState n .disabled
    have hv (k : Fin 8) : v.enabled k = true ↔ k ≠ n ∧ (s.region k).state = .enabled := by
      rw [s.enabled_setRegionState n k .disabled (by decide)]
      simp [State.enabled]
    have hoff (k : Fin 8) (hk : k ≠ n → (s.region k).state ≠ .enabled) : v.enabled k = false :=
      Bool.eq_false_iff.mpr fun h => hk ((hv k).mp h).1 ((hv k).mp h).2
    refine ⟨s.pool.freeWhere fun t => decide (t.region = n), v.cursorOff n, ?_⟩
    intro out ready
    have hout : out = s.withdrawn n := rfl
    have hready (u : State) : ready u = u.setCause .ready := rfl
    rw [hout, hready]
    refine ⟨fun i => ?emptied, ?kept, ?order, v.cursorOff_of_elsewhere n, fun t hc ht => ⟨?above, ?lowest, ?parked⟩,
      fun hj => ?noJob, fun j hj hn hp => ?claiming, fun j hj hn hp => ?reading⟩
    case emptied => simpa using s.pool.freeWhere_slot_eq_none_iff (fun t => decide (t.region = n)) i
    case kept => exact s.pool.slot_of_freeWhere_slot _
    case order => simpa using (s.pool.freeWhere_eq fun t => decide (t.region = n)).2
    case above =>
      intro m hnm hm hbetween
      exact v.cursorOff_of_above n t hc ht m hnm ((hv m).mpr ⟨hnm.ne', hm⟩) fun k hnk hkm =>
        hoff k fun _ => hbetween k hnk hkm
    case lowest =>
      intro habove m hmn hm hbelow
      exact v.cursorOff_of_lowest n t hc ht m ((hv m).mpr ⟨hmn.ne, hm⟩) (fun k hnk => hoff k fun _ => habove k hnk)
        fun k hkm => hoff k fun _ => hbelow k hkm
    case parked =>
      intro hnone
      exact v.cursorOff_of_nowhere n t hc ht fun k => hoff k (hnone k)
    case noJob => rw [haccepted, s.disableAccepted_of_noJob n hj]
    case claiming => rw [haccepted, s.disableAccepted_of_claiming n j hj hn hp]
    case reading => rw [haccepted, s.disableAccepted_of_reading n j hj hn hp]

end Sys2Proof.Machine
end

