-- ==== Sys2Proof/Proofs/WriteBeats.lean ====
section
/-! PROOFS. Write beats and write responses in the pool: an offer to the refresh queue (R79), a break (R75), the freeing of a
VERIFY context, the effect of a beat or a response by the tract's state (R69, R72 to R77), and the obligations about them. -/

namespace Sys2Proof.Machine

/-! ## Offers to the refresh queue -/

/-- An entry put at the tail, and the record of its tract with the flag set (R79), as one update. -/
theorem State.append_eq (s : State) (t : TractRef) :
    s.append t = State.setRecord { s with queue := s.queue ++ [t] } t { s.record t with queued := true } := rfl

/-- Settles O24: the clauses are the three outcomes of an offer. -/
theorem offerToTheRefreshQueue : Obligations.OfferToTheRefreshQueue := by
  intro s t
  obtain ⟨hset, h⟩ | ⟨hclear, hroom, h⟩ | ⟨hclear, hfull, h⟩ := s.offer_cases t
  · simp [hset, h]
  · have hroom : s.queue.length < 32 := hroom
    simp [hclear, hroom, h, s.append_eq t]
  · have hfull : 32 ≤ s.queue.length := hfull
    simp [hclear, hfull, h, State.setCause, Cause.mask]

/-! ## Breaks and freed VERIFY contexts -/

/-- A break from UNKNOWN or FAULTED frees the context and returns the tract (R75). -/
theorem State.breakAssembly_of_not_offers (s : State) (i : Fin 8) (t : TractRef) (o : Origin) (h : o.offers = false) :
    s.breakAssembly i t o =
      State.setRecord { s with pool := s.pool.free i } t { s.record t with state := o.afterBreak } := by
  rw [State.breakAssembly, h]
  rfl

/-- A break from CURRENT or STALE offers the tract too (R75). -/
theorem State.breakAssembly_of_offers (s : State) (i : Fin 8) (t : TractRef) (o : Origin) (h : o.offers = true) :
    s.breakAssembly i t o =
      State.offer
        (State.setRecord { s with pool := s.pool.free i } t { s.record t with state := o.afterBreak }) t := by
  rw [State.breakAssembly, h]
  rfl

/-- A tract without a VERIFY context: nothing to free. -/
theorem State.freeVerify_of_not_verify (s : State) (t : TractRef)
    (h : ∀ i c, s.pool.find t = some (i, c) → c.kind ≠ .verify) : s.freeVerify t = s := by
  unfold State.freeVerify
  split
  next => rfl
  next i c hfind => rw [if_neg (h i c hfind)]

/-- Freeing a VERIFY context touches the pool only. -/
theorem State.freeVerify_frame (s : State) (t : TractRef) : ∃ p, s.freeVerify t = { s with pool := p } := by
  unfold State.freeVerify
  split
  next => exact ⟨_, rfl⟩
  next i c _ => split <;> exact ⟨_, rfl⟩

@[simp] theorem State.freeVerify_record (s : State) (t u : TractRef) : (s.freeVerify t).record u = s.record u := by
  obtain ⟨p, h⟩ := s.freeVerify_frame t
  rw [h]
  rfl

/-- A tract's state changed after the freeing of a VERIFY context keeps the check value and the flag of before. -/
theorem State.freeVerify_setTractState (s : State) (t : TractRef) (st : TractState) :
    (s.freeVerify t).setTractState t st = (s.freeVerify t).setRecord t { s.record t with state := st } := by
  rw [State.setTractState, State.freeVerify_record]

/-! ## Write beats by kind -/

theorem isOpening_eq_false_iff (p : Place) (mask : BitVec 4) :
    isOpening p mask = false ↔ ¬(p.offset = 0 ∧ mask = 0xF#4) := by
  simp [isOpening]

section NotOpening

variable (s : State) (p : Place) (mask : BitVec 4) (d : Lanes) (h : ¬(p.offset = 0 ∧ mask = 0xF#4))
include h

theorem State.poolWrite_of_opened (ho : (s.record p.ref).state = .opened) :
    s.poolWrite p mask d = s.openTractWrite p mask d := by
  simp [State.poolWrite, (isOpening_eq_false_iff p mask).mpr h, ho]

theorem State.poolWrite_of_not_opened (ho : (s.record p.ref).state ≠ .opened) :
    s.poolWrite p mask d = s.piecemealWrite p := by
  simp [State.poolWrite, (isOpening_eq_false_iff p mask).mpr h, ho]

end NotOpening

/-! ## Write beats on an OPEN tract -/

section Assembly

variable (s : State) (p : Place) (mask : BitVec 4) (d : Lanes) (i : Fin 8) (c : Context) (o : Origin)
  (hfind : s.pool.find p.ref = some (i, c)) (hkind : c.kind = .assemble o)
include hfind hkind

/-- A continuing beat short of the last advances the assembly (R72). -/
theorem State.openTractWrite_of_continuing (hnext : p.offset = c.next)
    (hsize : p.offset + 4 ≠ (s.region p.ref.region).size) :
    s.openTractWrite p 0xF d = s.putContext i (c.advance (s.region p.ref.region) d) := by
  rw [hnext] at hsize
  simp [State.openTractWrite, hfind, hkind, hnext, hsize]

/-- A continuing beat at the tract's last offset closes the assembly (R73). -/
theorem State.openTractWrite_of_last (hnext : p.offset = c.next)
    (hsize : p.offset + 4 = (s.region p.ref.region).size) :
    s.openTractWrite p 0xF d = (s.freeSlot i).learn p.ref (c.finish (s.region p.ref.region) d) := by
  rw [hnext] at hsize
  simp [State.openTractWrite, hfind, hkind, hnext, hsize]

/-- A beat that does not continue the assembly breaks it (R75). -/
theorem State.openTractWrite_of_not_continuing (hoff : ¬(p.offset = c.next ∧ mask = 0xF#4)) :
    s.openTractWrite p mask d = s.breakAssembly i p.ref o := by
  simp only [State.openTractWrite, hfind, hkind, if_neg hoff]

end Assembly

/-- Settles O22: a beat that is not opening goes to the assembly of the OPEN tract, by its offset and its mask; a break goes by
the origin. -/
theorem assemblyAdvancesClosesOrBreaks : Obligations.AssemblyAdvancesClosesOrBreaks := by
  refine ⟨fun s p mask d i c o hopen hfind hkind => ⟨?advances, ?closes, ?breaks⟩, fun s i t => ⟨?_, ?_, ?_, ?_⟩⟩
  case advances =>
    intro hnext hzero hlt
    rw [s.poolWrite_of_opened p _ d (fun h => hzero h.1) hopen,
      s.openTractWrite_of_continuing p d i c o hfind hkind hnext hlt.ne]
    rfl
  case closes =>
    intro hnext hzero hlast
    rw [s.poolWrite_of_opened p _ d (fun h => hzero h.1) hopen,
      s.openTractWrite_of_last p d i c o hfind hkind hnext hlast]
    rfl
  case breaks =>
    intro hoff hnot
    rw [s.poolWrite_of_opened p mask d hnot hopen]
    exact s.openTractWrite_of_not_continuing p mask d i c o hfind hkind (not_and_or.mpr hoff)
  · exact s.breakAssembly_of_not_offers i t .unknown rfl
  · exact s.breakAssembly_of_offers i t .current rfl
  · exact s.breakAssembly_of_offers i t .stale rfl
  · exact s.breakAssembly_of_not_offers i t .faulted rfl

/-! ## Piecemeal writes -/

section Piecemeal

variable (s : State) (p : Place)

/-- R74 on a CURRENT tract: STALE, and offered. -/
theorem State.piecemealWrite_of_current (h : (s.record p.ref).state = .current) :
    s.piecemealWrite p = ((s.freeVerify p.ref).setRecord p.ref { s.record p.ref with state := .stale }).offer p.ref := by
  simp [State.piecemealWrite, h, State.freeVerify_setTractState]

/-- R74 on a STALE tract: offered again. -/
theorem State.piecemealWrite_of_stale (h : (s.record p.ref).state = .stale) :
    s.piecemealWrite p = (s.freeVerify p.ref).offer p.ref := by
  simp [State.piecemealWrite, h]

/-- R74 on an UNKNOWN or FAULTED tract: no change to the tract. -/
theorem State.piecemealWrite_of_unknown_or_faulted
    (h : (s.record p.ref).state = .unknown ∨ (s.record p.ref).state = .faulted) :
    s.piecemealWrite p = s.freeVerify p.ref := by
  obtain h | h := h <;> simp [State.piecemealWrite, h]

end Piecemeal

/-! ## Memory's ERROR -/

section ErrorResponse

variable (s : State) (p : Place)

/-- R77 on an OPEN tract: its context is an ASSEMBLE one, so none is freed first, and the assembly breaks. -/
theorem State.poolWriteResponse_error_of_opened (i : Fin 8) (c : Context) (o : Origin)
    (h : (s.record p.ref).state = .opened) (hfind : s.pool.find p.ref = some (i, c)) (hkind : c.kind = .assemble o) :
    s.poolWriteResponse p .error = s.breakAssembly i p.ref o := by
  have hfree : s.freeVerify p.ref = s := s.freeVerify_of_not_verify p.ref fun k e he => by
    obtain ⟨rfl, rfl⟩ : i = k ∧ c = e := by simpa [hfind] using he
    simp [hkind]
  simp [State.poolWriteResponse, hfree, h, hfind, hkind]

/-- R77 on a CURRENT tract: STALE, and offered. -/
theorem State.poolWriteResponse_error_of_current (h : (s.record p.ref).state = .current) :
    s.poolWriteResponse p .error =
      ((s.freeVerify p.ref).setRecord p.ref { s.record p.ref with state := .stale }).offer p.ref := by
  simp [State.poolWriteResponse, h, State.freeVerify_setTractState]

/-- R77 on a STALE, UNKNOWN or FAULTED tract: no change to the tract, and no offer. -/
theorem State.poolWriteResponse_error_of_other (hopen : (s.record p.ref).state ≠ .opened)
    (hcur : (s.record p.ref).state ≠ .current) : s.poolWriteResponse p .error = s.freeVerify p.ref := by
  cases h : (s.record p.ref).state with
  | opened => exact absurd h hopen
  | current => exact absurd h hcur
  | unknown | stale | faulted => simp [State.poolWriteResponse, h]

end ErrorResponse

/-- Settles O23: a beat that is not opening is a piecemeal write on a tract that is not OPEN, and acts by the tract's state; an
ERROR acts by the tract's state, and an OKAY does nothing. -/
theorem piecemealWritesAndErrorsActByState : Obligations.PiecemealWritesAndErrorsActByState := by
  refine ⟨fun s p mask d hnot => ⟨fun h => ?current, fun h => ?stale, fun h => ?stays⟩,
    fun s p => ⟨rfl, s.poolWriteResponse_error_of_opened p, s.poolWriteResponse_error_of_current p, fun h => ?unchanged⟩⟩
  case current =>
    rw [s.poolWrite_of_not_opened p mask d hnot (by simp [h])]
    exact s.piecemealWrite_of_current p h
  case stale =>
    rw [s.poolWrite_of_not_opened p mask d hnot (by simp [h])]
    exact s.piecemealWrite_of_stale p h
  case stays =>
    rw [s.poolWrite_of_not_opened p mask d hnot (by obtain h | h := h <;> simp [h])]
    exact s.piecemealWrite_of_unknown_or_faulted p h
  case unchanged =>
    have hopen : (s.record p.ref).state ≠ .opened := fun ho => by simp [ho] at h
    have hcur : (s.record p.ref).state ≠ .current := fun hc => by simp [hc] at h
    exact s.poolWriteResponse_error_of_other p hopen hcur

end Sys2Proof.Machine
end

