-- ==== Sys2Proof/Proofs/JobCompletion.lean ====
section
/-! PROOFS. The completion of a reader job (R127, R128): its decision by the kind of the job, and the obligation about it. -/

namespace Sys2Proof.Machine

/-! ## The decision at a completion -/

section Completion

variable (s : State) (j : Job)

/-- R127: the decision of a REFRESH or ESTABLISH job. -/
theorem State.completeJob_of_not_verify (h : j.kind ≠ .verify) :
    s.completeJob j =
      if j.overtaken ∨ (s.record j.ref).state ≠ j.startState then s
      else s.learn j.ref (crcFinal (s.region j.ref.region).width j.rem) := by
  cases hk : j.kind with
  | verify => exact absurd hk h
  | refresh | establish => simp only [State.completeJob, hk]

/-- R128: the decision of a VERIFY job. -/
theorem State.completeJob_of_verify (h : j.kind = .verify) :
    s.completeJob j =
      if j.overtaken ∨ (s.record j.ref).state ≠ .current ∨
          crcFinal (s.region j.ref.region).width j.rem = (s.record j.ref).check then s
      else
        (s.setTractState j.ref .faulted).offerFault
          { kind := .scrubMismatch, ref := j.ref, addr := s.tractAddr j.ref, stored := some (s.record j.ref).check,
            computed := some (crcFinal (s.region j.ref.region).width j.rem), stamp := s.timebase.tickCounter,
            errorOffset := none } := by
  simp only [State.completeJob, h]

end Completion

/-- Settles O31: the clauses are the two branches of the decision of R127 and the two of the decision of R128; what is learned,
and what is recorded, are the shared updates `State.learn`, `State.setTractState` and `State.tractAddr` written out. -/
theorem jobCompletionLearnsOrVerifies : Obligations.JobCompletionLearnsOrVerifies := by
  refine fun s j => ⟨fun hk => ⟨fun hov hst => ?learned, fun hdiscard => ?notLearned⟩,
    fun hk => ⟨fun hov hcur hne => ?faulted, fun hdiscard => ?notFaulted⟩⟩
  case learned =>
    have hkeep : ¬ (j.overtaken = true ∨ (s.record j.ref).state ≠ j.startState) := by simp [hov, hst]
    rw [s.completeJob_of_not_verify j hk, if_neg hkeep]
    rfl
  case notLearned => rw [s.completeJob_of_not_verify j hk, if_pos hdiscard]
  case faulted =>
    have hmismatch : ¬ (j.overtaken = true ∨ (s.record j.ref).state ≠ .current ∨
        crcFinal (s.region j.ref.region).width j.rem = (s.record j.ref).check) := by
      simpa [hov, hcur, crcFinal] using hne
    rw [s.completeJob_of_verify j hk, if_neg hmismatch]
    rfl
  case notFaulted =>
    rw [s.completeJob_of_verify j hk]
    exact if_pos hdiscard

end Sys2Proof.Machine
end

