-- ==== Sys2Proof/Proofs/ScrubWalk.lean ====
section
/-! PROOFS. The scrub cursor's walk (R143, R144), the take of a scrub step (R118, R119, R145), and the obligation about both. -/

namespace Sys2Proof.Machine

/-! ## The advance of the cursor -/

section Advance

variable (s : State)

theorem State.enabled_eq_false_iff (n : Fin 8) : s.enabled n = false ↔ (s.region n).state ≠ .enabled := by
  simp [State.enabled]

theorem State.enabledAbove_eq_some (n m : Fin 8) (hnm : n < m) (hm : (s.region m).state = .enabled)
    (hbetween : ∀ k, n < k → k < m → (s.region k).state ≠ .enabled) : s.enabledAbove n = some m := by
  refine regionNumbers_find?_of_first _ m (by simp [hnm, State.enabled, hm]) fun k hkm => ?_
  by_cases hnk : n < k
  · simp [(s.enabled_eq_false_iff k).mpr (hbetween k hnk hkm)]
  · simp [hnk]

theorem State.enabledAbove_eq_none (n : Fin 8) (habove : ∀ k, n < k → (s.region k).state ≠ .enabled) :
    s.enabledAbove n = none := by
  refine regionNumbers_find?_of_nowhere _ fun k => ?_
  by_cases hnk : n < k
  · simp [(s.enabled_eq_false_iff k).mpr (habove k hnk)]
  · simp [hnk]

theorem State.lowestEnabled_eq_some (m : Fin 8) (hm : (s.region m).state = .enabled)
    (hbelow : ∀ k, k < m → (s.region k).state ≠ .enabled) : s.lowestEnabled = some m :=
  regionNumbers_find?_of_first _ m (by simp [State.enabled, hm]) fun k hkm =>
    (s.enabled_eq_false_iff k).mpr (hbelow k hkm)

variable (t : TractRef)

/-- The first row of R144. -/
theorem State.advanceCursor_within (h : t.tract + 1 < (s.region t.region).count.toNat) :
    s.advanceCursor t = { s with scrubber := { s.scrubber with cursor := some ⟨t.region, t.tract + 1⟩ } } :=
  if_pos h

/-- The second row of R144. -/
theorem State.advanceCursor_above (hlast : (s.region t.region).count.toNat ≤ t.tract + 1) (m : Fin 8)
    (ha : s.enabledAbove t.region = some m) :
    s.advanceCursor t = { s with scrubber := { s.scrubber with cursor := some ⟨m, 0⟩ } } := by
  rw [State.advanceCursor, if_neg (Nat.not_lt.mpr hlast), ha]
  rfl

/-- The third row of R144: the wrap, which counts a pass. -/
theorem State.advanceCursor_wrap (hlast : (s.region t.region).count.toNat ≤ t.tract + 1) (m : Fin 8)
    (ha : s.enabledAbove t.region = none) (hlow : s.lowestEnabled = some m) :
    s.advanceCursor t =
      { s with
        scrubber := { s.scrubber with cursor := some ⟨m, 0⟩, passCount := s.scrubber.passCount + 1 }
        alert := { s.alert with causes := s.alert.causes ||| 0x10#8 } } := by
  rw [State.advanceCursor, if_neg (Nat.not_lt.mpr hlast), ha, hlow]
  rfl

end Advance

/-! ## The take of a scrub step -/

/-- The kind of the job that a scrub step starts on a tract with this record, if any (the table of R118). -/
def TractRecord.scrubJob (r : TractRecord) : Option JobKind :=
  match r.state with
  | .current => some .verify
  | .unknown => some .establish
  | .stale => if r.queued then none else some .establish
  | .opened | .faulted => none

/-- The scrub step consumed: the flag cleared, the last source SCRUB (R116, R118). -/
def State.stepTaken (s : State) : State :=
  { s with scrubber := { s.scrubber with stepPending := false }, reader := { s.reader with lastSource := .scrub } }

theorem State.setLastSource_scrub_eq_stepTaken (s : State) :
    State.setLastSource { s with scrubber := { s.scrubber with stepPending := false } } .scrub = s.stepTaken := rfl

/-- A job started on a tract once the cursor has left it: the advance touches neither the reader nor the tract's region. -/
theorem State.startJob_advanceCursor (s : State) (t : TractRef) (k : JobKind) (st : TractState) :
    (s.advanceCursor t).startJob k t st =
      { s.advanceCursor t with reader := { s.reader with
          job := some
            { kind := k, ref := t, nextOffset := 0, phase := .claiming, rem := crcOnes (s.region t.region).width,
              startState := st, overtaken := false, abandoned := false, errorOffset := none } } } := by
  obtain ⟨sc, a, hframe⟩ := s.advanceCursor_frame t
  rw [hframe]
  rfl

section Take

variable (s : State)

theorem State.takeScrubStep_of_parked (h : s.scrubber.cursor = none) : s.takeScrubStep = s.stepTaken := by
  have hcursor : s.stepTaken.scrubber.cursor = none := h
  simp only [State.takeScrubStep, State.setLastSource_scrub_eq_stepTaken, hcursor]

variable (t : TractRef) (hc : s.scrubber.cursor = some t)
include hc

/-- The cases of R118 read as its table: a take at a position advances the cursor, then starts the job of the tract's row. -/
theorem State.takeScrubStep_of_position :
    s.takeScrubStep =
      ((s.record t).scrubJob.map ((s.stepTaken.advanceCursor t).startJob · t (s.record t).state)).getD
        (s.stepTaken.advanceCursor t) := by
  have hcursor : s.stepTaken.scrubber.cursor = some t := hc
  have hrecord : s.stepTaken.record t = s.record t := rfl
  simp only [State.takeScrubStep, State.setLastSource_scrub_eq_stepTaken, hcursor, hrecord, TractRecord.scrubJob]
  cases (s.record t).state with
  | current | unknown | opened | faulted => rfl
  | stale => cases (s.record t).queued <;> rfl

theorem State.takeScrubStep_of_spent (h : (s.record t).scrubJob = none) :
    s.takeScrubStep = s.stepTaken.advanceCursor t := by
  rw [s.takeScrubStep_of_position t hc, h]
  rfl

theorem State.takeScrubStep_of_job (k : JobKind) (h : (s.record t).scrubJob = some k) :
    s.takeScrubStep = (s.stepTaken.advanceCursor t).startJob k t (s.record t).state := by
  rw [s.takeScrubStep_of_position t hc, h]
  rfl

end Take

/-- Settles O34: the take by the table of R118, the advance by the rows of R144. -/
theorem scrubTakeAndCursorAdvance : Obligations.ScrubTakeAndCursorAdvance := by
  refine ⟨fun s => ⟨s.takeScrubStep_of_parked, fun t hc => ?take⟩,
    fun s t => ⟨s.advanceCursor_within t, fun hlast => ⟨?above, ?wrap⟩⟩⟩
  case take =>
    intro started
    have hjob (k : JobKind) (h : (s.record t).scrubJob = some k) : s.takeScrubStep = started k :=
      (s.takeScrubStep_of_job t hc k h).trans (s.stepTaken.startJob_advanceCursor t k _)
    refine ⟨fun h => hjob _ ?_, fun h => hjob _ ?_, fun h hq => hjob _ ?_, fun h => s.takeScrubStep_of_spent t hc ?_⟩
    · simp [TractRecord.scrubJob, h]
    · simp [TractRecord.scrubJob, h]
    · simp [TractRecord.scrubJob, h, hq]
    · obtain ⟨h, hq⟩ | h | h := h
      · simp [TractRecord.scrubJob, h, hq]
      · simp [TractRecord.scrubJob, h]
      · simp [TractRecord.scrubJob, h]
  case above =>
    intro m hnm hm hbetween
    exact s.advanceCursor_above t hlast m (s.enabledAbove_eq_some t.region m hnm hm hbetween)
  case wrap =>
    intro m habove hm hbelow
    exact s.advanceCursor_wrap t hlast m (s.enabledAbove_eq_none t.region habove) (s.lowestEnabled_eq_some m hm hbelow)

end Sys2Proof.Machine
end

