-- ==== Sys2Proof/Proofs/FaultLog.lean ====
section
/-! PROOFS. The fault log and the alert line: an offer to the log (R153, R154), POP-FAULT (R157), CLEAR-ALERT (R161, R162), and
the obligations about them. -/

namespace Sys2Proof.Machine

/-! ## An offer to the log -/

/-- The saturation of a 16-bit count, in terms of the count's number (R154). -/
theorem saturate16_eq (c : BitVec 16) : saturate16 c = if c.toNat < 65535 then c + 1 else c := by
  unfold saturate16
  by_cases h : c = 0xFFFF#16
  · simp [h]
  · have hlt : c.toNat < 65535 := by bv_omega
    rw [if_neg h, if_pos hlt]

/-- Settles O27: the clauses are the two outcomes of an offer to the log. -/
theorem faultLogAcceptsOrDrops : Obligations.FaultLogAcceptsOrDrops := by
  intro s f
  refine ⟨fun hroom => ?accepted, fun hfull => ?dropped⟩
  case accepted =>
    obtain ⟨-, h⟩ | ⟨hfull, -⟩ := s.offerFault_cases f
    · exact h
    · exact absurd hroom hfull.not_gt
  case dropped =>
    obtain ⟨hroom, -⟩ | ⟨-, h⟩ := s.offerFault_cases f
    · exact absurd hroom hfull.not_gt
    · rw [h, saturate16_eq]
      rfl

/-! ## POP-FAULT and CLEAR-ALERT in a listening state -/

section Listening

variable (s : State) (hl : s.listening = true)
include hl

theorem exec_popFault_of_empty (h : s.log.records = []) : exec .popFault s = .next (s.answer 0 .empty []) := by
  change execPopFault s = _
  simp [execPopFault, s.request_listening _ _ hl, h, Reply.refuse]

theorem exec_popFault_of_head (f : FaultRecord) (rest : List FaultRecord) (h : s.log.records = f :: rest) :
    exec .popFault s =
      .next (State.answer { s with log := { s.log with records := rest } } 0 .ok f.report) := by
  change execPopFault s = _
  simp [execPopFault, s.request_listening _ _ hl, h]

theorem exec_clearAlert_listening (mask : Byte) :
    exec (.clearAlert mask) s =
      .next ((s.clearCauses mask).conclude.answer 1 .ok [s.alert.causes &&& ~~~mask]) := by
  change execClearAlert mask s = _
  rw [execClearAlert, s.request_listening _ _ hl]
  rfl

end Listening

/-- Settles O49: the log has a head record or is empty. -/
theorem popFaultRemovesTheHead : Obligations.PopFaultRemovesTheHead :=
  fun s hl => ⟨exec_popFault_of_head s hl, exec_popFault_of_empty s hl⟩

/-! ## The clearing of causes -/

/-- The bit position of a cause (R197). -/
def Cause.bit : Cause → Nat
  | .fault => 0
  | .drop => 1
  | .hold => 2
  | .queueFull => 3
  | .pass => 4
  | .slip => 5
  | .link => 6
  | .ready => 7

theorem Cause.mask_eq_twoPow (c : Cause) : c.mask = BitVec.twoPow 8 c.bit := by
  cases c <;> rfl

/-- A mask names a cause by the bit at the cause's position. -/
theorem Cause.isIn_eq_getLsbD (c : Cause) (m : Byte) : c.isIn m = m.getLsbD c.bit := by
  have hpos : BitVec.twoPow 8 c.bit ≠ 0#8 := by cases c <;> decide
  rw [Cause.isIn, c.mask_eq_twoPow, BitVec.and_twoPow]
  cases m.getLsbD c.bit <;> simp [hpos]

/-- The clearing, each count on its own: zeroed by the bit of its cause in the mask (R162). -/
theorem State.clearCauses_eq (s : State) (mask : Byte) :
    s.clearCauses mask =
      { s with
        alert := { s.alert with causes := s.alert.causes &&& ~~~mask }
        log := { s.log with dropped := if mask.getLsbD 1 then 0 else s.log.dropped }
        scrubber := { s.scrubber with slipCount := if mask.getLsbD 5 then 0 else s.scrubber.slipCount }
        port := { s.port with frameErrors := if mask.getLsbD 6 then 0 else s.port.frameErrors } } := by
  have hdrop : Cause.drop.isIn mask = mask.getLsbD 1 := Cause.drop.isIn_eq_getLsbD mask
  have hslip : Cause.slip.isIn mask = mask.getLsbD 5 := Cause.slip.isIn_eq_getLsbD mask
  have hlink : Cause.link.isIn mask = mask.getLsbD 6 := Cause.link.isIn_eq_getLsbD mask
  rw [State.clearCauses, hdrop, hslip, hlink]
  congr 1
  · cases mask.getLsbD 5 <;> rfl
  · cases mask.getLsbD 1 <;> rfl
  · cases mask.getLsbD 6 <;> rfl

/-- Settles O51: the clearing, followed by the end of the happening. -/
theorem clearAlertClearsNamedCauses : Obligations.ClearAlertClearsNamedCauses := by
  intro s mask hl
  rw [exec_clearAlert_listening s hl, s.clearCauses_eq]

end Sys2Proof.Machine
end

