-- ==== Sys2Proof/Proofs/ManagementPort.lean ====
section
/-! PROOFS. The management port: SET-PARAMS (R185, R186), the frame error (R173, R176), the three request frames that execute
nothing (R173 to R175), and the obligations about them. -/

namespace Sys2Proof.Machine

/-! ## SET-PARAMS -/

theorem State.setParams_of_badPatience (s : State) (divider latch holdTimeout : BitVec 16) (patience mask : Byte)
    (h : patience.toNat = 0 ∨ 15 < patience.toNat) :
    s.setParams divider latch holdTimeout patience mask = .refuse s .badArg := if_pos h

/-- A patience of 1 to 15 is kept as its number (R185). -/
theorem State.setParams_of_goodPatience (s : State) (divider latch holdTimeout : BitVec 16) (patience mask : Byte)
    (hmin : 1 ≤ patience.toNat) (hmax : patience.toNat ≤ 15) :
    s.setParams divider latch holdTimeout patience mask =
      .done (State.conclude
        { s with params := ⟨divider, latch, holdTimeout, BitVec.ofNat 4 patience.toNat, mask⟩ }) := by
  have hgood : ¬ (patience.toNat = 0 ∨ 15 < patience.toNat) := by omega
  have hlow : patience.extractLsb' 0 4 = BitVec.ofNat 4 patience.toNat := rfl
  rw [State.setParams, if_neg hgood, hlow]

/-! ## The frame error -/

/-- The saturation of an 8-bit count, in terms of the count's number (R173, R176). -/
theorem saturate8_eq (c : Byte) : saturate8 c = if c.toNat < 255 then c + 1 else c := by
  unfold saturate8
  by_cases h : c = 0xFF#8
  · simp [h]
  · have hlt : c.toNat < 255 := by bv_omega
    rw [if_neg h, if_pos hlt]

/-- A frame error changes the count of frame errors and the bit of LINK only (R176). -/
theorem State.frameError_eq (s : State) :
    s.frameError =
      { s with
        port := { s.port with
          frameErrors := if s.port.frameErrors.toNat < 255 then s.port.frameErrors + 1 else s.port.frameErrors }
        alert := { s.alert with causes := s.alert.causes ||| 0x40#8 } } := by
  rw [State.frameError, saturate8_eq]
  rfl

/-! ## The operands of the frames that execute nothing -/

theorem wfBadCrc_iff (code : Byte) (args : List Byte) (crc : Byte) :
    wfBadCrc code args crc = true ↔ args.length = argsTaken code ∧ crc ≠ crc8 (code :: args) := by
  simp [wfBadCrc]

theorem wfBadOp_iff (code : Byte) : wfBadOp code = true ↔ commandArgs code = none := by
  simp [wfBadOp]

theorem wfFrameAbort_cons_iff (code : Byte) (rest : List Byte) :
    wfFrameAbort (code :: rest) = true ↔ rest.length ≤ argsTaken code := by
  simp [wfFrameAbort]

/-! ## The port's frames in a listening state -/

section Listening

variable (s : State) (hl : s.listening = true)
include hl

theorem exec_setParams_listening (divider latch holdTimeout : BitVec 16) (patience mask : Byte) :
    exec (.setParams divider latch holdTimeout patience mask) s =
      .next ((s.setParams divider latch holdTimeout patience mask).state.answer 8
        (s.setParams divider latch holdTimeout patience mask).status
        (s.setParams divider latch holdTimeout patience mask).results) := by
  change execSetParams divider latch holdTimeout patience mask s = _
  rw [execSetParams, s.request_listening _ _ hl]

theorem exec_badCrc_listening (code : Byte) (args : List Byte) (crc : Byte) (hwf : wfBadCrc code args crc = true) :
    exec (.badCrc code args crc) s = .next (s.frameError.conclude.answer args.length .badCrc []) := by
  change execBadCrc code args crc s = _
  rw [execBadCrc, if_pos hwf, s.request_listening _ _ hl]

theorem exec_badOp_listening (code : Byte) (hwf : wfBadOp code = true) :
    exec (.badOp code) s = .next (s.answer 0 .badOp []) := by
  change execBadOp code s = _
  rw [execBadOp, if_pos hwf, s.request_listening _ _ hl]
  rfl

/-- The abort has no answer: the port is deselected with the bits taken so far counted (R175). -/
theorem exec_frameAbort_listening (bytes : List Byte) (bits : BitVec 3) (hwf : wfFrameAbort bytes = true) :
    exec (.frameAbort bytes bits) s =
      .next (State.conclude (State.frameError
        { s with port := { s.port with frame := .deselected, bitCount := 8 * bytes.length + bits.toNat } })) := by
  change execFrameAbort bytes bits s = _
  simp only [State.listening, Bool.and_eq_true, decide_eq_true_eq] at hl
  obtain ⟨hsettled, hrequest⟩ := hl
  simp only [execFrameAbort, if_pos hwf, s.settle_of_settled hsettled, if_pos hrequest]

end Listening

/-- Settles O48: the patience is refused or taken. -/
theorem setParamsReplacesAllFive : Obligations.SetParamsReplacesAllFive := by
  intro s divider latch holdTimeout patience mask hl
  rw [exec_setParams_listening s hl]
  refine ⟨fun hbad => ?refused, fun hmin hmax => ?replaced⟩
  case refused =>
    rw [s.setParams_of_badPatience _ _ _ _ _ hbad]
    rfl
  case replaced =>
    rw [s.setParams_of_goodPatience _ _ _ _ _ hmin hmax]
    rfl

/-- Settles O55: one clause per frame that executes nothing; the first and the last are frame errors. -/
theorem frameErrorsCountAndSetLink : Obligations.FrameErrorsCountAndSetLink := by
  intro s hl errors link
  refine ⟨fun code args crc hlen hcrc => ?badCrc, fun code hnone => ?badOp, fun code rest bits hlen => ?abort⟩
  case badCrc =>
    rw [exec_badCrc_listening s hl code args crc ((wfBadCrc_iff code args crc).mpr ⟨hlen, hcrc⟩), State.frameError_eq]
  case badOp => exact exec_badOp_listening s hl code ((wfBadOp_iff code).mpr hnone)
  case abort =>
    rw [exec_frameAbort_listening s hl _ bits ((wfFrameAbort_cons_iff code rest).mpr hlen), State.frameError_eq,
      List.length_cons]

end Sys2Proof.Machine
end

