-- ==== Sys2Proof/Proofs/Placing.lean ====
section
/-! PROOFS. The beat classifier (R23, R54, R55) and the records of tracts (R5, R6): where no two regions that are not DISABLED
overlap, an address lies in the span of at most one of them and a record number in the entry range of at most one; and the two
obligations that say what follows. -/

namespace Sys2Proof.Machine

/-! ## Tract sizes and spans -/

theorem Region.size_pos (r : Region) : 0 < r.size := by
  unfold Region.size tractSizeOf
  positivity

theorem Region.contains_iff (r : Region) (a : Word) :
    r.contains a = true ↔ r.base.toNat ≤ a.toNat ∧ a.toNat < r.base.toNat + r.span := by
  simp [Region.contains]

/-- An address inside the span lies in a tract below the count (R5). -/
theorem Region.locate_tract_lt (r : Region) (n : Fin 8) (a : Word) (h : r.contains a = true) :
    (r.locate n a).ref.tract < r.count.toNat := by
  obtain ⟨hlo, hhi⟩ := (r.contains_iff a).mp h
  unfold Region.span at hhi
  exact Nat.div_lt_of_lt_mul (by omega)

/-! ## Regions that do not overlap -/

theorem Region.overlaps_eq_false_iff (r q : Region) :
    r.overlaps q = false ↔
      (r.base.toNat + r.span ≤ q.base.toNat ∨ q.base.toNat + q.span ≤ r.base.toNat) ∧
        (r.entryBase.toNat + r.count.toNat ≤ q.entryBase.toNat ∨
          q.entryBase.toNat + q.count.toNat ≤ r.entryBase.toNat) := by
  simp only [Region.overlaps, rangesOverlap, Bool.or_eq_false_iff, Bool.and_eq_false_iff, decide_eq_false_iff_not, not_lt]
  omega

theorem Region.overlaps_comm (r q : Region) : r.overlaps q = q.overlaps r := by
  rw [Bool.eq_iff_iff, ← not_iff_not, Bool.not_eq_true, Bool.not_eq_true, Region.overlaps_eq_false_iff,
    Region.overlaps_eq_false_iff]
  omega

section Disjoint

variable {s : State} (hd : s.regionsDisjoint)
include hd

/-- At most one region that is not DISABLED contains an address (R31). -/
theorem State.region_unique_of_contains {n m : Fin 8} {a : Word} (hn : (s.region n).state ≠ .disabled)
    (hm : (s.region m).state ≠ .disabled) (hna : (s.region n).contains a = true) (hma : (s.region m).contains a = true) :
    n = m := by
  by_contra hne
  obtain ⟨hspan, -⟩ := (Region.overlaps_eq_false_iff _ _).mp (hd n m hne hn hm)
  rw [Region.contains_iff] at hna hma
  omega

/-- A record number lies in the entry range of at most one region that is not DISABLED (R31). -/
theorem State.region_unique_of_entry {n m : Fin 8} {k : Nat} (hn : (s.region n).state ≠ .disabled)
    (hm : (s.region m).state ≠ .disabled) (hnk : (s.region n).inEntryRange k = true)
    (hmk : (s.region m).inEntryRange k = true) : n = m := by
  by_contra hne
  obtain ⟨-, hentries⟩ := (Region.overlaps_eq_false_iff _ _).mp (hd n m hne hn hm)
  simp only [Region.inEntryRange, Bool.and_eq_true, decide_eq_true_eq] at hnk hmk
  omega

end Disjoint

/-! ## Tracked tracts -/

theorem State.tracked.not_disabled {s : State} {t : TractRef} (h : s.tracked t) : (s.region t.region).state ≠ .disabled := by
  simp [h.1]

theorem State.tracked.inEntryRange {s : State} {t : TractRef} (h : s.tracked t) :
    (s.region t.region).inEntryRange ((s.region t.region).recordNumber t.tract) = true := by
  simp [Region.inEntryRange, Region.recordNumber, h.2]

/-- Two tracts of ENABLED regions with one record number are one tract (R5, R31). -/
theorem State.tracked.eq_of_recordNumber {s : State} {t u : TractRef} (hd : s.regionsDisjoint) (ht : s.tracked t)
    (hu : s.tracked u) (h : (s.region u.region).recordNumber u.tract = (s.region t.region).recordNumber t.tract) :
    u = t := by
  have hregion : u.region = t.region :=
    s.region_unique_of_entry hd hu.not_disabled ht.not_disabled hu.inEntryRange (h ▸ ht.inEntryRange)
  obtain ⟨n, a⟩ := t
  obtain ⟨m, b⟩ := u
  obtain rfl : m = n := hregion
  simpa [Region.recordNumber] using h

/-- The record of a tract of an ENABLED region after the record of one is written. -/
theorem State.record_setRecord {s : State} {t u : TractRef} (r : TractRecord) (hd : s.regionsDisjoint) (ht : s.tracked t)
    (hu : s.tracked u) : (s.setRecord t r).record u = if u = t then r else s.record u := by
  by_cases h : u = t
  · subst h
    simp
  · rw [if_neg h]
    exact s.record_setRecord_other t u r fun he => h (ht.eq_of_recordNumber hd hu he)

/-- Settles O9: the record written is the tract's own, and no other tract of an ENABLED region has its number. -/
theorem oneTractOneRecord : Obligations.OneTractOneRecord :=
  fun _ _ _ r hd ht hu => State.record_setRecord r hd ht hu

/-! ## The classifier's answer -/

theorem mem_regionNumbers (n : Fin 8) : n ∈ regionNumbers := by
  revert n
  decide

/-- The region the classifier consults is the one that is not DISABLED and contains the address (R23). -/
theorem State.regionAt_eq_some_iff {s : State} (hd : s.regionsDisjoint) (a : Word) (n : Fin 8) :
    s.regionAt a = some n ↔ (s.region n).state ≠ .disabled ∧ (s.region n).contains a = true := by
  constructor
  · intro h
    simpa using List.find?_some h
  · rintro ⟨hn, ha⟩
    cases hfind : s.regionAt a with
    | none =>
      have hall := List.find?_eq_none.mp hfind n (mem_regionNumbers n)
      simp [hn, ha] at hall
    | some m =>
      have hm : (s.region m).state ≠ .disabled ∧ (s.region m).contains a = true := by simpa using List.find?_some hfind
      rw [s.region_unique_of_contains hd hm.1 hn hm.2 ha]

/-- A tracked beat lies in the span of an ENABLED region, at the place that its address gives there (R5, R54). -/
theorem State.place_eq_some {s : State} {a : Word} {p : Place} (h : s.place a = some p) :
    (s.region p.ref.region).state = .enabled ∧ (s.region p.ref.region).contains a = true ∧
      p = (s.region p.ref.region).locate p.ref.region a := by
  unfold State.place at h
  split at h
  next => cases h
  next n hfind =>
    split at h
    next he =>
      obtain rfl := Option.some.inj h
      have hn : (s.region n).state ≠ .disabled ∧ (s.region n).contains a = true := by simpa using List.find?_some hfind
      exact ⟨he, hn.2, rfl⟩
    next => cases h

/-- The tract of a tracked beat has a record (R5, R54). -/
theorem State.tracked_of_place {s : State} {a : Word} {p : Place} (h : s.place a = some p) : s.tracked p.ref := by
  obtain ⟨he, ha, hp⟩ := State.place_eq_some h
  refine ⟨he, ?_⟩
  have hlt := (s.region p.ref.region).locate_tract_lt p.ref.region a ha
  rwa [← hp] at hlt

/-- Settles O8: the region found is the only one, and the tract index and the offset are quotient and remainder. -/
theorem placeFindsTheTract : Obligations.PlaceFindsTheTract := by
  intro s a hd
  refine ⟨fun p => ⟨fun h => ?found, fun h => ?finds⟩, fun p h => ?where_⟩
  case found =>
    obtain ⟨he, ha, hp⟩ := State.place_eq_some h
    obtain ⟨hlo, hhi⟩ := (Region.contains_iff _ a).mp ha
    exact ⟨he, hlo, hhi, congrArg (·.ref.tract) hp, congrArg (·.offset) hp⟩
  case finds =>
    obtain ⟨he, hlo, hhi, htract, hoffset⟩ := h
    have hat : s.regionAt a = some p.ref.region :=
      (State.regionAt_eq_some_iff hd a _).mpr ⟨by simp [he], (Region.contains_iff _ a).mpr ⟨hlo, hhi⟩⟩
    obtain ⟨⟨n, k⟩, o⟩ := p
    simp only [State.place, hat, if_pos he, Region.locate, ← htract, ← hoffset]
  case where_ =>
    obtain ⟨he, ha, hp⟩ := State.place_eq_some h
    obtain ⟨hlo, -⟩ := (Region.contains_iff _ a).mp ha
    have htract : p.ref.tract = (a.toNat - (s.region p.ref.region).base.toNat) / (s.region p.ref.region).size :=
      congrArg (·.ref.tract) hp
    have hoffset : p.offset = (a.toNat - (s.region p.ref.region).base.toNat) % (s.region p.ref.region).size :=
      congrArg (·.offset) hp
    refine ⟨State.tracked_of_place h, hoffset ▸ Nat.mod_lt _ (Region.size_pos _), ?_⟩
    have := Nat.div_add_mod' (a.toNat - (s.region p.ref.region).base.toNat) (s.region p.ref.region).size
    rw [← htract, ← hoffset] at this
    omega

end Sys2Proof.Machine
end

