-- ==== Sys2Proof/Proofs/ContextPool.lean ====
section
/-! PROOFS. The slots of the context pool and their recency order (R63 to R65): what a put and a freeing leave of them, which slot
is free, which context is found, what an eviction does (R86), and the obligation about all of it. -/

namespace Sys2Proof.Machine

/-! ## Slots -/

theorem Pool.put_slot (p : Pool) (i k : Fin 8) (c : Context) :
    (p.put i c).slot k = if k = i then some c else p.slot k := by
  unfold Pool.slot Pool.put
  by_cases h : k = i
  · subst h
    simp
  · have hv : i.val ≠ k.val := fun e => h (Fin.ext e.symm)
    simp [h, hv]

theorem Pool.put_recency (p : Pool) (i : Fin 8) (c : Context) :
    (p.put i c).recency = i :: p.recency.filter (· != i) := rfl

theorem Pool.free_recency (p : Pool) (i : Fin 8) : (p.free i).recency = p.recency.filter (· != i) := rfl

theorem slotNumbers_eq_finRange : slotNumbers = List.finRange 8 := by decide

theorem mem_slotNumbers (i : Fin 8) : i ∈ slotNumbers := by
  revert i
  decide

/-! ## The lowest free slot -/

theorem Pool.lowestFree_eq_none_iff (p : Pool) : p.lowestFree = none ↔ ∀ k, p.slot k ≠ none := by
  simp [Pool.lowestFree, mem_slotNumbers]

theorem Pool.lowestFree_eq_some_iff (p : Pool) (i : Fin 8) :
    p.lowestFree = some i ↔ p.slot i = none ∧ ∀ k, k < i → p.slot k ≠ none := by
  unfold Pool.lowestFree
  rw [slotNumbers_eq_finRange, List.find?_eq_some_iff_getElem]
  simp only [Option.isNone_iff_eq_none, List.getElem_finRange, Bool.not_eq_true', List.length_finRange]
  constructor
  · rintro ⟨hfree, j, hj, rfl, hlow⟩
    exact ⟨hfree, fun k hk => by simpa [Option.isSome_iff_ne_none] using hlow k.val hk⟩
  · rintro ⟨hfree, hlow⟩
    exact ⟨hfree, i.val, i.isLt, rfl, fun k hk => by simpa [Option.isSome_iff_ne_none] using hlow ⟨k, by omega⟩ hk⟩

/-! ## The context found -/

/-- No two contexts refer to one tract (R65). -/
def Pool.refsDistinct (p : Pool) : Prop :=
  ∀ i k c d, p.slot i = some c → p.slot k = some d → c.ref = d.ref → i = k

/-- A context found is in its slot and on the tract. -/
theorem Pool.of_find_eq_some {p : Pool} {t : TractRef} {i : Fin 8} {c : Context} (h : p.find t = some (i, c)) :
    p.slot i = some c ∧ c.ref = t := by
  obtain ⟨k, -, hk⟩ := List.exists_of_findSome?_eq_some h
  cases hs : p.slot k with
  | none => simp [hs] at hk
  | some d =>
    by_cases hd : d.ref = t
    · simp only [hs, if_pos hd, Option.some.injEq, Prod.mk.injEq] at hk
      obtain ⟨rfl, rfl⟩ := hk
      exact ⟨hs, hd⟩
    · simp [hs, hd] at hk

theorem Pool.find_eq_none_iff (p : Pool) (t : TractRef) : p.find t = none ↔ ∀ i c, p.slot i = some c → c.ref ≠ t := by
  unfold Pool.find
  rw [List.findSome?_eq_none_iff]
  constructor
  · intro h i c hc ht
    simpa [hc, ht] using h i (mem_slotNumbers i)
  · intro h i _
    cases hs : p.slot i with
    | none => rfl
    | some c => simp [h i c hs]

/-- The context found on a tract is the one that refers to it. -/
theorem Pool.find_eq_some_iff {p : Pool} (hp : p.refsDistinct) (t : TractRef) (i : Fin 8) (c : Context) :
    p.find t = some (i, c) ↔ p.slot i = some c ∧ c.ref = t := by
  refine ⟨Pool.of_find_eq_some, fun ⟨hs, ht⟩ => ?_⟩
  cases hfind : p.find t with
  | none => exact absurd ht ((p.find_eq_none_iff t).mp hfind i c hs)
  | some x =>
    obtain ⟨k, d⟩ := x
    obtain ⟨hk, hd⟩ := Pool.of_find_eq_some hfind
    obtain rfl : k = i := hp k i d c hk hs (hd.trans ht.symm)
    rw [hk] at hs
    rw [Option.some.inj hs]

/-! ## Freeing and eviction -/

theorem State.freeVerify_of_verify (s : State) (t : TractRef) (i : Fin 8) (c : Context)
    (hfind : s.pool.find t = some (i, c)) (hk : c.kind = .verify) :
    s.freeVerify t = { s with pool := s.pool.free i } := by
  simp [State.freeVerify, hfind, hk, State.freeSlot]

theorem State.evict_of_verify (s : State) (i : Fin 8) (c : Context) (hs : s.pool.slot i = some c)
    (hk : c.kind = .verify) : s.evict i = s.freeSlot i := by
  simp [State.evict, hs, hk]

theorem State.evict_of_assemble (s : State) (i : Fin 8) (c : Context) (o : Origin) (hs : s.pool.slot i = some c)
    (hk : c.kind = .assemble o) : s.evict i = s.breakAssembly i c.ref o := by
  simp [State.evict, hs, hk]

/-! ## What the operations of the pool leave unchanged -/

/-- A state that differs in pool, queue, check store and causes only. -/
def State.poolFrame (s v : State) : Prop :=
  ∃ p q st a, v = { s with pool := p, queue := q, store := st, alert := a }

theorem State.poolFrame.refl (s : State) : s.poolFrame s := ⟨_, _, _, _, rfl⟩

theorem State.poolFrame.trans {s u v : State} (h : s.poolFrame u) (h' : u.poolFrame v) : s.poolFrame v := by
  obtain ⟨p, q, st, a, rfl⟩ := h
  obtain ⟨p', q', st', a', rfl⟩ := h'
  exact ⟨p', q', st', a', rfl⟩

theorem State.poolFrame.setRecord {s v : State} (h : s.poolFrame v) (t : TractRef) (r : TractRecord) :
    s.poolFrame (v.setRecord t r) := h.trans ⟨_, _, _, _, rfl⟩

theorem State.poolFrame.withPool {s v : State} (h : s.poolFrame v) (p : Pool) : s.poolFrame { v with pool := p } :=
  h.trans ⟨_, _, _, _, rfl⟩

theorem State.poolFrame.offer {s v : State} (h : s.poolFrame v) (t : TractRef) : s.poolFrame (v.offer t) := by
  obtain ⟨q, st, a, e⟩ := v.offer_frame t
  exact h.trans ⟨_, q, st, a, e⟩

theorem State.freeVerify_poolFrame (s : State) (t : TractRef) : s.poolFrame (s.freeVerify t) := by
  obtain ⟨p, e⟩ := s.freeVerify_frame t
  exact ⟨p, _, _, _, e⟩

theorem State.breakAssembly_poolFrame (s : State) (i : Fin 8) (t : TractRef) (o : Origin) :
    s.poolFrame (s.breakAssembly i t o) := by
  obtain ⟨p, q, st, a, e⟩ := s.breakAssembly_frame i t o
  exact ⟨p, q, st, a, e⟩

theorem State.evict_poolFrame (s : State) (i : Fin 8) : s.poolFrame (s.evict i) := by
  unfold State.evict
  split
  · exact .refl s
  · split
    · exact s.breakAssembly_poolFrame _ _ _
    · exact (State.poolFrame.refl s).withPool _

theorem State.openContext_poolFrame (s : State) (c : Context) : s.poolFrame (s.openContext c) := by
  refine State.poolFrame.withPool ?_ _
  unfold State.takeSlot
  split
  · exact .refl s
  · split
    · exact s.evict_poolFrame _
    · exact .refl s

theorem State.openingWrite_poolFrame (s : State) (p : Place) (d : Lanes) : s.poolFrame (s.openingWrite p d) := by
  unfold State.openingWrite
  dsimp only
  split
  · exact ((s.freeVerify_poolFrame _).trans (State.openContext_poolFrame _ _)).setRecord _ _
  · split
    · exact (State.poolFrame.refl s).withPool _
    · exact .refl s

theorem State.openTractWrite_poolFrame (s : State) (p : Place) (mask : BitVec 4) (d : Lanes) :
    s.poolFrame (s.openTractWrite p mask d) := by
  unfold State.openTractWrite
  dsimp only
  split
  · exact .refl s
  · split
    · exact .refl s
    · split
      · split
        · exact ((State.poolFrame.refl s).withPool _).setRecord _ _
        · exact (State.poolFrame.refl s).withPool _
      · exact s.breakAssembly_poolFrame _ _ _

theorem State.piecemealWrite_poolFrame (s : State) (p : Place) : s.poolFrame (s.piecemealWrite p) := by
  have hv := s.freeVerify_poolFrame p.ref
  unfold State.piecemealWrite
  dsimp only
  split
  · exact (hv.setRecord _ _).offer _
  · exact hv.offer _
  · exact hv

/-- A write beat handed to the pool touches the pool, the queue, the check store and the causes only. -/
theorem State.poolWrite_poolFrame (s : State) (p : Place) (mask : BitVec 4) (d : Lanes) :
    s.poolFrame (s.poolWrite p mask d) := by
  unfold State.poolWrite
  split
  · exact s.openingWrite_poolFrame p d
  · split
    · exact s.openTractWrite_poolFrame p mask d
    · exact s.piecemealWrite_poolFrame p

/-- So does a write response. -/
theorem State.poolWriteResponse_poolFrame (s : State) (p : Place) (resp : Resp) :
    s.poolFrame (s.poolWriteResponse p resp) := by
  have hv := s.freeVerify_poolFrame p.ref
  unfold State.poolWriteResponse
  dsimp only
  split
  · exact .refl s
  · split
    · split
      · exact hv
      · split
        · exact hv
        · exact hv.trans (State.breakAssembly_poolFrame _ _ _ _)
    · exact (hv.setRecord _ _).offer _
    · exact hv

/-- A state that differs so, and by at most one offer to the fault log. -/
def State.readFrame (s v : State) : Prop := ∃ u, s.poolFrame u ∧ (v = u ∨ ∃ f, v = u.offerFault f)

theorem State.poolFrame.readFrame {s v : State} (h : s.poolFrame v) : s.readFrame v := ⟨v, h, .inl rfl⟩

theorem State.readFrame.eq {s v : State} (h : s.readFrame v) :
    ∃ p q st l a, v = { s with pool := p, queue := q, store := st, log := l, alert := a } := by
  obtain ⟨u, ⟨p, q, st, a, rfl⟩, rfl | ⟨f, rfl⟩⟩ := h
  · exact ⟨_, _, _, _, _, rfl⟩
  · obtain ⟨l, a', e⟩ := State.offerFault_frame { s with pool := p, queue := q, store := st, alert := a } f
    exact ⟨_, _, _, _, _, e⟩

theorem State.completeVerify_readFrame (s : State) (i : Fin 8) (c : Context) (t : TractRef) (addr : Word) (d : Lanes) :
    s.readFrame (s.completeVerify i c t addr d).1 := by
  have hf := (State.poolFrame.refl s).withPool (s.pool.free i)
  unfold State.completeVerify
  dsimp only
  split
  · exact hf.readFrame
  · exact ⟨_, hf.setRecord _ _, .inr ⟨_, rfl⟩⟩

/-- A read beat handed to the pool can make an offer to the log besides. -/
theorem State.poolRead_readFrame (s : State) (p : Place) (addr : Word) (d : Lanes) (resp : Resp) :
    s.readFrame (s.poolRead p addr d resp).1 := by
  have hput (q : Pool) := ((State.poolFrame.refl s).withPool q).readFrame
  unfold State.poolRead
  dsimp only
  split
  · exact (s.freeVerify_poolFrame _).readFrame
  · split
    · split
      · exact hput _
      · exact (s.openContext_poolFrame _).readFrame
    · split
      · exact (State.poolFrame.refl s).readFrame
      · split
        · split
          · exact s.completeVerify_readFrame _ _ _ _ _
          · exact hput _
        · exact (State.poolFrame.refl s).readFrame

/-- Settles O20: slots and order after a put and a freeing, the first free slot, the context found, and what a freeing and an
eviction do by the kind of the context. -/
theorem contextSlotsAndRecency : Obligations.ContextSlotsAndRecency := by
  refine ⟨fun p i k c => ⟨p.put_slot i k c, p.free_slot i k⟩, fun p i c => ?order,
    fun p i => ⟨p.lowestFree_eq_some_iff i, p.lowestFree_eq_none_iff⟩,
    fun p t hp => ⟨p.find_eq_some_iff hp t, p.find_eq_none_iff t⟩,
    fun s t => ⟨s.freeVerify_of_verify t, s.freeVerify_of_not_verify t⟩,
    fun s i c hs => ⟨s.evict_of_verify i c hs, fun o => s.evict_of_assemble i c o hs⟩⟩
  case order =>
    have hne : (fun k : Fin 8 => decide (k ≠ i)) = (· != i) := by
      funext k
      by_cases h : k = i <;> simp [h]
    rw [hne]
    exact ⟨rfl, rfl⟩

end Sys2Proof.Machine
end

