-- ==== Sys2Proof/Proofs/TractLaws.lean ====
section
/-! PROOFS. The laws that tie records, pool and queue together (R64 to R66, R109), as one invariant of the updates that leave the
region table alone: the write of a record, the freeing, opening and replacing of a context, an offer to the queue. From these, every
operation of the pool (Chapter 4) keeps them. -/

namespace Sys2Proof.Machine

/-! ## The pool on its own -/

/-- The recency order holds exactly the slots in use, each once (R64). -/
def Pool.inStep (p : Pool) : Prop :=
  p.recency.Nodup ∧ ∀ i : Fin 8, i ∈ p.recency ↔ (p.slot i).isSome = true

theorem Pool.free_inStep {p : Pool} (h : p.inStep) (i : Fin 8) : (p.free i).inStep := by
  refine ⟨h.1.filter _, fun k => ?_⟩
  rw [p.free_recency, p.free_slot, List.mem_filter, h.2]
  by_cases hk : k = i <;> simp [hk]

theorem Pool.put_inStep {p : Pool} (h : p.inStep) (i : Fin 8) (c : Context) : (p.put i c).inStep := by
  refine ⟨List.nodup_cons.mpr ⟨by simp, h.1.filter _⟩, fun k => ?_⟩
  rw [p.put_recency, p.put_slot, List.mem_cons, List.mem_filter, h.2]
  by_cases hk : k = i <;> simp [hk]

theorem Pool.empty_inStep : Pool.empty.inStep := ⟨List.nodup_nil, by decide⟩

/-- An ASSEMBLE context refers to the tract. -/
def Pool.assembles (p : Pool) (t : TractRef) : Prop :=
  ∃ i c o, p.slot i = some c ∧ c.ref = t ∧ c.kind = .assemble o

/-- A pool that has no more contexts than one with distinct tracts has distinct tracts. -/
theorem Pool.refsDistinct.of_slots {p q : Pool} (h : p.refsDistinct) (hsub : ∀ i c, q.slot i = some c → p.slot i = some c) :
    q.refsDistinct :=
  fun i k c d hc hd => h i k c d (hsub i c hc) (hsub k d hd)

theorem Pool.slot_of_free_slot {p : Pool} {i k : Fin 8} {c : Context} (h : (p.free i).slot k = some c) :
    p.slot k = some c := by
  rw [p.free_slot] at h
  split at h
  · cases h
  · exact h

/-- Freeing a VERIFY context leaves the assemblies. -/
theorem Pool.free_assembles_of_verify {p : Pool} {i : Fin 8} {c : Context} (hs : p.slot i = some c)
    (hk : c.kind = .verify) (t : TractRef) : (p.free i).assembles t ↔ p.assembles t := by
  constructor
  · rintro ⟨k, d, o, hd, ht, ho⟩
    exact ⟨k, d, o, p.slot_of_free_slot hd, ht, ho⟩
  · rintro ⟨k, d, o, hd, ht, ho⟩
    have hki : k ≠ i := by
      rintro rfl
      rw [hs] at hd
      obtain rfl := Option.some.inj hd
      rw [hk] at ho
      cases ho
    exact ⟨k, d, o, by rw [p.free_slot, if_neg hki, hd], ht, ho⟩

/-- Freeing a context ends the assembly of its tract and leaves the others. -/
theorem Pool.free_assembles {p : Pool} (hp : p.refsDistinct) {i : Fin 8} {c : Context} (hs : p.slot i = some c)
    (t : TractRef) : (p.free i).assembles t ↔ t ≠ c.ref ∧ p.assembles t := by
  constructor
  · rintro ⟨k, d, o, hd, rfl, ho⟩
    have hd' := p.slot_of_free_slot hd
    refine ⟨fun href => ?_, k, d, o, hd', rfl, ho⟩
    obtain rfl : k = i := hp k i d c hd' hs href
    simp [p.free_slot] at hd
  · rintro ⟨hne, k, d, o, hd, rfl, ho⟩
    have hki : k ≠ i := by
      rintro rfl
      rw [hs] at hd
      exact hne (congrArg Context.ref (Option.some.inj hd)).symm
    exact ⟨k, d, o, by rw [p.free_slot, if_neg hki, hd], rfl, ho⟩

/-- The contexts on the tracts that a predicate names are gone, the others as they were (R37, R64). -/
structure Pool.FreedOn (p p' : Pool) (q : TractRef → Bool) : Prop where
  inStep : p.inStep → p'.inStep
  slots : ∀ i c, p'.slot i = some c → p.slot i = some c ∧ q c.ref = false
  assembles : ∀ t, p'.assembles t ↔ q t = false ∧ p.assembles t

theorem Pool.freeWhere_freedOn (p : Pool) (q : TractRef → Bool) : p.FreedOn (p.freeWhere q) q := by
  obtain ⟨hslot, horder⟩ := p.freeWhere_eq q
  generalize p.freeWhere q = p' at hslot horder
  have hslots (i : Fin 8) (c : Context) : p'.slot i = some c ↔ p.slot i = some c ∧ q c.ref = false := by
    rw [hslot, Option.filter_eq_some_iff]
    simp
  refine ⟨fun h => ⟨horder ▸ h.1.filter _, fun k => ?_⟩, fun i c => (hslots i c).mp, fun t => ?_⟩
  · rw [hslot, horder, List.mem_filter, h.2]
    cases p.slot k <;> simp
  · simp only [Pool.assembles, hslots]
    constructor
    · rintro ⟨i, c, o, ⟨hc, hq⟩, rfl, ho⟩
      exact ⟨hq, i, c, o, hc, rfl, ho⟩
    · rintro ⟨hq, i, c, o, hc, rfl, ho⟩
      exact ⟨i, c, o, ⟨hc, hq⟩, rfl, ho⟩

section Opened

variable {p : Pool} {i : Fin 8} {c : Context} (hnew : ∀ k d, p.slot k = some d → d.ref ≠ c.ref)
include hnew

/-- A context opened on a tract that no context refers to keeps the tracts distinct. -/
theorem Pool.put_refsDistinct_of_new (hp : p.refsDistinct) : (p.put i c).refsDistinct := by
  intro k l d e hd he href
  rw [p.put_slot] at hd he
  split at hd <;> split at he
  next hk hl => rw [hk, hl]
  next hk hl =>
    obtain rfl := Option.some.inj hd
    exact absurd href.symm (hnew l e he)
  next hk hl =>
    obtain rfl := Option.some.inj he
    exact absurd href (hnew k d hd)
  next hk hl => exact hp k l d e hd he href

/-- A context opened in a free slot: the assemblies are those of before and its own. -/
theorem Pool.put_assembles_of_new (hfree : p.slot i = none) (t : TractRef) :
    (p.put i c).assembles t ↔ (t = c.ref ∧ ∃ o, c.kind = .assemble o) ∨ (t ≠ c.ref ∧ p.assembles t) := by
  constructor
  · rintro ⟨k, d, o, hd, rfl, ho⟩
    rw [p.put_slot] at hd
    split at hd
    next =>
      obtain rfl := Option.some.inj hd
      exact .inl ⟨rfl, o, ho⟩
    next => exact .inr ⟨hnew k d hd, k, d, o, hd, rfl, ho⟩
  · rintro (⟨rfl, o, ho⟩ | ⟨-, k, d, o, hd, rfl, ho⟩)
    · exact ⟨i, c, o, by simp [p.put_slot], rfl, ho⟩
    · have hki : k ≠ i := by
        rintro rfl
        simp [hfree] at hd
      exact ⟨k, d, o, by rw [p.put_slot, if_neg hki, hd], rfl, ho⟩

end Opened

section Replaced

variable {p : Pool} {i : Fin 8} {c d : Context} (hs : p.slot i = some c) (href : d.ref = c.ref)
include hs href

/-- The tract of a slot whose context was replaced by one on the same tract. -/
theorem Pool.ref_of_put_slot {k : Fin 8} {e : Context} (h : (p.put i d).slot k = some e) :
    ∃ f, p.slot k = some f ∧ e.ref = f.ref := by
  rw [p.put_slot] at h
  split at h
  next hk =>
    obtain rfl := Option.some.inj h
    exact ⟨c, hk ▸ hs, href⟩
  next => exact ⟨e, h, rfl⟩

theorem Pool.put_refsDistinct_of_same (hp : p.refsDistinct) : (p.put i d).refsDistinct := by
  intro k l e f he hf hef
  obtain ⟨e', he', hee⟩ := Pool.ref_of_put_slot hs href he
  obtain ⟨f', hf', hff⟩ := Pool.ref_of_put_slot hs href hf
  exact hp k l e' f' he' hf' (hee ▸ hff ▸ hef)

theorem Pool.put_assembles_of_same (hkind : d.kind = c.kind) (t : TractRef) :
    (p.put i d).assembles t ↔ p.assembles t := by
  constructor
  · rintro ⟨k, e, o, he, rfl, ho⟩
    rw [p.put_slot] at he
    split at he
    next hk =>
      obtain rfl := Option.some.inj he
      exact ⟨i, c, o, hs, href.symm, hkind ▸ ho⟩
    next => exact ⟨k, e, o, he, rfl, ho⟩
  · rintro ⟨k, e, o, he, rfl, ho⟩
    by_cases hk : k = i
    · subst hk
      rw [hs] at he
      obtain rfl := Option.some.inj he
      exact ⟨k, d, o, by simp [p.put_slot], href, hkind ▸ ho⟩
    · exact ⟨k, e, o, by rw [p.put_slot, if_neg hk, he], rfl, ho⟩

end Replaced

/-! ## The laws together -/

/-- The laws of the check store, the pool and the queue, over a region table without overlaps. -/
structure State.TractsSound (s : State) : Prop where
  disjoint : s.regionsDisjoint
  canonical : s.storeCanonical
  pool : s.pool.inStep
  queue : s.queueInStep
  refs : ∀ i c, s.pool.slot i = some c → s.tracked c.ref
  distinct : s.pool.refsDistinct
  opened : ∀ t, s.tracked t → ((s.record t).state = .opened ↔ s.pool.assembles t)

theorem State.coherent.tractsSound {s : State} (h : s.coherent) : s.TractsSound := by
  obtain ⟨hstore, hpool, hdisjoint, -, -, hqueue, ⟨hrefs, hdistinct, hopened⟩, -, -⟩ := h
  exact ⟨hdisjoint, hstore, hpool, hqueue, hrefs, hdistinct, hopened⟩

/-- The laws read the regions, the check store, the pool and the queue only. -/
theorem State.TractsSound.congr {s t : State} (h : s.TractsSound) (hregions : t.regions = s.regions)
    (hstore : t.store = s.store) (hpool : t.pool = s.pool) (hqueue : t.queue = s.queue) : t.TractsSound := by
  obtain ⟨hd, hc, hp, ⟨hlen, hnodup, htracked, hflag⟩, hrefs, hdist, hopen⟩ := h
  have hregion : t.region = s.region := by funext n; simp only [State.region, hregions]
  have htr : t.tracked = s.tracked := by funext u; simp only [State.tracked, hregion]
  have hrec : t.record = s.record := by funext u; simp only [State.record, hregion, hstore]
  refine ⟨?_, ?_, hpool ▸ hp, ⟨hqueue ▸ hlen, hqueue ▸ hnodup, ?_, ?_⟩, ?_, hpool ▸ hdist, ?_⟩
  · simpa only [State.regionsDisjoint, hregion] using hd
  · simpa only [State.storeCanonical, hstore] using hc
  · simpa only [hqueue, htr] using htracked
  · simpa only [hqueue, htr, hrec] using hflag
  · simpa only [hpool, htr] using hrefs
  · simpa only [hpool, htr, hrec] using hopen

section Updates

variable {s : State} (h : s.TractsSound)
include h

/-- A new pool, and the record of one tract rewritten with its flag kept: what has to be shown of them. -/
theorem State.TractsSound.update {p : Pool} {t : TractRef} {r : TractRecord} (ht : s.tracked t)
    (hflag : r.queued = (s.record t).queued) (hpool : p.inStep) (hrefs : ∀ i c, p.slot i = some c → s.tracked c.ref)
    (hdistinct : p.refsDistinct) (hopen : r.state = .opened ↔ p.assembles t)
    (hother : ∀ u, u ≠ t → (p.assembles u ↔ s.pool.assembles u)) :
    (State.setRecord { s with pool := p } t r).TractsSound := by
  obtain ⟨hlen, hnodup, htracked, hqueued⟩ := h.queue
  have hrec (u : TractRef) (hu : s.tracked u) :
      (State.setRecord { s with pool := p } t r).record u = if u = t then r else s.record u :=
    State.record_setRecord (s := { s with pool := p }) r h.disjoint ht hu
  refine ⟨h.disjoint, State.setRecord_keeps_wf _ t r h.canonical, hpool, ⟨hlen, hnodup, htracked, fun u hu => ?flags⟩, hrefs,
    hdistinct, fun u hu => ?opened⟩
  case flags =>
    rw [hrec u hu]
    split
    next hut => rw [hut, hflag]; exact hqueued t ht
    next => exact hqueued u hu
  case opened =>
    rw [hrec u hu]
    split
    next hut => rw [hut]; exact hopen
    next hut => exact (h.opened u hu).trans (hother u hut).symm

/-- A new pool with the assemblies of before. -/
theorem State.TractsSound.updatePool {p : Pool} (hpool : p.inStep) (hrefs : ∀ i c, p.slot i = some c → s.tracked c.ref)
    (hdistinct : p.refsDistinct) (hsame : ∀ u, p.assembles u ↔ s.pool.assembles u) :
    State.TractsSound { s with pool := p } :=
  ⟨h.disjoint, h.canonical, hpool, h.queue, hrefs, hdistinct, fun u hu => (h.opened u hu).trans (hsame u).symm⟩

/-! ## Records -/

/-- A record rewritten with its flag, and its being OPEN or not, kept. -/
theorem State.TractsSound.setRecord {t : TractRef} {r : TractRecord} (ht : s.tracked t)
    (hflag : r.queued = (s.record t).queued) (hopen : r.state = .opened ↔ (s.record t).state = .opened) :
    (s.setRecord t r).TractsSound :=
  h.update ht hflag h.pool h.refs h.distinct (hopen.trans (h.opened t ht)) fun _ _ => Iff.rfl

theorem State.TractsSound.setTractState {t : TractRef} {st : TractState} (ht : s.tracked t) (hst : st ≠ .opened)
    (hopen : (s.record t).state ≠ .opened) : (s.setTractState t st).TractsSound :=
  h.setRecord ht rfl (by simp [hst, hopen])

theorem State.TractsSound.learn {t : TractRef} {v : Word} (ht : s.tracked t) (hopen : (s.record t).state ≠ .opened) :
    (s.learn t v).TractsSound :=
  h.setRecord ht rfl (by simp [hopen])

/-! ## The queue -/

/-- The queue after an append, and after a take, holds what the flags say. -/
theorem State.TractsSound.setQueue {q : List TractRef} {t : TractRef} {b : Bool} (ht : s.tracked t)
    (hlen : q.length ≤ Config.queueDepth) (hnodup : q.Nodup) (hmem : ∀ u, u ∈ q ↔ if u = t then b = true else u ∈ s.queue) :
    (State.setQueued { s with queue := q } t b).TractsSound := by
  obtain ⟨-, -, htracked, hqueued⟩ := h.queue
  have hrec (u : TractRef) (hu : s.tracked u) :
      (State.setQueued { s with queue := q } t b).record u =
        if u = t then { s.record t with queued := b } else s.record u :=
    State.record_setRecord (s := { s with queue := q }) _ h.disjoint ht hu
  refine ⟨h.disjoint, State.setRecord_keeps_wf _ t _ h.canonical, h.pool, ⟨hlen, hnodup, fun u hu => ?tracked, fun u hu => ?flags⟩,
    h.refs, h.distinct, fun u hu => ?opened⟩
  case tracked =>
    have hu' := (hmem u).mp hu
    by_cases hut : u = t
    · rw [hut]; exact ht
    · rw [if_neg hut] at hu'
      exact htracked u hu'
  case flags =>
    rw [hrec u hu]
    change _ ↔ u ∈ q
    rw [hmem u]
    by_cases hut : u = t
    · simp [hut]
    · simpa [hut] using hqueued u hu
  case opened =>
    rw [hrec u hu]
    change _ ↔ s.pool.assembles u
    by_cases hut : u = t
    · simpa [hut] using h.opened t ht
    · simpa [hut] using h.opened u hu

/-- An offer to the refresh queue keeps the laws (R79, R109). -/
theorem State.TractsSound.offer {t : TractRef} (ht : s.tracked t) : (s.offer t).TractsSound := by
  obtain ⟨-, he⟩ | ⟨hclear, hroom, he⟩ | ⟨-, -, he⟩ := s.offer_cases t
  · rwa [he]
  · rw [he]
    obtain ⟨-, hnodup, -, hqueued⟩ := h.queue
    have hnot : t ∉ s.queue := fun hin => by simp [(hqueued t ht).mpr hin] at hclear
    refine h.setQueue ht (by simpa using hroom) ?_ fun u => ?_
    · rw [List.nodup_append]
      refine ⟨hnodup, List.nodup_singleton t, fun a ha b hb hab => ?_⟩
      rw [List.mem_singleton] at hb
      exact hnot (hb ▸ hab ▸ ha)
    · by_cases hut : u = t <;> simp [hut]
  · rw [he]
    exact h.congr rfl rfl rfl rfl

/-! ## Contexts -/

/-- A VERIFY context freed. -/
theorem State.TractsSound.freeSlot_of_verify {i : Fin 8} {c : Context} (hs : s.pool.slot i = some c)
    (hk : c.kind = .verify) : (s.freeSlot i).TractsSound :=
  h.updatePool (Pool.free_inStep h.pool i) (fun k d hd => h.refs k d (Pool.slot_of_free_slot hd))
    (h.distinct.of_slots fun _ _ => Pool.slot_of_free_slot) (Pool.free_assembles_of_verify hs hk)

theorem State.TractsSound.freeVerify (t : TractRef) : (s.freeVerify t).TractsSound := by
  by_cases hv : ∃ i c, s.pool.find t = some (i, c) ∧ c.kind = .verify
  · obtain ⟨i, c, hfind, hk⟩ := hv
    rw [s.freeVerify_of_verify t i c hfind hk]
    exact h.freeSlot_of_verify (Pool.of_find_eq_some hfind).1 hk
  · rwa [s.freeVerify_of_not_verify t fun i c hfind hk => hv ⟨i, c, hfind, hk⟩]

/-- The context on a tract freed and the tract left in a state other than OPEN: an assembly closed or broken (R73, R75). -/
theorem State.TractsSound.freeSlot_setRecord {i : Fin 8} {c : Context} {r : TractRecord} (hs : s.pool.slot i = some c)
    (hflag : r.queued = (s.record c.ref).queued) (hst : r.state ≠ .opened) :
    ((s.freeSlot i).setRecord c.ref r).TractsSound :=
  h.update (h.refs i c hs) hflag (Pool.free_inStep h.pool i) (fun k d hd => h.refs k d (Pool.slot_of_free_slot hd))
    (h.distinct.of_slots fun _ _ => Pool.slot_of_free_slot)
    (by simp [hst, Pool.free_assembles h.distinct hs]) fun u hu => by simp [Pool.free_assembles h.distinct hs, hu]

/-- A break keeps the laws (R75). -/
theorem State.TractsSound.breakAssembly {i : Fin 8} {c : Context} (hs : s.pool.slot i = some c) (o : Origin) :
    (s.breakAssembly i c.ref o).TractsSound := by
  have hst : o.afterBreak ≠ .opened := by cases o <;> decide
  have hfreed := h.freeSlot_setRecord (r := { s.record c.ref with state := o.afterBreak }) hs rfl hst
  cases ho : o.offers with
  | false => rwa [s.breakAssembly_of_not_offers i c.ref o ho]
  | true =>
    rw [s.breakAssembly_of_offers i c.ref o ho]
    exact hfreed.offer (h.refs i c hs)

theorem State.TractsSound.evict (i : Fin 8) : (s.evict i).TractsSound := by
  cases hs : s.pool.slot i with
  | none => simpa [State.evict, hs] using h
  | some c =>
    cases hk : c.kind with
    | verify =>
      rw [s.evict_of_verify i c hs hk]
      exact h.freeSlot_of_verify hs hk
    | assemble o =>
      rw [s.evict_of_assemble i c o hs hk]
      exact h.breakAssembly hs o

/-- A context restarted or advanced in its slot (R64). -/
theorem State.TractsSound.putContext {i : Fin 8} {c d : Context} (hs : s.pool.slot i = some c) (href : d.ref = c.ref)
    (hkind : d.kind = c.kind) : (s.putContext i d).TractsSound :=
  h.updatePool (Pool.put_inStep h.pool i d)
    (fun k e he => by
      obtain ⟨f, hf, hef⟩ := Pool.ref_of_put_slot hs href he
      exact hef ▸ h.refs k f hf)
    (Pool.put_refsDistinct_of_same hs href h.distinct) (Pool.put_assembles_of_same hs href hkind)

end Updates

/-! ## A slot taken -/

/-- No context refers to the tract. -/
def Pool.noneOn (p : Pool) (t : TractRef) : Prop := ∀ k d, p.slot k = some d → d.ref ≠ t

theorem State.breakAssembly_pool (s : State) (i : Fin 8) (t : TractRef) (o : Origin) :
    (s.breakAssembly i t o).pool = s.pool.free i := by
  cases ho : o.offers with
  | false => rw [s.breakAssembly_of_not_offers i t o ho]; rfl
  | true =>
    rw [s.breakAssembly_of_offers i t o ho]
    obtain ⟨q, st, a, he⟩ := State.offer_frame
      (State.setRecord { s with pool := s.pool.free i } t { s.record t with state := o.afterBreak }) t
    rw [he]
    rfl

/-- An offer leaves the record of every other tract of an ENABLED region. -/
theorem State.offer_record_other {s : State} (hd : s.regionsDisjoint) {t u : TractRef} (ht : s.tracked t)
    (hu : s.tracked u) (hut : u ≠ t) : (s.offer t).record u = s.record u := by
  obtain ⟨-, he⟩ | ⟨-, -, he⟩ | ⟨-, -, he⟩ := s.offer_cases t
  · rw [he]
  · rw [he, s.append_eq t, State.record_setRecord (s := { s with queue := s.queue ++ [t] }) _ hd ht hu, if_neg hut]
    rfl
  · rw [he]
    rfl

theorem State.breakAssembly_record_other {s : State} (hd : s.regionsDisjoint) {t u : TractRef} (i : Fin 8) (o : Origin)
    (ht : s.tracked t) (hu : s.tracked u) (hut : u ≠ t) : (s.breakAssembly i t o).record u = s.record u := by
  have hset : (State.setRecord { s with pool := s.pool.free i } t { s.record t with state := o.afterBreak }).record u =
      s.record u := by
    rw [State.record_setRecord (s := { s with pool := s.pool.free i }) _ hd ht hu, if_neg hut]
    rfl
  cases ho : o.offers with
  | false => rwa [s.breakAssembly_of_not_offers i t o ho]
  | true =>
    rw [s.breakAssembly_of_offers i t o ho]
    exact (State.offer_record_other (s := State.setRecord { s with pool := s.pool.free i } t _) hd ht hu hut).trans hset

/-- What a taking of a slot for a context on tract `t` leaves: the slot is free, no other context is new, the regions are the
same, and the record of `t` too. -/
structure State.SlotTaken (s v : State) (i : Fin 8) (t : TractRef) : Prop where
  free : v.pool.slot i = none
  slots : ∀ k d, v.pool.slot k = some d → s.pool.slot k = some d
  regions : v.regions = s.regions
  record : v.record t = s.record t

theorem State.breakAssembly_regions (s : State) (i : Fin 8) (t : TractRef) (o : Origin) :
    (s.breakAssembly i t o).regions = s.regions := by
  obtain ⟨p, q, st, a, he⟩ := s.breakAssembly_frame i t o
  rw [he]

section TakeSlot

variable {s : State} (h : s.TractsSound) {t : TractRef} (ht : s.tracked t) (hnone : s.pool.noneOn t)
include h ht hnone

theorem State.TractsSound.evict_taken (i : Fin 8) : s.SlotTaken (s.evict i) i t := by
  cases hs : s.pool.slot i with
  | none =>
    have he : s.evict i = s := by simp [State.evict, hs]
    rw [he]
    exact ⟨hs, fun _ _ => id, rfl, rfl⟩
  | some c =>
    have hempty : (s.pool.free i).slot i = none := by simp [s.pool.free_slot]
    cases hk : c.kind with
    | verify =>
      rw [s.evict_of_verify i c hs hk]
      exact ⟨hempty, fun _ _ => Pool.slot_of_free_slot, rfl, rfl⟩
    | assemble o =>
      rw [s.evict_of_assemble i c o hs hk]
      refine ⟨?_, fun k d hd => ?_, s.breakAssembly_regions i c.ref o,
        State.breakAssembly_record_other h.disjoint i o (h.refs i c hs) ht (hnone i c hs).symm⟩
      · rw [s.breakAssembly_pool, hempty]
      · rw [s.breakAssembly_pool] at hd
        exact Pool.slot_of_free_slot hd

/-- A slot is free, or the order names the least recent one, which is evicted (R65, R86). -/
theorem State.TractsSound.takeSlot_taken :
    s.takeSlot.1.TractsSound ∧ s.SlotTaken s.takeSlot.1 s.takeSlot.2 t := by
  unfold State.takeSlot
  cases hlow : s.pool.lowestFree with
  | some i => exact ⟨h, ((s.pool.lowestFree_eq_some_iff i).mp hlow).1, fun _ _ => id, rfl, rfl⟩
  | none =>
    cases hlast : s.pool.leastRecent with
    | some i => exact ⟨h.evict i, h.evict_taken ht hnone i⟩
    | none =>
      have hempty : s.pool.recency = [] := List.getLast?_eq_none_iff.mp hlast
      have hin : (0 : Fin 8) ∈ s.pool.recency :=
        (h.pool.2 0).mpr (Option.isSome_iff_ne_none.mpr (s.pool.lowestFree_eq_none_iff.mp hlow 0))
      simp [hempty] at hin

end TakeSlot

/-! ## Contexts opened -/

section Open

variable {s : State} (h : s.TractsSound) {c : Context} (ht : s.tracked c.ref) (hnone : s.pool.noneOn c.ref)
include h ht hnone

/-- A VERIFY context opened on a tract that is not OPEN (R81). -/
theorem State.TractsSound.openContext_verify (hk : c.kind = .verify) (hopen : (s.record c.ref).state ≠ .opened) :
    (s.openContext c).TractsSound := by
  obtain ⟨hv, hfree, hslots, hregions, hrecord⟩ := h.takeSlot_taken ht hnone
  have htracked (u : TractRef) : s.takeSlot.1.tracked u ↔ s.tracked u := by
    simp only [State.tracked, State.region, hregions]
  have hnew : s.takeSlot.1.pool.noneOn c.ref := fun k d hd => hnone k d (hslots k d hd)
  refine hv.updatePool (Pool.put_inStep hv.pool _ c) (fun k d hd => ?_) (Pool.put_refsDistinct_of_new hnew hv.distinct)
    fun u => ?_
  · rw [Pool.put_slot] at hd
    split at hd
    next =>
      obtain rfl := Option.some.inj hd
      exact (htracked _).mpr ht
    next => exact hv.refs k d hd
  · rw [Pool.put_assembles_of_new hnew hfree]
    by_cases hu : u = c.ref
    · subst hu
      have hnot := (hv.opened c.ref ((htracked _).mpr ht)).not.mp (by rwa [hrecord])
      simp [hk, hnot]
    · simp [hu]

/-- An ASSEMBLE context opened on a tract, which is made OPEN (R70). -/
theorem State.TractsSound.openContext_assemble {o : Origin} (hk : c.kind = .assemble o) :
    ((s.openContext c).setTractState c.ref .opened).TractsSound := by
  obtain ⟨hv, hfree, hslots, hregions, -⟩ := h.takeSlot_taken ht hnone
  have htracked (u : TractRef) : s.takeSlot.1.tracked u ↔ s.tracked u := by
    simp only [State.tracked, State.region, hregions]
  have hnew : s.takeSlot.1.pool.noneOn c.ref := fun k d hd => hnone k d (hslots k d hd)
  refine hv.update ((htracked _).mpr ht) rfl (Pool.put_inStep hv.pool _ c) (fun k d hd => ?_)
    (Pool.put_refsDistinct_of_new hnew hv.distinct) ?_ fun u hu => ?_
  · rw [Pool.put_slot] at hd
    split at hd
    next =>
      obtain rfl := Option.some.inj hd
      exact (htracked _).mpr ht
    next => exact hv.refs k d hd
  · simp [Pool.put_assembles_of_new hnew hfree, hk]
  · simp [Pool.put_assembles_of_new hnew hfree, hu]

end Open

/-! ## The operations of the pool -/

section Operations

variable {s : State} (h : s.TractsSound)
include h

/-- After a VERIFY context is freed no context refers to a tract that is not OPEN. -/
theorem State.TractsSound.freeVerify_noneOn {t : TractRef} (ht : s.tracked t) (hopen : (s.record t).state ≠ .opened) :
    (s.freeVerify t).pool.noneOn t := by
  have hverify : ∀ k d, s.pool.slot k = some d → d.ref = t → d.kind = .verify := by
    intro k d hd href
    cases hk : d.kind with
    | verify => rfl
    | assemble o => exact absurd ((h.opened t ht).mpr ⟨k, d, o, hd, href, hk⟩) hopen
  cases hfind : s.pool.find t with
  | none =>
    rw [s.freeVerify_of_not_verify t fun i c hc => by simp [hfind] at hc]
    exact (s.pool.find_eq_none_iff t).mp hfind
  | some x =>
    obtain ⟨i, c⟩ := x
    obtain ⟨hs, href⟩ := Pool.of_find_eq_some hfind
    rw [s.freeVerify_of_verify t i c hfind (hverify i c hs href)]
    intro k d hd hdt
    have hd' := Pool.slot_of_free_slot hd
    obtain rfl : k = i := h.distinct k i d c hd' hs (hdt.trans href.symm)
    simp [Pool.free_slot] at hd

variable {p : Place}

theorem State.TractsSound.openTractWrite (mask : BitVec 4) (d : Lanes) : (s.openTractWrite p mask d).TractsSound := by
  cases hfind : s.pool.find p.ref with
  | none => simpa [State.openTractWrite, hfind] using h
  | some x =>
    obtain ⟨i, c⟩ := x
    obtain ⟨hs, href⟩ := Pool.of_find_eq_some hfind
    cases hk : c.kind with
    | verify => simpa [State.openTractWrite, hfind, hk] using h
    | assemble o =>
      by_cases hoff : p.offset = c.next ∧ mask = 0xF#4
      · obtain ⟨hnext, rfl⟩ := hoff
        change (s.openTractWrite p 0xF d).TractsSound
        by_cases hsize : p.offset + 4 = (s.region p.ref.region).size
        · rw [s.openTractWrite_of_last p d i c o hfind hk hnext hsize, ← href]
          exact h.freeSlot_setRecord hs rfl (by simp)
        · rw [s.openTractWrite_of_continuing p d i c o hfind hk hnext hsize]
          exact h.putContext hs rfl rfl
      · rw [s.openTractWrite_of_not_continuing p mask d i c o hfind hk hoff, ← href]
        exact h.breakAssembly hs o

variable (hp : s.tracked p.ref)
include hp

theorem State.TractsSound.openingWrite (d : Lanes) : (s.openingWrite p d).TractsSound := by
  unfold State.openingWrite
  dsimp only
  split
  next o ho =>
    have hopen : (s.record p.ref).state ≠ .opened := fun he => by simp [he, originOf] at ho
    have hregions : (s.freeVerify p.ref).regions = s.regions := by
      obtain ⟨q, hq⟩ := s.freeVerify_frame p.ref
      rw [hq]
    have ht : (s.freeVerify p.ref).tracked p.ref := by simpa only [State.tracked, State.region, hregions] using hp
    exact (h.freeVerify p.ref).openContext_assemble (c := ⟨.assemble o, p.ref, 4, _⟩) ht (h.freeVerify_noneOn hp hopen) rfl
  next =>
    split
    next i c hfind => exact h.putContext (Pool.of_find_eq_some hfind).1 rfl rfl
    next => exact h

/-- A tract that a piecemeal write or an ERROR makes STALE, and offers (R74, R77). -/
theorem State.TractsSound.freeVerify_stale_offer (hcur : (s.record p.ref).state = .current) :
    (((s.freeVerify p.ref).setRecord p.ref { s.record p.ref with state := .stale }).offer p.ref).TractsSound := by
  obtain ⟨q, hq⟩ := s.freeVerify_frame p.ref
  have hv := h.freeVerify p.ref
  rw [hq] at hv ⊢
  exact (hv.setRecord (r := { s.record p.ref with state := .stale }) hp rfl (by
    change _ ↔ (s.record p.ref).state = .opened
    simp [hcur])).offer hp

theorem State.TractsSound.piecemealWrite (hopen : (s.record p.ref).state ≠ .opened) : (s.piecemealWrite p).TractsSound := by
  cases hst : (s.record p.ref).state with
  | opened => exact absurd hst hopen
  | current =>
    rw [s.piecemealWrite_of_current p hst]
    exact h.freeVerify_stale_offer hp hst
  | stale =>
    rw [s.piecemealWrite_of_stale p hst]
    obtain ⟨q, hq⟩ := s.freeVerify_frame p.ref
    have hv := h.freeVerify p.ref
    rw [hq] at hv ⊢
    exact hv.offer hp
  | unknown =>
    rw [s.piecemealWrite_of_unknown_or_faulted p (.inl hst)]
    exact h.freeVerify p.ref
  | faulted =>
    rw [s.piecemealWrite_of_unknown_or_faulted p (.inr hst)]
    exact h.freeVerify p.ref

/-- A write beat handed to the pool keeps the laws (R69 to R75). -/
theorem State.TractsSound.poolWrite (mask : BitVec 4) (d : Lanes) : (s.poolWrite p mask d).TractsSound := by
  unfold State.poolWrite
  split
  · exact h.openingWrite hp d
  · split
    next => exact h.openTractWrite mask d
    next hopen => exact h.piecemealWrite hp hopen

/-- A write response handed to the pool keeps the laws (R76, R77). -/
theorem State.TractsSound.poolWriteResponse (resp : Resp) : (s.poolWriteResponse p resp).TractsSound := by
  cases resp with
  | okay => exact h
  | error =>
    by_cases hcur : (s.record p.ref).state = .current
    · rw [s.poolWriteResponse_error_of_current p hcur]
      exact h.freeVerify_stale_offer hp hcur
    by_cases hopen : (s.record p.ref).state = .opened
    · obtain ⟨i, c, o, hs, href, hk⟩ := (h.opened p.ref hp).mp hopen
      rw [s.poolWriteResponse_error_of_opened p i c o hopen
        ((Pool.find_eq_some_iff h.distinct p.ref i c).mpr ⟨hs, href⟩) hk, ← href]
      exact h.breakAssembly hs o
    · rw [s.poolWriteResponse_error_of_other p hopen hcur]
      exact h.freeVerify p.ref

/-- The last beat of a host verify keeps the laws (R83). -/
theorem State.TractsSound.completeVerify {i : Fin 8} {c : Context} (hs : s.pool.slot i = some c) (href : c.ref = p.ref)
    (hcur : (s.record p.ref).state = .current) (addr : Word) (d : Lanes) :
    (s.completeVerify i c p.ref addr d).1.TractsSound := by
  have hk : c.kind = .verify := by
    cases hk : c.kind with
    | verify => rfl
    | assemble o => simp [(h.opened p.ref hp).mpr ⟨i, c, o, hs, href, hk⟩] at hcur
  have hfreed := h.freeSlot_of_verify hs hk
  unfold State.completeVerify
  dsimp only
  split
  · exact hfreed
  · obtain ⟨l, a, he⟩ := State.offerFault_frame ((s.freeSlot i).setTractState p.ref .faulted)
      ⟨.readMismatch, p.ref, (s.freeSlot i).tractAddr p.ref, some (s.record p.ref).check,
        some (c.finish (s.region p.ref.region) d), (s.freeSlot i).timebase.tickCounter, none⟩
    rw [he]
    refine (hfreed.setTractState (t := p.ref) (st := .faulted) hp (by decide) ?_).congr rfl rfl rfl rfl
    change (s.record p.ref).state ≠ .opened
    simp [hcur]

/-- A read beat handed to the pool keeps the laws (R80 to R84). -/
theorem State.TractsSound.poolRead (addr : Word) (d : Lanes) (resp : Resp) : (s.poolRead p addr d resp).1.TractsSound := by
  unfold State.poolRead
  dsimp only
  split
  next => exact h.freeVerify p.ref
  next hok =>
    have hcur : (s.record p.ref).state = .current := by
      by_contra hne
      exact hok (.inl hne)
    have hopen : (s.record p.ref).state ≠ .opened := by simp [hcur]
    split
    next =>
      split
      next i c hfind => exact h.putContext (Pool.of_find_eq_some hfind).1 rfl rfl
      next hfind =>
        exact h.openContext_verify (c := ⟨.verify, p.ref, 4, _⟩) hp ((s.pool.find_eq_none_iff p.ref).mp hfind) rfl hopen
    next =>
      split
      next => exact h
      next i c hfind =>
        obtain ⟨hs, href⟩ := Pool.of_find_eq_some hfind
        split
        next =>
          split
          next => exact h.completeVerify hp hs href hcur addr d
          next => exact h.putContext hs rfl rfl
        next => exact h

end Operations

end Sys2Proof.Machine
end

