-- ==== Sys2Proof/Proofs/Happenings.lean ====
section
/-! PROOFS. What one step can do, said once: the reply of each management command as a function, the effects a command can have on a
state in which nothing is owed, and the inversion of `exec` and `step` into them. The laws that every step keeps go through these
cases. -/

namespace Sys2Proof.Machine

/-! ## Management commands -/

/-- GET-REGION (R27). -/
def State.regionReply (s : State) (region : Byte) : Reply :=
  match smallNumber region with
  | none => .refuse s .badArg
  | some n => ⟨s, .ok, (s.region n).report⟩

/-- GET-TRACT (R15, R16). -/
def State.tractReply (s : State) (region : Byte) (tract : BitVec 16) : Reply :=
  match s.checkTract region tract with
  | .error st => .refuse s st
  | .ok t => ⟨s, .ok, s.tractReport t⟩

/-- FORGET-TRACT (R15, R17, R18). -/
def State.forgetReply (s : State) (region : Byte) (tract : BitVec 16) : Reply :=
  match s.checkTract region tract with
  | .error st => .refuse s st
  | .ok t => if s.holdsTract t then .refuse s .held else .done (s.forget t)

/-- REPAIR-TRACT (R15, R19, R20). -/
def State.repairReply (s : State) (region : Byte) (tract : BitVec 16) : Reply :=
  match s.checkTract region tract with
  | .error st => .refuse s st
  | .ok t =>
    if s.holdsTract t then .refuse s .held
    else if (s.record t).state ≠ .faulted then .refuse s .state
    else if (s.record t).queued = false ∧ Config.queueDepth ≤ s.queue.length then .refuse s .full
    else .done (s.repair t)

/-- GET-CONTEXT (R187). -/
def State.contextReply (s : State) (slot : Byte) : Reply :=
  match smallNumber slot with
  | none => .refuse s .badArg
  | some i => ⟨s, .ok, s.pool.report i⟩

/-- PEEK-FAULT (R156). -/
def State.peekReply (s : State) : Reply :=
  match s.log.records with
  | [] => .refuse s .empty
  | f :: _ => ⟨s, .ok, f.report⟩

/-- POP-FAULT (R157). -/
def State.popReply (s : State) : Reply :=
  match s.log.records with
  | [] => .refuse s .empty
  | f :: rest => ⟨{ s with log := { s.log with records := rest } }, .ok, f.report⟩

/-- GET-HOLD (R188). -/
def State.holdReply (s : State) : Reply :=
  match s.passage.hold with
  | none => .refuse s .noHold
  | some h => ⟨s, .ok, h.report⟩

/-- RELEASE-HOLD (R102). -/
def State.releaseReply (s : State) (response : Byte) : Reply :=
  match respOf response with
  | none => .refuse s .badArg
  | some r =>
    match s.passage.hold with
    | none => .refuse s .noHold
    | some _ => .done (s.releaseHeld r)

/-- What a management command settles in REQUEST (R172): its effect, status and results. The other commands have no reply. -/
def replyTo (c : Instr) (s : State) : Reply :=
  match c with
  | .getStatus => ⟨s, .ok, s.statusBlock⟩
  | .getParams => ⟨s, .ok, s.params.report⟩
  | .setParams d l t p m => s.setParams d l t p m
  | .getRegion region => s.regionReply region
  | .setRegion region b c n e w y q => s.changeRegion region b c n e w y q
  | .enableRegion region => s.enable region
  | .disableRegion region => s.disable region
  | .getTract region tract => s.tractReply region tract
  | .forgetTract region tract => s.forgetReply region tract
  | .repairTract region tract => s.repairReply region tract
  | .getContext slot => s.contextReply slot
  | .peekFault => s.peekReply
  | .popFault => s.popReply
  | .getHold => s.holdReply
  | .releaseHold response => s.releaseReply response
  | .clearAlert mask => ⟨(s.clearCauses mask).conclude, .ok, [(s.clearCauses mask).alert.causes]⟩
  | .restart => .done s.restart
  | _ => .done s

/-- A management command is executed as a request with its reply (R172). -/
theorem exec_of_requestBody {c : Instr} {code : Byte} {args : List Byte} (h : requestBody c = some (code, args)) (s : State) :
    exec c s = .next (s.request args.length (replyTo c)) := by
  cases c with
  | getStatus | getParams | setParams | getRegion | setRegion | enableRegion | disableRegion | getTract | forgetTract
  | repairTract | getContext | peekFault | popFault | getHold | releaseHold | clearAlert | restart =>
    obtain ⟨rfl, rfl⟩ := Prod.mk.inj (Option.some.inj h)
    rfl
  | _ => cases h

/-- A request from any state: what is owed is carried out, and in REQUEST the reply is settled and answered. -/
theorem State.request_eq (s : State) (n : Nat) (act : State → Reply) :
    s.request n act =
      if s.settle.port.frame = .request then (act s.settle).state.answer n (act s.settle).status (act s.settle).results
      else s.settle := rfl

/-- A tract that passes the checks of R15 is a tract of an ENABLED region. -/
theorem State.tracked_of_checkTract {s : State} {region : Byte} {tract : BitVec 16} {t : TractRef}
    (h : s.checkTract region tract = .ok t) : s.tracked t := by
  unfold State.checkTract at h
  split at h
  next => cases h
  next n _ =>
    split at h
    next => cases h
    next he =>
      split at h
      next hlt =>
        obtain rfl := Except.ok.inj h
        exact ⟨not_not.mp he, hlt⟩
      next => cases h

/-- The states that the execution of a management command can leave, before its answer. -/
inductive State.Executed (s : State) : State → Prop
  | unchanged : s.Executed s
  | parameters (p : Params) : s.Executed (State.conclude { s with params := p })
  | descriptor (n : Fin 8) (r : Region) (base : Word) (sizeCode : Byte) (count entryBase : BitVec 16) (width : Byte)
      (poly : Word) (policy : Byte) (idle : s.port.longOp = .idle) (disabled : (s.region n).state = .disabled)
      (checked : checkedRegion base sizeCode count entryBase width poly policy = some r) : s.Executed (s.setRegion n r)
  | preparation (n : Fin 8) (idle : s.port.longOp = .idle) (disabled : (s.region n).state = .disabled)
      (counted : (s.region n).count ≠ 0) (disjoint : s.overlapsOther n = false) :
      s.Executed ((s.setRegionState n .preparing).setLongOp (.enabling n))
  | withdrawal (n : Fin 8) (idle : s.port.longOp = .idle) (enabled : (s.region n).state = .enabled) :
      s.Executed (s.disableAccepted n)
  | forgotten (t : TractRef) (tracked : s.tracked t) : s.Executed (s.forget t)
  | repaired (t : TractRef) (tracked : s.tracked t) (faulted : (s.record t).state = .faulted)
      (room : (s.record t).queued = false → s.queue.length < Config.queueDepth) : s.Executed (s.repair t)
  | popped (f : FaultRecord) (rest : List FaultRecord) (head : s.log.records = f :: rest) :
      s.Executed { s with log := { s.log with records := rest } }
  | released (r : Resp) : s.Executed (s.releaseHeld r)
  | cleared (mask : Byte) : s.Executed (s.clearCauses mask).conclude
  | restarted : s.Executed s.restart

theorem replyTo_executed (c : Instr) (s : State) : s.Executed (replyTo c s).state := by
  cases c with
  | setParams d l t p m =>
    change s.Executed (s.setParams d l t p m).state
    unfold State.setParams
    split
    · exact .unchanged
    · exact .parameters _
  | setRegion region b c n e w y q =>
    change s.Executed (s.changeRegion region b c n e w y q).state
    unfold State.changeRegion
    split
    · exact .unchanged
    split
    · exact .unchanged
    split
    · exact .unchanged
    split
    · exact .unchanged
    next hi hd _ r hr => exact .descriptor _ r _ _ _ _ _ _ _ (not_not.mp hi) (not_not.mp hd) hr
  | enableRegion region =>
    change s.Executed (s.enable region).state
    unfold State.enable
    split
    · exact .unchanged
    split
    · exact .unchanged
    split
    · exact .unchanged
    split
    · exact .unchanged
    split
    · exact .unchanged
    next hi hd hc ho => exact .preparation _ (not_not.mp hi) (not_not.mp hd) hc (by simpa using ho)
  | disableRegion region =>
    change s.Executed (s.disable region).state
    unfold State.disable
    split
    · exact .unchanged
    split
    · exact .unchanged
    split
    · exact .unchanged
    split
    · exact .unchanged
    next hi he _ => exact .withdrawal _ (not_not.mp hi) (not_not.mp he)
  | getRegion region =>
    change s.Executed (s.regionReply region).state
    unfold State.regionReply
    split <;> exact .unchanged
  | getTract region tract =>
    change s.Executed (s.tractReply region tract).state
    unfold State.tractReply
    split <;> exact .unchanged
  | getContext slot =>
    change s.Executed (s.contextReply slot).state
    unfold State.contextReply
    split <;> exact .unchanged
  | peekFault =>
    change s.Executed s.peekReply.state
    unfold State.peekReply
    split <;> exact .unchanged
  | getHold =>
    change s.Executed s.holdReply.state
    unfold State.holdReply
    split <;> exact .unchanged
  | forgetTract region tract =>
    change s.Executed (s.forgetReply region tract).state
    unfold State.forgetReply
    split
    · exact .unchanged
    next t ht =>
      split
      · exact .unchanged
      · exact .forgotten t (State.tracked_of_checkTract ht)
  | repairTract region tract =>
    change s.Executed (s.repairReply region tract).state
    unfold State.repairReply
    split
    · exact .unchanged
    next t ht =>
      split
      · exact .unchanged
      split
      · exact .unchanged
      split
      · exact .unchanged
      next hf hroom =>
        exact .repaired t (State.tracked_of_checkTract ht) (not_not.mp hf) fun hq => by
          by_contra hge
          exact hroom ⟨hq, not_lt.mp hge⟩
  | popFault =>
    change s.Executed s.popReply.state
    unfold State.popReply
    split
    · exact .unchanged
    next f rest hr => exact .popped f rest hr
  | releaseHold response =>
    change s.Executed (s.releaseReply response).state
    unfold State.releaseReply
    split
    · exact .unchanged
    next r _ =>
      split
      · exact .unchanged
      · exact .released r
  | clearAlert mask => exact .cleared mask
  | restart => exact .restarted
  | _ => exact .unchanged

/-! ## The effects of a command -/

/-- The state in which a forwarded write beat of a transaction is handed to the pool (R46). -/
def State.forwarded (s : State) (t : Transaction) (data : Lanes) (mask : BitVec 4) : State :=
  (s.setPassage (.carrying { t with forwarded := t.forwarded + 1 })).issue
    (.writeBeat (t.beatAddr t.forwarded) data mask)

/-- The state after memory's response to a transaction's next write beat was handed to the pool (R46, R76, R77). -/
def State.responded (s : State) (t : Transaction) (resp : Resp) : State :=
  s.placed (t.beatAddr t.arrived) fun s p => s.poolWriteResponse p resp

/-- The same in DRAINING, where only the responses to forwarded beats reach the pool (R58). -/
def State.drainResponded (s : State) (t : Transaction) (resp : Resp) : State :=
  if t.arrived < t.forwarded then s.responded t resp else s

/-- The oldest buffered response delivered (R47). -/
def State.deliver (s : State) (h : HostDelivery) : State :=
  { s with passage := { s.passage with buffer := s.passage.buffer.tail }, pins := { s.pins with hostLink := some h } }

/-- What the commands that settle first can make of a state in which nothing is owed: one constructor per happening, with what
the state offered for it. -/
inductive State.Effect (s : State) : State → Prop
  | nothing : s.Effect s
  | hrstFall : s.Effect { s with pins := { s.pins with hrst := false } }
  | hrstRise : s.Effect (State.cut { s with pins := { s.pins with hrst := true } }).conclude
  | request (addr : Word) (countLessOne : BitVec 4) (dir : Dir) (idle : s.passage.state = .idle) :
      s.Effect (s.setPassage (.claiming (Transaction.ofRequest addr countLessOne dir))).conclude
  | writeBeat (t : Transaction) (data : Lanes) (mask : BitVec 4) (carrying : s.passage.state = .carrying t)
      (dir : t.dir = .write) (next : t.forwarded < t.beats) :
      s.Effect ((s.forwarded t data mask).placed (t.beatAddr t.forwarded) fun s p => s.poolWrite p mask data).look.conclude
  | writeResponse (t : Transaction) (resp : Resp) (carrying : s.passage.state = .carrying t) (dir : t.dir = .write)
      (next : t.arrived < t.forwarded) :
      s.Effect (((((s.responded t resp).setPassage (.carrying { t with arrived := t.arrived + 1 })).pushBuffer
        ⟨some resp, none⟩).freeLinkWhen (t.arrived + 1 = t.beats)).look.conclude)
  | drainedResponse (t : Transaction) (resp : Resp) (draining : s.passage.state = .draining t) (dir : t.dir = .write)
      (next : t.arrived < t.forwarded + t.padded) (more : t.arrived + 1 ≠ t.beats) :
      s.Effect ((s.drainResponded t resp).setPassage (.draining { t with arrived := t.arrived + 1 })).look.conclude
  | lastDrainedResponse (t : Transaction) (resp : Resp) (draining : s.passage.state = .draining t) (dir : t.dir = .write)
      (next : t.arrived < t.forwarded + t.padded) (last : t.arrived + 1 = t.beats) :
      s.Effect ((s.drainResponded t resp).setPassage .idle).freeLink.look.conclude
  | padding (t : Transaction) (draining : s.passage.state = .draining t) (dir : t.dir = .write)
      (next : t.forwarded + t.padded < t.beats) :
      s.Effect ((s.setPassage (.draining { t with padded := t.padded + 1 })).issue
        (.writeBeat (t.beatAddr (t.forwarded + t.padded)) Lanes.zero 0))
  | readBeat (t : Transaction) (data : Lanes) (resp : Resp) (carrying : s.passage.state = .carrying t)
      (dir : t.dir = .read) (next : t.arrived < t.beats) :
      s.Effect ((((s.arriveRead (t.beatAddr t.arrived) data resp).setPassage
        (.carrying { t with arrived := t.arrived + 1 })).freeLinkWhen (t.arrived + 1 = t.beats)).look.conclude)
  | drainedRead (t : Transaction) (draining : s.passage.state = .draining t) (dir : t.dir = .read)
      (more : t.arrived + 1 < t.beats) : s.Effect (s.setPassage (.draining { t with arrived := t.arrived + 1 }))
  | lastDrainedRead (t : Transaction) (draining : s.passage.state = .draining t) (dir : t.dir = .read)
      (last : t.arrived + 1 = t.beats) : s.Effect (s.setPassage .idle).freeLink.conclude
  | delivery (t : Transaction) (h : HostDelivery) (carrying : s.passage.state = .carrying t) (offered : s.offered = some h)
      (more : ¬(t.arrived = t.beats ∧ s.passage.buffer.tail = [])) :
      s.Effect ((s.deliver h).setPassage (.carrying { t with delivered := t.delivered + 1 }))
  | lastDelivery (t : Transaction) (h : HostDelivery) (carrying : s.passage.state = .carrying t)
      (offered : s.offered = some h) (last : t.arrived = t.beats ∧ s.passage.buffer.tail = []) :
      s.Effect ((s.deliver h).setPassage .idle)
  | readerBeat (j : Job) (data : Lanes) (resp : Resp) (job : s.reader.job = some j) :
      s.Effect (s.setJob (j.takeBeat (s.region j.ref.region) s.reader.burstBeats data resp)).countBurstBeat
  | detachedBeat : s.Effect s.countBurstBeat
  | tick : s.Effect s.tick
  | preparationEnd (n : Fin 8) (enabling : s.port.longOp = .enabling n) : s.Effect (s.endPreparation n)
  | executed (u : State) (n : Nat) (st : Status) (results : List Byte) (executed : s.Executed u) :
      s.Effect (u.answer n st results)
  | badCrc (n : Nat) : s.Effect (s.frameError.conclude.answer n .badCrc [])
  | aborted (n : Nat) :
      s.Effect (State.frameError { s with port := { s.port with frame := .deselected, bitCount := n } }).conclude
  | frame (f : Frame) (n : Nat) : s.Effect { s with port := { s.port with frame := f, bitCount := n } }

theorem State.Effect.of_next {s u t : State} (he : s.Effect u)
    (h : (.next u : Host.Outcome State Fault Refusal) = .next t) : s.Effect t :=
  Host.Outcome.next.inj h ▸ he

/-- A management request has an effect on the state in which nothing is owed any more. -/
theorem State.request_effect (s : State) (n : Nat) (act : State → Reply) (h : ∀ u : State, u.Executed (act u).state) :
    s.settle.Effect (s.request n act) := by
  rw [s.request_eq]
  split
  · exact .executed _ _ _ _ (h _)
  · exact .nothing

theorem execHrst_effect (level : Bool) (s t : State) (h : execHrst level s = .next t) : s.settle.Effect t := by
  cases level with
  | true => exact State.Effect.of_next .hrstRise h
  | false => exact State.Effect.of_next .hrstFall h

theorem execHostRequest_effect (addr : Word) (n : BitVec 4) (dir : Dir) (s t : State)
    (h : execHostRequest addr n dir s = .next t) : s.settle.Effect t := by
  unfold execHostRequest at h
  dsimp only at h
  split at h
  next hi => exact State.Effect.of_next (.request addr n dir hi.1) h
  next => exact State.Effect.of_next .nothing h

theorem execWriteBeatForwarded_effect (data : Lanes) (mask : BitVec 4) (s t : State)
    (h : execWriteBeatForwarded data mask s = .next t) : s.settle.Effect t := by
  unfold execWriteBeatForwarded at h
  dsimp only at h
  split at h
  next x hc =>
    split at h
    next hw => exact State.Effect.of_next (.writeBeat x data mask hc hw.1 hw.2) h
    next => exact State.Effect.of_next .nothing h
  next => exact State.Effect.of_next .nothing h

theorem execWriteResponse_effect (resp : Resp) (s t : State) (h : execWriteResponse resp s = .next t) :
    s.settle.Effect t := by
  unfold execWriteResponse at h
  dsimp only at h
  split at h
  next x hc =>
    split at h
    next hw => exact State.Effect.of_next (.writeResponse x resp hc hw.1 hw.2) h
    next => exact State.Effect.of_next .nothing h
  next x hc =>
    split at h
    next hw =>
      split at h
      next hl => exact State.Effect.of_next (.lastDrainedResponse x resp hc hw.1 hw.2 hl) h
      next hl => exact State.Effect.of_next (.drainedResponse x resp hc hw.1 hw.2 hl) h
    next => exact State.Effect.of_next .nothing h
  next => exact State.Effect.of_next .nothing h

theorem execPaddingBeat_effect (s t : State) (h : execPaddingBeat s = .next t) : s.settle.Effect t := by
  unfold execPaddingBeat at h
  dsimp only at h
  split at h
  next x hc =>
    split at h
    next hw => exact State.Effect.of_next (.padding x hc hw.1 hw.2) h
    next => exact State.Effect.of_next .nothing h
  next => exact State.Effect.of_next .nothing h

theorem execReadBeatArrival_effect (data : Lanes) (resp : Resp) (s t : State)
    (h : execReadBeatArrival data resp s = .next t) : s.settle.Effect t := by
  unfold execReadBeatArrival at h
  dsimp only at h
  split at h
  next x hc =>
    split at h
    next hw => exact State.Effect.of_next (.readBeat x data resp hc hw.1 hw.2) h
    next => exact State.Effect.of_next .nothing h
  next x hc =>
    split at h
    next hw =>
      split at h
      next hl => exact State.Effect.of_next (.lastDrainedRead x hc hw.1 hl) h
      next hl => exact State.Effect.of_next (.drainedRead x hc hw.1 (by omega)) h
    next => exact State.Effect.of_next .nothing h
  next => exact State.Effect.of_next .nothing h

theorem execResponseDelivery_effect (s t : State) (h : execResponseDelivery s = .next t) : s.settle.Effect t := by
  unfold execResponseDelivery at h
  dsimp only at h
  split at h
  next x d hc ho =>
    split at h
    next hl => exact State.Effect.of_next (.lastDelivery x d hc ho hl) h
    next hl => exact State.Effect.of_next (.delivery x d hc ho hl) h
  next => exact State.Effect.of_next .nothing h

theorem execReaderBeat_effect (data : Lanes) (resp : Resp) (s t : State) (h : execReaderBeat data resp s = .next t) :
    s.settle.Effect t := by
  unfold execReaderBeat at h
  dsimp only at h
  split at h
  next =>
    split at h
    next =>
      split at h
      next j hj => exact State.Effect.of_next (.readerBeat j data resp hj) h
      next => exact State.Effect.of_next .detachedBeat h
    next => exact State.Effect.of_next .detachedBeat h
    next => exact State.Effect.of_next .nothing h
  next => exact State.Effect.of_next .nothing h

theorem execPreparationEnd_effect (s t : State) (h : execPreparationEnd s = .next t) : s.settle.Effect t := by
  unfold execPreparationEnd at h
  dsimp only at h
  split at h
  next n hn => exact State.Effect.of_next (.preparationEnd n hn) h
  next => exact State.Effect.of_next .nothing h

theorem execBadCrc_effect (code : Byte) (args : List Byte) (crc : Byte) (s t : State)
    (h : execBadCrc code args crc s = .next t) : s.settle.Effect t := by
  unfold execBadCrc at h
  split at h
  next =>
    obtain rfl := Host.Outcome.next.inj h
    rw [s.request_eq]
    split
    · exact .badCrc _
    · exact .nothing
  next => cases h

theorem execBadOp_effect (code : Byte) (s t : State) (h : execBadOp code s = .next t) : s.settle.Effect t := by
  unfold execBadOp at h
  split at h
  next =>
    obtain rfl := Host.Outcome.next.inj h
    exact s.request_effect 0 _ fun _ => .unchanged
  next => cases h

theorem execFrameAbort_effect (bytes : List Byte) (bits : BitVec 3) (s t : State)
    (h : execFrameAbort bytes bits s = .next t) : s.settle.Effect t := by
  unfold execFrameAbort at h
  dsimp only at h
  split at h
  next =>
    split at h
    next => exact State.Effect.of_next (.aborted _) h
    next => exact State.Effect.of_next .nothing h
  next => cases h

theorem execResponseCutShort_effect (s t : State) (h : execResponseCutShort s = .next t) : s.settle.Effect t := by
  unfold execResponseCutShort at h
  dsimp only at h
  split at h <;> obtain rfl := Host.Outcome.next.inj h
  · exact .frame _ _
  · exact .frame _ _
  · exact .nothing
  · exact .nothing

theorem execFallOfMcs_effect (s t : State) (h : execFallOfMcs s = .next t) : s.settle.Effect t := by
  unfold execFallOfMcs at h
  dsimp only at h
  split at h <;> obtain rfl := Host.Outcome.next.inj h
  · exact .frame _ _
  · exact .nothing

theorem execResponseSent_effect (s t : State) (h : execResponseSent s = .next t) : s.settle.Effect t := by
  unfold execResponseSent at h
  dsimp only at h
  split at h <;> obtain rfl := Host.Outcome.next.inj h
  · exact .frame _ _
  · exact .nothing

/-- The commands that do not settle first: the three that carry out one effect each, and POWER_ON. -/
def Apart (c : Instr) : Prop := c = .underflow ∨ c = .holdTimeout ∨ c = .readerBurstEnd ∨ ∃ m h, c = .powerOn m h

/-- Every other command carries out what is owed and then has one of the effects (log 3, log 4, log 5). -/
theorem exec_effect {c : Instr} {s t : State} (hc : ¬Apart c) (h : exec c s = .next t) : s.settle.Effect t := by
  cases hbody : requestBody c with
  | some b =>
    obtain ⟨code, args⟩ := b
    rw [exec_of_requestBody hbody] at h
    obtain rfl := Host.Outcome.next.inj h
    exact s.request_effect _ _ (replyTo_executed c)
  | none =>
    cases c with
    | underflow => exact absurd (.inl rfl) hc
    | holdTimeout => exact absurd (.inr (.inl rfl)) hc
    | readerBurstEnd => exact absurd (.inr (.inr (.inl rfl))) hc
    | powerOn m b => exact absurd (.inr (.inr (.inr ⟨m, b, rfl⟩))) hc
    | hrst level => exact execHrst_effect level s t h
    | hostRequest addr n dir => exact execHostRequest_effect addr n dir s t h
    | passageGrant => exact State.Effect.of_next .nothing ((execPassageGrant_eq s).symm.trans h)
    | readerGrant => exact State.Effect.of_next .nothing ((execReaderGrant_eq s).symm.trans h)
    | writeBeatForwarded data mask => exact execWriteBeatForwarded_effect data mask s t h
    | writeResponse resp => exact execWriteResponse_effect resp s t h
    | paddingBeat => exact execPaddingBeat_effect s t h
    | readBeatArrival data resp => exact execReadBeatArrival_effect data resp s t h
    | responseDelivery => exact execResponseDelivery_effect s t h
    | readerBeat data resp => exact execReaderBeat_effect data resp s t h
    | tick => exact State.Effect.of_next .tick h
    | preparationEnd => exact execPreparationEnd_effect s t h
    | badCrc code args crc => exact execBadCrc_effect code args crc s t h
    | badOp code => exact execBadOp_effect code s t h
    | frameAbort bytes bits => exact execFrameAbort_effect bytes bits s t h
    | responseCutShort => exact execResponseCutShort_effect s t h
    | fallOfMcs => exact execFallOfMcs_effect s t h
    | responseSent => exact execResponseSent_effect s t h
    | riseOfMcs => exact State.Effect.of_next (.frame _ _) h
    | _ => cases hbody

/-! ## Laws kept by commands and by steps -/

/-- A property that everything owed, every effect and a power-on keep. -/
structure KeptByCommands (P : State → Prop) : Prop where
  endBurst : ∀ s : State, s.burstEndOwed = true → P s → P s.endBurst
  underflow : ∀ s : State, P s → P s.underflow
  expireHold : ∀ s : State, P s → P s.expireHold
  grantPassage : ∀ (s : State) (t : Transaction), s.arbiter.granting = some .passage → s.passage.state = .claiming t → P s →
    P (s.grantPassage t)
  grantReader : ∀ (s : State) (j : Job), s.arbiter.granting = some .reader → s.reader.job = some j → j.phase = .claiming →
    P s → P (s.grantReader j)
  effect : ∀ s t : State, s.Effect t → P s → P t
  powerOn : ∀ (s : State) (mcsHigh hrstHigh : Bool), P s → P
    { State.reset with
      pending := s.pending
      pins := ⟨hrstHigh, none, none⟩
      port := { State.reset.port with frame := if mcsHigh then .deselected else .spent }
      freeCount := s.freeCount }

section Kept

variable {P : State → Prop} (hP : KeptByCommands P)
include hP

theorem KeptByCommands.settleBurst {s : State} (h : P s) : P s.settleBurst := by
  unfold State.settleBurst
  split
  next ho => exact hP.endBurst s ho h
  next => exact h

theorem KeptByCommands.settleUnderflow {s : State} (h : P s) : P s.settleUnderflow := by
  unfold State.settleUnderflow
  split
  next => exact hP.underflow s h
  next => exact h

theorem KeptByCommands.settleTimeout {s : State} (h : P s) : P s.settleTimeout := by
  unfold State.settleTimeout
  split
  next => exact hP.expireHold s h
  next => exact h

theorem KeptByCommands.settleEffects {s : State} (h : P s) : P s.settleEffects :=
  hP.settleTimeout (hP.settleUnderflow (hP.settleBurst h))

theorem KeptByCommands.settle {s : State} (h : P s) : P s.settle := by
  have he := hP.settleEffects h
  obtain ⟨-, e⟩ | ⟨t, hg, hc, e⟩ | ⟨j, hg, hj, hc, e⟩ := s.settleEffects.settleGrant_cases
  · rw [State.settle, e]
    exact he
  · rw [State.settle, e]
    exact hP.grantPassage _ t hg hc he
  · rw [State.settle, e]
    exact hP.grantReader _ j hg hj hc he

/-- Every command keeps such a property. -/
theorem KeptByCommands.exec {c : Instr} {s t : State} (h : P s) (he : exec c s = .next t) : P t := by
  by_cases hc : Apart c
  · obtain rfl | rfl | rfl | ⟨m, b, rfl⟩ := hc <;> obtain rfl := Host.Outcome.next.inj he
    · exact hP.settleUnderflow h
    · exact hP.settleTimeout h
    · exact hP.settleBurst h
    · exact hP.powerOn s m b h
  · exact hP.effect _ _ (exec_effect hc he) (hP.settle h)

/-- A REFCLK period with no command waiting keeps such a property, if the count of periods does not touch it. -/
theorem KeptByCommands.refclkPeriod (hcount : ∀ (s : State) (n : Nat), P s →
    P { s with timebase := { s.timebase with refclkCount := n } }) {s : State} (h : P s) : P s.refclkPeriod := by
  unfold State.refclkPeriod
  dsimp only
  split
  · exact hcount _ _ (hP.settle h)
  · exact hP.settle (hP.effect _ _ .tick (hP.settle h))

/-- Every step keeps such a property, if the queue of commands, the count of periods and the free values do not touch it. -/
theorem KeptByCommands.step (hqueue : ∀ (s : State) (rest : List Instr), P s → P { s with pending := rest })
    (hcount : ∀ (s : State) (n : Nat), P s → P { s with timebase := { s.timebase with refclkCount := n } })
    (hfree : ∀ (s : State) (n : Nat), P s → P { s with freeCount := n })
    {s t : State} (h : P s) (he : step s = .next t) : P t := by
  unfold Machine.step at he
  split at he
  next =>
    obtain rfl := Host.Outcome.next.inj he
    have hr := hP.refclkPeriod hcount h
    obtain ⟨bytes, sent, -, e⟩ | ⟨-, e⟩ := s.refclkPeriod.mckEdges_spec
    · rw [e]
      exact hfree _ (s.refclkPeriod.freeCount + 1) (hP.effect _ _ (.frame
        (Frame.mckFalls (.response bytes sent) (Config.mckFalls s.refclkPeriod.freeCount)) s.refclkPeriod.port.bitCount) hr)
    · rw [e]
      exact hr
  next c rest _ => exact hP.exec (hqueue s rest h) he

end Kept

end Sys2Proof.Machine
end

