-- ==== Sys2Proof/Proofs/Coherence.lean ====
section
/-! PROOFS. Every step keeps the laws of the regions, the check store, the queue, the pool, the reader and the cursor (R21, R29, R31,
R64 to R66, R109, R115, R125, R143). The laws of tracts, pool and queue are those of `State.TractsSound`; here the laws of the region
table, the job and the cursor join them. -/

namespace Sys2Proof.Machine

/-! ## The laws, part by part -/

/-- The long-operation state says which region is PREPARING and which is RETIRING (R29). -/
def State.longOpSound (s : State) : Prop :=
  ∀ n : Fin 8, ((s.region n).state = .preparing ↔ s.port.longOp = .enabling n) ∧
    ((s.region n).state = .retiring ↔ s.port.longOp = .disabling n)

/-- A job that the region table allows: abandoned with its region retiring, or on a tract of an ENABLED region (R115, R125). -/
def State.jobFits (s : State) (j : Job) : Prop :=
  (j.abandoned = true → s.port.longOp = .disabling j.ref.region) ∧ (j.abandoned = true ∨ s.tracked j.ref) ∧
    j.startState ≠ .opened ∧ j.startState ≠ .faulted

/-- The laws of the part, as the proofs use them. -/
structure State.PartSound (s : State) : Prop where
  tracts : s.TractsSound
  longOp : s.longOpSound
  descriptors : s.descriptorsSound
  job : ∀ j, s.reader.job = some j → s.jobFits j
  cursor : s.cursorSound

theorem State.coherent_iff_partSound (s : State) : s.coherent ↔ s.PartSound := by
  constructor
  · intro h
    have htracts := h.tractsSound
    obtain ⟨-, -, -, ⟨hlong, habandoned⟩, hdesc, -, -, hjob, hcursor⟩ := h
    exact ⟨htracts, hlong, hdesc, fun j hj => ⟨habandoned j hj, hjob j hj⟩, hcursor⟩
  · rintro ⟨⟨hdisjoint, hstore, hpool, hqueue, hrefs, hdistinct, hopened⟩, hlong, hdesc, hjob, hcursor⟩
    exact ⟨hstore, hpool, hdisjoint, ⟨hlong, fun j hj => (hjob j hj).1⟩, hdesc, hqueue, ⟨hrefs, hdistinct, hopened⟩,
      fun j hj => (hjob j hj).2, hcursor⟩

/-- The laws in a state with the region table and the long operation of a state in which they hold. -/
theorem State.PartSound.of_tracts {s t : State} (h : s.PartSound) (htracts : t.TractsSound) (hregions : t.regions = s.regions)
    (hlong : t.port.longOp = s.port.longOp) (hjob : ∀ j, t.reader.job = some j → s.jobFits j)
    (hcursor : ∀ u, t.scrubber.cursor = some u → s.tracked u) : t.PartSound := by
  have hregion : t.region = s.region := by funext n; simp only [State.region, hregions]
  have htr : t.tracked = s.tracked := by funext u; simp only [State.tracked, hregion]
  have hfits : t.jobFits = s.jobFits := by funext j; simp only [State.jobFits, htr, hlong]
  refine ⟨htracts, ?_, ?_, hfits ▸ hjob, ?_⟩
  · simpa only [State.longOpSound, hregion, hlong] using h.longOp
  · simpa only [State.descriptorsSound, hregion] using h.descriptors
  · simpa only [State.cursorSound, htr] using hcursor

/-- The laws read seven parts of the state only. -/
theorem State.PartSound.congr {s t : State} (h : s.PartSound) (hregions : t.regions = s.regions) (hstore : t.store = s.store)
    (hpool : t.pool = s.pool) (hqueue : t.queue = s.queue) (hlong : t.port.longOp = s.port.longOp)
    (hjob : t.reader.job = s.reader.job) (hcursor : t.scrubber.cursor = s.scrubber.cursor) : t.PartSound :=
  h.of_tracts (h.tracts.congr hregions hstore hpool hqueue) hregions hlong (hjob ▸ h.job) (hcursor ▸ h.cursor)

/-- Whatever the pool does with a beat keeps the laws if it keeps those of tracts, pool and queue. -/
theorem State.PartSound.of_readFrame {s v : State} (h : s.PartSound) (hv : s.readFrame v) (htracts : v.TractsSound) :
    v.PartSound := by
  obtain ⟨p, q, st, l, a, rfl⟩ := hv.eq
  exact h.of_tracts htracts rfl rfl h.job h.cursor

/-! ## The region table -/

/-- An ENABLED region has a first tract (R21, R30). -/
theorem State.PartSound.tracked_zero {s : State} (h : s.PartSound) {n : Fin 8} (he : (s.region n).state = .enabled) :
    s.tracked ⟨n, 0⟩ := by
  refine ⟨he, ?_⟩
  obtain hacc | hreset := h.descriptors n
  · exact hacc.2.2.1
  · simp [hreset, Region.reset] at he

theorem State.enabled_of_enabledAbove {s : State} {n m : Fin 8} (h : s.enabledAbove n = some m) :
    (s.region m).state = .enabled := by
  have := List.find?_some h
  simp only [Bool.and_eq_true, State.enabled, decide_eq_true_eq] at this
  exact this.2

theorem State.enabled_of_lowestEnabled {s : State} {m : Fin 8} (h : s.lowestEnabled = some m) :
    (s.region m).state = .enabled := by
  have := List.find?_some h
  simpa only [State.enabled, decide_eq_true_eq] using this

/-! ## The reader's search -/

section Search

variable {s : State} (h : s.PartSound)
include h

/-- The cursor's advance leaves it parked or on a tract of an ENABLED region (R143, R144). -/
theorem State.PartSound.advanceCursor {t : TractRef} (ht : s.tracked t) : (s.advanceCursor t).PartSound := by
  unfold State.advanceCursor
  split
  next hlt =>
    refine h.of_tracts (h.tracts.congr rfl rfl rfl rfl) rfl rfl h.job fun u hu => ?_
    obtain rfl := Option.some.inj hu
    exact ⟨ht.1, hlt⟩
  next =>
    split
    next m hm =>
      refine h.of_tracts (h.tracts.congr rfl rfl rfl rfl) rfl rfl h.job fun u hu => ?_
      obtain rfl := Option.some.inj hu
      exact h.tracked_zero (State.enabled_of_enabledAbove hm)
    next =>
      refine h.of_tracts (h.tracts.congr rfl rfl rfl rfl) rfl rfl h.job fun u hu => ?_
      obtain ⟨m, hm, rfl⟩ := Option.map_eq_some_iff.mp hu
      exact h.tracked_zero (State.enabled_of_lowestEnabled hm)

/-- A job started on a tract of an ENABLED region that is neither OPEN nor FAULTED (R119). -/
theorem State.PartSound.startJob {t : TractRef} (ht : s.tracked t) (k : JobKind) {st : TractState} (ho : st ≠ .opened)
    (hf : st ≠ .faulted) : (s.startJob k t st).PartSound := by
  refine h.of_tracts (h.tracts.congr rfl rfl rfl rfl) rfl rfl (fun j hj => ?_) h.cursor
  obtain rfl := Option.some.inj hj
  exact ⟨nofun, .inr ht, ho, hf⟩

/-- A take from the queue keeps the laws (R111, R117). -/
theorem State.PartSound.takeFromQueue : s.takeFromQueue.PartSound := by
  unfold State.takeFromQueue
  split
  next => exact h
  next t rest hq =>
    obtain ⟨hlen, hnodup, htracked, -⟩ := h.tracts.queue
    rw [hq] at hlen hnodup
    obtain ⟨hnot, hrest⟩ := List.nodup_cons.mp hnodup
    have ht : s.tracked t := htracked t (by simp [hq])
    have hset : (State.setQueued { s with queue := rest } t false).TractsSound := by
      refine h.tracts.setQueue ht (by simp at hlen; omega) hrest fun u => ?_
      by_cases hut : u = t
      · simp [hut, hnot]
      · simp [hut, hq]
    have htaken : ((State.setQueued { s with queue := rest } t false).setLastSource .queue).PartSound :=
      h.of_tracts (hset.congr rfl rfl rfl rfl) rfl rfl h.job h.cursor
    dsimp only
    split
    · exact htaken.startJob ht _ (by decide) (by decide)
    · exact htaken

/-- A take of the scrub step keeps the laws (R118). -/
theorem State.PartSound.takeScrubStep : s.takeScrubStep.PartSound := by
  have htaken : s.stepTaken.PartSound := h.of_tracts (h.tracts.congr rfl rfl rfl rfl) rfl rfl h.job h.cursor
  cases hc : s.scrubber.cursor with
  | none =>
    rw [s.takeScrubStep_of_parked hc]
    exact htaken
  | some t =>
    have ht : s.tracked t := h.cursor t hc
    have hadvanced : (s.stepTaken.advanceCursor t).PartSound := htaken.advanceCursor ht
    have ht' : (s.stepTaken.advanceCursor t).tracked t := by
      obtain ⟨sc, a, e⟩ := s.stepTaken.advanceCursor_frame t
      rw [e]
      exact ht
    cases hk : (s.record t).scrubJob with
    | none =>
      rw [s.takeScrubStep_of_spent t hc hk]
      exact hadvanced
    | some k =>
      rw [s.takeScrubStep_of_job t hc k hk]
      refine hadvanced.startJob ht' k (fun ho => ?_) fun hf => ?_
      · simp [TractRecord.scrubJob, ho] at hk
      · simp [TractRecord.scrubJob, hf] at hk

theorem State.PartSound.take (src : Source) : (s.take src).PartSound := by
  cases src with
  | queue => exact h.takeFromQueue
  | scrub => exact h.takeScrubStep

end Search

theorem State.PartSound.lookFor (k : Nat) {s : State} (h : s.PartSound) : (State.lookFor k s).PartSound := by
  induction k generalizing s with
  | zero => exact h
  | succ k ih =>
    unfold State.lookFor
    split
    · exact h
    · split
      · exact h
      · exact ih (h.take _)

/-- The reader's search keeps the laws (R116). -/
theorem State.PartSound.look {s : State} (h : s.PartSound) : s.look.PartSound := h.lookFor _

theorem State.PartSound.conclude {s : State} (h : s.PartSound) : s.conclude.PartSound := h.congr rfl rfl rfl rfl rfl rfl rfl

theorem State.PartSound.offerFault {s : State} (h : s.PartSound) (f : Finding) : (s.offerFault f).PartSound := by
  obtain ⟨l, a, e⟩ := s.offerFault_frame f
  rw [e]
  exact h.congr rfl rfl rfl rfl rfl rfl rfl

theorem State.PartSound.endJob {s : State} (h : s.PartSound) : s.endJob.PartSound :=
  h.of_tracts (h.tracts.congr rfl rfl rfl rfl) rfl rfl nofun h.cursor

theorem State.PartSound.setJob {s : State} (h : s.PartSound) {j : Job} (hj : s.jobFits j) : (s.setJob j).PartSound :=
  h.of_tracts (h.tracts.congr rfl rfl rfl rfl) rfl rfl (fun _ hk => Option.some.inj hk ▸ hj) h.cursor

/-! ## Changes of the region table -/

theorem State.region_setRegion (s : State) (n m : Fin 8) (r : Region) :
    (s.setRegion n r).region m = if m = n then r else s.region m := by
  unfold State.region State.setRegion
  by_cases h : m = n
  · subst h
    simp
  · have hv : n.val ≠ m.val := fun e => h (Fin.ext e.symm)
    simp [h, hv]

/-- A region's state changed: descriptors, and with them overlaps and record numbers, stay. -/
theorem State.region_setRegionState (s : State) (n m : Fin 8) (st : RegionState) :
    (s.setRegionState n st).region m = { s.region m with state := if m = n then st else (s.region m).state } := by
  rw [State.setRegionState, State.region_setRegion]
  by_cases h : m = n <;> simp [h]

theorem State.record_setRegionState (s : State) (n : Fin 8) (st : RegionState) (u : TractRef) :
    (s.setRegionState n st).record u = s.record u := by
  simp only [State.record, s.region_setRegionState]
  rfl

/-- A region that is not DISABLED has a descriptor that SET-REGION accepted. -/
theorem State.descriptorsSound.accepted {s : State} (h : s.descriptorsSound) {n : Fin 8}
    (hn : (s.region n).state ≠ .disabled) : (s.region n).accepted :=
  (h n).resolve_right fun hreset => hn (by rw [hreset]; rfl)

theorem State.descriptorsSound.setRegion {s : State} (h : s.descriptorsSound) {n : Fin 8} {r : Region}
    (hr : r.accepted ∨ r = Region.reset) : (s.setRegion n r).descriptorsSound := by
  intro m
  rw [State.region_setRegion]
  split
  · exact hr
  · exact h m

/-- A region state changed to another than DISABLED asks for an accepted descriptor; one changed to DISABLED does not. -/
theorem State.descriptorsSound.setRegionState {s : State} (h : s.descriptorsSound) {n : Fin 8} {st : RegionState}
    (hn : (s.region n).accepted ∨ st = .disabled) : (s.setRegionState n st).descriptorsSound := by
  refine h.setRegion ?_
  obtain hacc | rfl := hn
  · exact .inl hacc
  · obtain hacc | hreset := h n
    · exact .inl hacc
    · exact .inr (by rw [hreset]; rfl)

/-- A region's state changed without its leaving DISABLED: no new overlap. -/
theorem State.regionsDisjoint.setRegionState {s : State} (h : s.regionsDisjoint) {n : Fin 8} {st : RegionState}
    (hn : (s.region n).state ≠ .disabled ∨ st = .disabled) : (s.setRegionState n st).regionsDisjoint := by
  have hkept (m : Fin 8) (hm : ((s.setRegionState n st).region m).state ≠ .disabled) : (s.region m).state ≠ .disabled := by
    rw [State.region_setRegionState] at hm
    by_cases hmn : m = n
    · subst hmn
      simp only [if_true] at hm
      exact hn.resolve_right hm
    · simpa [hmn] using hm
  intro m k hmk hm hk
  have hover := h m k hmk (hkept m hm) (hkept k hk)
  rwa [State.region_setRegionState, State.region_setRegionState]

/-- A DISABLED region replaced by a DISABLED one: no new overlap. -/
theorem State.regionsDisjoint.setRegion_disabled {s : State} (h : s.regionsDisjoint) {n : Fin 8} {r : Region}
    (hr : r.state = .disabled) : (s.setRegion n r).regionsDisjoint := by
  intro m k hmk hm hk
  rw [State.region_setRegion] at hm hk ⊢
  rw [State.region_setRegion]
  split at hm
  next => exact absurd hr hm
  next hmn =>
    split at hk
    next => exact absurd hr hk
    next hkn =>
      rw [if_neg hmn, if_neg hkn]
      exact h m k hmk hm hk

/-- The long operation and the state of its one region change together (R29). -/
theorem State.longOpSound.update {s t : State} (h : s.longOpSound) (n : Fin 8) (r : Region)
    (hs : s.port.longOp = .idle ∨ s.port.longOp = .enabling n ∨ s.port.longOp = .disabling n)
    (hregions : t.regions = (s.setRegion n r).regions) (hpreparing : r.state = .preparing ↔ t.port.longOp = .enabling n)
    (hretiring : r.state = .retiring ↔ t.port.longOp = .disabling n)
    (hother : ∀ m, m ≠ n → t.port.longOp ≠ .enabling m ∧ t.port.longOp ≠ .disabling m) : t.longOpSound := by
  intro m
  have hm : t.region m = if m = n then r else s.region m := by
    rw [← State.region_setRegion]
    simp only [State.region, hregions]
  rw [hm]
  by_cases hmn : m = n
  · subst hmn
    simp only [if_true]
    exact ⟨hpreparing, hretiring⟩
  · obtain ⟨hp, hr⟩ := h m
    obtain ⟨he, hd⟩ := hother m hmn
    rw [if_neg hmn, hp, hr]
    obtain hs | hs | hs := hs <;> simp [hs, he, hd, Ne.symm hmn]

section SameTracts

variable {s t : State} (h : s.PartSound) {n : Fin 8} {r : Region} (hregions : t.regions = (s.setRegion n r).regions)
include hregions

theorem State.region_of_setRegion (m : Fin 8) : t.region m = if m = n then r else s.region m := by
  rw [← State.region_setRegion]
  simp only [State.region, hregions]

variable (hn : (s.region n).state ≠ .enabled) (hr : r.state ≠ .enabled)
include hn hr

theorem State.tracked_of_setRegion (u : TractRef) : t.tracked u ↔ s.tracked u := by
  unfold State.tracked
  rw [State.region_of_setRegion hregions]
  by_cases hu : u.region = n
  · rw [if_pos hu, hu]
    simp [hn, hr]
  · rw [if_neg hu]

include h

/-- A region that is not ENABLED changed to one that is not: the tracts are those of before. -/
theorem State.PartSound.of_setRegion (hdisjoint : t.regionsDisjoint) (hlongOp : t.longOpSound)
    (hdesc : t.descriptorsSound) (hstore : t.store = s.store) (hpool : t.pool = s.pool) (hqueue : t.queue = s.queue)
    (hjob : ∀ j, t.reader.job = some j → t.jobFits j) (hcursor : t.scrubber.cursor = s.scrubber.cursor) : t.PartSound := by
  have htr : t.tracked = s.tracked := by
    funext u
    exact propext (State.tracked_of_setRegion hregions hn hr u)
  have hrec (u : TractRef) (hu : s.tracked u) : t.record u = s.record u := by
    have hun : u.region ≠ n := fun e => hn (e ▸ hu.1)
    rw [State.record, State.record, hstore, State.region_of_setRegion hregions, if_neg hun]
  obtain ⟨⟨-, hcanonical, hp, ⟨hlen, hnodup, htracked, hflag⟩, hrefs, hdistinct, hopened⟩, -, -, -, hcur⟩ := h
  refine ⟨⟨hdisjoint, ?_, hpool ▸ hp, ⟨hqueue ▸ hlen, hqueue ▸ hnodup, ?_, fun u hu => ?_⟩, ?_, hpool ▸ hdistinct,
    fun u hu => ?_⟩, hlongOp, hdesc, hjob, ?_⟩
  · simpa only [State.storeCanonical, hstore] using hcanonical
  · simpa only [hqueue, htr] using htracked
  · rw [htr] at hu
    rw [hqueue, hrec u hu]
    exact hflag u hu
  · simpa only [hpool, htr] using hrefs
  · rw [htr] at hu
    rw [hpool, hrec u hu]
    exact hopened u hu
  · simpa only [State.cursorSound, hcursor, htr] using hcur

end SameTracts

/-! ## What a happening owes -/

section Owed

variable {s : State} (h : s.PartSound)
include h

/-- The completion of a job that is not abandoned keeps the laws (R127, R128). -/
theorem State.PartSound.completeJob {j : Job} (hj : s.jobFits j) (ha : j.abandoned = false) : (s.completeJob j).PartSound := by
  obtain ⟨-, htracked, hopened, -⟩ := hj
  have ht : s.tracked j.ref := htracked.resolve_left (by simp [ha])
  by_cases hk : j.kind = .verify
  · rw [s.completeJob_of_verify j hk]
    split
    next => exact h
    next hnot =>
      have hcur : (s.record j.ref).state = .current := by
        by_contra hne
        exact hnot (.inr (.inl hne))
      have hset := h.tracts.setTractState (st := .faulted) ht (by decide) (by simp [hcur])
      exact (h.of_tracts hset rfl rfl h.job h.cursor).offerFault _
  · rw [s.completeJob_of_not_verify j hk]
    split
    next => exact h
    next hnot =>
      have hstart : (s.record j.ref).state = j.startState := by
        by_contra hne
        exact hnot (.inr hne)
      exact h.of_tracts (h.tracts.learn ht (hstart ▸ hopened)) rfl rfl h.job h.cursor

/-- The end of an abandoned job's burst keeps the laws: its region is the one being retired (R39, R125). -/
theorem State.PartSound.endRetiring {j : Job} (hj : s.jobFits j) (ha : j.abandoned = true) : (s.endRetiring j).PartSound := by
  have hlong : s.port.longOp = .disabling j.ref.region := hj.1 ha
  have hretiring : (s.region j.ref.region).state = .retiring := (h.longOp j.ref.region).2.mpr hlong
  refine State.PartSound.look ?_
  refine h.of_setRegion (n := j.ref.region) (r := { s.region j.ref.region with state := .disabled })
    rfl (by simp [hretiring]) (by simp) (h.tracts.disjoint.setRegionState (.inr rfl))
    (h.longOp.update j.ref.region _ (.inr (.inr hlong)) rfl ?_ ?_ ?_) (h.descriptors.setRegionState (.inr rfl)) rfl rfl rfl
    nofun rfl
  · simp [State.endLongOp]
  · simp [State.endLongOp]
  · simp [State.endLongOp]

/-- The end of a burst of a job that is not abandoned keeps the laws (R122, R123). -/
theorem State.PartSound.endJobBurst {j : Job} (hj : s.jobFits j) (ha : j.abandoned = false) : (s.endJobBurst j).PartSound := by
  unfold State.endJobBurst
  split
  · exact (h.offerFault _).endJob.look
  · split
    · exact h.setJob hj
    · exact (h.completeJob hj ha).endJob.look

theorem State.PartSound.endBurst : s.endBurst.PartSound := by
  have hf : s.releaseReaderLink.PartSound := h.congr rfl rfl rfl rfl rfl rfl rfl
  unfold State.endBurst
  dsimp only
  split
  · exact hf.conclude
  · split
    · exact hf.conclude
    next j hj =>
      split
      next ha => exact (hf.endRetiring (hf.job j hj) ha).conclude
      next ha => exact (hf.endJobBurst (hf.job j hj) (by simpa using ha)).conclude

theorem State.PartSound.underflow : s.underflow.PartSound := by
  have hreload : s.reloadPacing.PartSound := h.congr rfl rfl rfl rfl rfl rfl rfl
  have hpost : s.reloadPacing.postStep.PartSound := by
    unfold State.postStep
    split <;> exact hreload.congr rfl rfl rfl rfl rfl rfl rfl
  unfold State.underflow
  split
  · exact hreload
  · exact hpost.look.conclude

theorem State.PartSound.expireHold : s.expireHold.PartSound := by
  unfold State.expireHold
  split
  · exact h
  · have hrelease : (s.releaseHeld .error).PartSound := h.congr rfl rfl rfl rfl rfl rfl rfl
    exact (hrelease.offerFault _).conclude

theorem State.PartSound.grantPassage (t : Transaction) : (s.grantPassage t).PartSound := by
  obtain ⟨job, e, hjob⟩ := s.grantPassage_frame t
  rw [e]
  refine State.PartSound.conclude ?_
  refine h.of_tracts (h.tracts.congr rfl rfl rfl rfl) rfl rfl (fun j hj => ?_) h.cursor
  obtain rfl | ⟨k, hk, rfl⟩ := hjob
  · exact h.job j hj
  · obtain rfl := Option.some.inj hj
    exact h.job k hk

theorem State.PartSound.grantReader {j : Job} (hj : s.reader.job = some j) : (s.grantReader j).PartSound := by
  rw [State.grantReader_eq]
  refine State.PartSound.conclude ?_
  refine h.of_tracts (h.tracts.congr rfl rfl rfl rfl) rfl rfl (fun k hk => ?_) h.cursor
  obtain rfl := Option.some.inj hk
  exact h.job j hj

end Owed

/-! ## Regions that enter and leave tracking -/

/-- Region n in state st and out of tracking (R37, R112, R147), with the contexts that are left: `State.withdrawn` with its pool
taken out, so that no proof computes the freeing slot by slot. -/
def State.outOfTracking (s : State) (n : Fin 8) (st : RegionState) (p : Pool) : State :=
  { s with
    regions := s.regions.set n.val { s.region n with state := st } n.isLt
    pool := p
    queue := s.queue.filter fun t => decide (t.region ≠ n)
    scrubber := { s.scrubber with cursor := (s.setRegionState n .disabled).cursorOff n } }

theorem State.withdrawn_eq_outOfTracking (s : State) (n : Fin 8) :
    ∃ p, s.pool.FreedOn p (fun t => decide (t.region = n)) ∧ ∀ st, s.withdrawn n st = s.outOfTracking n st p :=
  ⟨_, s.pool.freeWhere_freedOn _, fun _ => rfl⟩

/-- A region out of tracking takes its tracts, and no others, with it. -/
theorem State.tracked_outOfTracking (s : State) (n : Fin 8) (p : Pool) {st : RegionState} (hst : st ≠ .enabled)
    (u : TractRef) : (s.outOfTracking n st p).tracked u ↔ s.tracked u ∧ u.region ≠ n := by
  change (s.setRegionState n st).tracked u ↔ _
  unfold State.tracked
  rw [State.region_setRegionState]
  by_cases hu : u.region = n
  · simp [hu, hst]
  · simp [hu]

/-- The state at a preparation's end (R9, R32, R33, R146), before the end of the happening. -/
def State.prepared (s : State) (n : Fin 8) : State :=
  { s with
    store := CheckStore.initialise s.store fun k => (s.region n).inEntryRange k
    regions := s.regions.set n.val { s.region n with state := .enabled } n.isLt
    port := { s.port with longOp := .idle }
    alert := { s.alert with causes := s.alert.causes ||| Cause.ready.mask }
    scrubber := { s.scrubber with cursor := if s.scrubber.cursor = none then some ⟨n, 0⟩ else s.scrubber.cursor } }

theorem State.endPreparation_eq (s : State) (n : Fin 8) : s.endPreparation n = (s.prepared n).conclude := by
  obtain ⟨_, _, _, _, _, _, _, _, _, _, ⟨_, _, _, cursor, _, _⟩, _, _, _, _, _⟩ := s
  cases cursor <;> rfl

theorem State.tracked_prepared (s : State) {n : Fin 8} (hn : (s.region n).state ≠ .enabled) (u : TractRef) :
    (s.prepared n).tracked u ↔ s.tracked u ∨ (u.region = n ∧ u.tract < (s.region n).count.toNat) := by
  change (s.setRegionState n .enabled).tracked u ↔ _
  unfold State.tracked
  rw [State.region_setRegionState]
  by_cases hu : u.region = n
  · simp [hu, hn]
  · simp [hu]

theorem State.record_prepared (s : State) (n : Fin 8) (u : TractRef) :
    (s.prepared n).record u = if (s.region n).inEntryRange ((s.region u.region).recordNumber u.tract)
      then .initial else s.record u := by
  have hregion : (s.prepared n).region u.region = (s.setRegionState n .enabled).region u.region := rfl
  rw [State.record, hregion, State.region_setRegionState]
  exact CheckStore.read_initialise _ _ _

/-- The check store and the free values are all that a cut preparation can touch (R9, R35). -/
theorem State.cutPreparation_eq (s : State) :
    s.cutPreparation = { s with store := s.cutPreparation.store, freeCount := s.cutPreparation.freeCount } := by
  unfold State.cutPreparation
  split <;> rfl

theorem State.cutPreparation_wf (s : State) (h : CheckStore.wf s.store = true) :
    CheckStore.wf s.cutPreparation.store = true := by
  unfold State.cutPreparation
  split
  · dsimp only
    exact CheckStore.wf_initialise _ _ h
  · exact h

theorem State.restartPassage_eq (s : State) : s.restartPassage = { s with passage := s.restartPassage.passage } := by
  unfold State.restartPassage
  split <;> rfl

/-- RESTART block by block (R189), as one update. -/
theorem State.restart_eq (s : State) :
    s.restart = State.conclude
      { s with
        regions := s.regions.map fun r => { r with state := .disabled }
        store := s.cutPreparation.store
        passage := s.restartPassage.passage
        arbiter := { s.arbiter with link := s.arbiter.link.detach, passedOver := 0 }
        pool := Pool.empty
        queue := []
        reader := { s.reader with job := none, lastSource := .scrub }
        timebase := ⟨0, s.params.divider, 0⟩
        scrubber := ⟨0, false, false, none, 0, 0⟩
        log := ⟨[], 0, 0⟩
        alert := { s.alert with causes := Cause.ready.mask }
        port := { s.port with longOp := .idle, frameErrors := 0 }
        freeCount := s.cutPreparation.freeCount } := by
  have hpassage (u : State) (h : u.passage = s.passage) : u.restartPassage.passage = s.restartPassage.passage := by
    simp only [State.restartPassage, h]
    split
    · simp [State.releaseHeld, h]
    · exact h
  unfold State.restart
  rw [State.restartPassage_eq, hpassage _ (by rw [s.cutPreparation_eq]; rfl), s.cutPreparation_eq]
  rfl

section Regions

variable {s : State} (h : s.PartSound)
include h

/-- With no long operation in flight no job is abandoned. -/
theorem State.PartSound.job_tracked (hi : s.port.longOp = .idle) {j : Job} (hj : s.reader.job = some j) :
    j.abandoned = false ∧ s.tracked j.ref := by
  obtain ⟨hlong, htracked, -⟩ := h.job j hj
  have ha : j.abandoned = false := by
    by_contra hne
    simp [hi] at hlong
    simp [hlong] at hne
  exact ⟨ha, htracked.resolve_left (by simp [ha])⟩

/-- SET-REGION keeps the laws: the descriptor it accepts is an accepted one (R24 to R26). -/
theorem State.PartSound.descriptor {n : Fin 8} {r : Region} (hi : s.port.longOp = .idle)
    (hd : (s.region n).state = .disabled) (hr : r.state = .disabled) (hacc : r.accepted) : (s.setRegion n r).PartSound := by
  refine h.of_setRegion (t := s.setRegion n r) rfl (by simp [hd]) (by simp [hr]) (h.tracts.disjoint.setRegion_disabled hr)
    (h.longOp.update n r (.inl hi) rfl (by simp [hr, hi]) (by simp [hr, hi]) (by simp [hi]))
    (h.descriptors.setRegion (.inl hacc)) rfl rfl rfl (fun j hj => ?_) rfl
  obtain ⟨ha, ht⟩ := h.job_tracked hi hj
  obtain ⟨-, -, hstart⟩ := h.job j hj
  refine ⟨by simp [ha], .inr ?_, hstart⟩
  exact (State.tracked_of_setRegion (t := s.setRegion n r) rfl (by simp [hd]) (by simp [hr]) _).mpr ht

/-- ENABLE-REGION keeps the laws: its check found no overlap (R31). -/
theorem State.PartSound.preparation {n : Fin 8} (hi : s.port.longOp = .idle) (hd : (s.region n).state = .disabled)
    (hc : (s.region n).count ≠ 0) (ho : s.overlapsOther n = false) :
    ((s.setRegionState n .preparing).setLongOp (.enabling n)).PartSound := by
  have hacc : (s.region n).accepted := (h.descriptors n).resolve_right fun e => hc (by rw [e]; rfl)
  have hover (m : Fin 8) (hmn : m ≠ n) (hm : (s.region m).state ≠ .disabled) :
      (s.region n).overlaps (s.region m) = false := by
    have := List.any_eq_false.mp ho m (mem_regionNumbers m)
    simpa [hmn, hm] using this
  have hdisjoint : (s.setRegionState n .preparing).regionsDisjoint := by
    intro m k hmk hm hk
    rw [State.region_setRegionState] at hm hk ⊢
    rw [State.region_setRegionState]
    change (s.region m).overlaps (s.region k) = false
    by_cases hmn : m = n
    · subst hmn
      exact hover k hmk.symm (by simpa [hmk.symm] using hk)
    · have hm' : (s.region m).state ≠ .disabled := by simpa [hmn] using hm
      by_cases hkn : k = n
      · subst hkn
        rw [Region.overlaps_comm]
        exact hover m hmn hm'
      · exact h.tracts.disjoint m k hmk hm' (by simpa [hkn] using hk)
  refine h.of_setRegion (n := n) (r := { s.region n with state := .preparing }) rfl (by simp [hd]) (by simp) hdisjoint
    (h.longOp.update n _ (.inl hi) rfl (by simp) (by simp) fun m hm => by simp [Ne.symm hm])
    (h.descriptors.setRegionState (.inl hacc)) rfl rfl rfl (fun j hj => ?_) rfl
  obtain ⟨ha, ht⟩ := h.job_tracked hi hj
  obtain ⟨-, -, hstart⟩ := h.job j hj
  refine ⟨by simp [ha], .inr ?_, hstart⟩
  exact (State.tracked_of_setRegion (n := n) (r := { s.region n with state := .preparing }) rfl (by simp [hd]) (by simp)
    _).mpr ht

/-! ### DISABLE-REGION -/

/-- The contexts and the queue entries of the region are gone with its tracts (R37, R112). -/
theorem State.PartSound.outOfTracking_tracts {n : Fin 8} {st : RegionState} {p : Pool} (he : (s.region n).state = .enabled)
    (hst : st ≠ .enabled) (hp : s.pool.FreedOn p fun t => decide (t.region = n)) : (s.outOfTracking n st p).TractsSound := by
  have htr := s.tracked_outOfTracking n p hst
  have hrec (u : TractRef) : (s.outOfTracking n st p).record u = s.record u := s.record_setRegionState n st u
  obtain ⟨⟨hdisjoint, hcanonical, hpool, ⟨hlen, hnodup, htracked, hflag⟩, hrefs, hdistinct, hopened⟩, -, -, -, -⟩ := h
  refine ⟨hdisjoint.setRegionState (.inl (by simp [he])), hcanonical, hp.inStep hpool,
    ⟨(List.length_filter_le _ _).trans hlen, hnodup.filter _, fun u hu => ?_, fun u hu => ?_⟩, fun i c hc => ?_,
    hdistinct.of_slots fun i c hc => (hp.slots i c hc).1, fun u hu => ?_⟩
  · obtain ⟨hin, hun⟩ := List.mem_filter.mp hu
    exact (htr u).mpr ⟨htracked u hin, by simpa using hun⟩
  · obtain ⟨hu', hun⟩ := (htr u).mp hu
    rw [hrec, hflag u hu']
    simp [State.outOfTracking, hun]
  · obtain ⟨hc', hn⟩ := hp.slots i c hc
    exact (htr c.ref).mpr ⟨hrefs i c hc', by simpa using hn⟩
  · obtain ⟨hu', hun⟩ := (htr u).mp hu
    rw [hrec, hopened u hu']
    change _ ↔ p.assembles u
    simp [hp.assembles, hun]

/-- The cursor moved off the region is parked or on a tract that is still tracked (R147). -/
theorem State.PartSound.outOfTracking_cursor {n : Fin 8} {st : RegionState} (p : Pool) (hst : st ≠ .enabled) :
    (s.outOfTracking n st p).cursorSound := by
  intro u hu
  rw [s.tracked_outOfTracking n p hst]
  change (s.setRegionState n .disabled).cursorOff n = some u at hu
  have hzero {m : Fin 8} (hm : ((s.setRegionState n .disabled).region m).state = .enabled) :
      s.tracked ⟨m, 0⟩ ∧ m ≠ n := by
    rw [State.region_setRegionState] at hm
    by_cases hmn : m = n
    · simp [hmn] at hm
    · exact ⟨h.tracked_zero (by simpa [hmn] using hm), hmn⟩
  unfold State.cursorOff at hu
  split at hu
  next => cases hu
  next t ht =>
    split at hu
    next =>
      obtain ⟨m, hm, rfl⟩ := Option.map_eq_some_iff.mp hu
      obtain ha | ⟨-, hl⟩ := Option.or_eq_some_iff.mp hm
      · exact hzero (State.enabled_of_enabledAbove ha)
      · exact hzero (State.enabled_of_lowestEnabled hl)
    next hun =>
      obtain rfl := Option.some.inj hu
      exact ⟨h.cursor t ht, hun⟩

/-- A job that stays when region n goes out of tracking: one of another region, or the one abandoned with it (R38, R125). -/
def State.jobStays (s : State) (n : Fin 8) (l : LongOp) (j : Job) : Prop :=
  s.jobFits j ∧ j.ref.region ≠ n ∧ j.abandoned = false ∨
    j.abandoned = true ∧ j.ref.region = n ∧ l = .disabling n ∧ j.startState ≠ .opened ∧ j.startState ≠ .faulted

/-- Region n out of tracking, with the job and the long operation that go with it. -/
theorem State.PartSound.of_outOfTracking {n : Fin 8} {st : RegionState} {p : Pool} {t : State} (hi : s.port.longOp = .idle)
    (he : (s.region n).state = .enabled) (hp : s.pool.FreedOn p fun t => decide (t.region = n))
    (hst : st = .disabled ∧ t.port.longOp = .idle ∨ st = .retiring ∧ t.port.longOp = .disabling n)
    (hregions : t.regions = (s.outOfTracking n st p).regions) (hstore : t.store = s.store) (hpool : t.pool = p)
    (hqueue : t.queue = (s.outOfTracking n st p).queue)
    (hcursor : t.scrubber.cursor = (s.outOfTracking n st p).scrubber.cursor)
    (hjob : ∀ j, t.reader.job = some j → s.jobStays n t.port.longOp j) : t.PartSound := by
  have hne : st ≠ .enabled := by obtain ⟨rfl, -⟩ | ⟨rfl, -⟩ := hst <;> decide
  have htracts := (h.outOfTracking_tracts he hne hp).congr hregions hstore hpool hqueue
  have hregion : t.region = (s.outOfTracking n st p).region := by funext m; simp only [State.region, hregions]
  have htr (u : TractRef) : t.tracked u ↔ s.tracked u ∧ u.region ≠ n := by
    rw [← s.tracked_outOfTracking n p hne]
    simp only [State.tracked, hregion]
  refine ⟨htracts, ?_, ?_, fun j hj => ?_, fun u hu => ?_⟩
  · obtain ⟨rfl, hl⟩ | ⟨rfl, hl⟩ := hst
    · exact h.longOp.update n _ (.inl hi) hregions (by simp [hl]) (by simp [hl]) (by simp [hl])
    · exact h.longOp.update n _ (.inl hi) hregions (by simp [hl]) (by simp [hl]) fun m hm => by simp [hl, Ne.symm hm]
  · have hdesc : (s.setRegionState n st).descriptorsSound :=
      h.descriptors.setRegionState (.inl (h.descriptors.accepted (by simp [he])))
    intro m
    rw [hregion]
    exact hdesc m
  · obtain ⟨⟨-, ht, hstart⟩, hn, ha⟩ | ⟨ha, hn, hl, hstart⟩ := hjob j hj
    · exact ⟨by simp [ha], .inr ((htr _).mpr ⟨ht.resolve_left (by simp [ha]), hn⟩), hstart⟩
    · exact ⟨fun _ => by rw [hl, hn], .inl ha, hstart⟩
  · rw [hcursor] at hu
    rw [htr, ← s.tracked_outOfTracking n p hne]
    exact h.outOfTracking_cursor p hne u hu

/-- An accepted DISABLE-REGION keeps the laws (R37, R38, R125). -/
theorem State.PartSound.withdrawal {n : Fin 8} (hi : s.port.longOp = .idle) (he : (s.region n).state = .enabled) :
    (s.disableAccepted n).PartSound := by
  obtain ⟨p, hp, hw⟩ := s.withdrawn_eq_outOfTracking n
  by_cases hjob : ∃ j, s.reader.job = some j ∧ j.ref.region = n
  · obtain ⟨j, hj, hn⟩ := hjob
    cases hphase : j.phase with
    | claiming =>
      rw [s.disableAccepted_of_claiming n j hj hn hphase, hw]
      refine State.PartSound.conclude (State.PartSound.look ?_)
      exact h.of_outOfTracking (st := .disabled) hi he hp (.inl ⟨rfl, hi⟩) rfl rfl rfl rfl rfl nofun
    | reading =>
      rw [s.disableAccepted_of_reading n j hj hn hphase, hw]
      refine State.PartSound.conclude ?_
      refine h.of_outOfTracking (st := .retiring) hi he hp (.inr ⟨rfl, rfl⟩) rfl rfl rfl rfl rfl fun k hk => .inr ?_
      obtain rfl := Option.some.inj hk
      obtain ⟨-, -, hstart⟩ := h.job j hj
      exact ⟨rfl, hn, rfl, hstart⟩
  · have hother : ∀ j, s.reader.job = some j → j.ref.region ≠ n := fun j hj hn => hjob ⟨j, hj, hn⟩
    rw [s.disableAccepted_of_noJob n hother, hw]
    refine State.PartSound.conclude ?_
    refine h.of_outOfTracking (st := .disabled) hi he hp (.inl ⟨rfl, hi⟩) rfl rfl rfl rfl rfl fun k hk => .inl ?_
    exact ⟨h.job k hk, hother k hk, (h.job_tracked hi hk).1⟩

/-! ### The end of a preparation -/

/-- A preparation's end brings the region's tracts in, with their records as initialised (R9, R33). -/
theorem State.PartSound.endPreparation {n : Fin 8} (hn : s.port.longOp = .enabling n) : (s.endPreparation n).PartSound := by
  have hprep : (s.region n).state = .preparing := (h.longOp n).1.mpr hn
  have hacc : (s.region n).accepted := h.descriptors.accepted (by simp [hprep])
  rw [s.endPreparation_eq]
  refine State.PartSound.conclude ?_
  have htr := s.tracked_prepared (n := n) (by simp [hprep])
  have hinit : ∀ u, (s.prepared n).record u = if (s.region n).inEntryRange ((s.region u.region).recordNumber u.tract)
      then .initial else s.record u := s.record_prepared n
  have hold (u : TractRef) (hu : s.tracked u) : (s.prepared n).record u = s.record u := by
    rw [hinit, if_neg]
    intro hin
    have hun : n = u.region := State.region_unique_of_entry h.tracts.disjoint (by simp [hprep]) hu.not_disabled hin
      hu.inEntryRange
    exact absurd hu.1 (by simp [← hun, hprep])
  have hnew (u : TractRef) (hu : u.region = n ∧ u.tract < (s.region n).count.toNat) :
      (s.prepared n).record u = .initial := by
    rw [hinit, if_pos]
    obtain ⟨rfl, hlt⟩ := hu
    simp [Region.inEntryRange, Region.recordNumber, hlt]
  have hnot (u : TractRef) (hu : u.region = n) : ¬s.tracked u := fun ht => by
    obtain ⟨he, -⟩ := ht
    simp [hu, hprep] at he
  obtain ⟨⟨hdisjoint, hcanonical, hpool, ⟨hlen, hnodup, htracked, hflag⟩, hrefs, hdistinct, hopened⟩, hlong, hdesc, hjob,
    hcursor⟩ := h
  refine ⟨⟨hdisjoint.setRegionState (.inl (by simp [hprep])), CheckStore.wf_initialise _ _ hcanonical, hpool,
    ⟨hlen, hnodup, fun u hu => (htr u).mpr (.inl (htracked u hu)), fun u hu => ?_⟩,
    fun i c hc => (htr c.ref).mpr (.inl (hrefs i c hc)), hdistinct, fun u hu => ?_⟩, ?_,
    hdesc.setRegionState (.inl hacc), fun j hj => ?_, fun u hu => ?_⟩
  · obtain hu | hu := (htr u).mp hu
    · rw [hold u hu]
      exact hflag u hu
    · rw [hnew u hu]
      change false = true ↔ u ∈ s.queue
      simpa using fun hin => hnot u hu.1 (htracked u hin)
  · obtain hu | hu := (htr u).mp hu
    · rw [hold u hu]
      exact hopened u hu
    · rw [hnew u hu]
      simp only [TractRecord.initial, reduceCtorEq, false_iff]
      rintro ⟨i, c, o, hc, rfl, -⟩
      exact hnot c.ref hu.1 (hrefs i c hc)
  · exact hlong.update n _ (.inr (.inl hn)) rfl (by simp [State.prepared]) (by simp [State.prepared])
      (by simp [State.prepared])
  · obtain ⟨hlongOp, ht, hstart⟩ := hjob j hj
    have ha : j.abandoned = false := by
      by_contra hne
      simp [hn] at hlongOp
      simp [hlongOp] at hne
    exact ⟨by simp [ha], .inr ((htr _).mpr (.inl (ht.resolve_left (by simp [ha])))), hstart⟩
  · refine (htr u).mpr ?_
    change (if s.scrubber.cursor = none then some ⟨n, 0⟩ else s.scrubber.cursor) = some u at hu
    split at hu
    next =>
      obtain rfl := Option.some.inj hu
      exact .inr ⟨rfl, hacc.2.2.1⟩
    next => exact .inl (hcursor u hu)

/-! ### RESTART -/

/-- After RESTART no region is ENABLED, and nothing refers to a tract (R189). -/
theorem State.PartSound.restart : s.restart.PartSound := by
  have hregion (n : Fin 8) : s.restart.region n = { s.region n with state := .disabled } := by
    rw [s.restart_eq]
    simp [State.region]
  have hnone (u : TractRef) : ¬s.restart.tracked u := fun ⟨he, _⟩ => by simp [hregion] at he
  have hslot (i : Fin 8) (c : Context) : s.restart.pool.slot i ≠ some c := by
    rw [s.restart_eq]
    simp [Pool.empty, Pool.slot]
  have hlong : s.restart.port.longOp = .idle := by rw [s.restart_eq]; rfl
  refine ⟨⟨fun n m _ hn _ => absurd (by rw [hregion]) hn, ?_, by rw [s.restart_eq]; exact Pool.empty_inStep,
    ?_, fun i c hc => absurd hc (hslot i c), fun i k c d hc => absurd hc (hslot i c), fun u hu => absurd hu (hnone u)⟩,
    fun n => by simp [hregion, hlong], fun n => ?_, ?_, ?_⟩
  · rw [s.restart_eq]
    exact s.cutPreparation_wf h.tracts.canonical
  · refine ⟨?_, ?_, ?_, fun u hu => absurd hu (hnone u)⟩ <;> rw [s.restart_eq]
    · exact Nat.zero_le _
    · exact List.nodup_nil
    · exact nofun
  · rw [hregion]
    obtain hacc | hreset := h.descriptors n
    · exact .inl hacc
    · exact .inr (by rw [hreset]; rfl)
  · rw [s.restart_eq]
    exact nofun
  · intro u hu
    rw [s.restart_eq] at hu
    cases hu

end Regions

/-! ## The commands on tracts -/

theorem State.freeTract_freedOn (s : State) (t : TractRef) :
    ∃ p, s.pool.FreedOn p (fun q => decide (q = t)) ∧ s.freeTract t = { s with pool := p } :=
  ⟨_, s.pool.freeWhere_freedOn _, rfl⟩

/-- An overtaking changes at most the job, and of it the overtaken mark alone (R18, R124). -/
theorem State.overtakeWhere_frame (s : State) (q : TractRef → Bool) :
    ∃ job, (job = s.reader.job ∨ ∃ j, s.reader.job = some j ∧ job = some { j with overtaken := true }) ∧
      s.overtakeWhere q = { s with reader := { s.reader with job := job } } := by
  unfold State.overtakeWhere
  split
  next j hj =>
    split
    · exact ⟨_, .inr ⟨j, hj, rfl⟩, rfl⟩
    · exact ⟨_, .inl rfl, rfl⟩
  next => exact ⟨_, .inl rfl, rfl⟩

section Tracts

variable {s : State} (h : s.PartSound)
include h

/-- FORGET-TRACT keeps the laws: the contexts on the tract go as it becomes UNKNOWN (R18). -/
theorem State.PartSound.forgotten {t : TractRef} (ht : s.tracked t) : (s.forget t).PartSound := by
  obtain ⟨p, hfreed, hp⟩ := s.freeTract_freedOn t
  obtain ⟨job, hjob, he⟩ := State.overtakeWhere_frame { s with pool := p } fun q => decide (q = t)
  have hset : (State.setRecord { s with pool := p } t { s.record t with state := .unknown }).TractsSound := by
    refine h.tracts.update ht rfl (hfreed.inStep h.tracts.pool) (fun i c hc => h.tracts.refs i c (hfreed.slots i c hc).1)
      (h.tracts.distinct.of_slots fun i c hc => (hfreed.slots i c hc).1) ?_ fun u hu => ?_
    · simp [hfreed.assembles]
    · simp [hfreed.assembles, hu]
  rw [State.forget, hp, he]
  refine h.of_tracts (hset.congr rfl rfl rfl rfl) rfl rfl (fun j hj => ?_) h.cursor
  obtain rfl | ⟨k, hk, rfl⟩ := hjob
  · exact h.job j hj
  · obtain rfl := Option.some.inj hj
    exact h.job k hk

/-- REPAIR-TRACT keeps the laws: the tract is FAULTED, and an entry is appended only where the queue has room (R20). -/
theorem State.PartSound.repaired {t : TractRef} (ht : s.tracked t) (hf : (s.record t).state = .faulted)
    (hroom : (s.record t).queued = false → s.queue.length < Config.queueDepth) : (s.repair t).PartSound := by
  obtain ⟨p, hp⟩ := s.freeVerify_frame t
  have hv := h.tracts.freeVerify t
  unfold State.repair
  rw [hp] at hv ⊢
  have hset : (State.setTractState { s with pool := p } t .stale).TractsSound :=
    hv.setTractState ht (by decide) (by change (s.record t).state ≠ _; simp [hf])
  have hstale : (State.setTractState { s with pool := p } t .stale).PartSound := h.of_tracts hset rfl rfl h.job h.cursor
  dsimp only
  split
  next => exact hstale
  next hq =>
    have hclear : (s.record t).queued = false := by simpa using hq
    have hoffer : (State.setTractState { s with pool := p } t .stale).offer t =
        (State.setTractState { s with pool := p } t .stale).append t := by
      have hclear' : ((State.setTractState { s with pool := p } t .stale).record t).queued = false := by
        rw [State.setTractState, State.record_setRecord_same]
        exact hclear
      rw [State.offer, if_neg (by simp [hclear'])]
      exact if_pos (hroom hclear)
    have happend : ((State.setTractState { s with pool := p } t .stale).append t).PartSound :=
      h.of_tracts (hoffer ▸ hset.offer ht) rfl rfl h.job h.cursor
    exact happend.look.conclude

end Tracts

/-! ## Every command -/

/-- The descriptor that passes SET-REGION's checks is an accepted one, in a DISABLED region (R25). -/
theorem accepted_of_checkedRegion {base : Word} {sizeCode : Byte} {count entryBase : BitVec 16} {width : Byte} {poly : Word}
    {policy : Byte} {r : Region} (h : checkedRegion base sizeCode count entryBase width poly policy = some r) :
    r.state = .disabled ∧ r.accepted := by
  obtain ⟨w, pol, hfits⟩ := fits_of_checkedRegion h
  obtain rfl := Option.some.inj ((checkedRegion_of_fits hfits).symm.trans h)
  refine ⟨rfl, ?_, hfits.aligned, hfits.count_pos, hfits.count_le, hfits.entries_le, hfits.span_le,
    (polyOk_iff _ _).mpr ⟨hfits.poly_odd, hfits.poly_short⟩⟩
  change (forcedCode sizeCode).toNat ≤ 4
  unfold forcedCode
  split
  · decide
  next hle => exact not_lt.mp hle

/-- What a management command executes keeps the laws. -/
theorem State.PartSound.executed {s u : State} (h : s.PartSound) (hu : s.Executed u) : u.PartSound := by
  cases hu with
  | unchanged => exact h
  | parameters => exact h.congr rfl rfl rfl rfl rfl rfl rfl
  | descriptor n r base sizeCode count entryBase width poly policy hi hd hr =>
    obtain ⟨hstate, hacc⟩ := accepted_of_checkedRegion hr
    exact h.descriptor hi hd hstate hacc
  | preparation n hi hd hc ho => exact h.preparation hi hd hc ho
  | withdrawal n hi he => exact h.withdrawal hi he
  | forgotten t ht => exact h.forgotten ht
  | repaired t ht hf hroom => exact h.repaired ht hf hroom
  | popped | released => exact h.congr rfl rfl rfl rfl rfl rfl rfl
  | cleared mask =>
    rw [s.clearCauses_eq]
    exact h.congr rfl rfl rfl rfl rfl rfl rfl
  | restarted => exact h.restart

theorem State.PartSound.placed {s : State} (h : s.PartSound) (a : Word) {f : State → Place → State}
    (hframe : ∀ p, s.poolFrame (f s p)) (htracts : ∀ p, s.tracked p.ref → (f s p).TractsSound) : (s.placed a f).PartSound := by
  unfold State.placed
  split
  · exact h
  next p hp => exact h.of_readFrame (hframe p).readFrame (htracts p (State.tracked_of_place hp))

theorem State.PartSound.responded {s : State} (h : s.PartSound) (t : Transaction) (resp : Resp) :
    (s.responded t resp).PartSound :=
  h.placed _ (fun p => s.poolWriteResponse_poolFrame p resp) fun _ hp => h.tracts.poolWriteResponse hp resp

theorem State.PartSound.drainResponded {s : State} (h : s.PartSound) (t : Transaction) (resp : Resp) :
    (s.drainResponded t resp).PartSound := by
  unfold State.drainResponded
  split
  · exact h.responded t resp
  · exact h

/-- The decision on a read beat touches the passage and the causes only (R91, R96). -/
theorem State.decideRead_frame (s : State) (p : Place) (v : Option Verdict) (data : Lanes) (resp : Resp) :
    ∃ q a, s.decideRead p v data resp = { s with passage := q, alert := a } := by
  unfold State.decideRead
  split
  · split <;> exact ⟨_, _, rfl⟩
  · exact ⟨_, _, rfl⟩

theorem State.PartSound.arriveRead {s : State} (h : s.PartSound) (a : Word) (data : Lanes) (resp : Resp) :
    (s.arriveRead a data resp).PartSound := by
  unfold State.arriveRead
  split
  · exact h.congr rfl rfl rfl rfl rfl rfl rfl
  next p hp =>
    obtain ⟨q, al, e⟩ := (s.poolRead p a data resp).1.decideRead_frame p (s.poolRead p a data resp).2 data resp
    rw [e]
    have hr := h.of_readFrame (s.poolRead_readFrame p a data resp)
      (h.tracts.poolRead (State.tracked_of_place hp) a data resp)
    exact hr.congr rfl rfl rfl rfl rfl rfl rfl

theorem State.PartSound.freeLinkWhen {s : State} (h : s.PartSound) (last : Bool) : (s.freeLinkWhen last).PartSound := by
  unfold State.freeLinkWhen
  split
  · exact h.congr rfl rfl rfl rfl rfl rfl rfl
  · exact h

theorem Job.takeBeat_frame (j : Job) (r : Region) (k : Nat) (data : Lanes) (resp : Resp) :
    ∃ rem off, j.takeBeat r k data resp = { j with rem := rem, errorOffset := off } := by
  unfold Job.takeBeat
  split
  · exact ⟨_, _, rfl⟩
  · split
    · exact ⟨_, _, rfl⟩
    · split <;> exact ⟨_, _, rfl⟩

theorem State.tick_frame (s : State) :
    ∃ pacing owed, s.tick =
      { s with
        timebase := ⟨0, s.params.divider, s.timebase.tickCounter + 1⟩
        scrubber := { s.scrubber with pacing := pacing, underflowOwed := owed }
        passage := { s.passage with hold := s.passage.hold.map HoldRecord.tick } } := by
  unfold State.tick State.advancePacing
  split
  · exact ⟨_, _, rfl⟩
  · exact ⟨_, _, rfl⟩

/-- Every effect of a command keeps the laws. -/
theorem State.PartSound.effect {s t : State} (h : s.PartSound) (ht : s.Effect t) : t.PartSound := by
  cases ht with
  | nothing => exact h
  | hrstRise =>
    refine State.PartSound.conclude ?_
    unfold State.cut
    split
    · exact h.congr rfl rfl rfl rfl rfl rfl rfl
    · exact h.congr rfl rfl rfl rfl rfl rfl rfl
    · split <;> exact h.congr rfl rfl rfl rfl rfl rfl rfl
    · exact h.congr rfl rfl rfl rfl rfl rfl rfl
  | request => exact h.congr rfl rfl rfl rfl rfl rfl rfl
  | writeBeat x data mask =>
    have hf : (s.forwarded x data mask).PartSound := h.congr rfl rfl rfl rfl rfl rfl rfl
    exact (hf.placed _ (fun p => State.poolWrite_poolFrame _ p mask data) fun _ hp =>
      hf.tracts.poolWrite hp mask data).look.conclude
  | writeResponse x resp =>
    refine State.PartSound.conclude (State.PartSound.look (State.PartSound.freeLinkWhen ?_ _))
    exact (h.responded x resp).congr rfl rfl rfl rfl rfl rfl rfl
  | drainedResponse x resp =>
    refine State.PartSound.conclude (State.PartSound.look ?_)
    exact (h.drainResponded x resp).congr rfl rfl rfl rfl rfl rfl rfl
  | lastDrainedResponse x resp =>
    refine State.PartSound.conclude (State.PartSound.look ?_)
    exact (h.drainResponded x resp).congr rfl rfl rfl rfl rfl rfl rfl
  | readBeat x data resp =>
    refine State.PartSound.conclude (State.PartSound.look (State.PartSound.freeLinkWhen ?_ _))
    exact (h.arriveRead _ data resp).congr rfl rfl rfl rfl rfl rfl rfl
  | readerBeat j data resp hj =>
    obtain ⟨rem, off, e⟩ := j.takeBeat_frame (s.region j.ref.region) s.reader.burstBeats data resp
    have hset : (s.setJob { j with rem := rem, errorOffset := off }).PartSound := h.setJob (h.job j hj)
    rw [e]
    exact hset.congr rfl rfl rfl rfl rfl rfl rfl
  | tick =>
    obtain ⟨pacing, owed, e⟩ := s.tick_frame
    rw [e]
    exact h.congr rfl rfl rfl rfl rfl rfl rfl
  | preparationEnd n hn => exact h.endPreparation hn
  | executed u n st results hu => exact (h.executed hu).congr rfl rfl rfl rfl rfl rfl rfl
  | _ => exact h.congr rfl rfl rfl rfl rfl rfl rfl

/-- The state after a power-on meets the laws. -/
theorem State.reset_partSound : State.reset.PartSound := by
  have hregion (n : Fin 8) : State.reset.region n = Region.reset := by simp [State.region, State.reset]
  have hnone (u : TractRef) : ¬State.reset.tracked u := fun ⟨he, _⟩ => by simp [hregion, Region.reset] at he
  have hslot (i : Fin 8) (c : Context) : State.reset.pool.slot i ≠ some c := by simp [State.reset, Pool.slot]
  refine ⟨⟨fun n m _ hn _ => absurd (by rw [hregion]; rfl) hn, rfl, Pool.empty_inStep,
    ⟨Nat.zero_le _, List.nodup_nil, nofun, fun u hu => absurd hu (hnone u)⟩, fun i c hc => absurd hc (hslot i c),
    fun i k c d hc => absurd hc (hslot i c), fun u hu => absurd hu (hnone u)⟩,
    fun n => ?_, fun n => .inr (hregion n), nofun, nofun⟩
  rw [hregion]
  simp [Region.reset, State.reset]

/-- The laws are kept by everything a command carries out. -/
theorem partSound_keptByCommands : KeptByCommands State.PartSound where
  endBurst _ _ h := h.endBurst
  underflow _ h := h.underflow
  expireHold _ h := h.expireHold
  grantPassage _ t _ _ h := h.grantPassage t
  grantReader _ _ _ hj _ h := h.grantReader hj
  effect _ _ he h := h.effect he
  powerOn _ _ _ _ := State.reset_partSound.congr rfl rfl rfl rfl rfl rfl rfl

/-- Settles O57: the laws as one invariant, kept by everything owed, by every effect of a command, and by a REFCLK period. -/
theorem everyStepKeepsThePartCoherent : Obligations.EveryStepKeepsThePartCoherent := by
  intro s t h hstep
  rw [State.coherent_iff_partSound] at h ⊢
  exact partSound_keptByCommands.step (fun _ _ hs => hs.congr rfl rfl rfl rfl rfl rfl rfl)
    (fun _ _ hs => hs.congr rfl rfl rfl rfl rfl rfl rfl) (fun _ _ hs => hs.congr rfl rfl rfl rfl rfl rfl rfl) h hstep

end Sys2Proof.Machine
end

