-- ==== Sys2Proof/Proofs/ReaderSearch.lean ====
section
/-! PROOFS. The reader's search for work (R116): every take uses up a queue entry or the pending step, so a search with enough fuel
ends with a job or with neither source waiting; and the obligation about the search. -/

namespace Sys2Proof.Machine

/-! ## What a take uses up -/

/-- The takes that the two sources have work for. -/
def State.waiting (s : State) : Nat := s.queue.length + s.scrubber.stepPending.toNat

theorem State.waiting_le (s : State) : s.waiting ≤ s.queue.length + 1 := by
  unfold State.waiting
  cases s.scrubber.stepPending <;> simp

theorem State.advanceCursor_stepPending (s : State) (t : TractRef) :
    (s.advanceCursor t).scrubber.stepPending = s.scrubber.stepPending := by
  unfold State.advanceCursor
  split
  · rfl
  · split <;> rfl

theorem State.advanceCursor_queue (s : State) (t : TractRef) : (s.advanceCursor t).queue = s.queue := by
  obtain ⟨sc, a, e⟩ := s.advanceCursor_frame t
  rw [e]

theorem State.takeFromQueue_queue (s : State) : s.takeFromQueue.queue = s.queue.tail := by
  unfold State.takeFromQueue
  split
  next h => simp [h]
  next t rest h =>
    rw [h]
    dsimp only
    split <;> rfl

theorem State.takeFromQueue_scrubber (s : State) : s.takeFromQueue.scrubber = s.scrubber := by
  unfold State.takeFromQueue
  split
  · rfl
  · dsimp only
    split <;> rfl

theorem State.takeScrubStep_queue (s : State) : s.takeScrubStep.queue = s.queue := by
  cases hc : s.scrubber.cursor with
  | none =>
    rw [s.takeScrubStep_of_parked hc]
    rfl
  | some t =>
    rw [s.takeScrubStep_of_position t hc]
    cases (s.record t).scrubJob <;> exact s.stepTaken.advanceCursor_queue t

theorem State.takeScrubStep_stepPending (s : State) : s.takeScrubStep.scrubber.stepPending = false := by
  cases hc : s.scrubber.cursor with
  | none =>
    rw [s.takeScrubStep_of_parked hc]
    rfl
  | some t =>
    rw [s.takeScrubStep_of_position t hc]
    cases (s.record t).scrubJob <;> exact s.stepTaken.advanceCursor_stepPending t

/-! ## The source of the next take -/

theorem State.nextSource_eq_none_iff (s : State) :
    s.nextSource = none ↔ s.queue = [] ∧ s.scrubber.stepPending = false := by
  unfold State.nextSource
  cases s.queue with
  | nil => cases s.scrubber.stepPending <;> simp
  | cons t rest =>
    cases s.scrubber.stepPending with
    | false => simp
    | true => by_cases hl : s.reader.lastSource = .queue <;> simp [hl]

theorem State.nextSource_eq_queue {s : State} (h : s.nextSource = some .queue) : s.queue ≠ [] := by
  intro hq
  unfold State.nextSource at h
  cases hs : s.scrubber.stepPending <;> simp [hq, hs] at h

theorem State.nextSource_eq_scrub {s : State} (h : s.nextSource = some .scrub) : s.scrubber.stepPending = true := by
  by_contra hs
  have hs : s.scrubber.stepPending = false := by simpa using hs
  unfold State.nextSource at h
  cases hq : s.queue <;> simp [hq, hs] at h

/-- A take uses up one of what waits. -/
theorem State.waiting_take {s : State} {src : Source} (h : s.nextSource = some src) : (s.take src).waiting + 1 = s.waiting := by
  cases src with
  | queue =>
    have hlen : s.queue.length ≠ 0 := by simpa using State.nextSource_eq_queue h
    change s.takeFromQueue.waiting + 1 = _
    rw [State.waiting, s.takeFromQueue_queue, s.takeFromQueue_scrubber, List.length_tail, State.waiting]
    omega
  | scrub =>
    change s.takeScrubStep.waiting + 1 = _
    rw [State.waiting, s.takeScrubStep_queue, s.takeScrubStep_stepPending, State.waiting, State.nextSource_eq_scrub h]
    rfl

/-! ## The search -/

theorem State.lookFor_of_busy (k : Nat) (s : State) {j : Job} (h : s.reader.job = some j) : State.lookFor k s = s := by
  cases k <;> simp [State.lookFor, h]

theorem State.lookFor_of_none (k : Nat) (s : State) (h : s.nextSource = none) : State.lookFor k s = s := by
  cases k with
  | zero => rfl
  | succ k => cases hj : s.reader.job <;> simp [State.lookFor, hj, h]

theorem State.lookFor_of_source (k : Nat) (s : State) {src : Source} (hj : s.reader.job = none)
    (h : s.nextSource = some src) : State.lookFor (k + 1) s = State.lookFor k (s.take src) := by
  simp [State.lookFor, hj, h]

/-- With enough takes the search ends with a job or with neither source waiting. -/
theorem State.lookFor_searched (k : Nat) (s : State) (hk : s.waiting < k) : (State.lookFor k s).searched = true := by
  induction k generalizing s with
  | zero => omega
  | succ k ih =>
    cases hj : s.reader.job with
    | some j => simp [State.lookFor_of_busy _ s hj, State.searched, hj]
    | none =>
      cases hsrc : s.nextSource with
      | none =>
        obtain ⟨hq, hs⟩ := s.nextSource_eq_none_iff.mp hsrc
        simp [State.lookFor_of_none _ s hsrc, State.searched, hq, hs]
      | some src =>
        rw [State.lookFor_of_source k s hj hsrc]
        have := State.waiting_take hsrc
        exact ih _ (by omega)

/-- More takes than enough change nothing. -/
theorem State.lookFor_eq_of_enough (k k' : Nat) (s : State) (hk : s.waiting < k) (hk' : s.waiting < k') :
    State.lookFor k s = State.lookFor k' s := by
  induction k generalizing k' s with
  | zero => omega
  | succ k ih =>
    obtain ⟨k', rfl⟩ := Nat.exists_eq_add_one_of_ne_zero (by omega : k' ≠ 0)
    cases hj : s.reader.job with
    | some j => rw [State.lookFor_of_busy _ s hj, State.lookFor_of_busy _ s hj]
    | none =>
      cases hsrc : s.nextSource with
      | none => rw [State.lookFor_of_none _ s hsrc, State.lookFor_of_none _ s hsrc]
      | some src =>
        rw [State.lookFor_of_source k s hj hsrc, State.lookFor_of_source k' s hj hsrc]
        have := State.waiting_take hsrc
        exact ih k' _ (by omega) (by omega)

/-- After a search the reader has a job, or neither source waits (R116). -/
theorem State.searched_look (s : State) : s.look.searched = true :=
  State.lookFor_searched _ s (by have := s.waiting_le; omega)

/-- An IDLE reader with a source waiting takes from it and looks again. -/
theorem State.look_of_source (s : State) {src : Source} (hj : s.reader.job = none) (h : s.nextSource = some src) :
    s.look = (s.take src).look := by
  have := State.waiting_take h
  have := s.waiting_le
  have := (s.take src).waiting_le
  rw [State.look, State.lookFor_of_source _ s hj h]
  exact State.lookFor_eq_of_enough _ _ _ (by omega) (by omega)

/-- Settles O32: a search with a job, or with no source, is over; otherwise the source of R116 is taken from. -/
theorem readerTakesSourcesInTurn : Obligations.ReaderTakesSourcesInTurn := by
  refine fun s => ⟨fun hj => ?busy, fun hj => ⟨fun hq hs => ?idle, fun hq hs => ?queue, fun hs hq => ?scrub⟩⟩
  case busy =>
    obtain ⟨j, hj⟩ := Option.ne_none_iff_exists'.mp hj
    exact State.lookFor_of_busy _ s hj
  case idle => exact State.lookFor_of_none _ s (s.nextSource_eq_none_iff.mpr ⟨hq, hs⟩)
  case queue =>
    refine s.look_of_source (src := .queue) hj ?_
    cases hq' : s.queue with
    | nil => exact absurd hq' hq
    | cons t rest => cases hs' : s.scrubber.stepPending <;> simp_all [State.nextSource]
  case scrub =>
    refine s.look_of_source (src := .scrub) hj ?_
    obtain hq | hq := hq <;> cases hq' : s.queue <;> simp_all [State.nextSource]

end Sys2Proof.Machine
end

