-- ==== Sys2Proof/Proofs/LogAlertSearch.lean ====
section
/-! PROOFS. Every step keeps the log in order (R152), ALERT in agreement with causes and mask (R164, R166) and no source untaken by
an IDLE reader (R116), each on its own. -/

namespace Sys2Proof.Machine

/-! ## The search -/

/-- The law of the search reads the job, the queue and the pending step only. -/
theorem State.searched_congr {s t : State} (h : s.searched = true) (hjob : t.reader.job.isSome = s.reader.job.isSome)
    (hqueue : t.queue = s.queue) (hstep : t.scrubber.stepPending = s.scrubber.stepPending) : t.searched = true := by
  rwa [State.searched, hjob, hqueue, hstep, ← State.searched]

theorem State.searched_of_job {s : State} {j : Job} (h : s.reader.job = some j) : s.searched = true := by
  simp [State.searched, h]

/-- A queue that loses entries waits no more than before. -/
theorem State.searched_of_filter {s t : State} (h : s.searched = true) (hjob : t.reader.job = s.reader.job)
    {q : TractRef → Bool} (hqueue : t.queue = s.queue.filter q) (hstep : t.scrubber.stepPending = s.scrubber.stepPending) :
    t.searched = true := by
  simp only [State.searched, Bool.or_eq_true, Bool.and_eq_true, Bool.not_eq_true', hjob, hqueue, hstep,
    List.isEmpty_iff] at h ⊢
  obtain h | ⟨hq, hs⟩ := h
  · exact .inl h
  · exact .inr ⟨by simp [hq], hs⟩

theorem State.searched_look_conclude (s : State) : s.look.conclude.searched = true := s.searched_look

theorem State.searched_endBurst {s : State} (h : s.searched = true) : s.endBurst.searched = true := by
  have hf : s.releaseReaderLink.conclude.searched = true := State.searched_congr h rfl rfl rfl
  unfold State.endBurst
  dsimp only
  split
  · exact hf
  · split
    · exact hf
    · split
      · exact State.searched_look_conclude _
      · unfold State.endJobBurst
        split
        · exact State.searched_look_conclude _
        · split
          · exact State.searched_of_job rfl
          · exact State.searched_look_conclude _

theorem State.searched_executed {s u : State} (h : s.searched = true) (hu : s.Executed u) : u.searched = true := by
  cases hu with
  | withdrawal n =>
    obtain ⟨p, -, hw⟩ := s.withdrawn_eq_outOfTracking n
    by_cases hjob : ∃ j, s.reader.job = some j ∧ j.ref.region = n
    · obtain ⟨j, hj, hn⟩ := hjob
      cases hp : j.phase with
      | claiming =>
        rw [s.disableAccepted_of_claiming n j hj hn hp]
        exact State.searched_look_conclude _
      | reading =>
        rw [s.disableAccepted_of_reading n j hj hn hp, hw]
        exact State.searched_of_job rfl
    · rw [s.disableAccepted_of_noJob n fun j hj hn => hjob ⟨j, hj, hn⟩, hw]
      exact State.searched_of_filter h rfl rfl rfl
  | forgotten t =>
    obtain ⟨p, -, hp⟩ := s.freeTract_freedOn t
    obtain ⟨job, hjob, e⟩ := State.overtakeWhere_frame { s with pool := p } fun q => decide (q = t)
    rw [State.forget, hp, e]
    refine State.searched_congr h ?_ rfl rfl
    obtain rfl | ⟨j, hj, rfl⟩ := hjob
    · rfl
    · exact (congrArg Option.isSome hj).symm
  | repaired t =>
    obtain ⟨p, e⟩ := s.freeVerify_frame t
    unfold State.repair
    rw [e]
    dsimp only
    split
    · exact State.searched_congr h rfl rfl rfl
    · exact State.searched_look_conclude _
  | cleared mask =>
    rw [s.clearCauses_eq]
    exact State.searched_congr h rfl rfl rfl
  | restarted =>
    rw [s.restart_eq]
    rfl
  | _ => exact State.searched_congr h rfl rfl rfl

/-- A cut changes the passage alone (R57 to R60). -/
theorem State.cut_frame (s : State) : ∃ q, s.cut = { s with passage := q } := by
  unfold State.cut
  split
  · exact ⟨_, rfl⟩
  · exact ⟨_, rfl⟩
  · split <;> exact ⟨_, rfl⟩
  · exact ⟨_, rfl⟩

theorem State.searched_effect {s t : State} (ht : s.Effect t) (h : s.searched = true) : t.searched = true := by
  cases ht with
  | writeBeat | writeResponse | drainedResponse | lastDrainedResponse | readBeat => exact State.searched_look_conclude _
  | hrstRise =>
    obtain ⟨q, e⟩ := State.cut_frame { s with pins := { s.pins with hrst := true } }
    rw [e]
    exact State.searched_congr h rfl rfl rfl
  | readerBeat => exact State.searched_of_job rfl
  | tick =>
    obtain ⟨pacing, owed, e⟩ := s.tick_frame
    rw [e]
    exact State.searched_congr h rfl rfl rfl
  | preparationEnd n =>
    rw [s.endPreparation_eq]
    exact State.searched_congr h rfl rfl rfl
  | executed u n st results hu => exact State.searched_congr (State.searched_executed h hu) rfl rfl rfl
  | _ => exact State.searched_congr h rfl rfl rfl

theorem searched_keptByCommands : KeptByCommands fun s => s.searched = true where
  endBurst _ _ h := State.searched_endBurst h
  underflow s h := by
    unfold State.underflow
    split
    · exact State.searched_congr h rfl rfl rfl
    · exact State.searched_look_conclude _
  expireHold s h := by
    unfold State.expireHold
    split
    · exact h
    · obtain ⟨l, a, e⟩ := (s.releaseHeld .error).offerFault_frame _
      rw [e]
      exact State.searched_congr h rfl rfl rfl
  grantPassage s t _ _ h := by
    obtain ⟨job, e, hjob⟩ := s.grantPassage_frame t
    rw [e]
    refine State.searched_congr h ?_ rfl rfl
    obtain rfl | ⟨j, hj, rfl⟩ := hjob
    · rfl
    · simp [hj]
  grantReader _ _ _ _ _ _ := State.searched_of_job rfl
  effect _ _ he h := State.searched_effect he h
  powerOn _ _ _ _ := rfl

/-! ## What the three commands on regions and tracts leave -/

/-- The passage, the queue of commands and the log are as they were. -/
structure State.SameRest (s u : State) : Prop where
  passage : u.passage = s.passage
  pending : u.pending = s.pending
  log : u.log = s.log

theorem State.SameRest.look_conclude {s u : State} (h : s.SameRest u) : s.SameRest u.look.conclude := by
  obtain ⟨q, st, r, sc, a, e⟩ := u.look_frame
  rw [e]
  exact ⟨h.passage, h.pending, h.log⟩

theorem State.disableAccepted_sameRest (s : State) (n : Fin 8) : s.SameRest (s.disableAccepted n) := by
  obtain ⟨p, -, hw⟩ := s.withdrawn_eq_outOfTracking n
  by_cases hjob : ∃ j, s.reader.job = some j ∧ j.ref.region = n
  · obtain ⟨j, hj, hn⟩ := hjob
    cases hp : j.phase with
    | claiming =>
      rw [s.disableAccepted_of_claiming n j hj hn hp, hw]
      exact State.SameRest.look_conclude ⟨rfl, rfl, rfl⟩
    | reading =>
      rw [s.disableAccepted_of_reading n j hj hn hp, hw]
      exact ⟨rfl, rfl, rfl⟩
  · rw [s.disableAccepted_of_noJob n fun j hj hn => hjob ⟨j, hj, hn⟩, hw]
    exact ⟨rfl, rfl, rfl⟩

theorem State.forget_sameRest (s : State) (t : TractRef) : s.SameRest (s.forget t) := by
  obtain ⟨p, -, hp⟩ := s.freeTract_freedOn t
  obtain ⟨job, -, e⟩ := State.overtakeWhere_frame { s with pool := p } fun q => decide (q = t)
  rw [State.forget, hp, e]
  exact ⟨rfl, rfl, rfl⟩

theorem State.repair_sameRest (s : State) (t : TractRef) : s.SameRest (s.repair t) := by
  obtain ⟨p, e⟩ := s.freeVerify_frame t
  unfold State.repair
  rw [e]
  dsimp only
  split
  · exact ⟨rfl, rfl, rfl⟩
  · exact State.SameRest.look_conclude ⟨rfl, rfl, rfl⟩

/-! ## The log -/

/-- A record under the counter's number, the counter one up, keeps the numbering (R153). -/
theorem numberedUpTo_append {l : List FaultRecord} {c : Word} (h : numberedUpTo l c) (f : Finding) :
    numberedUpTo (l ++ [⟨c, f⟩]) (c + 1) := by
  induction l with
  | nil => rfl
  | cons r l ih =>
    cases l with
    | nil => exact ⟨h, rfl⟩
    | cons q rest => exact ⟨h.1, ih h.2⟩

/-- The oldest record removed, the others stay numbered in order (R157). -/
theorem numberedUpTo_of_cons {r : FaultRecord} {l : List FaultRecord} {c : Word} (h : numberedUpTo (r :: l) c) :
    numberedUpTo l c := by
  cases l with
  | nil => trivial
  | cons q rest => exact h.2

theorem State.logInOrder_congr {s t : State} (h : s.logInOrder) (hrecords : t.log.records = s.log.records)
    (hcounter : t.log.seqCounter = s.log.seqCounter) : t.logInOrder := by
  rwa [State.logInOrder, hrecords, hcounter, ← State.logInOrder]

theorem State.logInOrder_sameRest {s t : State} (h : s.logInOrder) (hrest : s.SameRest t) : t.logInOrder :=
  State.logInOrder_congr h (by rw [hrest.log]) (by rw [hrest.log])

theorem State.logInOrder_offerFault {s : State} (h : s.logInOrder) (f : Finding) : (s.offerFault f).logInOrder := by
  obtain ⟨hlen, hnumbered⟩ := h
  obtain ⟨hroom, e⟩ | ⟨-, e⟩ := s.offerFault_cases f <;> rw [e]
  · refine ⟨?_, numberedUpTo_append hnumbered f⟩
    rw [State.setCause_log, List.length_append]
    exact hroom
  · exact ⟨hlen, hnumbered⟩

theorem State.logInOrder_look {s : State} (h : s.logInOrder) : s.look.logInOrder := by
  obtain ⟨q, st, r, sc, a, e⟩ := s.look_frame
  rw [e]
  exact h

theorem State.logInOrder_conclude {s : State} (h : s.logInOrder) : s.conclude.logInOrder := h

theorem State.logInOrder_endJob {s : State} (h : s.logInOrder) : s.endJob.logInOrder := h

theorem State.logInOrder_poolFrame {s v : State} (hv : s.poolFrame v) (h : s.logInOrder) : v.logInOrder := by
  obtain ⟨p, q, st, a, rfl⟩ := hv
  exact h

theorem State.logInOrder_readFrame {s v : State} (hv : s.readFrame v) (h : s.logInOrder) : v.logInOrder := by
  obtain ⟨u, hu, rfl | ⟨f, rfl⟩⟩ := hv
  · exact State.logInOrder_poolFrame hu h
  · exact State.logInOrder_offerFault (State.logInOrder_poolFrame hu h) f

theorem State.logInOrder_completeJob {s : State} (h : s.logInOrder) (j : Job) : (s.completeJob j).logInOrder := by
  by_cases hk : j.kind = .verify
  · rw [s.completeJob_of_verify j hk]
    split
    · exact h
    · exact State.logInOrder_offerFault (s := s.setTractState j.ref .faulted) h _
  · rw [s.completeJob_of_not_verify j hk]
    split <;> exact h

theorem State.logInOrder_endBurst {s : State} (h : s.logInOrder) : s.endBurst.logInOrder := by
  unfold State.endBurst
  dsimp only
  split
  · exact h
  · split
    · exact h
    · split
      · exact State.logInOrder_conclude (State.logInOrder_look h)
      · refine State.logInOrder_conclude ?_
        unfold State.endJobBurst
        split
        · exact State.logInOrder_look (State.logInOrder_endJob (State.logInOrder_offerFault (s := s.releaseReaderLink) h _))
        · split
          · exact h
          · exact State.logInOrder_look (State.logInOrder_endJob (State.logInOrder_completeJob (s := s.releaseReaderLink) h _))

theorem State.logInOrder_executed {s u : State} (h : s.logInOrder) (hu : s.Executed u) : u.logInOrder := by
  cases hu with
  | withdrawal n => exact State.logInOrder_sameRest h (s.disableAccepted_sameRest n)
  | forgotten t => exact State.logInOrder_sameRest h (s.forget_sameRest t)
  | repaired t => exact State.logInOrder_sameRest h (s.repair_sameRest t)
  | popped f rest hhead =>
    obtain ⟨hlen, hnumbered⟩ := h
    rw [hhead] at hlen hnumbered
    exact ⟨Nat.le_of_succ_le hlen, numberedUpTo_of_cons hnumbered⟩
  | cleared mask =>
    refine State.logInOrder_congr h ?_ ?_ <;> simp only [State.clearCauses, State.conclude_log] <;> split <;> rfl
  | restarted =>
    rw [s.restart_eq]
    exact ⟨Nat.zero_le _, trivial⟩
  | _ => exact h

theorem State.logInOrder_placed {s : State} (h : s.logInOrder) (a : Word) {f : State → Place → State}
    (hframe : ∀ p, s.poolFrame (f s p)) : (s.placed a f).logInOrder := by
  unfold State.placed
  split
  · exact h
  · exact State.logInOrder_poolFrame (hframe _) h

theorem State.logInOrder_freeLinkWhen {s : State} (h : s.logInOrder) (last : Bool) :
    (s.freeLinkWhen last).logInOrder := by
  unfold State.freeLinkWhen
  split <;> exact h

theorem State.logInOrder_drainResponded {s : State} (h : s.logInOrder) (t : Transaction) (resp : Resp) :
    (s.drainResponded t resp).logInOrder := by
  unfold State.drainResponded
  split
  · exact State.logInOrder_placed h _ fun p => s.poolWriteResponse_poolFrame p resp
  · exact h

theorem State.logInOrder_arriveRead {s : State} (h : s.logInOrder) (a : Word) (data : Lanes) (resp : Resp) :
    (s.arriveRead a data resp).logInOrder := by
  unfold State.arriveRead
  split
  · exact h
  next p _ =>
    obtain ⟨q, al, e⟩ := (s.poolRead p a data resp).1.decideRead_frame p (s.poolRead p a data resp).2 data resp
    rw [e]
    exact State.logInOrder_congr (State.logInOrder_readFrame (s.poolRead_readFrame p a data resp) h) rfl rfl

theorem State.logInOrder_effect {s t : State} (ht : s.Effect t) (h : s.logInOrder) : t.logInOrder := by
  cases ht with
  | hrstRise =>
    obtain ⟨q, e⟩ := State.cut_frame { s with pins := { s.pins with hrst := true } }
    rw [e]
    exact h
  | writeBeat x data mask =>
    refine State.logInOrder_conclude (State.logInOrder_look ?_)
    exact State.logInOrder_placed (s := s.forwarded x data mask) h _ fun p => State.poolWrite_poolFrame _ p mask data
  | writeResponse x resp =>
    refine State.logInOrder_conclude (State.logInOrder_look (State.logInOrder_freeLinkWhen ?_ _))
    exact State.logInOrder_congr (State.logInOrder_placed h _ fun p => s.poolWriteResponse_poolFrame p resp) rfl rfl
  | drainedResponse x resp =>
    refine State.logInOrder_conclude (State.logInOrder_look ?_)
    exact State.logInOrder_congr (State.logInOrder_drainResponded h x resp) rfl rfl
  | lastDrainedResponse x resp =>
    refine State.logInOrder_conclude (State.logInOrder_look ?_)
    exact State.logInOrder_congr (State.logInOrder_drainResponded h x resp) rfl rfl
  | readBeat x data resp =>
    refine State.logInOrder_conclude (State.logInOrder_look (State.logInOrder_freeLinkWhen ?_ _))
    exact State.logInOrder_congr (State.logInOrder_arriveRead h _ data resp) rfl rfl
  | tick =>
    obtain ⟨pacing, owed, e⟩ := s.tick_frame
    rw [e]
    exact h
  | preparationEnd n =>
    rw [s.endPreparation_eq]
    exact h
  | executed u n st results hu => exact State.logInOrder_congr (State.logInOrder_executed h hu) rfl rfl
  | _ => exact h

theorem logInOrder_keptByCommands : KeptByCommands State.logInOrder where
  endBurst _ _ h := State.logInOrder_endBurst h
  underflow s h := by
    unfold State.underflow State.postStep
    split
    · exact h
    · split <;> exact State.logInOrder_conclude (State.logInOrder_look h)
  expireHold s h := by
    unfold State.expireHold
    split
    · exact h
    · exact State.logInOrder_conclude (State.logInOrder_offerFault (s := s.releaseHeld .error) h _)
  grantPassage s t _ _ h := by
    obtain ⟨job, e, -⟩ := s.grantPassage_frame t
    rw [e]
    exact h
  grantReader _ _ _ _ _ h := h
  effect _ _ he h := State.logInOrder_effect he h
  powerOn _ _ _ _ := ⟨Nat.zero_le _, trivial⟩

/-! ## ALERT -/

/-- ALERT agrees with the causes and the mask where none of the three has changed. -/
theorem State.alertAgrees_congr {s t : State} (h : s.alertAgrees) (halert : t.alert = s.alert)
    (hparams : t.params = s.params) : t.alertAgrees := by
  rwa [State.alertAgrees, halert, hparams, ← State.alertAgrees]

theorem State.alertAgrees_endBurst (s : State) : s.endBurst.alertAgrees := by
  unfold State.endBurst
  dsimp only
  split
  · exact State.conclude_alertAgrees _
  · split
    · exact State.conclude_alertAgrees _
    · split <;> exact State.conclude_alertAgrees _

theorem State.alertAgrees_executed {s u : State} (h : s.alertAgrees) (hu : s.Executed u) : u.alertAgrees := by
  cases hu with
  | withdrawal n =>
    by_cases hjob : ∃ j, s.reader.job = some j ∧ j.ref.region = n
    · obtain ⟨j, hj, hn⟩ := hjob
      cases hp : j.phase with
      | claiming =>
        rw [s.disableAccepted_of_claiming n j hj hn hp]
        exact State.conclude_alertAgrees _
      | reading =>
        rw [s.disableAccepted_of_reading n j hj hn hp]
        exact State.conclude_alertAgrees _
    · rw [s.disableAccepted_of_noJob n fun j hj hn => hjob ⟨j, hj, hn⟩]
      exact State.conclude_alertAgrees _
  | forgotten t =>
    obtain ⟨p, -, hp⟩ := s.freeTract_freedOn t
    obtain ⟨job, -, e⟩ := State.overtakeWhere_frame { s with pool := p } fun q => decide (q = t)
    rw [State.forget, hp, e]
    exact State.alertAgrees_congr h rfl rfl
  | repaired t =>
    obtain ⟨p, e⟩ := s.freeVerify_frame t
    unfold State.repair
    rw [e]
    dsimp only
    split
    · exact State.alertAgrees_congr h rfl rfl
    · exact State.conclude_alertAgrees _
  | parameters => exact State.conclude_alertAgrees _
  | cleared mask => exact State.conclude_alertAgrees _
  | restarted => exact State.conclude_alertAgrees _
  | _ => exact State.alertAgrees_congr h rfl rfl

theorem State.alertAgrees_effect {s t : State} (ht : s.Effect t) (h : s.alertAgrees) : t.alertAgrees := by
  cases ht with
  | hrstRise | request | writeBeat | writeResponse | drainedResponse | lastDrainedResponse | readBeat | lastDrainedRead
  | aborted => exact State.conclude_alertAgrees _
  | badCrc n => exact State.alertAgrees_congr (State.conclude_alertAgrees s.frameError) rfl rfl
  | preparationEnd n =>
    rw [s.endPreparation_eq]
    exact State.conclude_alertAgrees _
  | tick =>
    obtain ⟨pacing, owed, e⟩ := s.tick_frame
    rw [e]
    exact State.alertAgrees_congr h rfl rfl
  | executed u n st results hu => exact State.alertAgrees_congr (State.alertAgrees_executed h hu) rfl rfl
  | _ => exact State.alertAgrees_congr h rfl rfl

theorem State.reset_alertAgrees : State.reset.alertAgrees := rfl

theorem alertAgrees_keptByCommands : KeptByCommands State.alertAgrees where
  endBurst s _ _ := s.alertAgrees_endBurst
  underflow s h := by
    unfold State.underflow
    split
    · exact State.alertAgrees_congr h rfl rfl
    · exact State.conclude_alertAgrees _
  expireHold s h := by
    unfold State.expireHold
    split
    · exact h
    · exact State.conclude_alertAgrees _
  grantPassage _ _ _ _ _ := State.conclude_alertAgrees _
  grantReader _ _ _ _ _ _ := State.conclude_alertAgrees _
  effect _ _ he h := State.alertAgrees_effect he h
  powerOn _ _ _ _ := State.alertAgrees_congr State.reset_alertAgrees rfl rfl

/-! ## The obligation -/

/-- Settles O58: the three laws, each kept by everything owed, by every effect of a command, and by a REFCLK period. -/
theorem everyStepKeepsLogAlertAndSearch : Obligations.EveryStepKeepsLogAlertAndSearch := by
  refine fun s t hstep => ⟨fun h => ?log, fun h => ?alert, fun h => ?search⟩
  case log => exact logInOrder_keptByCommands.step (fun _ _ h => h) (fun _ _ h => h) (fun _ _ h => h) h hstep
  case alert => exact alertAgrees_keptByCommands.step (fun _ _ h => h) (fun _ _ h => h) (fun _ _ h => h) h hstep
  case search => exact searched_keptByCommands.step (fun _ _ h => h) (fun _ _ h => h) (fun _ _ h => h) h hstep

end Sys2Proof.Machine
end

