-- ==== Sys2Proof/Proofs/LinkLaws.lean ====
section
/-! PROOFS. Every step keeps the passage's counts and buffer in step, and the memory link with them and with the reader (R43 to R51,
R58 to R60, R115); what is owed comes first (log 3, log 4, log 5); and the state after reset meets all the laws. -/

namespace Sys2Proof.Machine

/-! ## The law of the memory link, in two halves -/

/-- The phase of the reader's job, if it has one. -/
def State.jobPhase (s : State) : Option JobPhase := s.reader.job.map Job.phase

theorem State.jobPhase_eq_reading_iff (s : State) :
    s.jobPhase = some .reading ↔ ∃ j, s.reader.job = some j ∧ j.phase = .reading := by
  simp [State.jobPhase]

theorem State.readerClaims_eq (s : State) : s.readerClaims = decide (s.jobPhase = some .claiming) := by
  unfold State.readerClaims State.jobPhase
  cases s.reader.job <;> simp

/-- The half of the law that says whose burst the link carries (R49, R115). -/
def State.linkHeld (s : State) : Prop :=
  (s.arbiter.link = .passage ↔ s.passageBurst) ∧ (s.arbiter.link = .reader ↔ s.jobPhase = some .reading)

/-- The half of the law that says when a grant stands (R50). -/
def State.grantSound (s : State) : Prop :=
  (s.arbiter.granting ≠ none → s.arbiter.link = .free) ∧
    (s.arbiter.link = .free → ∀ c, s.claims c = true → ∃ d, s.arbiter.granting = some d ∧ s.claims d = true)

theorem State.linkSound_iff (s : State) : s.linkSound ↔ s.linkHeld ∧ s.grantSound := by
  unfold State.linkSound State.linkHeld State.grantSound
  rw [s.jobPhase_eq_reading_iff, and_assoc]

theorem State.linkHeld_congr {s t : State} (h : s.linkHeld) (hlink : t.arbiter.link = s.arbiter.link)
    (hburst : t.passageBurst ↔ s.passageBurst) (hphase : t.jobPhase = some .reading ↔ s.jobPhase = some .reading) :
    t.linkHeld := by
  rwa [State.linkHeld, hlink, hburst, hphase, ← State.linkHeld]

/-- The law reads the arbiter, whether the passage has a burst on the link or claims it, and the phase of the job. -/
theorem State.linkSound_congr {s t : State} (h : s.linkSound) (harbiter : t.arbiter = s.arbiter)
    (hburst : t.passageBurst ↔ s.passageBurst) (hclaims : t.passageClaims = s.passageClaims)
    (hphase : t.jobPhase = s.jobPhase) : t.linkSound := by
  obtain ⟨hheld, hgrant⟩ := s.linkSound_iff.mp h
  have hc : t.claims = s.claims := by
    funext c
    cases c with
    | passage => exact hclaims
    | reader =>
      change t.readerClaims = s.readerClaims
      rw [State.readerClaims_eq, State.readerClaims_eq, hphase]
  refine t.linkSound_iff.mpr ⟨State.linkHeld_congr hheld (by rw [harbiter]) hburst (by rw [hphase]), ?_⟩
  rwa [State.grantSound, harbiter, hc, ← State.grantSound]

/-- The link free, no burst of the passage on it and no job READING. -/
theorem State.linkHeld_of_free {s : State} (hlink : s.arbiter.link = .free) (hburst : ¬s.passageBurst)
    (hphase : s.jobPhase ≠ some .reading) : s.linkHeld := by
  simp [State.linkHeld, hlink, hburst, hphase]

/-! ## The end of a happening -/

theorem State.grantChoice_isSome (s : State) {c : Claimant} (hc : s.claims c = true) :
    ∃ d, s.grantChoice = some d ∧ s.claims d = true := by
  unfold State.grantChoice
  cases hp : s.passageClaims with
  | true =>
    cases hr : s.readerClaims with
    | true => cases decide (s.params.patience ≤ s.arbiter.passedOver) <;> simp [State.claims, hp, hr]
    | false => simp [State.claims, hp]
  | false =>
    cases c with
    | passage => exact absurd hc (by simp [State.claims, hp])
    | reader =>
      have hr : s.readerClaims = true := hc
      simp [State.claims, hr]

/-- The end of a happening makes the grant that the law asks for (R50). -/
theorem State.grantSound_conclude (s : State) : s.conclude.grantSound := by
  refine ⟨fun h => ?_, fun hfree c hc => ?_⟩
  · by_contra hbusy
    exact h (s.grantDue_of_busy hbusy)
  · change ∃ d, s.grantDue = some d ∧ s.claims d = true
    change s.claims c = true at hc
    have hfree : s.arbiter.link = .free := hfree
    unfold State.grantDue
    rw [if_pos hfree]
    cases s.arbiter.granting with
    | none => exact s.grantChoice_isSome hc
    | some d =>
      cases hd : s.claims d with
      | true => exact ⟨d, by simp [hd], hd⟩
      | false => simpa [hd] using s.grantChoice_isSome hc

theorem State.linkSound_conclude {s : State} (h : s.linkHeld) : s.conclude.linkSound :=
  s.conclude.linkSound_iff.mpr ⟨h, s.grantSound_conclude⟩

/-! ## The reader's search -/

theorem State.startJob_jobPhase (s : State) (k : JobKind) (t : TractRef) (st : TractState) :
    (s.startJob k t st).jobPhase = some .claiming := rfl

theorem State.advanceCursor_reader (s : State) (t : TractRef) : (s.advanceCursor t).reader = s.reader := by
  obtain ⟨sc, a, e⟩ := s.advanceCursor_frame t
  rw [e]

/-- A take of an IDLE reader starts a job that claims the link, or none (R119). -/
theorem State.take_not_reading {s : State} (hj : s.reader.job = none) (src : Source) :
    (s.take src).jobPhase ≠ some .reading := by
  cases src with
  | queue =>
    change s.takeFromQueue.jobPhase ≠ _
    unfold State.takeFromQueue
    split
    · simp [State.jobPhase, hj]
    · dsimp only
      split
      · rw [State.startJob_jobPhase]
        decide
      · change s.reader.job.map Job.phase ≠ _
        simp [hj]
  | scrub =>
    change s.takeScrubStep.jobPhase ≠ _
    cases hc : s.scrubber.cursor with
    | none => simp [s.takeScrubStep_of_parked hc, State.stepTaken, State.jobPhase, hj]
    | some t =>
      cases hk : (s.record t).scrubJob with
      | none =>
        rw [s.takeScrubStep_of_spent t hc hk, State.jobPhase, State.advanceCursor_reader]
        simp [State.stepTaken, hj]
      | some k =>
        rw [s.takeScrubStep_of_job t hc k hk, State.startJob_jobPhase]
        decide

theorem State.lookFor_reading_iff (k : Nat) (s : State) :
    (State.lookFor k s).jobPhase = some .reading ↔ s.jobPhase = some .reading := by
  induction k generalizing s with
  | zero => rfl
  | succ k ih =>
    cases hj : s.reader.job with
    | some j => rw [State.lookFor_of_busy _ s hj]
    | none =>
      cases hsrc : s.nextSource with
      | none => rw [State.lookFor_of_none _ s hsrc]
      | some src =>
        rw [State.lookFor_of_source k s hj hsrc, ih]
        exact iff_of_false (State.take_not_reading hj src) (by simp [State.jobPhase, hj])

theorem State.linkHeld_look {s : State} (h : s.linkHeld) : s.look.linkHeld := by
  refine State.linkHeld_congr h (by rw [s.look_arbiter]) ?_ (State.lookFor_reading_iff _ s)
  simp only [State.passageBurst, s.look_passage]

/-! ## What a happening owes -/

theorem State.completeJob_frame (s : State) (j : Job) :
    ∃ st l a, s.completeJob j = { s with store := st, log := l, alert := a } := by
  by_cases hk : j.kind = .verify
  · rw [s.completeJob_of_verify j hk]
    split
    · exact ⟨_, _, _, rfl⟩
    · obtain ⟨l, a, e⟩ := (s.setTractState j.ref .faulted).offerFault_frame
        ⟨.scrubMismatch, j.ref, s.tractAddr j.ref, some (s.record j.ref).check,
          some (crcFinal (s.region j.ref.region).width j.rem), s.timebase.tickCounter, none⟩
      exact ⟨_, l, a, e⟩
  · rw [s.completeJob_of_not_verify j hk]
    split <;> exact ⟨_, _, _, rfl⟩

/-- The end of a reader burst frees the link of a job that is READING no longer (R49, R122). -/
theorem State.linkSound_endBurst {s : State} (h : s.linkSound) (ho : s.burstEndOwed = true) : s.endBurst.linkSound := by
  obtain ⟨⟨hpassage, hreader⟩, -⟩ := s.linkSound_iff.mp h
  simp only [State.burstEndOwed, Bool.and_eq_true, Bool.or_eq_true, decide_eq_true_eq] at ho
  have hburst : ¬s.passageBurst := fun hb => by
    have := hpassage.mpr hb
    simp [this] at ho
  have hreleased {t : State} (hlink : t.arbiter.link = .free) (hpass : t.passage = s.passage)
      (hphase : t.jobPhase ≠ some .reading) : t.linkHeld :=
    State.linkHeld_of_free hlink (by rwa [State.passageBurst, hpass, ← State.passageBurst]) hphase
  unfold State.endBurst
  dsimp only
  split
  next hd =>
    refine State.linkSound_conclude (hreleased rfl rfl fun hp => ?_)
    have := hreader.mpr hp
    simp [hd] at this
  next =>
    split
    next hj => exact State.linkSound_conclude (hreleased rfl rfl (by simp [State.jobPhase, State.releaseReaderLink, hj]))
    next j _ =>
      split
      · exact State.linkSound_conclude (State.linkHeld_look (hreleased rfl rfl nofun))
      · refine State.linkSound_conclude ?_
        unfold State.endJobBurst
        split
        next off _ =>
          refine State.linkHeld_look (hreleased ?_ ?_ nofun)
          · exact congrArg Arbiter.link (s.releaseReaderLink.offerFault_arbiter _)
          · exact s.releaseReaderLink.offerFault_passage _
        next =>
          split
          · exact hreleased rfl rfl nofun
          · obtain ⟨st, l, a, e⟩ := s.releaseReaderLink.completeJob_frame j
            rw [e]
            exact State.linkHeld_look (hreleased rfl rfl nofun)

theorem State.linkSound_underflow {s : State} (h : s.linkSound) : s.underflow.linkSound := by
  obtain ⟨hheld, -⟩ := s.linkSound_iff.mp h
  unfold State.underflow
  split
  · exact State.linkSound_congr h rfl Iff.rfl rfl rfl
  · obtain ⟨-, harbiter, hpassage, hreader⟩ := s.reloadPacing.postStep_frame
    refine State.linkSound_conclude (State.linkHeld_look (State.linkHeld_congr hheld ?_ ?_ ?_))
    · rw [harbiter]
      rfl
    · simp only [State.passageBurst, hpassage]
      rfl
    · rw [State.jobPhase, hreader]
      rfl

theorem State.linkSound_expireHold {s : State} (h : s.linkSound) : s.expireHold.linkSound := by
  obtain ⟨hheld, -⟩ := s.linkSound_iff.mp h
  unfold State.expireHold
  split
  · exact h
  · obtain ⟨l, a, e⟩ := (s.releaseHeld .error).offerFault_frame _
    rw [e]
    exact State.linkSound_conclude (State.linkHeld_congr hheld rfl Iff.rfl Iff.rfl)

/-- The burst end, the underflow and the hold timeout keep the law. -/
theorem State.linkSound_settleEffects {s : State} (h : s.linkSound) : s.settleEffects.linkSound := by
  have hb : s.settleBurst.linkSound := by
    unfold State.settleBurst
    split
    next ho => exact State.linkSound_endBurst h ho
    next => exact h
  have hu : s.settleBurst.settleUnderflow.linkSound := by
    unfold State.settleUnderflow
    split
    · exact State.linkSound_underflow hb
    · exact hb
  unfold State.settleEffects State.settleTimeout
  split
  · exact State.linkSound_expireHold hu
  · exact hu

/-- The grant to the passage: its burst, of one beat at least, is on the link that was free (R45, R49). -/
theorem State.linkSound_grantPassage {s : State} (h : s.linkSound) {t : Transaction}
    (hg : s.arbiter.granting = some .passage) (hbeats : t.arrived < t.beats) : (s.grantPassage t).linkSound := by
  obtain ⟨⟨-, hreader⟩, hfree, -⟩ := s.linkSound_iff.mp h
  have hlink := hfree (by simp [hg])
  have hphase : s.jobPhase ≠ some .reading := fun hp => by simp [hreader.mpr hp] at hlink
  obtain ⟨job, e, hjob⟩ := s.grantPassage_frame t
  rw [e]
  refine State.linkSound_conclude ⟨by simpa [State.passageBurst] using hbeats, ?_⟩
  suffices hp : job.map Job.phase ≠ some .reading by simpa [State.jobPhase] using hp
  obtain rfl | ⟨j, hj, rfl⟩ := hjob
  · exact hphase
  · simpa [State.jobPhase, hj] using hphase

/-- The grant to the reader: its job is READING and the link, which was free, its own (R49, R120). -/
theorem State.linkSound_grantReader {s : State} (h : s.linkSound) {j : Job} (hg : s.arbiter.granting = some .reader) :
    (s.grantReader j).linkSound := by
  obtain ⟨⟨hpassage, -⟩, hfree, -⟩ := s.linkSound_iff.mp h
  have hlink := hfree (by simp [hg])
  have hburst : ¬s.passageBurst := fun hb => by simp [hpassage.mpr hb] at hlink
  rw [State.grantReader_eq]
  exact State.linkSound_conclude ⟨by simpa [State.passageBurst] using hburst, by simp [State.jobPhase]⟩

end Sys2Proof.Machine
end

