-- ==== Sys2Proof/Proofs/PassageLaws.lean ====
section
/-! PROOFS. The transaction's counts and the beat buffer under everything a command carries out (R43 to R48, R58 to R60), and with them
the law of the memory link: the two obligations about the laws of passage and link, and the state after reset. -/

namespace Sys2Proof.Machine

/-! ## The laws by the passage's state -/

section ByState

variable {s : State}

theorem State.passageSound_of_idle (h : s.passage.state = .idle) : s.passageSound ↔ s.passage.buffer = [] := by
  simp [State.passageSound, h]

theorem State.passageSound_of_claiming {t : Transaction} (h : s.passage.state = .claiming t) :
    s.passageSound ↔ s.passage.buffer = [] ∧ 1 ≤ t.beats ∧ t.beats ≤ 16 ∧ t.forwarded = 0 ∧ t.padded = 0 ∧
      t.arrived = 0 ∧ t.delivered = 0 := by
  simp [State.passageSound, h]

theorem State.passageSound_of_carrying {t : Transaction} (h : s.passage.state = .carrying t) :
    s.passageSound ↔ t.delivered + s.passage.buffer.length = t.arrived ∧ t.arrived ≤ t.beats ∧ t.beats ≤ 16 ∧
      (t.dir = .write → t.arrived ≤ t.forwarded ∧ t.forwarded ≤ t.beats ∧ t.padded = 0) := by
  simp [State.passageSound, h]

theorem State.passageSound_of_draining {t : Transaction} (h : s.passage.state = .draining t) :
    s.passageSound ↔ s.passage.buffer = [] ∧ t.arrived < t.beats ∧ t.beats ≤ 16 ∧
      (t.dir = .write → t.arrived ≤ t.forwarded + t.padded ∧ t.forwarded + t.padded ≤ t.beats) := by
  simp [State.passageSound, h]

theorem State.passageBurst_of_carrying {t : Transaction} (h : s.passage.state = .carrying t) :
    s.passageBurst ↔ t.arrived < t.beats := by simp [State.passageBurst, h]

theorem State.passageBurst_of_draining {t : Transaction} (h : s.passage.state = .draining t) : s.passageBurst := by
  simp [State.passageBurst, h]

theorem State.not_passageBurst_of_idle (h : s.passage.state = .idle) : ¬s.passageBurst := by
  simp [State.passageBurst, h]

theorem State.not_passageBurst_of_claiming {t : Transaction} (h : s.passage.state = .claiming t) : ¬s.passageBurst := by
  simp [State.passageBurst, h]

end ByState

/-- The law of the passage reads its state and the length of the buffer. -/
theorem State.passageSound_congr {s t : State} (h : s.passageSound) (hstate : t.passage.state = s.passage.state)
    (hlength : t.passage.buffer.length = s.passage.buffer.length) : t.passageSound := by
  unfold State.passageSound at h ⊢
  rwa [hstate, ← List.length_eq_zero_iff, hlength, List.length_eq_zero_iff]

theorem State.passageSound_sameRest {s t : State} (h : s.passageSound) (hrest : s.SameRest t) : t.passageSound :=
  State.passageSound_congr h (by rw [hrest.passage]) (by rw [hrest.passage])

/-! ## What the pool's handling of a beat leaves -/

theorem State.placed_poolFrame (s : State) (a : Word) {f : State → Place → State} (h : ∀ p, s.poolFrame (f s p)) :
    s.poolFrame (s.placed a f) := by
  unfold State.placed
  split
  · exact .refl s
  · exact h _

theorem State.written_poolFrame (s : State) (t : Transaction) (data : Lanes) (mask : BitVec 4) :
    (s.forwarded t data mask).poolFrame
      ((s.forwarded t data mask).placed (t.beatAddr t.forwarded) fun u p => u.poolWrite p mask data) :=
  (s.forwarded t data mask).placed_poolFrame _ fun p => (s.forwarded t data mask).poolWrite_poolFrame p mask data

theorem State.responded_poolFrame (s : State) (t : Transaction) (resp : Resp) : s.poolFrame (s.responded t resp) :=
  s.placed_poolFrame _ fun p => s.poolWriteResponse_poolFrame p resp

theorem State.drainResponded_poolFrame (s : State) (t : Transaction) (resp : Resp) :
    s.poolFrame (s.drainResponded t resp) := by
  unfold State.drainResponded
  split
  · exact s.responded_poolFrame t resp
  · exact .refl s

theorem State.readFrame.link {s v : State} (h : s.readFrame v) :
    v.passage = s.passage ∧ v.arbiter = s.arbiter ∧ v.reader = s.reader := by
  obtain ⟨p, q, st, l, a, rfl⟩ := h.eq
  exact ⟨rfl, rfl, rfl⟩

/-- The decision on a read beat puts one entry into the buffer, and can begin a hold (R91, R96). -/
theorem State.decideRead_push (s : State) (p : Place) (v : Option Verdict) (data : Lanes) (resp : Resp) :
    ∃ e hold a, s.decideRead p v data resp =
      { s with passage := ⟨s.passage.state, s.passage.buffer ++ [e], hold⟩, alert := a } := by
  unfold State.decideRead
  split
  · split <;> exact ⟨_, _, _, rfl⟩
  · exact ⟨_, _, _, rfl⟩

/-- A read beat's arrival puts one entry into the buffer and leaves the link as it is (R47). -/
theorem State.arriveRead_push (s : State) (a : Word) (data : Lanes) (resp : Resp) :
    (s.arriveRead a data resp).passage.state = s.passage.state ∧
      (s.arriveRead a data resp).passage.buffer.length = s.passage.buffer.length + 1 ∧
      (s.arriveRead a data resp).arbiter = s.arbiter ∧ (s.arriveRead a data resp).reader = s.reader := by
  unfold State.arriveRead
  split
  · exact ⟨rfl, List.length_append, rfl, rfl⟩
  next p _ =>
    obtain ⟨hp, ha, hr⟩ := (s.poolRead_readFrame p a data resp).link
    obtain ⟨e, hold, al, hd⟩ := (s.poolRead p a data resp).1.decideRead_push p (s.poolRead p a data resp).2 data resp
    rw [hd]
    exact ⟨by rw [hp], by simp [hp], ha, hr⟩

/-! ## The passage's law under everything a command carries out -/

theorem State.look_conclude_passage (s : State) : s.look.conclude.passage = s.passage := s.look_passage

theorem State.freeLinkWhen_passage (s : State) (last : Bool) : (s.freeLinkWhen last).passage = s.passage := by
  unfold State.freeLinkWhen
  split <;> rfl

/-- The end of a reader burst leaves the passage and the queue of commands (R49, R122). -/
theorem State.endBurst_keeps (s : State) : s.endBurst.passage = s.passage ∧ s.endBurst.pending = s.pending := by
  have hlook (u : State) : u.look.conclude.passage = u.passage ∧ u.look.conclude.pending = u.pending := by
    obtain ⟨q, st, r, sc, a, e⟩ := u.look_frame
    rw [e]
    exact ⟨rfl, rfl⟩
  unfold State.endBurst
  dsimp only
  split
  · exact ⟨rfl, rfl⟩
  · split
    · exact ⟨rfl, rfl⟩
    next j _ =>
      split
      · exact hlook _
      · unfold State.endJobBurst
        split
        next off _ =>
          obtain ⟨l, a, e⟩ := s.releaseReaderLink.offerFault_frame
            ⟨.readerError, j.ref, s.releaseReaderLink.tractAddr j.ref, none, none,
              s.releaseReaderLink.timebase.tickCounter, some off⟩
          rw [e]
          exact hlook _
        next =>
          split
          · exact ⟨rfl, rfl⟩
          · obtain ⟨st, l, a, e⟩ := s.releaseReaderLink.completeJob_frame j
            rw [e]
            exact hlook _

theorem State.passageSound_releaseHeld {s : State} (h : s.passageSound) (r : Resp) : (s.releaseHeld r).passageSound :=
  State.passageSound_congr h rfl (by simp [State.releaseHeld])

theorem State.passageSound_expireHold {s : State} (h : s.passageSound) : s.expireHold.passageSound := by
  unfold State.expireHold
  split
  · exact h
  · obtain ⟨l, a, e⟩ := (s.releaseHeld .error).offerFault_frame _
    rw [e]
    exact State.passageSound_releaseHeld h .error

/-- The grant to the passage: nothing has been forwarded or has arrived yet (R45). -/
theorem State.passageSound_grantPassage {s : State} (h : s.passageSound) {t : Transaction}
    (hc : s.passage.state = .claiming t) : (s.grantPassage t).passageSound := by
  obtain ⟨hbuffer, -, hmax, hforwarded, hpadded, harrived, hdelivered⟩ := (State.passageSound_of_claiming hc).mp h
  obtain ⟨job, e, -⟩ := s.grantPassage_frame t
  rw [e]
  refine (State.passageSound_of_carrying (t := t) rfl).mpr ?_
  change t.delivered + s.passage.buffer.length = t.arrived ∧ _
  simp [hbuffer, hforwarded, hpadded, harrived, hdelivered, hmax]

theorem State.passageSound_executed {s u : State} (h : s.passageSound) (hu : s.Executed u) : u.passageSound := by
  cases hu with
  | withdrawal n => exact State.passageSound_sameRest h (s.disableAccepted_sameRest n)
  | forgotten t => exact State.passageSound_sameRest h (s.forget_sameRest t)
  | repaired t => exact State.passageSound_sameRest h (s.repair_sameRest t)
  | released r => exact State.passageSound_releaseHeld h r
  | restarted =>
    rw [s.restart_eq]
    change s.restartPassage.passageSound
    unfold State.restartPassage
    split
    · exact State.passageSound_releaseHeld h .error
    · exact h
  | _ => exact h

/-- The offered response is the oldest in the buffer (R47). -/
theorem State.buffer_of_offered {s : State} {d : HostDelivery} (h : s.offered = some d) :
    ∃ rest, s.passage.buffer = ⟨some d.resp, d.data⟩ :: rest := by
  unfold State.offered at h
  split at h
  next hb =>
    obtain rfl := Option.some.inj h
    exact ⟨_, hb⟩
  next => cases h

theorem State.passageSound_effect {s u : State} (hu : s.Effect u) (h : s.passageSound) : u.passageSound := by
  cases hu with
  | hrstRise =>
    change (State.cut { s with pins := { s.pins with hrst := true } }).passageSound
    unfold State.cut
    split
    · exact h
    next hc => exact (State.passageSound_of_idle rfl).mpr ((State.passageSound_of_claiming hc).mp h).1
    next t hc =>
      obtain ⟨-, -, hmax, hwrite⟩ := (State.passageSound_of_carrying hc).mp h
      split
      next hlt =>
        refine (State.passageSound_of_draining (t := { t with cut := true }) rfl).mpr ⟨rfl, hlt, hmax, fun hd => ?_⟩
        obtain ⟨ha, hf, hp⟩ := hwrite hd
        change t.arrived ≤ t.forwarded + t.padded ∧ t.forwarded + t.padded ≤ t.beats
        omega
      next => exact (State.passageSound_of_idle rfl).mpr rfl
    · exact h
  | request addr n dir hidle =>
    refine (State.passageSound_of_claiming rfl).mpr ⟨(State.passageSound_of_idle hidle).mp h, ?_, ?_, rfl, rfl, rfl, rfl⟩
    · exact Nat.le_add_left 1 _
    · exact n.isLt
  | writeBeat t data mask hc hd hlt =>
    obtain ⟨hbuffer, hle, hmax, hwrite⟩ := (State.passageSound_of_carrying hc).mp h
    obtain ⟨ha, -, hp⟩ := hwrite hd
    obtain ⟨hpass, -, -⟩ := (s.written_poolFrame t data mask).readFrame.link
    rw [State.passageSound, State.look_conclude_passage, hpass]
    exact ⟨hbuffer, hle, hmax, fun _ => ⟨Nat.le_succ_of_le ha, hlt, hp⟩⟩
  | writeResponse t resp hc hd hlt =>
    obtain ⟨hbuffer, hle, hmax, hwrite⟩ := (State.passageSound_of_carrying hc).mp h
    obtain ⟨-, hf, hp⟩ := hwrite hd
    obtain ⟨hpass, -, -⟩ := (s.responded_poolFrame t resp).readFrame.link
    rw [State.passageSound, State.look_conclude_passage, State.freeLinkWhen_passage]
    refine ⟨?_, hlt.trans_le hf, hmax, fun _ => ⟨hlt, hf, hp⟩⟩
    simp only [State.pushBuffer_passage, State.setPassage_passage, List.length_append, hpass, ← hbuffer]
    exact (Nat.add_assoc _ _ _).symm
  | drainedResponse t resp hc hd hlt hmore =>
    obtain ⟨hbuffer, hlast, hmax, hwrite⟩ := (State.passageSound_of_draining hc).mp h
    obtain ⟨hpass, -, -⟩ := (s.drainResponded_poolFrame t resp).readFrame.link
    rw [State.passageSound, State.look_conclude_passage, State.setPassage_passage, hpass]
    exact ⟨hbuffer, lt_of_le_of_ne hlast hmore, hmax, fun _ => ⟨hlt, (hwrite hd).2⟩⟩
  | lastDrainedResponse t resp hc =>
    obtain ⟨hbuffer, -⟩ := (State.passageSound_of_draining hc).mp h
    obtain ⟨hpass, -, -⟩ := (s.drainResponded_poolFrame t resp).readFrame.link
    rw [State.passageSound, State.look_conclude_passage]
    exact (congrArg Passage.buffer hpass).trans hbuffer
  | padding t hc hd hlt =>
    obtain ⟨hbuffer, hlast, hmax, hwrite⟩ := (State.passageSound_of_draining hc).mp h
    exact (State.passageSound_of_draining (t := { t with padded := t.padded + 1 }) rfl).mpr
      ⟨hbuffer, hlast, hmax, fun _ => ⟨(hwrite hd).1.trans (Nat.le_succ _), hlt⟩⟩
  | readBeat t data resp hc hd hlt =>
    obtain ⟨hbuffer, -, hmax, -⟩ := (State.passageSound_of_carrying hc).mp h
    obtain ⟨-, hlength, -, -⟩ := s.arriveRead_push (t.beatAddr t.arrived) data resp
    rw [State.passageSound, State.look_conclude_passage, State.freeLinkWhen_passage]
    refine ⟨?_, hlt, hmax, fun hw => absurd (hd.symm.trans hw) (by decide)⟩
    change t.delivered + (s.arriveRead (t.beatAddr t.arrived) data resp).passage.buffer.length = t.arrived + 1
    omega
  | drainedRead t hc hd hmore =>
    obtain ⟨hbuffer, -, hmax, -⟩ := (State.passageSound_of_draining hc).mp h
    exact (State.passageSound_of_draining (t := { t with arrived := t.arrived + 1 }) rfl).mpr
      ⟨hbuffer, hmore, hmax, fun hw => absurd (hd.symm.trans hw) (by decide)⟩
  | lastDrainedRead t hc => exact (State.passageSound_of_idle rfl).mpr ((State.passageSound_of_draining hc).mp h).1
  | delivery t d hc ho =>
    obtain ⟨hbuffer, hrest⟩ := (State.passageSound_of_carrying hc).mp h
    obtain ⟨rest, hb⟩ := State.buffer_of_offered ho
    refine (State.passageSound_of_carrying (t := { t with delivered := t.delivered + 1 }) rfl).mpr ⟨?_, hrest⟩
    change t.delivered + 1 + s.passage.buffer.tail.length = t.arrived
    rw [hb, List.length_cons] at hbuffer
    rw [hb, List.tail_cons]
    omega
  | lastDelivery t d _ _ hlast => exact (State.passageSound_of_idle rfl).mpr hlast.2
  | tick =>
    obtain ⟨pacing, owed, e⟩ := s.tick_frame
    rw [e]
    exact h
  | preparationEnd n =>
    rw [s.endPreparation_eq]
    exact h
  | executed u n st results hu => exact State.passageSound_congr (State.passageSound_executed h hu) rfl rfl
  | _ => exact h

/-! ## The law of the link under the effects of a command -/

/-- A restart detaches a reader burst and removes the job; the passage's burst stays (R61, R126, R189). -/
theorem State.linkHeld_restart {s : State} (h : s.linkHeld) : s.restart.linkHeld := by
  obtain ⟨hpassage, -⟩ := h
  have hstate : s.restartPassage.passage.state = s.passage.state := by
    unfold State.restartPassage
    split <;> rfl
  rw [s.restart_eq]
  refine ⟨?_, ?_⟩
  · simp only [State.passageBurst, State.conclude_passage, hstate]
    refine Iff.trans ?_ hpassage
    cases s.arbiter.link <;> simp [LinkUser.detach]
  · cases s.arbiter.link <;> simp [LinkUser.detach, State.jobPhase]

theorem State.linkSound_executed {s u : State} (h : s.linkSound) (hu : s.Executed u) : u.linkSound := by
  obtain ⟨hheld, -⟩ := s.linkSound_iff.mp h
  cases hu with
  | parameters p => exact State.linkSound_conclude (State.linkHeld_congr hheld rfl Iff.rfl Iff.rfl)
  | withdrawal n =>
    obtain ⟨p, -, hw⟩ := s.withdrawn_eq_outOfTracking n
    by_cases hjob : ∃ j, s.reader.job = some j ∧ j.ref.region = n
    · obtain ⟨j, hj, hn⟩ := hjob
      cases hp : j.phase with
      | claiming =>
        rw [s.disableAccepted_of_claiming n j hj hn hp, hw]
        refine State.linkSound_conclude (State.linkHeld_look (State.linkHeld_congr hheld rfl Iff.rfl ?_))
        exact iff_of_false nofun (by simp [State.jobPhase, hj, hp])
      | reading =>
        rw [s.disableAccepted_of_reading n j hj hn hp, hw]
        refine State.linkSound_conclude (State.linkHeld_congr hheld rfl Iff.rfl ?_)
        exact iff_of_true (congrArg some hp) (by simp [State.jobPhase, hj, hp])
    · rw [s.disableAccepted_of_noJob n fun j hj hn => hjob ⟨j, hj, hn⟩, hw]
      exact State.linkSound_conclude (State.linkHeld_congr hheld rfl Iff.rfl Iff.rfl)
  | forgotten t =>
    obtain ⟨p, -, hp⟩ := s.freeTract_freedOn t
    obtain ⟨job, hjob, e⟩ := State.overtakeWhere_frame { s with pool := p } fun q => decide (q = t)
    rw [State.forget, hp, e]
    refine State.linkSound_congr h rfl Iff.rfl rfl ?_
    change job.map Job.phase = s.reader.job.map Job.phase
    obtain rfl | ⟨j, hj, rfl⟩ := hjob
    · rfl
    · exact (congrArg (Option.map Job.phase) hj).symm
  | repaired t =>
    obtain ⟨p, e⟩ := s.freeVerify_frame t
    unfold State.repair
    rw [e]
    dsimp only
    split
    · exact State.linkSound_congr h rfl Iff.rfl rfl rfl
    · exact State.linkSound_conclude (State.linkHeld_look (State.linkHeld_congr hheld rfl Iff.rfl Iff.rfl))
  | cleared mask => exact State.linkSound_conclude (State.linkHeld_congr hheld rfl Iff.rfl Iff.rfl)
  | restarted => exact (State.linkSound_iff _).mpr ⟨State.linkHeld_restart hheld, State.grantSound_conclude _⟩
  | _ => exact State.linkSound_congr h rfl Iff.rfl rfl rfl

section Arrivals

variable {s : State} (h : s.linkHeld)
include h

/-- While the passage's burst is on the link no job is READING. -/
theorem State.linkHeld.not_reading (hburst : s.passageBurst) : s.jobPhase ≠ some .reading := fun hp => by
  obtain ⟨hpassage, hreader⟩ := h
  have := (hpassage.mpr hburst).symm.trans (hreader.mpr hp)
  cases this

/-- An arrival in CARRYING: the last one frees the link, and the burst is no longer on it (R49). -/
theorem State.linkHeld.arrival {v : State} {t : Transaction} (hc : s.passage.state = .carrying t)
    (hlt : t.arrived < t.beats) (hstate : v.passage.state = .carrying { t with arrived := t.arrived + 1 })
    (harbiter : v.arbiter = s.arbiter) (hreader : v.reader = s.reader) :
    (v.freeLinkWhen (t.arrived + 1 = t.beats)).linkHeld := by
  have hburst : s.passageBurst := (State.passageBurst_of_carrying hc).mpr hlt
  have hphase : v.jobPhase = s.jobPhase := by rw [State.jobPhase, hreader, ← State.jobPhase]
  have hv : v.passageBurst ↔ t.arrived + 1 < t.beats := State.passageBurst_of_carrying hstate
  unfold State.freeLinkWhen
  split
  next hlast =>
    have hlast : t.arrived + 1 = t.beats := by simpa using hlast
    refine State.linkHeld_of_free rfl (fun hb => ?_) ?_
    · have := hv.mp hb
      omega
    · exact hphase ▸ h.not_reading hburst
  next hmore =>
    have hmore : t.arrived + 1 ≠ t.beats := by simpa using hmore
    refine State.linkHeld_congr h (by rw [harbiter]) ?_ (by rw [hphase])
    exact iff_of_true (hv.mpr (by omega)) hburst

/-- The last arrival in DRAINING frees the link and leaves the passage IDLE (R60). -/
theorem State.linkHeld.drained {v : State} {t : Transaction} (hc : s.passage.state = .draining t)
    (hreader : v.reader = s.reader) : ((v.setPassage .idle).freeLink).linkHeld := by
  refine State.linkHeld_of_free rfl (State.not_passageBurst_of_idle rfl) ?_
  change v.reader.job.map Job.phase ≠ _
  rw [hreader]
  exact h.not_reading (State.passageBurst_of_draining hc)

end Arrivals

theorem State.linkSound_effect {s u : State} (hu : s.Effect u) (hp : s.passageSound) (h : s.linkSound) : u.linkSound := by
  obtain ⟨hheld, -⟩ := s.linkSound_iff.mp h
  cases hu with
  | hrstRise =>
    refine State.linkSound_conclude ?_
    have hburst : (State.cut { s with pins := { s.pins with hrst := true } }).passageBurst ↔ s.passageBurst := by
      unfold State.cut
      split
      · exact Iff.rfl
      next hc => exact iff_of_false (State.not_passageBurst_of_idle rfl) (State.not_passageBurst_of_claiming hc)
      next t hc =>
        split
        next hlt => exact iff_of_true (State.passageBurst_of_draining rfl) ((State.passageBurst_of_carrying hc).mpr hlt)
        next hge =>
          exact iff_of_false (State.not_passageBurst_of_idle rfl) fun hb => hge ((State.passageBurst_of_carrying hc).mp hb)
      · exact Iff.rfl
    obtain ⟨q, e⟩ := State.cut_frame { s with pins := { s.pins with hrst := true } }
    rw [e] at hburst ⊢
    exact State.linkHeld_congr hheld rfl hburst Iff.rfl
  | request addr n dir hidle =>
    refine State.linkSound_conclude (State.linkHeld_congr hheld rfl ?_ Iff.rfl)
    exact iff_of_false (State.not_passageBurst_of_claiming rfl) (State.not_passageBurst_of_idle hidle)
  | writeBeat t data mask hc =>
    obtain ⟨hpass, harbiter, hreader⟩ := (s.written_poolFrame t data mask).readFrame.link
    refine State.linkSound_conclude (State.linkHeld_look (State.linkHeld_congr hheld ?_ ?_ ?_))
    · rw [harbiter]
      rfl
    · rw [State.passageBurst_of_carrying hc, State.passageBurst, hpass]
      rfl
    · rw [State.jobPhase, hreader]
      rfl
  | writeResponse t resp hc hd hlt =>
    obtain ⟨-, -, -, hwrite⟩ := (State.passageSound_of_carrying hc).mp hp
    obtain ⟨-, hf, -⟩ := hwrite hd
    obtain ⟨-, harbiter, hreader⟩ := (s.responded_poolFrame t resp).readFrame.link
    exact State.linkSound_conclude (State.linkHeld_look (hheld.arrival hc (hlt.trans_le hf) rfl harbiter hreader))
  | drainedResponse t resp hc =>
    obtain ⟨-, harbiter, hreader⟩ := (s.drainResponded_poolFrame t resp).readFrame.link
    refine State.linkSound_conclude (State.linkHeld_look (State.linkHeld_congr hheld ?_ ?_ ?_))
    · exact congrArg Arbiter.link harbiter
    · exact iff_of_true (State.passageBurst_of_draining rfl) (State.passageBurst_of_draining hc)
    · change (s.drainResponded t resp).reader.job.map Job.phase = _ ↔ _
      rw [hreader]
      rfl
  | lastDrainedResponse t resp hc =>
    obtain ⟨-, -, hreader⟩ := (s.drainResponded_poolFrame t resp).readFrame.link
    exact State.linkSound_conclude (State.linkHeld_look (hheld.drained hc hreader))
  | padding t hc =>
    refine State.linkSound_congr h rfl ?_ (by simp [State.passageClaims, hc]) rfl
    exact iff_of_true (State.passageBurst_of_draining rfl) (State.passageBurst_of_draining hc)
  | readBeat t data resp hc hd hlt =>
    obtain ⟨-, -, harbiter, hreader⟩ := s.arriveRead_push (t.beatAddr t.arrived) data resp
    exact State.linkSound_conclude (State.linkHeld_look (hheld.arrival hc hlt rfl harbiter hreader))
  | drainedRead t hc =>
    refine State.linkSound_congr h rfl ?_ (by simp [State.passageClaims, hc]) rfl
    exact iff_of_true (State.passageBurst_of_draining rfl) (State.passageBurst_of_draining hc)
  | lastDrainedRead t hc => exact State.linkSound_conclude (hheld.drained hc rfl)
  | delivery t d hc =>
    refine State.linkSound_congr h rfl ?_ (by simp [State.passageClaims, hc]) rfl
    rw [State.passageBurst_of_carrying hc]
    rfl
  | lastDelivery t d hc _ hlast =>
    refine State.linkSound_congr h rfl ?_ (by simp [State.passageClaims, hc]) rfl
    refine iff_of_false (State.not_passageBurst_of_idle rfl) fun hb => ?_
    have := (State.passageBurst_of_carrying hc).mp hb
    omega
  | readerBeat j data resp hj =>
    obtain ⟨rem, off, e⟩ := j.takeBeat_frame (s.region j.ref.region) s.reader.burstBeats data resp
    refine State.linkSound_congr h rfl Iff.rfl rfl ?_
    rw [e]
    exact (congrArg (Option.map Job.phase) hj).symm
  | tick =>
    obtain ⟨pacing, owed, e⟩ := s.tick_frame
    rw [e]
    exact State.linkSound_congr h rfl Iff.rfl rfl rfl
  | preparationEnd n =>
    rw [s.endPreparation_eq]
    exact State.linkSound_conclude (State.linkHeld_congr hheld rfl Iff.rfl Iff.rfl)
  | executed u n st results hu => exact State.linkSound_congr (State.linkSound_executed h hu) rfl Iff.rfl rfl rfl
  | badCrc n =>
    have hframe : s.frameError.conclude.linkSound :=
      State.linkSound_conclude (State.linkHeld_congr hheld rfl Iff.rfl Iff.rfl)
    exact State.linkSound_congr hframe rfl Iff.rfl rfl rfl
  | aborted n => exact State.linkSound_conclude (State.linkHeld_congr hheld rfl Iff.rfl Iff.rfl)
  | _ => exact State.linkSound_congr h rfl Iff.rfl rfl rfl

/-- The laws of the passage and of the link together: the grant's part of the one needs the other. -/
theorem passageAndLink_keptByCommands : KeptByCommands fun s => s.passageSound ∧ s.linkSound where
  endBurst s ho h := by
    obtain ⟨hpassage, -⟩ := s.endBurst_keeps
    exact ⟨State.passageSound_congr h.1 (by rw [hpassage]) (by rw [hpassage]), State.linkSound_endBurst h.2 ho⟩
  underflow s h := by
    obtain ⟨-, -, hpassage⟩ := s.underflow_frame
    exact ⟨State.passageSound_congr h.1 (by rw [hpassage]) (by rw [hpassage]), State.linkSound_underflow h.2⟩
  expireHold s h := ⟨State.passageSound_expireHold h.1, State.linkSound_expireHold h.2⟩
  grantPassage s t hg hc h := by
    refine ⟨State.passageSound_grantPassage h.1 hc, State.linkSound_grantPassage h.2 hg ?_⟩
    obtain ⟨-, hbeats, -, -, -, harrived, -⟩ := (State.passageSound_of_claiming hc).mp h.1
    omega
  grantReader s j hg _ _ h := ⟨h.1, State.linkSound_grantReader h.2 hg⟩
  effect _ _ he h := ⟨State.passageSound_effect he h.1, State.linkSound_effect he h.1 h.2⟩
  powerOn s _ _ _ :=
    ⟨rfl, (State.linkSound_iff _).mpr ⟨State.linkHeld_of_free rfl (State.not_passageBurst_of_idle rfl) nofun, nofun,
      fun _ c hc => by cases c <;> cases hc⟩⟩

/-- Settles O59: both laws at once, kept by everything owed, by every effect of a command, and by a REFCLK period. -/
theorem everyStepKeepsPassageAndLinkInStep : Obligations.EveryStepKeepsPassageAndLinkInStep := by
  intro s t hpassage hlink hstep
  exact passageAndLink_keptByCommands.step
    (fun _ _ h => ⟨h.1, State.linkSound_congr h.2 rfl Iff.rfl rfl rfl⟩)
    (fun _ _ h => ⟨h.1, State.linkSound_congr h.2 rfl Iff.rfl rfl rfl⟩)
    (fun _ _ h => ⟨h.1, State.linkSound_congr h.2 rfl Iff.rfl rfl rfl⟩) ⟨hpassage, hlink⟩ hstep

theorem State.reset_linkSound : State.reset.linkSound :=
  (State.linkSound_iff _).mpr ⟨State.linkHeld_of_free rfl (State.not_passageBurst_of_idle rfl) nofun, nofun,
    fun _ c hc => by cases c <;> cases hc⟩

/-- Settles O60: each law holds of the blocks as the release of RSTN leaves them. -/
theorem resetMeetsTheLaws : Obligations.ResetMeetsTheLaws :=
  ⟨(State.coherent_iff_partSound _).mpr State.reset_partSound, ⟨Nat.zero_le _, trivial⟩, State.reset_alertAgrees, rfl, rfl,
    State.reset_linkSound, rfl⟩

end Sys2Proof.Machine
end

