-- ==== Sys2Proof/Proofs/Stepping.lean ====
section
/-! PROOFS. A step as a whole: the command at the front of the queue, the totality of well-formed commands and what they leave of the
queue (log 1, log 9), what is owed before a command (log 3, log 4, log 5), and the idle step (log 2, log 10). -/

namespace Sys2Proof.Machine

/-- Settles O1: the two cases of a step. -/
theorem stepRunsFrontCommand : Obligations.StepRunsFrontCommand := by
  intro c rest s h
  unfold Machine.step
  rw [h]

/-! ## The queue of commands -/

theorem State.look_pending (s : State) : s.look.pending = s.pending := by
  obtain ⟨q, st, r, sc, a, e⟩ := s.look_frame
  rw [e]

theorem State.offerFault_pending (s : State) (f : Finding) : (s.offerFault f).pending = s.pending := by
  obtain ⟨l, a, e⟩ := s.offerFault_frame f
  rw [e]

theorem State.readFrame.pending {s v : State} (h : s.readFrame v) : v.pending = s.pending := by
  obtain ⟨p, q, st, l, a, rfl⟩ := h.eq
  rfl

theorem State.freeLinkWhen_pending (s : State) (last : Bool) : (s.freeLinkWhen last).pending = s.pending := by
  unfold State.freeLinkWhen
  split <;> rfl

theorem State.arriveRead_pending (s : State) (a : Word) (data : Lanes) (resp : Resp) :
    (s.arriveRead a data resp).pending = s.pending := by
  unfold State.arriveRead
  split
  · rfl
  next p _ =>
    obtain ⟨e, hold, al, hd⟩ := (s.poolRead p a data resp).1.decideRead_push p (s.poolRead p a data resp).2 data resp
    rw [hd]
    exact (s.poolRead_readFrame p a data resp).pending

theorem State.Executed.pending {s u : State} (hu : s.Executed u) : u.pending = s.pending := by
  cases hu with
  | withdrawal n => exact (s.disableAccepted_sameRest n).pending
  | forgotten t => exact (s.forget_sameRest t).pending
  | repaired t => exact (s.repair_sameRest t).pending
  | restarted =>
    rw [s.restart_eq]
    rfl
  | _ => rfl

theorem State.Effect.pending {s u : State} (hu : s.Effect u) : u.pending = s.pending := by
  cases hu with
  | hrstRise =>
    obtain ⟨q, e⟩ := State.cut_frame { s with pins := { s.pins with hrst := true } }
    rw [e]
    rfl
  | writeBeat t data mask =>
    rw [State.conclude_pending, State.look_pending]
    exact (s.written_poolFrame t data mask).readFrame.pending
  | writeResponse t resp =>
    rw [State.conclude_pending, State.look_pending, State.freeLinkWhen_pending]
    exact (s.responded_poolFrame t resp).readFrame.pending
  | drainedResponse t resp | lastDrainedResponse t resp =>
    rw [State.conclude_pending, State.look_pending]
    exact (s.drainResponded_poolFrame t resp).readFrame.pending
  | readBeat t data resp =>
    rw [State.conclude_pending, State.look_pending, State.freeLinkWhen_pending]
    exact s.arriveRead_pending _ data resp
  | tick =>
    obtain ⟨pacing, owed, e⟩ := s.tick_frame
    rw [e]
  | preparationEnd n =>
    rw [s.endPreparation_eq]
    rfl
  | executed u n st results hu => exact hu.pending
  | _ => rfl

theorem pending_keptByCommands (queue : List Instr) : KeptByCommands fun s => s.pending = queue where
  endBurst s _ h := s.endBurst_keeps.2.trans h
  underflow s h := by
    unfold State.underflow State.postStep
    split
    · exact h
    · split <;> exact (State.look_pending _).trans h
  expireHold s h := by
    unfold State.expireHold
    split
    · exact h
    · exact (State.offerFault_pending _ _).trans h
  grantPassage s t _ _ h := by
    obtain ⟨job, e, -⟩ := s.grantPassage_frame t
    rw [e]
    exact h
  grantReader _ _ _ _ _ h := h
  effect _ _ he h := he.pending.trans h
  powerOn _ _ _ h := h

/-! ## Totality -/

/-- A command whose operands spell a happening that exists is executed in every state. -/
theorem exec_next_of_wellFormed {c : Instr} (hc : c.wellFormed = true) (s : State) : ∃ t, exec c s = .next t := by
  cases hbody : requestBody c with
  | some b => exact ⟨_, exec_of_requestBody (code := b.1) (args := b.2) hbody s⟩
  | none =>
    cases c with
    | hrst level => cases level <;> exact ⟨_, rfl⟩
    | hostRequest addr n dir =>
      change ∃ t, execHostRequest addr n dir s = .next t
      unfold execHostRequest
      dsimp only
      split <;> exact ⟨_, rfl⟩
    | passageGrant => exact ⟨_, execPassageGrant_eq s⟩
    | readerGrant => exact ⟨_, execReaderGrant_eq s⟩
    | writeBeatForwarded data mask =>
      change ∃ t, execWriteBeatForwarded data mask s = .next t
      unfold execWriteBeatForwarded
      dsimp only
      split
      · split <;> exact ⟨_, rfl⟩
      · exact ⟨_, rfl⟩
    | writeResponse resp =>
      change ∃ t, execWriteResponse resp s = .next t
      unfold execWriteResponse
      dsimp only
      split
      · split <;> exact ⟨_, rfl⟩
      · split
        · split <;> exact ⟨_, rfl⟩
        · exact ⟨_, rfl⟩
      · exact ⟨_, rfl⟩
    | paddingBeat =>
      change ∃ t, execPaddingBeat s = .next t
      unfold execPaddingBeat
      dsimp only
      split
      · split <;> exact ⟨_, rfl⟩
      · exact ⟨_, rfl⟩
    | readBeatArrival data resp =>
      change ∃ t, execReadBeatArrival data resp s = .next t
      unfold execReadBeatArrival
      dsimp only
      split
      · split <;> exact ⟨_, rfl⟩
      · split
        · split <;> exact ⟨_, rfl⟩
        · exact ⟨_, rfl⟩
      · exact ⟨_, rfl⟩
    | responseDelivery =>
      change ∃ t, execResponseDelivery s = .next t
      unfold execResponseDelivery
      dsimp only
      split
      · split <;> exact ⟨_, rfl⟩
      · exact ⟨_, rfl⟩
    | readerBeat data resp =>
      change ∃ t, execReaderBeat data resp s = .next t
      unfold execReaderBeat
      dsimp only
      split
      · split
        · split <;> exact ⟨_, rfl⟩
        · exact ⟨_, rfl⟩
        · exact ⟨_, rfl⟩
      · exact ⟨_, rfl⟩
    | preparationEnd =>
      change ∃ t, execPreparationEnd s = .next t
      unfold execPreparationEnd
      dsimp only
      split <;> exact ⟨_, rfl⟩
    | badCrc code args crc => exact ⟨_, if_pos hc⟩
    | badOp code => exact ⟨_, if_pos hc⟩
    | frameAbort bytes bits =>
      change ∃ t, execFrameAbort bytes bits s = .next t
      have hwf : wfFrameAbort bytes = true := hc
      unfold execFrameAbort
      rw [if_pos hwf]
      dsimp only
      split <;> exact ⟨_, rfl⟩
    | responseCutShort =>
      change ∃ t, execResponseCutShort s = .next t
      unfold execResponseCutShort
      dsimp only
      split <;> exact ⟨_, rfl⟩
    | fallOfMcs =>
      change ∃ t, execFallOfMcs s = .next t
      unfold execFallOfMcs
      dsimp only
      split <;> exact ⟨_, rfl⟩
    | responseSent =>
      change ∃ t, execResponseSent s = .next t
      unfold execResponseSent
      dsimp only
      split <;> exact ⟨_, rfl⟩
    | powerOn | tick | underflow | holdTimeout | readerBurstEnd | riseOfMcs => exact ⟨_, rfl⟩
    | _ => cases hbody

/-- Settles O3: totality by command, and the queue as a property that every command keeps. -/
theorem wellFormedCommandsComplete : Obligations.WellFormedCommandsComplete := by
  refine fun c s => ⟨fun hc => ?complete, fun hc => ?refused⟩
  case complete =>
    obtain ⟨t, ht⟩ := exec_next_of_wellFormed hc s
    exact ⟨t, ht, (pending_keptByCommands s.pending).exec rfl ht⟩
  case refused =>
    have hne (b : Bool) (hb : b = false) : ¬b = true := by simp [hb]
    cases c with
    | badCrc code args crc => exact if_neg (hne _ hc)
    | badOp code => exact if_neg (hne _ hc)
    | frameAbort bytes bits => exact if_neg (hne _ hc)
    | _ => cases hc

/-! ## What is owed comes first -/

/-- A command that settles first acts as it does on the settled state (log 3, log 4, log 5). -/
theorem exec_settle {c : Instr} (hc : ¬Apart c) (s : State) : exec c s = exec c s.settle := by
  cases hbody : requestBody c with
  | some b =>
    rw [exec_of_requestBody (code := b.1) (args := b.2) hbody, exec_of_requestBody (code := b.1) (args := b.2) hbody,
      State.request, State.request, State.settle_settle]
  | none =>
    cases c with
    | underflow => exact absurd (.inl rfl) hc
    | holdTimeout => exact absurd (.inr (.inl rfl)) hc
    | readerBurstEnd => exact absurd (.inr (.inr (.inl rfl))) hc
    | powerOn m b => exact absurd (.inr (.inr (.inr ⟨m, b, rfl⟩))) hc
    | passageGrant =>
      change execPassageGrant s = execPassageGrant s.settle
      rw [execPassageGrant_eq, execPassageGrant_eq, State.settle_settle]
    | readerGrant =>
      change execReaderGrant s = execReaderGrant s.settle
      rw [execReaderGrant_eq, execReaderGrant_eq, State.settle_settle]
    | hrst level =>
      change execHrst level s = execHrst level s.settle
      simp only [execHrst, State.settle_settle]
    | hostRequest addr n dir =>
      change execHostRequest addr n dir s = execHostRequest addr n dir s.settle
      simp only [execHostRequest, State.settle_settle]
    | writeBeatForwarded data mask =>
      change execWriteBeatForwarded data mask s = execWriteBeatForwarded data mask s.settle
      simp only [execWriteBeatForwarded, State.settle_settle]
    | writeResponse resp =>
      change execWriteResponse resp s = execWriteResponse resp s.settle
      simp only [execWriteResponse, State.settle_settle]
    | paddingBeat =>
      change execPaddingBeat s = execPaddingBeat s.settle
      simp only [execPaddingBeat, State.settle_settle]
    | readBeatArrival data resp =>
      change execReadBeatArrival data resp s = execReadBeatArrival data resp s.settle
      simp only [execReadBeatArrival, State.settle_settle]
    | responseDelivery =>
      change execResponseDelivery s = execResponseDelivery s.settle
      simp only [execResponseDelivery, State.settle_settle]
    | readerBeat data resp =>
      change execReaderBeat data resp s = execReaderBeat data resp s.settle
      simp only [execReaderBeat, State.settle_settle]
    | tick =>
      change execTick s = execTick s.settle
      simp only [execTick, State.settle_settle]
    | preparationEnd =>
      change execPreparationEnd s = execPreparationEnd s.settle
      simp only [execPreparationEnd, State.settle_settle]
    | badCrc code args crc =>
      change execBadCrc code args crc s = execBadCrc code args crc s.settle
      simp only [execBadCrc, State.request, State.settle_settle]
    | badOp code =>
      change execBadOp code s = execBadOp code s.settle
      simp only [execBadOp, State.request, State.settle_settle]
    | frameAbort bytes bits =>
      change execFrameAbort bytes bits s = execFrameAbort bytes bits s.settle
      simp only [execFrameAbort, State.settle_settle]
    | responseCutShort =>
      change execResponseCutShort s = execResponseCutShort s.settle
      simp only [execResponseCutShort, State.settle_settle]
    | fallOfMcs =>
      change execFallOfMcs s = execFallOfMcs s.settle
      simp only [execFallOfMcs, State.settle_settle]
    | responseSent =>
      change execResponseSent s = execResponseSent s.settle
      simp only [execResponseSent, State.settle_settle]
    | riseOfMcs =>
      change execRiseOfMcs s = execRiseOfMcs s.settle
      simp only [execRiseOfMcs, State.settle_settle]
    | _ => cases hbody

/-- So it acts alike on any two states that settle to the same one. -/
theorem exec_congr_settle {c : Instr} (hc : ¬Apart c) {s u : State} (h : u.settle = s.settle) : exec c s = exec c u := by
  rw [exec_settle hc s, exec_settle hc u, h]

/-- With the link free once a grant is carried out, no claimant waits (R50). -/
theorem State.no_claims_of_settleGrant_free {s : State} (h : s.linkSound) (hfree : s.settleGrant.arbiter.link = .free)
    (c : Claimant) : s.settleGrant.claims c = false := by
  obtain ⟨howed, e⟩ | ⟨t, -, -, e⟩ | ⟨j, -, -, -, e⟩ := s.settleGrant_cases
  · rw [e] at hfree ⊢
    by_contra hclaims
    obtain ⟨-, -, hgrant⟩ := s.linkSound_iff.mp h
    obtain ⟨d, hd, hwaits⟩ := hgrant hfree c (by simpa using hclaims)
    simp [State.grantOwed, hd, hwaits] at howed
  · obtain ⟨job, hg, -⟩ := s.grantPassage_frame t
    rw [e, hg] at hfree
    cases hfree
  · rw [e, State.grantReader_eq] at hfree
    cases hfree

/-- Settles O4: the chain of owed effects ends in the settled state, on which the command acts as on the first. -/
theorem owedEffectsComeFirst : Obligations.OwedEffectsComeFirst := by
  intro c s hu ht hb hp
  have hc : ¬Apart c := by
    rintro (rfl | rfl | rfl | ⟨m, h, rfl⟩)
    exacts [hu rfl, ht rfl, hb rfl, hp m h rfl]
  refine ⟨exec_settle hc s, fun a b d e ha hbb hd he => ?_⟩
  obtain rfl : s.settleBurst = a := Host.Outcome.next.inj ha
  obtain rfl : s.settleBurst.settleUnderflow = b := Host.Outcome.next.inj hbb
  obtain rfl : s.settleEffects = d := Host.Outcome.next.inj hd
  have hgranted : s.settle = e := by
    rw [← s.settle_settleEffects]
    obtain he | he := he
    · exact Host.Outcome.next.inj ((execPassageGrant_eq s.settleEffects).symm.trans he)
    · exact Host.Outcome.next.inj ((execReaderGrant_eq s.settleEffects).symm.trans he)
  subst hgranted
  refine ⟨exec_congr_settle hc s.settle_settleEffects, exec_congr_settle hc s.settle_settle, fun hlink hfree => ?_⟩
  have hnone := State.no_claims_of_settleGrant_free (State.linkSound_settleEffects hlink) hfree
  exact ⟨hnone .passage, hnone .reader⟩

/-! ## The idle step -/

/-- The parts of the state that no owed effect but a burst end touches. -/
def State.sameClockAndPort (s t : State) : Prop :=
  t.port = s.port ∧ t.timebase = s.timebase ∧ t.freeCount = s.freeCount ∧ t.pending = s.pending

theorem State.sameClockAndPort.trans {s t u : State} (h : s.sameClockAndPort t) (h' : t.sameClockAndPort u) :
    s.sameClockAndPort u := by
  obtain ⟨hport, htimebase, hfree, hpending⟩ := h
  obtain ⟨hport', htimebase', hfree', hpending'⟩ := h'
  exact ⟨hport'.trans hport, htimebase'.trans htimebase, hfree'.trans hfree, hpending'.trans hpending⟩

theorem State.sameClockAndPort_look (s : State) : s.sameClockAndPort s.look := by
  obtain ⟨q, st, r, sc, a, e⟩ := s.look_frame
  rw [e]
  exact ⟨rfl, rfl, rfl, rfl⟩

theorem State.sameClockAndPort_underflow (s : State) : s.sameClockAndPort s.underflow := by
  unfold State.underflow
  split
  · exact ⟨rfl, rfl, rfl, rfl⟩
  · have hstep : s.sameClockAndPort s.reloadPacing.postStep := by
      unfold State.postStep
      split <;> exact ⟨rfl, rfl, rfl, rfl⟩
    exact hstep.trans s.reloadPacing.postStep.sameClockAndPort_look

theorem State.sameClockAndPort_expireHold (s : State) : s.sameClockAndPort s.expireHold := by
  unfold State.expireHold
  split
  · exact ⟨rfl, rfl, rfl, rfl⟩
  · obtain ⟨l, a, e⟩ := (s.releaseHeld .error).offerFault_frame _
    rw [e]
    exact ⟨rfl, rfl, rfl, rfl⟩

theorem State.sameClockAndPort_settleGrant (s : State) : s.sameClockAndPort s.settleGrant := by
  obtain ⟨-, e⟩ | ⟨t, -, -, e⟩ | ⟨j, -, -, -, e⟩ := s.settleGrant_cases
  · rw [e]
    exact ⟨rfl, rfl, rfl, rfl⟩
  · obtain ⟨job, hg, -⟩ := s.grantPassage_frame t
    rw [e, hg]
    exact ⟨rfl, rfl, rfl, rfl⟩
  · rw [e]
    exact ⟨rfl, rfl, rfl, rfl⟩

/-- With no burst end owed, settling leaves the port, the timebase and the two queues of the model. -/
theorem State.sameClockAndPort_settle (s : State) (h : s.burstEndOwed = false) : s.sameClockAndPort s.settle := by
  have hu : s.sameClockAndPort s.settleUnderflow := by
    unfold State.settleUnderflow
    split
    · exact s.sameClockAndPort_underflow
    · exact ⟨rfl, rfl, rfl, rfl⟩
  have ht : s.settleUnderflow.sameClockAndPort s.settleUnderflow.settleTimeout := by
    unfold State.settleTimeout
    split
    · exact s.settleUnderflow.sameClockAndPort_expireHold
    · exact ⟨rfl, rfl, rfl, rfl⟩
  have he : s.settleEffects = s.settleUnderflow.settleTimeout := by simp [State.settleEffects, State.settleBurst, h]
  rw [State.settle, he]
  exact (hu.trans ht).trans (State.sameClockAndPort_settleGrant _)

/-- A tick and what it owes: the timebase as `State.tick` leaves it, the port and the queues of the model as they were. -/
theorem State.sameClockAndPort_tick_settle (s : State) (h : s.burstEndOwed = false) :
    s.tick.settle.port = s.port ∧ s.tick.settle.timebase = ⟨0, s.params.divider, s.timebase.tickCounter + 1⟩ ∧
      s.tick.settle.freeCount = s.freeCount ∧ s.tick.settle.pending = s.pending := by
  obtain ⟨pacing, owed, e⟩ := s.tick_frame
  have howed : s.tick.burstEndOwed = false := by
    rw [e]
    exact h
  obtain ⟨hport, htimebase, hfree, hpending⟩ := s.tick.sameClockAndPort_settle howed
  rw [hport, htimebase, hfree, hpending, e]
  exact ⟨rfl, rfl, rfl, rfl⟩

/-- The edges of MCK read and change the frame and the count of free values only. -/
theorem State.mckEdges_of_same (s t : State) (hport : t.port = s.port) (hfree : t.freeCount = s.freeCount) :
    t.mckEdges =
      { t with port := { s.port with frame := s.mckEdges.port.frame }, freeCount := s.mckEdges.freeCount } := by
  unfold State.mckEdges State.setFrame
  rw [hport, hfree]
  split
  next h => simp [h]
  all_goals simp [← hport, ← hfree]

/-- Settles O2: the period's edges are those of the frame it began with, and the tick settles without a burst end. -/
theorem idleStepPassesOneRefclkPeriod : Obligations.IdleStepPassesOneRefclkPeriod := by
  intro s hempty hsettled
  have hsettle := s.settle_of_settled hsettled
  have hstep : step s = .next s.refclkPeriod.mckEdges := by
    unfold Machine.step
    rw [hempty]
  refine ⟨s.mckEdges.port.frame, s.mckEdges.freeCount, fun bytes sent hf => ?falls, fun hf => ?still, fun hlt => ?counts,
    fun hge => ?ticks⟩
  case falls =>
    obtain ⟨bytes', sent', hf', e⟩ | ⟨hnot, -⟩ := s.mckEdges_spec
    · obtain ⟨rfl, rfl⟩ := Frame.response.inj (hf.symm.trans hf')
      rw [e]
      exact ⟨rfl, Frame.mckFalls_response bytes sent _⟩
    · exact absurd hf (hnot bytes sent)
  case still =>
    obtain ⟨bytes', sent', hf', -⟩ | ⟨-, e⟩ := s.mckEdges_spec
    · exact absurd hf' (hf bytes' sent')
    · rw [e]
      exact ⟨rfl, rfl⟩
  case counts =>
    have hperiod : s.refclkPeriod =
        { s with timebase := { s.timebase with refclkCount := s.timebase.refclkCount + 1 } } := by
      simp only [State.refclkPeriod, hsettle, if_pos hlt]
    rw [hstep, hperiod]
    exact congrArg _ (State.mckEdges_of_same s _ rfl rfl)
  case ticks =>
    have hperiod : s.refclkPeriod = s.tick.settle := by
      simp only [State.refclkPeriod, hsettle, if_neg (Nat.not_lt.mpr hge)]
    have howed : s.burstEndOwed = false := by
      simp only [State.settled, State.grantNext, Bool.and_eq_true, Bool.not_eq_true'] at hsettled
      exact hsettled.1.1.1
    obtain ⟨hport, htimebase, hfree, hpending⟩ := s.sameClockAndPort_tick_settle howed
    refine ⟨_, hstep, ?_, ?_, ?_⟩ <;> rw [hperiod, State.mckEdges_of_same s _ hport hfree]
    · exact hpending.trans hempty
    · exact htimebase

end Sys2Proof.Machine
end

