-- ==== Sys2Proof/Proofs/CheckFunctions.lean ====
section
/-! PROOFS. The CRC-8 of the management frames (R171) and the check function of the tracts (R1 to R4): each tells apart two strings of
bytes that differ in exactly one byte. -/

namespace Sys2Proof.Machine

/-! ## The CRC-8 -/

/-- The shift of the CRC-8 taken back: 1Dh is odd, so the low bit says whether it was XORed in. -/
def crc8Unshift (r : Byte) : Byte := if r.getLsbD 0 then ((r ^^^ 0x1D#8) >>> 1) ||| 0x80#8 else r >>> 1

theorem crc8Unshift_shift (r : Byte) : crc8Unshift (crc8Shift r) = r := by
  revert r
  decide +kernel

theorem crc8Shift_injective : Function.Injective crc8Shift := Function.LeftInverse.injective crc8Unshift_shift

/-- Eight shifts of the XOR: the byte and the remainder before it each determine the other (R171). -/
theorem crc8Byte_eq_iff (r b r' b' : Byte) : crc8Byte r b = crc8Byte r' b' ↔ r ^^^ b = r' ^^^ b' := by
  simp only [crc8Byte, List.foldl_cons, List.foldl_nil, crc8Shift_injective.eq_iff]

theorem crc8Byte_self (r : Byte) : crc8Byte r r = 0 := by
  rw [show (0 : Byte) = crc8Byte 0 0 by decide, crc8Byte_eq_iff, BitVec.xor_self, BitVec.xor_self]

/-- The same bytes keep two remainders apart. -/
theorem crc8_foldl_injective (bs : List Byte) (r r' : Byte) (h : bs.foldl crc8Byte r = bs.foldl crc8Byte r') : r = r' := by
  induction bs generalizing r r' with
  | nil => exact h
  | cons b bs ih => exact (BitVec.xor_left_inj b).mp ((crc8Byte_eq_iff _ _ _ _).mp (ih _ _ h))

/-- Settles O6: the changed byte makes the remainders differ, and the bytes after it keep them apart. -/
theorem crc8CatchesOneChangedByte : Obligations.Crc8CatchesOneChangedByte := by
  refine ⟨fun front back a b h => ?changed, fun bs => ?remainder⟩
  case changed =>
    simp only [crc8, List.foldl_append, List.foldl_cons] at h
    exact (BitVec.xor_right_inj _).mp ((crc8Byte_eq_iff _ _ _ _).mp (crc8_foldl_injective back _ _ h))
  case remainder =>
    rw [crc8, List.foldl_append]
    exact crc8Byte_self (crc8 bs)

/-! ## The check function: two remainders that differ in their low bits -/

/-- Two remainders differ in one of their n low bits. -/
def DifferBelow (n : Nat) (x y : Word) : Prop := ∃ k, k < n ∧ x.getLsbD k ≠ y.getLsbD k

theorem DifferBelow.mono {m n : Nat} {x y : Word} (h : DifferBelow m x y) (hmn : m ≤ n) : DifferBelow n x y := by
  obtain ⟨k, hk, hne⟩ := h
  exact ⟨k, hk.trans_le hmn, hne⟩

theorem DifferBelow.ne {n : Nat} {x y : Word} (h : DifferBelow n x y) : x ≠ y := by
  obtain ⟨k, -, hne⟩ := h
  rintro rfl
  exact hne rfl

theorem crcOnes_getLsbD (w : CheckWidth) (k : Nat) (hk : k < w.bits) : (crcOnes w).getLsbD k = true := by
  revert k
  cases w <;> decide

theorem checkBits_pos (w : CheckWidth) : 0 < w.bits := by cases w <;> decide

/-- The comparison of R1 for one bit: whether the polynomial is XORed in. -/
def crcTaps (w : CheckWidth) (rem : Word) (bit : Bool) : Bool := rem.getLsbD (w.bits - 1) != bit

theorem crcBit_getLsbD_zero (w : CheckWidth) (poly rem : Word) (bit : Bool) (hp : poly.getLsbD 0 = true) :
    (crcBit w poly rem bit).getLsbD 0 = crcTaps w rem bit := by
  have hones := crcOnes_getLsbD w 0 (checkBits_pos w)
  unfold crcBit crcTaps
  cases rem.getLsbD (w.bits - 1) != bit <;> simp [hones, hp]

theorem crcBit_getLsbD_succ (w : CheckWidth) (poly rem : Word) (bit : Bool) (k : Nat) (hk : k + 1 < w.bits) :
    (crcBit w poly rem bit).getLsbD (k + 1) = (rem.getLsbD k ^^ (crcTaps w rem bit && poly.getLsbD (k + 1))) := by
  have hones := crcOnes_getLsbD w (k + 1) hk
  have hk32 : k + 1 < 32 := hk.trans_le (by cases w <;> decide)
  unfold crcBit crcTaps
  cases rem.getLsbD (w.bits - 1) != bit <;>
    simp only [Bool.false_eq_true, if_false, if_true, BitVec.getLsbD_xor, BitVec.getLsbD_and, BitVec.getLsbD_shiftLeft,
      hones] <;> simp [hk32]

section Bits

variable {w : CheckWidth} {poly : Word} (hp : poly.getLsbD 0 = true)
include hp

/-- An odd polynomial XORed into one of two remainders only makes their lowest bits differ. -/
theorem differBelow_of_taps {x y : Word} {a b : Bool} (h : crcTaps w x a ≠ crcTaps w y b) :
    DifferBelow 1 (crcBit w poly x a) (crcBit w poly y b) :=
  ⟨0, Nat.one_pos, by rwa [crcBit_getLsbD_zero w poly x a hp, crcBit_getLsbD_zero w poly y b hp]⟩

/-- A difference in the n low bits is one in the n + 1 low bits after any two data bits. -/
theorem DifferBelow.bit {n : Nat} (hn : n < w.bits) {x y : Word} (h : DifferBelow n x y) (a b : Bool) :
    DifferBelow (n + 1) (crcBit w poly x a) (crcBit w poly y b) := by
  by_cases ht : crcTaps w x a = crcTaps w y b
  · obtain ⟨k, hk, hne⟩ := h
    refine ⟨k + 1, by omega, ?_⟩
    rw [crcBit_getLsbD_succ _ _ _ _ _ (by omega), crcBit_getLsbD_succ _ _ _ _ _ (by omega), ht]
    simpa using hne
  · exact (differBelow_of_taps hp ht).mono (by omega)

/-- The same data bit keeps two remainders of width W apart. -/
theorem DifferBelow.bit_same {x y : Word} (h : DifferBelow w.bits x y) (a : Bool) :
    DifferBelow w.bits (crcBit w poly x a) (crcBit w poly y a) := by
  by_cases ht : crcTaps w x a = crcTaps w y a
  · obtain ⟨k, hk, hne⟩ := h
    have htop : k ≠ w.bits - 1 := by
      rintro rfl
      exact hne (by simpa [crcTaps] using ht)
    refine ⟨k + 1, by omega, ?_⟩
    rw [crcBit_getLsbD_succ _ _ _ _ _ (by omega), crcBit_getLsbD_succ _ _ _ _ _ (by omega), ht]
    simpa using hne
  · exact (differBelow_of_taps hp ht).mono (checkBits_pos w)

/-! ## Bytes -/

/-- Some bits of a byte folded into a remainder, in the order given. -/
def crcFold (w : CheckWidth) (poly : Word) (is : List Nat) (rem : Word) (b : Byte) : Word :=
  is.foldl (fun r i => crcBit w poly r (b.getLsbD i)) rem

omit hp in
theorem crcByte_eq_fold (rem : Word) (b : Byte) : crcByte w poly rem b = crcFold w poly [7, 6, 5, 4, 3, 2, 1, 0] rem b := rfl

theorem DifferBelow.fold (is : List Nat) {n : Nat} (hn : n + is.length ≤ w.bits) {x y : Word} (h : DifferBelow n x y)
    (a b : Byte) : DifferBelow (n + is.length) (crcFold w poly is x a) (crcFold w poly is y b) := by
  induction is generalizing n x y with
  | nil => exact h
  | cons i is ih =>
    rw [List.length_cons] at hn ⊢
    have hfirst : DifferBelow (n + 1) (crcBit w poly x (a.getLsbD i)) (crcBit w poly y (b.getLsbD i)) :=
      h.bit hp (by omega) _ _
    exact (ih (by omega) hfirst).mono (by omega)

/-- Two bytes that differ in a folded bit make equal remainders differ. -/
theorem differBelow_crcFold_of_bit (is : List Nat) (hn : is.length ≤ w.bits) (x : Word) {a b : Byte} {i : Nat}
    (hi : i ∈ is) (hne : a.getLsbD i ≠ b.getLsbD i) :
    DifferBelow is.length (crcFold w poly is x a) (crcFold w poly is x b) := by
  induction is generalizing x with
  | nil => cases hi
  | cons k is ih =>
    rw [List.length_cons] at hn ⊢
    by_cases hk : a.getLsbD k = b.getLsbD k
    · have hrest : i ∈ is := (List.mem_cons.mp hi).resolve_left fun hik => hne (hik ▸ hk)
      have hstep := ih (by omega) (crcBit w poly x (a.getLsbD k)) hrest
      simp only [crcFold, List.foldl_cons] at hstep ⊢
      rw [← hk]
      exact hstep.mono (by omega)
    · have htaps : crcTaps w x (a.getLsbD k) ≠ crcTaps w x (b.getLsbD k) := by simpa [crcTaps] using hk
      exact ((differBelow_of_taps hp htaps).fold hp is (by omega) a b).mono (by omega)

theorem DifferBelow.fold_same (is : List Nat) {x y : Word} (h : DifferBelow w.bits x y) (a : Byte) :
    DifferBelow w.bits (crcFold w poly is x a) (crcFold w poly is y a) := by
  induction is generalizing x y with
  | nil => exact h
  | cons i is ih => exact ih (h.bit_same hp (a.getLsbD i))

/-- The same bytes keep two remainders of width W apart. -/
theorem DifferBelow.bytes_same (bs : List Byte) {x y : Word} (h : DifferBelow w.bits x y) :
    DifferBelow w.bits (crcBytes w poly x bs) (crcBytes w poly y bs) := by
  induction bs generalizing x y with
  | nil => exact h
  | cons b bs ih => exact ih (h.fold_same hp [7, 6, 5, 4, 3, 2, 1, 0] b)

/-- Two different bytes make equal remainders differ. -/
theorem differBelow_crcByte (x : Word) {a b : Byte} (hab : a ≠ b) :
    DifferBelow w.bits (crcByte w poly x a) (crcByte w poly x b) := by
  have hlen : 8 ≤ w.bits := by cases w <;> decide
  obtain ⟨i, hi, hne⟩ : ∃ i, i < 8 ∧ a.getLsbD i ≠ b.getLsbD i := by
    by_contra hall
    push Not at hall
    exact hab (BitVec.eq_of_getLsbD_eq hall)
  have hmem : ∀ i < 8, i ∈ [7, 6, 5, 4, 3, 2, 1, 0] := by decide
  rw [crcByte_eq_fold, crcByte_eq_fold]
  exact (differBelow_crcFold_of_bit hp [7, 6, 5, 4, 3, 2, 1, 0] hlen x (hmem i hi) hne).mono hlen

end Bits

/-! ## Width 16 -/

theorem crcBit_w16_lt (poly rem : Word) (bit : Bool) : (crcBit .w16 poly rem bit).toNat < 65536 := by
  have hmasked (x : Word) : (x &&& crcOnes .w16).toNat < 2 ^ 16 := by
    rw [BitVec.toNat_and]
    exact Nat.and_lt_two_pow _ (by decide)
  unfold crcBit
  dsimp only
  split
  · rw [BitVec.toNat_xor]
    exact Nat.xor_lt_two_pow (hmasked _) (hmasked _)
  · exact hmasked _

/-- A remainder of width 16 stays one (R3). -/
theorem crcBytes_w16_lt (poly : Word) (bs : List Byte) {rem : Word} (h : rem.toNat < 65536) :
    (crcBytes .w16 poly rem bs).toNat < 65536 := by
  induction bs generalizing rem with
  | nil => exact h
  | cons b bs ih => exact ih (crcBit_w16_lt poly _ _)

/-- Settles O7: the changed byte makes the remainders differ, the bytes after it and the final XOR keep them apart. -/
theorem checkValueCatchesOneChangedByte : Obligations.CheckValueCatchesOneChangedByte := by
  refine ⟨fun w poly front back a b hok h => ?changed, fun poly bs => ?low⟩
  case changed =>
    have hp : poly.getLsbD 0 = true := by
      simp only [polyOk, Bool.and_eq_true] at hok
      exact hok.1
    by_contra hab
    have hrem : crcBytes w poly (crcInit w) (front ++ a :: back) = crcBytes w poly (crcInit w) (front ++ b :: back) :=
      (BitVec.xor_left_inj _).mp h
    simp only [crcBytes, List.foldl_append, List.foldl_cons] at hrem
    exact ((differBelow_crcByte hp _ hab).bytes_same hp back).ne hrem
  case low =>
    have hrem : (crcBytes .w16 poly (crcInit .w16) bs).toNat < 2 ^ 16 := crcBytes_w16_lt poly bs (by decide)
    rw [checkValue, crcFinal, BitVec.toNat_xor]
    exact Nat.xor_lt_two_pow hrem (by decide)

end Sys2Proof.Machine
end

