-- ==== Sys2Proof/Proofs/RequestFrames.lean ====
section
/-! PROOFS. The port's reading of a selection's bytes (R168, R170 to R175, R194): the request frame of a command is read as that
command. -/

namespace Sys2Proof.Machine

open Laws

/-! ## Fields read back -/

theorem ofBe16_of_bytes (x : BitVec 16) : ofBe16 (x.extractLsb' 8 8) (x.extractLsb' 0 8) = x := by
  apply BitVec.eq_of_getLsbD_eq
  intro i hi
  simp only [ofBe16, BitVec.getLsbD_append, BitVec.getLsbD_extractLsb']
  by_cases h : i < 8
  · simp [h]
  · have : i - 8 < 8 := by omega
    simp [h, this, Nat.add_sub_of_le (not_lt.mp h)]

theorem ofBe32_of_bytes (x : Word) :
    ofBe32 (x.extractLsb' 24 8) (x.extractLsb' 16 8) (x.extractLsb' 8 8) (x.extractLsb' 0 8) = x := by
  apply BitVec.eq_of_getLsbD_eq
  intro i hi
  simp only [ofBe32, BitVec.getLsbD_append, BitVec.getLsbD_extractLsb']
  grind

/-! ## Commands and their requests -/

/-- Every command's request carries as many argument bytes as its code takes (R170, R194). -/
theorem requestShape (i : Instr) : RequestShape.Statement i := by
  cases i with
  | getStatus | getParams | setParams | getRegion | setRegion | enableRegion | disableRegion | getTract | forgetTract
  | repairTract | getContext | peekFault | popFault | getHold | releaseHold | clearAlert | restart =>
    exact RequestShape.of_some _ _ _ rfl rfl
  | _ => exact RequestShape.of_none _ rfl

/-- A command is named by its code and arguments (R194, section 10.2). -/
theorem commandOf_of_requestBody {i : Instr} {code : Byte} {args : List Byte} (h : requestBody i = some (code, args)) :
    commandOf code args = some i := by
  cases i with
  | setParams d l t p m =>
    obtain ⟨rfl, rfl⟩ := Prod.mk.inj (Option.some.inj h)
    change some (Instr.setParams (ofBe16 _ _) (ofBe16 _ _) (ofBe16 _ _) p m) = _
    simp only [ofBe16_of_bytes]
  | setRegion r b c n e w y q =>
    obtain ⟨rfl, rfl⟩ := Prod.mk.inj (Option.some.inj h)
    change some (Instr.setRegion r (ofBe32 _ _ _ _) c (ofBe16 _ _) (ofBe16 _ _) w (ofBe32 _ _ _ _) q) = _
    simp only [ofBe16_of_bytes, ofBe32_of_bytes]
  | getTract r t =>
    obtain ⟨rfl, rfl⟩ := Prod.mk.inj (Option.some.inj h)
    exact congrArg (fun x => some (Instr.getTract r x)) (ofBe16_of_bytes t)
  | forgetTract r t =>
    obtain ⟨rfl, rfl⟩ := Prod.mk.inj (Option.some.inj h)
    exact congrArg (fun x => some (Instr.forgetTract r x)) (ofBe16_of_bytes t)
  | repairTract r t =>
    obtain ⟨rfl, rfl⟩ := Prod.mk.inj (Option.some.inj h)
    exact congrArg (fun x => some (Instr.repairTract r x)) (ofBe16_of_bytes t)
  | getStatus | getParams | getRegion | enableRegion | disableRegion | getContext | peekFault | popFault | getHold
  | releaseHold | clearAlert | restart =>
    obtain ⟨rfl, rfl⟩ := Prod.mk.inj (Option.some.inj h)
    rfl
  | _ => cases h

/-- A code that names no command names none without arguments either (R174). -/
theorem commandOf_of_unknown {code : Byte} (h : commandArgs code = none) : commandOf code [] = none := by
  revert code
  decide +kernel

/-! ## The port's reading -/

/-- The bytes of a frame, with whatever follows its CRC byte (R173, R174, R179). -/
theorem portReads_frame {code : Byte} {args : List Byte} (h : args.length = argsTaken code) (crc : Byte)
    (extra : List Byte) (bits : BitVec 3) :
    portReads (code :: args ++ [crc] ++ extra) bits =
      if crc = crc8 (code :: args) then some ((commandOf code args).getD (.badOp code))
      else some (.badCrc code args crc) := by
  have hdrop : (args ++ [crc] ++ extra).drop (argsTaken code) = crc :: extra := by
    rw [← h, List.append_assoc, List.drop_left, List.singleton_append]
  have htake : (args ++ [crc] ++ extra).take (argsTaken code) = args := by
    rw [← h, List.append_assoc, List.take_left]
  simp only [portReads, List.cons_append, hdrop, htake]
  cases commandOf code args <;> rfl

/-- The request frame of a management command is read as that command (R172). -/
theorem portReads_request {i : Instr} {code : Byte} {args : List Byte} (h : requestBody i = some (code, args))
    (extra : List Byte) (bits : BitVec 3) :
    portReads (code :: args ++ [crc8 (code :: args)] ++ extra) bits = some i := by
  have hlength : args.length = argsTaken code := by rw [argsTaken, requestShape i code args h, Option.getD_some]
  rw [portReads_frame hlength, if_pos rfl, commandOf_of_requestBody h, Option.getD_some]

/-- A well-formed command's request frame is read as that command, whatever follows it (R170 to R174, R179). -/
theorem portReads_requestFrame {i : Instr} {frame : List Byte} (hwf : i.wellFormed = true)
    (h : requestFrame i = some frame) (extra : List Byte) (bits : BitVec 3) : portReads (frame ++ extra) bits = some i := by
  cases hbody : requestBody i with
  | some b =>
    have hframe : requestFrame i = (requestBody i).map fun b => b.1 :: b.2 ++ [crc8 (b.1 :: b.2)] := by
      cases i with
      | badCrc | badOp => cases hbody
      | _ => rfl
    rw [hframe, hbody] at h
    obtain rfl := Option.some.inj h
    exact portReads_request (code := b.1) (args := b.2) hbody extra bits
  | none =>
    cases i with
    | badCrc code args crc =>
      obtain rfl := Option.some.inj h
      obtain ⟨hlength, hcrc⟩ := (wfBadCrc_iff code args crc).mp hwf
      rw [portReads_frame hlength, if_neg hcrc]
    | badOp code =>
      obtain rfl := Option.some.inj h
      have hunknown := (wfBadOp_iff code).mp hwf
      have hread := portReads_frame (code := code) (args := []) (by simp [argsTaken, hunknown]) (crc8 [code]) extra bits
      rw [if_pos rfl, commandOf_of_unknown hunknown] at hread
      exact hread
    | getStatus | getParams | setParams | getRegion | setRegion | enableRegion | disableRegion | getTract | forgetTract
    | repairTract | getContext | peekFault | popFault | getHold | releaseHold | clearAlert | restart => cases hbody
    | _ => cases h

/-- Settles O5: request frames, aborted frames, and a selection without a complete byte. -/
theorem requestFramesReadBack : Obligations.RequestFramesReadBack := by
  refine ⟨fun i frame extra bits hwf h => portReads_requestFrame hwf h extra bits, fun bytes bits hwf => ?aborted,
    fun _ => rfl⟩
  cases bytes with
  | nil => cases hwf
  | cons code rest =>
    have hdrop : rest.drop (argsTaken code) = [] := List.drop_eq_nil_of_le ((wfFrameAbort_cons_iff code rest).mp hwf)
    simp only [portReads, hdrop]

end Sys2Proof.Machine
end

