-- ==== Sys2Proof/Proofs/Answers.lean ====
section
/-! PROOFS. What every answer is (R172, R177, R178, R180, R194, R196): its status, its results by code, and that a refusal by status
changes nothing. -/

namespace Sys2Proof.Machine

/-! ## The lengths of the results (section 10.2) -/

/-- The result bytes that come with OK, by command code (R194). -/
def resultLengths : List (Byte × Nat) :=
  [(0x01#8, 27), (0x02#8, 8), (0x03#8, 0), (0x10#8, 16), (0x11#8, 0), (0x12#8, 0), (0x13#8, 0), (0x20#8, 10),
    (0x21#8, 0), (0x22#8, 0), (0x30#8, 13), (0x40#8, 26), (0x41#8, 26), (0x50#8, 26), (0x51#8, 0), (0x60#8, 1),
    (0x7E#8, 0)]

theorem Pool.report_length (p : Pool) (i : Fin 8) : (p.report i).length = 13 := by
  cases h : p.slot i with
  | none => rw [p.report_of_free i h, List.length_replicate]
  | some c =>
    rw [p.report_of_inUse i c h]
    rfl

/-! ## Replies -/

/-- What holds of the reply to every command, by its code: results with OK only, as many as the code has (R178, R194), and
nothing changed by a refusal (R180). -/
structure Reply.Answers (s : State) (code : Byte) (r : Reply) : Prop where
  results_nil : r.status ≠ .ok → r.results = []
  results_length : r.status = .ok → (code, r.results.length) ∈ resultLengths
  unchanged : r.status ≠ .ok → r.status ≠ .adjusted → r.state = s

theorem Reply.Answers.refuse {s : State} {code : Byte} {st : Status} (h : st ≠ .ok) :
    (Reply.refuse s st).Answers s code :=
  ⟨fun _ => rfl, fun e => absurd e h, fun _ _ => rfl⟩

theorem Reply.Answers.ok {s u : State} {code : Byte} {results : List Byte}
    (h : (code, results.length) ∈ resultLengths) : Reply.Answers s code ⟨u, .ok, results⟩ :=
  ⟨fun e => absurd rfl e, fun _ => h, fun e => absurd rfl e⟩

theorem Reply.Answers.done {s u : State} {code : Byte} (h : (code, 0) ∈ resultLengths) : (Reply.done u).Answers s code :=
  .ok h

/-- The checks of R15 refuse with BAD-ARG or STATE. -/
theorem State.checkTract_error_ne_ok {s : State} {region : Byte} {tract : BitVec 16} {st : Status}
    (h : s.checkTract region tract = .error st) : st ≠ .ok := by
  unfold State.checkTract at h
  split at h
  · obtain rfl := Except.error.inj h
    decide
  · split at h
    · obtain rfl := Except.error.inj h
      decide
    · split at h
      · cases h
      · obtain rfl := Except.error.inj h
        decide

/-- Every command's reply, by its code. -/
theorem replyTo_answers {c : Instr} {code : Byte} {args : List Byte} (h : requestBody c = some (code, args)) (s : State) :
    (replyTo c s).Answers s code := by
  cases c with
  | getStatus =>
    obtain ⟨rfl, rfl⟩ := Prod.mk.inj (Option.some.inj h)
    exact .ok (by decide : (0x01#8, 27) ∈ resultLengths)
  | getParams =>
    obtain ⟨rfl, rfl⟩ := Prod.mk.inj (Option.some.inj h)
    exact .ok (by decide : (0x02#8, 8) ∈ resultLengths)
  | setParams d l t p m =>
    obtain ⟨rfl, rfl⟩ := Prod.mk.inj (Option.some.inj h)
    change (s.setParams d l t p m).Answers s _
    unfold State.setParams
    split
    · exact .refuse (by decide)
    · exact .done (by decide)
  | getRegion region =>
    obtain ⟨rfl, rfl⟩ := Prod.mk.inj (Option.some.inj h)
    change (s.regionReply region).Answers s _
    unfold State.regionReply
    split
    · exact .refuse (by decide)
    · exact .ok (by decide : (0x10#8, 16) ∈ resultLengths)
  | setRegion region b c n e w y q =>
    obtain ⟨rfl, rfl⟩ := Prod.mk.inj (Option.some.inj h)
    change (s.changeRegion region b c n e w y q).Answers s _
    unfold State.changeRegion
    split
    · exact .refuse (by decide)
    split
    · exact .refuse (by decide)
    split
    · exact .refuse (by decide)
    split
    · exact .refuse (by decide)
    · split
      · exact ⟨fun _ => rfl, nofun, fun _ hne => absurd rfl hne⟩
      · exact .ok (by decide : (0x11#8, 0) ∈ resultLengths)
  | enableRegion region =>
    obtain ⟨rfl, rfl⟩ := Prod.mk.inj (Option.some.inj h)
    change (s.enable region).Answers s _
    unfold State.enable
    split
    · exact .refuse (by decide)
    split
    · exact .refuse (by decide)
    split
    · exact .refuse (by decide)
    split
    · exact .refuse (by decide)
    split
    · exact .refuse (by decide)
    · exact .done (by decide)
  | disableRegion region =>
    obtain ⟨rfl, rfl⟩ := Prod.mk.inj (Option.some.inj h)
    change (s.disable region).Answers s _
    unfold State.disable
    split
    · exact .refuse (by decide)
    split
    · exact .refuse (by decide)
    split
    · exact .refuse (by decide)
    split
    · exact .refuse (by decide)
    · exact .done (by decide)
  | getTract region tract =>
    obtain ⟨rfl, rfl⟩ := Prod.mk.inj (Option.some.inj h)
    change (s.tractReply region tract).Answers s _
    unfold State.tractReply
    split
    next he => exact .refuse (State.checkTract_error_ne_ok he)
    next => exact .ok (by decide : (0x20#8, 10) ∈ resultLengths)
  | forgetTract region tract =>
    obtain ⟨rfl, rfl⟩ := Prod.mk.inj (Option.some.inj h)
    change (s.forgetReply region tract).Answers s _
    unfold State.forgetReply
    split
    next he => exact .refuse (State.checkTract_error_ne_ok he)
    next =>
      split
      · exact .refuse (by decide)
      · exact .done (by decide)
  | repairTract region tract =>
    obtain ⟨rfl, rfl⟩ := Prod.mk.inj (Option.some.inj h)
    change (s.repairReply region tract).Answers s _
    unfold State.repairReply
    split
    next he => exact .refuse (State.checkTract_error_ne_ok he)
    next =>
      split
      · exact .refuse (by decide)
      split
      · exact .refuse (by decide)
      split
      · exact .refuse (by decide)
      · exact .done (by decide)
  | getContext slot =>
    obtain ⟨rfl, rfl⟩ := Prod.mk.inj (Option.some.inj h)
    change (s.contextReply slot).Answers s _
    unfold State.contextReply
    split
    · exact .refuse (by decide)
    · refine .ok ?_
      rw [Pool.report_length]
      decide
  | peekFault =>
    obtain ⟨rfl, rfl⟩ := Prod.mk.inj (Option.some.inj h)
    change s.peekReply.Answers s _
    unfold State.peekReply
    split
    · exact .refuse (by decide)
    · exact .ok (by decide : (0x40#8, 26) ∈ resultLengths)
  | popFault =>
    obtain ⟨rfl, rfl⟩ := Prod.mk.inj (Option.some.inj h)
    change s.popReply.Answers s _
    unfold State.popReply
    split
    · exact .refuse (by decide)
    · exact .ok (by decide : (0x41#8, 26) ∈ resultLengths)
  | getHold =>
    obtain ⟨rfl, rfl⟩ := Prod.mk.inj (Option.some.inj h)
    change s.holdReply.Answers s _
    unfold State.holdReply
    split
    · exact .refuse (by decide)
    · exact .ok (by decide : (0x50#8, 26) ∈ resultLengths)
  | releaseHold response =>
    obtain ⟨rfl, rfl⟩ := Prod.mk.inj (Option.some.inj h)
    change (s.releaseReply response).Answers s _
    unfold State.releaseReply
    split
    · exact .refuse (by decide)
    · split
      · exact .refuse (by decide)
      · exact .done (by decide)
  | clearAlert mask =>
    obtain ⟨rfl, rfl⟩ := Prod.mk.inj (Option.some.inj h)
    exact .ok (by decide : (0x60#8, 1) ∈ resultLengths)
  | restart =>
    obtain ⟨rfl, rfl⟩ := Prod.mk.inj (Option.some.inj h)
    exact .done (by decide)
  | _ => cases h

/-- A management command in a listening state: its reply, answered. -/
theorem exec_of_requestBody_listening {c : Instr} {code : Byte} {args : List Byte} (h : requestBody c = some (code, args))
    {s t : State} (hl : s.listening = true) (he : exec c s = .next t) :
    t = (replyTo c s).state.answer args.length (replyTo c s).status (replyTo c s).results := by
  rw [exec_of_requestBody h, s.request_listening _ _ hl] at he
  exact (Host.Outcome.next.inj he).symm

/-! ## The obligations -/

/-- Settles O39: the reply's status and results are what the answer carries. -/
theorem responsesCarryStatusResultsAndCrc : Obligations.ResponsesCarryStatusResultsAndCrc := by
  unfold Obligations.ResponsesCarryStatusResultsAndCrc
  intro statusBytes
  have hbyte (st : Status) : (st, st.byte) ∈ statusBytes := by cases st <;> decide
  refine ⟨fun c code args s t hl hbody he => ?answered, fun s args st b results hmem => ?answer⟩
  case answered =>
    obtain rfl := exec_of_requestBody_listening hbody hl he
    have hreply := replyTo_answers hbody s
    exact ⟨_, _, _, hbyte _, rfl, rfl, hreply.results_nil, hreply.results_length⟩
  case answer =>
    have hlisted : ∀ e ∈ statusBytes, e.2 = e.1.byte := by decide
    obtain rfl : b = st.byte := hlisted _ hmem
    rfl

theorem Status.ne_ok_of_byte {st : Status} (h : st.byte ≠ 0x00#8) : st ≠ .ok := by
  rintro rfl
  exact h rfl

theorem Status.ne_adjusted_of_byte {st : Status} (h : st.byte ≠ 0x01#8) : st ≠ .adjusted := by
  rintro rfl
  exact h rfl

/-- Settles O40: the status byte says that the reply was a refusal, which leaves the state. -/
theorem refusedCommandsChangeNothing : Obligations.RefusedCommandsChangeNothing := by
  intro c code args s t b rest sent hl hbody he hframe hok hadjusted
  obtain rfl := exec_of_requestBody_listening hbody hl he
  obtain ⟨hbytes, -⟩ := Frame.response.inj hframe
  obtain ⟨rfl, -⟩ := List.cons.inj hbytes
  have hsame := (replyTo_answers hbody s).unchanged (Status.ne_ok_of_byte hok) (Status.ne_adjusted_of_byte hadjusted)
  rw [hsame]
  rfl

end Sys2Proof.Machine
end

