-- ==== Sys2Proof/Proofs/HostLink.lean ====
section
/-! PROOFS. The happenings of the host link and the passage's half of the memory link (Chapters 3 and 5), in a state with nothing
owed: HRST, the taking of a request, the arbiter, the grant to the passage, beats, responses and deliveries. -/

namespace Sys2Proof.Machine

/-! ## HRST and requests -/

section Cut

variable {s : State}

theorem State.cut_of_idle (h : s.passage.state = .idle) : s.cut = s := by simp only [State.cut, h]

theorem State.cut_of_claiming {t : Transaction} (h : s.passage.state = .claiming t) : s.cut = s.setPassage .idle := by
  simp only [State.cut, h]

theorem State.cut_of_carrying_lt {t : Transaction} (h : s.passage.state = .carrying t) (hlt : t.arrived < t.beats) :
    s.cut = { s with passage := ⟨.draining { t with cut := true }, [], none⟩ } := by
  simp only [State.cut, h, if_pos hlt]
  rfl

theorem State.cut_of_carrying_le {t : Transaction} (h : s.passage.state = .carrying t) (hle : t.beats ≤ t.arrived) :
    s.cut = { s with passage := ⟨.idle, [], none⟩ } := by
  simp only [State.cut, h, if_neg (Nat.not_lt.mpr hle)]
  rfl

theorem State.cut_of_draining {t : Transaction} (h : s.passage.state = .draining t) : s.cut = s := by
  simp only [State.cut, h]

end Cut

/-- The rise of HRST in a settled state: the level, the cut, the end of the happening (R57). -/
theorem exec_hrst_rise {s : State} (h : s.settled = true) :
    exec (.hrst true) s = .next (State.cut { s with pins := { s.pins with hrst := true } }).conclude := by
  change execHrst true s = _
  simp only [execHrst, s.settle_of_settled h, if_true]

/-- Settles O10: the fall is the level alone, the rise by the passage's state. -/
theorem hrstCutsTheTransaction : Obligations.HrstCutsTheTransaction := by
  intro s hs
  rw [exec_hrst_rise hs]
  refine ⟨?fall, fun h => ?idle, fun t h => ?claiming, fun t h hlt => ?cut, fun t h hle => ?ended, fun t h => ?draining⟩
  case fall =>
    change execHrst false s = _
    simp only [execHrst, s.settle_of_settled hs, Bool.false_eq_true, if_false]
  case idle => exact congrArg (fun u : State => Host.Outcome.next u.conclude) (State.cut_of_idle h)
  case claiming => exact congrArg (fun u : State => Host.Outcome.next u.conclude) (State.cut_of_claiming h)
  case cut => exact congrArg (fun u : State => Host.Outcome.next u.conclude) (State.cut_of_carrying_lt h hlt)
  case ended => exact congrArg (fun u : State => Host.Outcome.next u.conclude) (State.cut_of_carrying_le h hle)
  case draining => exact congrArg (fun u : State => Host.Outcome.next u.conclude) (State.cut_of_draining h)

/-- Settles O11: the guard of the taking (R44), met or not. -/
theorem hostRequestIsTakenInIdle : Obligations.HostRequestIsTakenInIdle := by
  intro s addr n dir hs
  change (_ → _ → execHostRequest addr n dir s = _) ∧ (_ → execHostRequest addr n dir s = _)
  simp only [execHostRequest, s.settle_of_settled hs]
  refine ⟨fun hidle hlow => ?taken, fun hnot => ?left⟩
  case taken =>
    rw [if_pos ⟨hidle, hlow⟩]
    rfl
  case left =>
    refine if_neg fun ⟨hidle, hlow⟩ => ?_
    obtain h | h := hnot
    · exact h hidle
    · simp [hlow] at h

/-! ## The arbiter and ALERT -/

/-- ALERT is driven low exactly for a position that is set and enabled (R164). -/
theorem alertLevel_iff (causes mask : Byte) :
    alertLevel causes mask = true ↔ ∃ i, i < 8 ∧ causes.getLsbD i = true ∧ mask.getLsbD i = true := by
  rw [alertLevel, bne_iff_ne]
  constructor
  · intro hne
    by_contra hnone
    refine hne (BitVec.eq_of_getLsbD_eq fun i hi => ?_)
    by_contra hboth
    exact hnone ⟨i, hi, by simpa using hboth⟩
  · rintro ⟨i, -, hcause, henabled⟩ hzero
    have := congrArg (fun x : Byte => x.getLsbD i) hzero
    simp [hcause, henabled] at this

/-- With no grant standing of a claimant that waits, the arbiter chooses (R50). -/
theorem State.grantDue_of_none_standing {s : State} (hfree : s.arbiter.link = .free)
    (h : ∀ c, s.arbiter.granting = some c → s.claims c = false) : s.grantDue = s.grantChoice := by
  unfold State.grantDue
  rw [if_pos hfree]
  cases hg : s.arbiter.granting with
  | none => rfl
  | some c => simp [h c hg]

/-- A grant standing of a claimant that waits is kept (log 5). -/
theorem State.grantDue_of_standing {s : State} {c : Claimant} (hfree : s.arbiter.link = .free)
    (hg : s.arbiter.granting = some c) (hc : s.claims c = true) : s.grantDue = some c := by
  simp [State.grantDue, hfree, hg, hc]

/-- Settles O12: the grant by who waits, ALERT by its bits. -/
theorem arbiterGrantsAndAlertFollows : Obligations.ArbiterGrantsAndAlertFollows := by
  refine fun s => ⟨⟨s.grantDue, rfl⟩, alertLevel_iff _ _, s.grantDue_of_busy, fun hfree hnone => ?chosen,
    fun c hfree hg hc => State.grantDue_of_standing hfree hg hc⟩
  case chosen =>
    change (_ → _ → s.grantDue = _) ∧ (_ → _ → s.grantDue = _) ∧ (_ → _ → s.grantDue = _) ∧ (_ → _ → s.grantDue = _)
    rw [State.grantDue_of_none_standing hfree hnone]
    refine ⟨fun hp hr => ?_, fun hp hr => ?_, fun hp hr => ?_, fun hp hr => ?_⟩
    · simp [State.grantChoice, hp, hr]
    · simp [State.grantChoice, hp, hr]
    · simp [State.grantChoice, hp, hr]
    · by_cases hlt : s.arbiter.passedOver.toNat < s.params.patience.toNat
      · have hnot : ¬s.params.patience ≤ s.arbiter.passedOver := by simpa [BitVec.le_def] using hlt
        simp [State.grantChoice, hp, hr, hlt, hnot]
      · have hle : s.params.patience ≤ s.arbiter.passedOver := by simpa [BitVec.le_def] using hlt
        simp [State.grantChoice, hp, hr, hlt, hle]

/-! ## The grant to the passage -/

theorem State.touches_iff (s : State) (t : Transaction) (r : TractRef) :
    s.touches t r = true ↔ ∃ k p, k < t.beats ∧ s.place (beatAddr t.addr k) = some p ∧ p.ref = r := by
  unfold State.touches Transaction.beatAddr
  rw [List.any_eq_true]
  constructor
  · rintro ⟨k, hk, hp⟩
    cases hplace : s.place (beatAddr t.addr k) with
    | none => simp [hplace] at hp
    | some p => exact ⟨k, p, List.mem_range.mp hk, hplace, by simpa [hplace] using hp⟩
  · rintro ⟨k, p, hk, hplace, hp⟩
    exact ⟨k, List.mem_range.mpr hk, by simp [hplace, hp]⟩

/-- A job marked overtaken when a test on its tract says so (R18, R124). -/
def Job.overtakenWhere (q : TractRef → Bool) (j : Job) : Job := if q j.ref = true then { j with overtaken := true } else j

theorem State.overtakeWhere_eq (s : State) (q : TractRef → Bool) :
    s.overtakeWhere q = { s with reader := { s.reader with job := s.reader.job.map (Job.overtakenWhere q) } } := by
  have hself {job : Option Job} (h : job = s.reader.job) : s = { s with reader := { s.reader with job := job } } := by
    rw [h]
  unfold State.overtakeWhere
  cases hj : s.reader.job with
  | none => exact hself hj.symm
  | some j =>
    cases hq : q j.ref with
    | true => simp [State.setJob, Job.overtakenWhere, hq]
    | false => simpa [Job.overtakenWhere, hq] using hself hj.symm

/-- The job after the touch of a granted burst (R53, R124). -/
def State.touchedJob (s : State) (t : Transaction) : Option Job :=
  match t.dir with
  | .read => s.reader.job
  | .write => s.reader.job.map (Job.overtakenWhere (s.touches t))

theorem State.touch_eq (s : State) (t : Transaction) :
    s.touch t = { s with reader := { s.reader with job := s.touchedJob t } } := by
  unfold State.touch State.touchedJob
  cases t.dir with
  | read => rfl
  | write => exact s.overtakeWhere_eq (s.touches t)

/-- A started job is marked exactly when a beat of a WRITE burst falls in its tract. -/
theorem State.touchedJob_of_job {s : State} {j : Job} (hj : s.reader.job = some j) (t : Transaction) :
    s.touchedJob t = some (if t.dir = .write ∧ s.touches t j.ref = true then { j with overtaken := true } else j) := by
  unfold State.touchedJob
  cases hd : t.dir with
  | read => simp [hj]
  | write => simp [hj, Job.overtakenWhere]

theorem State.countPassedOver_eq (s : State) :
    s.countPassedOver =
      { s with arbiter := { s.arbiter with
          passedOver :=
            if s.readerClaims = true ∧ s.arbiter.passedOver ≠ 15 then s.arbiter.passedOver + 1
            else s.arbiter.passedOver } } := by
  unfold State.countPassedOver
  split <;> rfl

/-- The grant to the passage as one update and the end of the happening (R45, R51, R53). -/
theorem State.grantPassage_eq (s : State) (t : Transaction) :
    s.grantPassage t = State.conclude
      { s with
        arbiter := { s.arbiter with
          link := .passage
          passedOver :=
            if s.readerClaims = true ∧ s.arbiter.passedOver ≠ 15 then s.arbiter.passedOver + 1 else s.arbiter.passedOver }
        passage := { s.passage with state := .carrying t }
        pins := { s.pins with memoryLink := some (.request t.addr t.beats t.dir) }
        reader := { s.reader with job := s.touchedJob t } } := by
  rw [State.grantPassage, State.touch_eq, State.countPassedOver_eq]
  rfl

/-- Settles O13: the job of the grant is the touched one. -/
theorem passageGrantStartsTheBurst : Obligations.PassageGrantStartsTheBurst := by
  intro s t hnext hg hc
  refine ⟨s.touchedJob t, ?granted, fun hj => ?none, fun j hj => ?job⟩
  case granted => exact (execPassageGrant_of_granting s t hnext hg hc).trans (congrArg _ (s.grantPassage_eq t))
  case none =>
    unfold State.touchedJob
    split <;> simp [hj]
  case job =>
    rw [← s.touches_iff t j.ref, State.touchedJob_of_job hj t]
    exact ⟨fun htouch => by rw [if_pos htouch], fun hnot => by rw [if_neg hnot]⟩

/-! ## Beats and responses -/

theorem State.placed_of_none {s : State} {a : Word} (h : s.place a = none) (f : State → Place → State) :
    s.placed a f = s := by
  simp only [State.placed, h]

theorem State.placed_of_some {s : State} {a : Word} {p : Place} (h : s.place a = some p) (f : State → Place → State) :
    s.placed a f = f s p := by
  simp only [State.placed, h]

theorem State.freeLinkWhen_eq (s : State) (p : Prop) [Decidable p] :
    s.freeLinkWhen (decide p) =
      { s with arbiter := { s.arbiter with link := if p then .free else s.arbiter.link } } := by
  by_cases h : p <;> simp [State.freeLinkWhen, State.freeLink, h]

section Settled

variable {s : State} (hs : s.settled = true) {t : Transaction}
include hs

theorem exec_writeBeatForwarded_carrying (hc : s.passage.state = .carrying t) (hd : t.dir = .write)
    (hlt : t.forwarded < t.beats) (data : Lanes) (mask : BitVec 4) :
    exec (.writeBeatForwarded data mask) s =
      .next (((s.forwarded t data mask).placed (t.beatAddr t.forwarded) fun u p => u.poolWrite p mask data).look.conclude) := by
  change execWriteBeatForwarded data mask s = _
  simp only [execWriteBeatForwarded, s.settle_of_settled hs, hc]
  exact if_pos ⟨hd, hlt⟩

theorem exec_writeResponse_carrying (hc : s.passage.state = .carrying t) (hd : t.dir = .write)
    (hlt : t.arrived < t.forwarded) (resp : Resp) :
    exec (.writeResponse resp) s =
      .next (((((s.responded t resp).setPassage (.carrying { t with arrived := t.arrived + 1 })).pushBuffer
        ⟨some resp, none⟩).freeLinkWhen (t.arrived + 1 = t.beats)).look.conclude) := by
  change execWriteResponse resp s = _
  simp only [execWriteResponse, s.settle_of_settled hs, hc]
  exact if_pos ⟨hd, hlt⟩

theorem exec_writeResponse_draining (hc : s.passage.state = .draining t) (hd : t.dir = .write)
    (hlt : t.arrived < t.forwarded + t.padded) (resp : Resp) :
    exec (.writeResponse resp) s = .next (
      if t.arrived + 1 = t.beats then ((s.drainResponded t resp).setPassage .idle).freeLink.look.conclude
      else ((s.drainResponded t resp).setPassage (.draining { t with arrived := t.arrived + 1 })).look.conclude) := by
  change execWriteResponse resp s = _
  simp only [execWriteResponse, s.settle_of_settled hs, hc]
  rw [if_pos ⟨hd, hlt⟩]
  split <;> rfl

theorem exec_paddingBeat_draining (hc : s.passage.state = .draining t) (hd : t.dir = .write)
    (hlt : t.forwarded + t.padded < t.beats) :
    exec .paddingBeat s = .next ((s.setPassage (.draining { t with padded := t.padded + 1 })).issue
      (.writeBeat (t.beatAddr (t.forwarded + t.padded)) Lanes.zero 0)) := by
  change execPaddingBeat s = _
  simp only [execPaddingBeat, s.settle_of_settled hs, hc]
  exact if_pos ⟨hd, hlt⟩

theorem exec_readBeatArrival_carrying (hc : s.passage.state = .carrying t) (hd : t.dir = .read)
    (hlt : t.arrived < t.beats) (data : Lanes) (resp : Resp) :
    exec (.readBeatArrival data resp) s =
      .next ((((s.arriveRead (t.beatAddr t.arrived) data resp).setPassage
        (.carrying { t with arrived := t.arrived + 1 })).freeLinkWhen (t.arrived + 1 = t.beats)).look.conclude) := by
  change execReadBeatArrival data resp s = _
  simp only [execReadBeatArrival, s.settle_of_settled hs, hc]
  exact if_pos ⟨hd, hlt⟩

theorem exec_readBeatArrival_draining (hc : s.passage.state = .draining t) (hd : t.dir = .read)
    (hlt : t.arrived < t.beats) (data : Lanes) (resp : Resp) :
    exec (.readBeatArrival data resp) s = .next (
      if t.arrived + 1 = t.beats then (s.setPassage .idle).freeLink.conclude
      else s.setPassage (.draining { t with arrived := t.arrived + 1 })) := by
  change execReadBeatArrival data resp s = _
  simp only [execReadBeatArrival, s.settle_of_settled hs, hc]
  rw [if_pos ⟨hd, hlt⟩]
  split <;> rfl

theorem exec_responseDelivery_offered (hc : s.passage.state = .carrying t) {d : HostDelivery} (ho : s.offered = some d) :
    exec .responseDelivery s = .next (
      if t.arrived = t.beats ∧ s.passage.buffer.tail = [] then (s.deliver d).setPassage .idle
      else (s.deliver d).setPassage (.carrying { t with delivered := t.delivered + 1 })) := by
  change execResponseDelivery s = _
  simp only [execResponseDelivery, s.settle_of_settled hs, hc, ho]
  split <;> rfl

theorem exec_responseDelivery_withheld (ho : s.offered = none) : exec .responseDelivery s = .next s := by
  change execResponseDelivery s = _
  simp only [execResponseDelivery, s.settle_of_settled hs, ho]
  split
  next h => cases h
  next => rfl

end Settled

/-- Settles O14: the forwarded beat, untracked or handed to the pool. -/
theorem writeBeatIsForwardedAndPlaced : Obligations.WriteBeatIsForwardedAndPlaced := by
  intro s t data mask hs hc hd hlt u
  rw [exec_writeBeatForwarded_carrying hs hc hd hlt]
  refine ⟨fun hnone => ?untracked, fun p hp => ?tracked⟩
  case untracked =>
    rw [State.placed_of_none (s := s.forwarded t data mask) (a := t.beatAddr t.forwarded) hnone]
    rfl
  case tracked =>
    rw [State.placed_of_some (s := s.forwarded t data mask) (a := t.beatAddr t.forwarded) hp]
    rfl

/-- What the pool does with a response or a read beat leaves the passage and the arbiter (R76, R80). -/
theorem State.poolFrame.passage_arbiter {s v : State} (h : s.poolFrame v) : v.passage = s.passage ∧ v.arbiter = s.arbiter := by
  obtain ⟨hpassage, harbiter, -⟩ := h.readFrame.link
  exact ⟨hpassage, harbiter⟩

/-- Settles O15: the response handed to the pool, buffered, and the link freed by the last one. -/
theorem writeResponseIsBuffered : Obligations.WriteResponseIsBuffered := by
  intro s t resp hs hc hd hlt
  refine ⟨s.responded t resp, fun hnone => State.placed_of_none hnone _, fun p hp => State.placed_of_some hp _, ?_⟩
  obtain ⟨hpassage, harbiter⟩ := (s.responded_poolFrame t resp).passage_arbiter
  rw [exec_writeResponse_carrying hs hc hd hlt, State.freeLinkWhen_eq, ← hpassage, ← harbiter]
  rfl

/-- Settles O16: padding, responses and read beats of a cut burst. -/
theorem drainingFinishesTheBurst : Obligations.DrainingFinishesTheBurst := by
  intro s t hs hc
  refine ⟨fun hd hlt => exec_paddingBeat_draining hs hc hd hlt, fun hd hlt resp => ?response, fun hd hmore data resp => ?read,
    fun hd hlast data resp => ?lastRead⟩
  case response =>
    refine ⟨s.drainResponded t resp, fun hnot => ?_, fun p hforwarded hp => ?_, ?_⟩
    · unfold State.drainResponded
      split
      next hlt => exact State.placed_of_none (hnot.resolve_left (Nat.not_le.mpr hlt)) _
      next => rfl
    · rw [State.drainResponded, if_pos hforwarded]
      exact State.placed_of_some hp _
    · obtain ⟨hpassage, harbiter⟩ := (s.drainResponded_poolFrame t resp).passage_arbiter
      rw [exec_writeResponse_draining hs hc hd hlt, ← hpassage, ← harbiter]
      by_cases hlast : t.arrived + 1 = t.beats
      · simp only [if_pos hlast]
        rfl
      · simp only [if_neg hlast]
        rfl
  case read => rw [exec_readBeatArrival_draining hs hc hd (by omega), if_neg (by omega)]; rfl
  case lastRead => rw [exec_readBeatArrival_draining hs hc hd (by omega), if_pos hlast]; rfl

/-- Settles O17: the arrived beat, untracked or decided, and the link freed by the last one. -/
theorem readBeatIsHandledWhole : Obligations.ReadBeatIsHandledWhole := by
  intro s t data resp hs hc hd hlt
  refine ⟨s.arriveRead (t.beatAddr t.arrived) data resp, fun hnone => ?untracked, fun p hp => ?tracked, ?_⟩
  case untracked =>
    change s.place (t.beatAddr t.arrived) = none at hnone
    simp only [State.arriveRead, hnone]
    rfl
  case tracked =>
    change s.place (t.beatAddr t.arrived) = some p at hp
    simp only [State.arriveRead, hp]
    rfl
  rw [exec_readBeatArrival_carrying hs hc hd hlt, State.freeLinkWhen_eq]
  rfl

/-- Settles O18: fencing without a verdict, the policy with one. -/
theorem readBeatIsDecidedByPolicyAndFencing : Obligations.ReadBeatIsDecidedByPolicyAndFencing := by
  refine fun s p data resp => ⟨?fencing, fun v => ⟨fun h => ?report, fun h => ?poison, fun h => ?hold⟩⟩
  case fencing => simp only [State.decideRead, State.fences, State.pushBuffer, Bool.and_eq_true, decide_eq_true_eq]
  case report => simp only [State.decideRead, h, State.pushBuffer]
  case poison => simp only [State.decideRead, h, State.pushBuffer]
  case hold =>
    simp only [State.decideRead, h]
    rfl

/-- Settles O19: the head of the buffer is offered, or is the held beat. -/
theorem responsesAreDeliveredInOrder : Obligations.ResponsesAreDeliveredInOrder := by
  intro s t e rest hs hc hb
  obtain ⟨resp, d⟩ := e
  refine ⟨fun r hr => ?delivered, fun hnone => ?held⟩
  case delivered =>
    obtain rfl : resp = some r := hr
    have hoffered : s.offered = some ⟨r, d⟩ := by simp only [State.offered, hc, hb]
    rw [exec_responseDelivery_offered hs hc hoffered]
    by_cases hlast : t.arrived = t.beats ∧ rest = []
    · rw [if_pos (by simpa [hb] using hlast), if_pos hlast]
      simp [State.deliver, State.setPassage, hb]
    · rw [if_neg (by simpa [hb] using hlast), if_neg hlast]
      simp [State.deliver, State.setPassage, hb]
  case held =>
    obtain rfl : resp = none := hnone
    exact exec_responseDelivery_withheld hs (by simp only [State.offered, hc, hb])

end Sys2Proof.Machine
end

