-- ==== Sys2Proof/Proofs/StreamContexts.lean ====
section
/-! PROOFS. Opening write beats (R69 to R71, R86) and host read beats (R80 to R84, R86): the context a beat opens, restarts, advances,
frees or completes. -/

namespace Sys2Proof.Machine

/-! ## A new context's slot -/

section OpenContext

variable {s : State} (c : Context)

/-- A new context takes the lowest free slot (R65). -/
theorem State.openContext_of_lowestFree {i : Fin 8} (h : s.pool.lowestFree = some i) :
    s.openContext c = { s with pool := s.pool.put i c } := by
  simp only [State.openContext, State.takeSlot, h]

/-- With no slot free it takes the least recent one, after its eviction (R86). -/
theorem State.openContext_of_leastRecent (h : s.pool.lowestFree = none) {i : Fin 8} (hlast : s.pool.recency.getLast? = some i) :
    s.openContext c = { s.evict i with pool := (s.evict i).pool.put i c } := by
  have hleast : s.pool.leastRecent = some i := hlast
  simp only [State.openContext, State.takeSlot, h, hleast]

end OpenContext

/-! ## Opening write beats -/

theorem State.poolWrite_of_opening {p : Place} (s : State) (d : Lanes) (h : p.offset = 0) :
    s.poolWrite p 0xF d = s.openingWrite p d := by
  simp [State.poolWrite, isOpening, h]

/-- On a tract that is not OPEN an assembly is opened with the tract's state as its origin (R70). -/
theorem State.openingWrite_of_origin {s : State} {p : Place} {o : Origin} (d : Lanes)
    (h : originOf (s.record p.ref).state = some o) :
    s.openingWrite p d =
      ((s.freeVerify p.ref).openContext ⟨.assemble o, p.ref, 4, (s.region p.ref.region).firstFold d⟩).setTractState p.ref
        .opened := by
  simp only [State.openingWrite, h]

/-- On an OPEN tract the assembly is restarted in place (R71). -/
theorem State.openingWrite_of_opened {s : State} {p : Place} {i : Fin 8} {c : Context} (d : Lanes)
    (h : (s.record p.ref).state = .opened) (hfind : s.pool.find p.ref = some (i, c)) :
    s.openingWrite p d =
      { s with pool := s.pool.put i { c with next := 4, rem := (s.region p.ref.region).firstFold d } } := by
  have horigin : originOf (s.record p.ref).state = none := by rw [h]; rfl
  simp only [State.openingWrite, horigin, hfind]
  rfl

/-- Settles O21: the slot taken is the lowest free one or the least recent one; an OPEN tract's assembly keeps its slot. -/
theorem openingWriteOpensOrRestartsAnAssembly : Obligations.OpeningWriteOpensOrRestartsAnAssembly := by
  intro s p d hzero r first v
  rw [s.poolWrite_of_opening d hzero]
  refine ⟨fun o horigin => ?opens, fun hopened i c hfind => State.openingWrite_of_opened d hopened hfind⟩
  case opens =>
    have horiginOf : ∀ e ∈ [(TractState.unknown, Origin.unknown), (.current, .current), (.stale, .stale),
        (.faulted, .faulted)], originOf e.1 = some e.2 := by decide
    rw [State.openingWrite_of_origin d (horiginOf _ horigin)]
    refine ⟨fun i hfree => ?_, fun hfull i hlast => ?_⟩
    · rw [State.openContext_of_lowestFree _ hfree]
      rfl
    · rw [State.openContext_of_leastRecent _ hfull hlast]
      rfl

/-! ## Host read beats -/

section Read

variable {s : State} {p : Place} (addr : Word) (d : Lanes)

theorem State.poolRead_of_unreadable {resp : Resp} (h : (s.record p.ref).state ≠ .current ∨ resp = .error) :
    s.poolRead p addr d resp = (s.freeVerify p.ref, none) := if_pos h

variable (hcurrent : (s.record p.ref).state = .current)
include hcurrent

theorem State.poolRead_of_first_unfound (hzero : p.offset = 0) (hfind : s.pool.find p.ref = none) :
    s.poolRead p addr d .okay = (s.openContext ⟨.verify, p.ref, 4, (s.region p.ref.region).firstFold d⟩, none) := by
  simp [State.poolRead, hcurrent, hzero, hfind]

theorem State.poolRead_of_later_unfound (hoff : p.offset ≠ 0) (hfind : s.pool.find p.ref = none) :
    s.poolRead p addr d .okay = (s, none) := by
  simp [State.poolRead, hcurrent, hoff, hfind]

variable {i : Fin 8} {c : Context} (hfind : s.pool.find p.ref = some (i, c))
include hfind

theorem State.poolRead_of_first (hzero : p.offset = 0) :
    s.poolRead p addr d .okay =
      (s.putContext i { c with next := 4, rem := (s.region p.ref.region).firstFold d }, none) := by
  simp [State.poolRead, hcurrent, hzero, hfind]

variable (hoff : p.offset ≠ 0)
include hoff

theorem State.poolRead_of_elsewhere (hnext : p.offset ≠ c.next) : s.poolRead p addr d .okay = (s, none) := by
  simp [State.poolRead, hcurrent, hoff, hfind, hnext]

theorem State.poolRead_of_next (hnext : p.offset = c.next) :
    s.poolRead p addr d .okay =
      if p.offset + 4 = (s.region p.ref.region).size then s.completeVerify i c p.ref addr d
      else (s.putContext i (c.advance (s.region p.ref.region) d), none) := by
  have hguard : ¬((s.record p.ref).state ≠ .current ∨ Resp.okay = .error) := by simp [hcurrent]
  simp only [State.poolRead, if_neg hguard, if_neg hoff, hfind, if_pos hnext]

end Read

/-- Settles O25: unreadable beats, first beats and later beats, with and without a context. -/
theorem verifyOpensRestartsAdvances : Obligations.VerifyOpensRestartsAdvances := by
  intro s p addr d r first
  refine ⟨fun resp h => State.poolRead_of_unreadable addr d h, fun hcurrent => ⟨fun hzero hfind => ⟨fun i hfree => ?lowest,
    fun hfull i hlast => ?evicted⟩, State.poolRead_of_later_unfound addr d hcurrent, fun i c hfind =>
    ⟨State.poolRead_of_first addr d hcurrent hfind, fun hoff hnext hlt => ?advances,
      State.poolRead_of_elsewhere addr d hcurrent hfind⟩⟩⟩
  case lowest =>
    rw [State.poolRead_of_first_unfound addr d hcurrent hzero hfind, State.openContext_of_lowestFree _ hfree]
    rfl
  case evicted =>
    rw [State.poolRead_of_first_unfound addr d hcurrent hzero hfind, State.openContext_of_leastRecent _ hfull hlast]
    rfl
  case advances =>
    rw [State.poolRead_of_next addr d hcurrent hfind hoff hnext, if_neg hlt.ne]
    rfl

/-- Settles O26: the value of the finished verify against the check value (R83). -/
theorem verifyCompletes : Obligations.VerifyCompletes := by
  intro s p addr d i c hcurrent hfind hoff hnext hlast r stored computed v
  rw [State.poolRead_of_next addr d hcurrent hfind hoff hnext, if_pos hlast]
  exact ⟨fun heq => if_pos heq, fun hne => if_neg hne⟩

end Sys2Proof.Machine
end

