-- ==== Sys2Proof/Proofs/ReaderBursts.lean ====
section
/-! PROOFS. The tract reader's bursts (R38, R39, R115, R120 to R129) and its take from the queue (R111, R117, R119). -/

namespace Sys2Proof.Machine

/-- Settles O28: the grant's one update (R120). -/
theorem readerGrantIssuesTheBurst : Obligations.ReaderGrantIssuesTheBurst :=
  fun s j hnext hg hj hc => execReaderGrant_of_granting s j hnext hg hj hc

/-! ## Beats -/

section Beat

variable {s : State} (hs : s.settled = true) (hroom : s.reader.burstBeats < 16) (data : Lanes) (resp : Resp)
include hs hroom

theorem exec_readerBeat_detached (hlink : s.arbiter.link = .detached) :
    exec (.readerBeat data resp) s = .next s.countBurstBeat := by
  change execReaderBeat data resp s = _
  have hroom : s.reader.burstBeats < Config.readerBurstBeats := hroom
  simp only [execReaderBeat, s.settle_of_settled hs, if_pos hroom, hlink]

theorem exec_readerBeat_reader (hlink : s.arbiter.link = .reader) {j : Job} (hj : s.reader.job = some j) :
    exec (.readerBeat data resp) s =
      .next (s.setJob (j.takeBeat (s.region j.ref.region) s.reader.burstBeats data resp)).countBurstBeat := by
  change execReaderBeat data resp s = _
  have hroom : s.reader.burstBeats < Config.readerBurstBeats := hroom
  simp only [execReaderBeat, s.settle_of_settled hs, if_pos hroom, hlink, hj]

end Beat

section TakeBeat

variable {j : Job} (r : Region) (k : Nat) (data : Lanes)

/-- A beat of an abandoned job, or one after the burst's first ERROR, is taken and not folded (R38, R121). -/
theorem Job.takeBeat_of_discarded (resp : Resp) (h : j.abandoned = true ∨ j.errorOffset ≠ none) :
    j.takeBeat r k data resp = j := by
  unfold Job.takeBeat
  split
  next => rfl
  next ha =>
    obtain ⟨off, hoff⟩ := Option.ne_none_iff_exists'.mp (h.resolve_left ha)
    simp only [hoff]

variable (ha : j.abandoned = false) (he : j.errorOffset = none)
include ha he

theorem Job.takeBeat_of_okay : j.takeBeat r k data .okay = { j with rem := crcBeat r.width r.poly j.rem data } := by
  simp [Job.takeBeat, ha, he]

theorem Job.takeBeat_of_error :
    j.takeBeat r k data .error = { j with errorOffset := some (j.nextOffset + 4 * k) } := by
  simp [Job.takeBeat, ha, he]

end TakeBeat

/-- The job put back as it was. -/
theorem State.setJob_self {s : State} {j : Job} (hj : s.reader.job = some j) : s.setJob j = s := by
  unfold State.setJob
  rw [← hj]

/-- Settles O29: a detached burst's beat, and a job's beat by the job and the response. -/
theorem readerBeatIsFoldedOrDiscarded : Obligations.ReaderBeatIsFoldedOrDiscarded := by
  refine fun s data resp hs hroom => ⟨fun hlink => exec_readerBeat_detached hs hroom data resp hlink, fun j hlink hj => ?_⟩
  rw [exec_readerBeat_reader hs hroom data resp hlink hj]
  refine ⟨fun hdiscard => ?discarded, fun ha he hresp => ?folded, fun ha he hresp => ?error⟩
  case discarded =>
    rw [Job.takeBeat_of_discarded _ _ _ _ hdiscard, State.setJob_self hj]
    rfl
  case folded =>
    subst hresp
    rw [Job.takeBeat_of_okay _ _ _ ha he]
    rfl
  case error =>
    subst hresp
    rw [Job.takeBeat_of_error _ _ _ ha he]
    rfl

/-! ## The end of a burst -/

theorem exec_readerBurstEnd_owed {s : State} (hbeats : s.reader.burstBeats = 16)
    (hlink : s.arbiter.link = .reader ∨ s.arbiter.link = .detached) : exec .readerBurstEnd s = .next s.endBurst := by
  have howed : s.burstEndOwed = true := by
    simp only [State.burstEndOwed, hbeats, Bool.and_eq_true, Bool.or_eq_true, decide_eq_true_eq]
    exact ⟨rfl, hlink⟩
  change execReaderBurstEnd s = _
  rw [execReaderBurstEnd, State.settleBurst, if_pos howed]

theorem State.endBurst_of_detached {s : State} (hlink : s.arbiter.link = .detached) :
    s.endBurst = s.releaseReaderLink.conclude := if_pos hlink

theorem State.endBurst_of_job {s : State} (hlink : s.arbiter.link = .reader) {j : Job} (hj : s.reader.job = some j) :
    s.endBurst =
      if j.abandoned then (s.releaseReaderLink.endRetiring j).conclude else (s.releaseReaderLink.endJobBurst j).conclude := by
  simp only [State.endBurst, hlink, hj, reduceCtorEq, if_false]

section JobBurst

variable (s : State) {j : Job}

theorem State.endJobBurst_of_error {off : Nat} (he : j.errorOffset = some off) :
    s.endJobBurst j =
      (s.offerFault
        ⟨.readerError, j.ref, s.tractAddr j.ref, none, none, s.timebase.tickCounter, some off⟩).endJob.look := by
  simp only [State.endJobBurst, he]

theorem State.endJobBurst_of_more (he : j.errorOffset = none) (hmore : j.nextOffset + 64 < (s.region j.ref.region).size) :
    s.endJobBurst j = s.setJob { j with nextOffset := j.nextOffset + 64, phase := .claiming } := by
  simp only [State.endJobBurst, he, if_pos hmore]

theorem State.endJobBurst_of_last (he : j.errorOffset = none) (hlast : (s.region j.ref.region).size ≤ j.nextOffset + 64) :
    s.endJobBurst j = (s.completeJob j).endJob.look := by
  simp only [State.endJobBurst, he, if_neg (Nat.not_lt.mpr hlast)]

end JobBurst

theorem State.offerFault_reader (s : State) (f : Finding) : (s.offerFault f).reader = s.reader := by
  obtain ⟨l, a, e⟩ := s.offerFault_frame f
  rw [e]

theorem State.completeJob_reader (s : State) (j : Job) : (s.completeJob j).reader = s.reader := by
  obtain ⟨st, l, a, e⟩ := s.completeJob_frame j
  rw [e]

/-- Settles O30: the end by whose burst it was and by the job. -/
theorem readerBurstEndsByJob : Obligations.ReaderBurstEndsByJob := by
  intro s hbeats f
  refine ⟨fun hlink => ?detached, fun j hlink hj => ?job⟩
  case detached =>
    rw [exec_readerBurstEnd_owed hbeats (.inr hlink), State.endBurst_of_detached hlink]
    rfl
  case job =>
    rw [exec_readerBurstEnd_owed hbeats (.inl hlink), State.endBurst_of_job hlink hj]
    refine ⟨fun ha => ?abandoned, fun off ha he => ?error, fun ha he hmore => ?more, fun ha he hlast => ?last⟩
    case abandoned =>
      rw [if_pos ha]
      rfl
    case error =>
      rw [if_neg (by simp [ha]), State.endJobBurst_of_error _ he, State.endJob, State.offerFault_reader]
      rfl
    case more =>
      rw [if_neg (by simp [ha]), s.releaseReaderLink.endJobBurst_of_more he hmore]
      rfl
    case last =>
      rw [if_neg (by simp [ha]), s.releaseReaderLink.endJobBurst_of_last he hlast, State.endJob, State.completeJob_reader]
      rfl

/-! ## The take from the queue -/

/-- Settles O33: the head removed and its flag cleared, with a REFRESH job for a STALE tract. -/
theorem queueTake : Obligations.QueueTake := by
  intro s t rest hq v
  let w : State := v.setLastSource .queue
  have htake : s.takeFromQueue = if (w.record t).state = .stale then w.startJob .refresh t .stale else w := by
    simp only [State.takeFromQueue, hq]
    rfl
  have hrecord : w.record t = { s.record t with queued := false } := State.record_setRecord_same _ _ _
  rw [htake, hrecord]
  exact ⟨fun hne => if_neg hne, fun hstale => if_pos hstale⟩

end Sys2Proof.Machine
end

