-- ==== Sys2Proof/Proofs/Timers.lean ====
section
/-! PROOFS. The tick and what it makes due (R101, R103, R133 to R141), and the preparation end (R9, R32, R33, R146). -/

namespace Sys2Proof.Machine

/-- The pacing counter falls by one, or makes the underflow due (R138). -/
theorem State.advancePacing_eq (s : State) :
    s.advancePacing =
      { s with scrubber :=
          if s.scrubber.pacing = 0 then { s.scrubber with underflowOwed := true }
          else { s.scrubber with pacing := s.scrubber.pacing - 1 } } := by
  unfold State.advancePacing
  split <;> rfl

/-- Settles O35: the three counters of a tick, each in its own part of the state. -/
theorem tickAdvancesTheCounters : Obligations.TickAdvancesTheCounters := by
  intro s hs
  change execTick s = _
  rw [execTick, s.settle_of_settled hs, State.tick, State.advancePacing_eq]
  rfl

/-! ## The underflow -/

theorem exec_underflow_owed {s : State} (h : s.scrubber.underflowOwed = true) : exec .underflow s = .next s.underflow := by
  change execUnderflow s = _
  rw [execUnderflow, State.settleUnderflow, if_pos h]

theorem State.postStep_of_clear {s : State} (h : s.scrubber.stepPending = false) :
    s.postStep = { s with scrubber := { s.scrubber with stepPending := true } } := by
  simp [State.postStep, h]

/-- A step posted while one is pending is a slip (R141). -/
theorem State.postStep_of_pending {s : State} (h : s.scrubber.stepPending = true) :
    s.postStep =
      { s with
        scrubber := { s.scrubber with
          slipCount := if s.scrubber.slipCount.toNat < 65535 then s.scrubber.slipCount + 1 else s.scrubber.slipCount }
        alert := { s.alert with causes := s.alert.causes ||| 0x20#8 } } := by
  rw [State.postStep, if_pos h, saturate16_eq]
  rfl

/-- Settles O36: the reload alone, or the post, by the latch and the pending step. -/
theorem underflowPostsAStep : Obligations.UnderflowPostsAStep := by
  intro s howed v
  rw [exec_underflow_owed howed]
  refine ⟨fun hlatch => ?reload, fun hlatch hclear => ?post, fun hlatch hpending => ?slip⟩
  case reload => rw [State.underflow, if_pos hlatch]; rfl
  case post => rw [State.underflow, if_neg hlatch, State.postStep_of_clear (s := s.reloadPacing) hclear]; rfl
  case slip => rw [State.underflow, if_neg hlatch, State.postStep_of_pending (s := s.reloadPacing) hpending]; rfl

/-! ## The hold's end -/

/-- The held beat's response put in, the other entries keep theirs (R102, R103). -/
theorem State.releaseHeld_eq (s : State) (r : Resp) :
    s.releaseHeld r =
      { s with passage := { s.passage with
          buffer := s.passage.buffer.map fun e => ⟨some (e.resp.getD r), e.data⟩
          hold := none } } := by
  have hentry : (fun e : BufferEntry => if e.resp = none then { e with resp := some r } else e) =
      fun e => ⟨some (e.resp.getD r), e.data⟩ := by
    funext e
    obtain ⟨resp, data⟩ := e
    cases resp <;> rfl
  rw [State.releaseHeld, hentry]

/-- Settles O37: the release with ERROR and the offer. -/
theorem holdTimeoutAnswersError : Obligations.HoldTimeoutAnswersError := by
  intro s h hhold hzero
  have howed : s.timeoutOwed = true := by simp only [State.timeoutOwed, hhold, hzero, decide_true]
  change execHoldTimeout s = _
  rw [execHoldTimeout, State.settleTimeout, if_pos howed]
  simp only [State.expireHold, hhold, State.releaseHeld_eq]
  rfl

/-! ## The preparation end -/

theorem Region.inEntryRange_iff (r : Region) (k : Nat) :
    r.inEntryRange k = true ↔ r.entryBase.toNat ≤ k ∧ k < r.entryBase.toNat + r.count.toNat := by
  simp [Region.inEntryRange]

/-- Settles O38: the store is the one with the entry range initialised. -/
theorem preparationEndEnablesTheRegion : Obligations.PreparationEndEnablesTheRegion := by
  intro s n hs hlong
  refine ⟨(s.prepared n).store, ?ended, fun k => ?records⟩
  case ended =>
    change execPreparationEnd s = _
    simp only [execPreparationEnd, s.settle_of_settled hs, hlong]
    rw [s.endPreparation_eq]
    rfl
  case records =>
    have hread : CheckStore.read (s.prepared n).store k =
        if (s.region n).inEntryRange k then .initial else CheckStore.read s.store k := CheckStore.read_initialise _ _ _
    simp only [hread, Region.inEntryRange_iff]
    rfl

end Sys2Proof.Machine
end

