-- ==== Sys2Proof/Proofs/PortCommands.lean ====
section
/-! PROOFS. FORGET-TRACT and REPAIR-TRACT (R17 to R20), ENABLE-REGION (R29 to R32), RELEASE-HOLD (R102), RESTART (R189, R190),
POWER-ON, and the edges of a selection (R167 to R169, R177, R179). -/

namespace Sys2Proof.Machine

/-! ## The tract commands that act -/

theorem State.holdsTract_eq_true {s : State} {t : TractRef} {h : HoldRecord} (hhold : s.passage.hold = some h)
    (ht : h.ref = t) : s.holdsTract t = true := by
  simp [State.holdsTract, hhold, ht]

theorem State.holdsTract_eq_false {s : State} {t : TractRef} (h : ∀ r, s.passage.hold = some r → r.ref ≠ t) :
    s.holdsTract t = false := by
  unfold State.holdsTract
  split
  next r hr => simpa using h r hr
  next => rfl

section TractCommands

variable (s : State) (hl : s.listening = true) {region : Byte} {tract : BitVec 16} {t : TractRef}
  (ht : s.checkTract region tract = .ok t)
include hl ht

theorem exec_forgetTract_checked :
    exec (.forgetTract region tract) s =
      .next (if s.holdsTract t then s.answer 3 .held [] else (s.forget t).answer 3 .ok []) := by
  rw [exec_of_requestBody rfl, s.request_listening _ _ hl]
  change Host.Outcome.next ((s.forgetReply region tract).state.answer 3 (s.forgetReply region tract).status
    (s.forgetReply region tract).results) = _
  simp only [State.forgetReply, ht]
  split <;> rfl

theorem exec_repairTract_checked :
    exec (.repairTract region tract) s =
      .next (if s.holdsTract t then s.answer 3 .held []
        else if (s.record t).state ≠ .faulted then s.answer 3 .state []
        else if (s.record t).queued = false ∧ Config.queueDepth ≤ s.queue.length then s.answer 3 .full []
        else (s.repair t).answer 3 .ok []) := by
  rw [exec_of_requestBody rfl, s.request_listening _ _ hl]
  change Host.Outcome.next ((s.repairReply region tract).state.answer 3 (s.repairReply region tract).status
    (s.repairReply region tract).results) = _
  simp only [State.repairReply, ht]
  split
  · rfl
  · split
    · rfl
    · split <;> rfl

end TractCommands

/-- The effect of FORGET-TRACT as one update of the pool and the job, and one record written (R17, R18). -/
theorem State.forget_eq (s : State) (t : TractRef) :
    s.forget t =
      State.setRecord
        { s with
          pool := s.pool.freeWhere fun q => decide (q = t)
          reader := { s.reader with job := s.reader.job.map (Job.overtakenWhere fun q => decide (q = t)) } } t
        { s.record t with state := .unknown } := by
  rw [State.forget, State.freeTract_eq, State.overtakeWhere_eq]
  generalize s.pool.freeWhere _ = p
  rfl

/-- Settles O43: the hold refuses; else the pool, the job and the record of `State.forget_eq`. -/
theorem forgetTractMakesUnknown : Obligations.ForgetTractMakesUnknown := by
  intro s n tract hl he hlt t
  have hcheck : s.checkTract (BitVec.ofNat 8 n.val) tract = .ok t := s.checkTract_of_lt_count n tract he hlt
  rw [exec_forgetTract_checked s hl hcheck]
  refine ⟨fun h hhold href => ?held, fun hfree => ?forgotten⟩
  case held => rw [if_pos (State.holdsTract_eq_true hhold href)]
  case forgotten =>
    rw [State.holdsTract_eq_false hfree, if_neg Bool.false_ne_true, State.forget_eq]
    obtain ⟨-, hrecency⟩ := s.pool.freeWhere_eq fun q => decide (q = t)
    refine ⟨_, _, rfl, fun i => ?_, s.pool.slot_of_freeWhere_slot _, ?_, fun j hj href => ?_, fun hother => ?_⟩
    · rw [Pool.freeWhere_slot_eq_none_iff]
      simp
    · simpa using hrecency
    · simp [hj, Job.overtakenWhere, href]
    · cases hj : s.reader.job with
      | none => rfl
      | some j => simp [Job.overtakenWhere, hother j hj]

theorem State.read_setRecord_store (s : State) (t : TractRef) (r : TractRecord) (k : Nat) :
    CheckStore.read (s.setRecord t r).store k =
      if k = (s.region t.region).recordNumber t.tract then r else CheckStore.read s.store k :=
  CheckStore.read_write _ _ _ _

/-- REPAIR-TRACT of a tract whose flag is set leaves its entry where it is (R20). -/
theorem State.repair_of_queued {s : State} {t : TractRef} (h : (s.record t).queued = true) :
    s.repair t = (s.freeVerify t).setRecord t { s.record t with state := .stale } := by
  rw [State.repair, if_pos h, State.freeVerify_setTractState]

theorem State.repair_of_clear {s : State} {t : TractRef} (h : (s.record t).queued = false) :
    s.repair t = (((s.freeVerify t).setRecord t { s.record t with state := .stale }).append t).look.conclude := by
  rw [State.repair, if_neg (by simp [h]), State.freeVerify_setTractState]

/-- Settles O44: the refusals in their order, then the repair by the flag. -/
theorem repairTractQueuesTheTract : Obligations.RepairTractQueuesTheTract := by
  intro s n tract hl he hlt t v
  have hcheck : s.checkTract (BitVec.ofNat 8 n.val) tract = .ok t := s.checkTract_of_lt_count n tract he hlt
  rw [exec_repairTract_checked s hl hcheck]
  refine ⟨fun h hhold href => ?held, fun hfree => ?unheld⟩
  case held => rw [if_pos (State.holdsTract_eq_true hhold href)]
  case unheld =>
    rw [State.holdsTract_eq_false hfree, if_neg Bool.false_ne_true]
    refine ⟨fun hstate => by rw [if_pos hstate], fun hfault hclear hfull => ?full, fun hfault hqueued => ?queued,
      fun hfault hclear hroom => ?appended⟩
    all_goals rw [if_neg (not_not.mpr hfault)]
    case full => rw [if_pos ⟨hclear, hfull⟩]
    case queued =>
      rw [if_neg (by simp [hqueued]), State.repair_of_queued hqueued]
    case appended =>
      have hroom' : ¬((s.record t).queued = false ∧ Config.queueDepth ≤ s.queue.length) := fun h =>
        Nat.not_lt.mpr h.2 hroom
      rw [if_neg hroom', State.repair_of_clear hclear]
      obtain ⟨p, hv⟩ := s.freeVerify_frame t
      refine ⟨_, rfl, ?_, fun k => ?_⟩
      · rw [State.append_eq, hv]
        simp only [v, hv]
        rfl
      · rw [State.append_eq, State.record_setRecord_same, State.read_setRecord_store, State.read_setRecord_store, hv]
        change (if k = (s.region n).entryBase.toNat + tract.toNat then _
          else if k = (s.region n).entryBase.toNat + tract.toNat then _ else CheckStore.read s.store k) = _
        split <;> rfl

/-! ## ENABLE-REGION -/

theorem rangesOverlap_iff (lo₁ len₁ lo₂ len₂ : Nat) :
    rangesOverlap lo₁ len₁ lo₂ len₂ = true ↔ lo₁ < lo₂ + len₂ ∧ lo₂ < lo₁ + len₁ := by
  simp [rangesOverlap]

theorem State.overlapsOther_iff (s : State) (n : Fin 8) :
    s.overlapsOther n = true ↔
      ∃ m, m ≠ n ∧ (s.region m).state ≠ .disabled ∧ (s.region n).overlaps (s.region m) = true := by
  unfold State.overlapsOther
  rw [List.any_eq_true]
  constructor
  · rintro ⟨m, -, hm⟩
    simp only [Bool.and_eq_true, decide_eq_true_eq] at hm
    exact ⟨m, hm.1.1, hm.1.2, hm.2⟩
  · rintro ⟨m, hmn, hm, hover⟩
    exact ⟨m, mem_regionNumbers m, by simp [hmn, hm, hover]⟩

theorem exec_enableRegion_of_reply {s : State} (hl : s.listening = true) {region : Byte} {u : State} {st : Status}
    (h : s.enable region = ⟨u, st, []⟩) : exec (.enableRegion region) s = .next (u.answer 1 st []) := by
  rw [exec_of_requestBody rfl, s.request_listening _ _ hl]
  change Host.Outcome.next ((s.enable region).state.answer 1 (s.enable region).status (s.enable region).results) = _
  rw [h]

/-- Settles O46: the checks in their order; the overlap is that of `State.overlapsOther_iff`. -/
theorem enableRegionBeginsPreparation : Obligations.EnableRegionBeginsPreparation := by
  intro s region hl
  refine ⟨fun hbig => ?badRegion, ?_⟩
  case badRegion =>
    exact exec_enableRegion_of_reply hl (by simp [State.enable, smallNumber_eq_none region hbig, Reply.refuse])
  rintro n rfl
  have hzero : (s.region n).count = 0#16 ↔ (s.region n).count.toNat = 0 := BitVec.toNat_inj.symm
  refine ⟨fun hbusy => ?busy, fun hidle => ⟨fun hstate => ?state, fun hd hc => ?count, fun m hd hc hmn hm hover => ?overlap,
    fun hd hc hnone => ?accepted⟩⟩
  case busy => exact exec_enableRegion_of_reply hl (by simp [State.enable, hbusy, Reply.refuse])
  case state => exact exec_enableRegion_of_reply hl (by simp [State.enable, hidle, hstate, Reply.refuse])
  case count => exact exec_enableRegion_of_reply hl (by simp [State.enable, hidle, hd, hzero.mpr hc, Reply.refuse])
  case overlap =>
    have hother : s.overlapsOther n = true := by
      refine (s.overlapsOther_iff n).mpr ⟨m, hmn, hm, ?_⟩
      rw [Region.overlaps, Bool.or_eq_true, rangesOverlap_iff, rangesOverlap_iff]
      exact hover
    exact exec_enableRegion_of_reply hl (by simp [State.enable, hidle, hd, mt hzero.mp hc, hother, Reply.refuse])
  case accepted =>
    have hother : s.overlapsOther n = false := by
      by_contra hsome
      obtain ⟨m, hmn, hm, hover⟩ := (s.overlapsOther_iff n).mp (by simpa using hsome)
      rw [Region.overlaps, Bool.or_eq_true, rangesOverlap_iff, rangesOverlap_iff] at hover
      obtain ⟨hspan, hentry⟩ := hnone m hmn hm
      exact hover.elim hspan hentry
    exact exec_enableRegion_of_reply hl
      (u := (s.setRegionState n .preparing).setLongOp (.enabling n))
      (by simp [State.enable, hidle, hd, mt hzero.mp hc, hother, Reply.done])

/-! ## RELEASE-HOLD, RESTART, POWER-ON -/

theorem exec_releaseHold_listening {s : State} (hl : s.listening = true) (b : Byte) :
    exec (.releaseHold b) s =
      .next ((s.releaseReply b).state.answer 1 (s.releaseReply b).status (s.releaseReply b).results) := by
  rw [exec_of_requestBody rfl, s.request_listening _ _ hl]
  rfl

theorem respOf_eq_none {b : Byte} (h : 2 ≤ b.toNat) : respOf b = none := by
  unfold respOf
  split
  next hzero => omega
  next hone => omega
  next => rfl

theorem respOf_isSome {b : Byte} (h : b.toNat < 2) : ∃ r, respOf b = some r := by
  obtain h | h : b.toNat = 0 ∨ b.toNat = 1 := by omega
  · exact ⟨.okay, by simp [respOf, h]⟩
  · exact ⟨.error, by simp [respOf, h]⟩

/-- Settles O50: the argument before the hold (R102). -/
theorem releaseHoldAnswersTheHeldBeat : Obligations.ReleaseHoldAnswersTheHeldBeat := by
  intro s b hl
  rw [exec_releaseHold_listening hl]
  refine ⟨fun hbig => ?badArg, fun hsmall hnone => ?noHold, fun r hr hsome => ?released⟩
  case badArg =>
    simp only [State.releaseReply, respOf_eq_none hbig]
    rfl
  case noHold =>
    obtain ⟨r, hr⟩ := respOf_isSome hsmall
    simp only [State.releaseReply, hr, hnone]
    rfl
  case released =>
    have hlisted : ∀ e ∈ [(0x00#8, Resp.okay), (0x01#8, .error)], respOf e.1 = some e.2 := by decide
    obtain ⟨h, hhold⟩ := Option.ne_none_iff_exists'.mp hsome
    have hresp : respOf b = some r := hlisted _ hr
    simp only [State.releaseReply, hresp, hhold, State.releaseHeld_eq]
    rfl

/-- RESTART on the passage: a hold ended with ERROR, and nothing without one (R61, R105). -/
theorem State.restartPassage_passage (s : State) :
    s.restartPassage.passage =
      { s.passage with
        buffer := if s.passage.hold = none then s.passage.buffer
          else s.passage.buffer.map fun e => ⟨some (e.resp.getD .error), e.data⟩
        hold := none } := by
  cases hh : s.passage.hold with
  | none =>
    simp only [State.restartPassage, hh, if_true]
    rw [← hh]
  | some h => simp [State.restartPassage, hh, State.releaseHeld_eq]

theorem LinkUser.detach_eq (l : LinkUser) : l.detach = if l = .reader then .detached else l := by
  cases l <;> rfl

theorem State.cutPreparation_of_none {s : State} (h : ∀ n, s.port.longOp ≠ .enabling n) : s.cutPreparation = s := by
  unfold State.cutPreparation
  split
  next n hn => exact absurd hn (h n)
  next => rfl

/-- What a cut preparation has made of a record: it is in the entry range and initialised, or it is as it was (R9, R35). -/
theorem State.cutPreparation_read {s : State} {n : Fin 8} (h : s.port.longOp = .enabling n) (k : Nat) :
    CheckStore.read s.cutPreparation.store k =
      if ((s.region n).inEntryRange k && Config.preparationReached s.freeCount k) = true then .initial
      else CheckStore.read s.store k := by
  simp only [State.cutPreparation, h]
  exact CheckStore.read_initialise _ _ _

/-- Settles O52: RESTART as one update, its store that of the cut preparation. -/
theorem restartResetsSoftly : Obligations.RestartResetsSoftly := by
  intro s hl
  refine ⟨s.cutPreparation.store, s.cutPreparation.freeCount, ?restarted, fun hnone => ?uncut, fun n hn k => ?cut⟩
  case restarted =>
    rw [exec_of_requestBody rfl, s.request_listening _ _ hl]
    change Host.Outcome.next (s.restart.answer 0 .ok []) = _
    rw [s.restart_eq, s.restartPassage_passage, LinkUser.detach_eq]
    rfl
  case uncut =>
    rw [State.cutPreparation_of_none hnone]
    exact ⟨rfl, rfl⟩
  case cut =>
    rw [State.cutPreparation_read hn]
    split
    next hreached =>
      simp only [Bool.and_eq_true, Region.inEntryRange_iff] at hreached
      exact .inr ⟨hreached.1.1, hreached.1.2, rfl⟩
    next => exact .inl rfl

/-- Settles O53: each block of the state at the release of RSTN. -/
theorem powerOnResetsTheWholePart : Obligations.PowerOnResetsTheWholePart := by
  intro s mcsHigh hrstHigh
  refine ⟨_, rfl, fun n => ?_, rfl, rfl, rfl, rfl, rfl, fun i => ?_, rfl, rfl, rfl, rfl, rfl, ⟨rfl, rfl, rfl, rfl, rfl⟩, rfl,
    rfl, rfl, rfl, rfl, rfl, rfl⟩
  · simp [State.region, State.reset, Region.reset]
  · simp [Pool.slot, State.reset]

/-! ## The edges of a selection -/

/-- Bit 7 - i of byte k is the i-th of that byte's bits on MDO (R167, R177). -/
theorem wireBits_getD (bs : List Byte) (k : Nat) (hk : k < bs.length) (i : Nat) (hi : i < 8) :
    (wireBits bs).getD (8 * k + i) true = bs[k].getLsbD (7 - i) := by
  induction bs generalizing k with
  | nil => cases hk
  | cons b bs ih =>
    have hsplit : wireBits (b :: bs) = byteBits b ++ wireBits bs := by simp [wireBits]
    have hlength : (byteBits b).length = 8 := rfl
    rw [hsplit]
    cases k with
    | zero =>
      rw [Nat.mul_zero, Nat.zero_add, List.getD_append _ _ _ _ (by omega), List.getElem_cons_zero]
      interval_cases i <;> rfl
    | succ k =>
      rw [List.getD_append_right _ _ _ _ (by omega), hlength, List.getElem_cons_succ,
        ← ih k (Nat.lt_of_succ_lt_succ hk)]
      congr 1
      omega

/-- Settles O54: each edge by the frame it finds, and MDO by the bits presented. -/
theorem selectionEdgesMoveTheFrame : Obligations.SelectionEdgesMoveTheFrame := by
  intro s hs
  have hsettle := s.settle_of_settled hs
  have hcut : exec .responseCutShort s = execResponseCutShort s := rfl
  refine ⟨fun hf => ?fall, fun bytes sent hf => ⟨?sent, ?cut, ?high, fun k hk i hi hsent => ?bit⟩, fun hf => ?spent,
    fun hf => ?other, ?rise⟩
  case fall =>
    change execFallOfMcs s = _
    simp only [execFallOfMcs, hsettle, if_pos hf]
  case sent =>
    change execResponseSent s = _
    simp only [execResponseSent, hsettle, hf]
    rfl
  case cut =>
    simp only [hcut, execResponseCutShort, hsettle, hf]
    rfl
  case high =>
    rintro rfl
    simp only [State.mdo, hf, Frame.mdo]
  case bit =>
    subst hsent
    simp only [State.mdo, hf, Frame.mdo]
    exact wireBits_getD bytes k hk i hi
  case spent =>
    simp only [hcut, execResponseCutShort, hsettle, hf]
    rfl
  case other =>
    unfold State.mdo
    cases hframe : s.port.frame with
    | response bytes sent => exact absurd hframe (hf bytes sent)
    | _ => rfl
  case rise =>
    change execRiseOfMcs s = _
    simp only [execRiseOfMcs, hsettle]
    rfl

end Sys2Proof.Machine
end

