-- ==== Sys2Proof/Proofs/LinkLines.lean ====
section
/-! PROOFS. What the lines of the links carry (R41, R42, R198), and the bits of a request frame on MDI (R167, R193). -/

namespace Sys2Proof.Machine

theorem responseLine_eq (r : Resp) : responseLine r = if r = .error then 1 else 0 := by cases r <;> rfl

theorem HostDelivery.lines_eq (h : HostDelivery) :
    h.item.lines =
      ⟨h.data.map .data, none, none, false, true, true, some (if h.resp = .error then 1 else 0)⟩ := by
  rw [← responseLine_eq]
  obtain ⟨resp, data⟩ := h
  cases data <;> rfl

/-- The happening's end, the search and the pool leave the pins. -/
theorem State.written_pins (s : State) (t : Transaction) (data : Lanes) (mask : BitVec 4) :
    (((s.forwarded t data mask).placed (t.beatAddr t.forwarded) fun u p => u.poolWrite p mask data).look.conclude).pins =
      (s.forwarded t data mask).pins := by
  obtain ⟨q, st, r, sc, a, e⟩ := State.look_frame
    ((s.forwarded t data mask).placed (t.beatAddr t.forwarded) fun u p => u.poolWrite p mask data)
  obtain ⟨p, q', st', a', e'⟩ := s.written_poolFrame t data mask
  rw [State.conclude_pins, e, e']

/-- The bits of a request frame are sampled as its bytes, and read as its command (R167, R172). -/
theorem portSamples_requestSamples {i : Instr} {samples : List Bool} (hwf : i.wellFormed = true)
    (h : requestSamples i = some samples) (extra : List Bool) : portSamples (samples ++ extra) = some i := by
  obtain ⟨frame, hframe, rfl⟩ := Option.map_eq_some_iff.mp h
  rw [portSamples, sampledBytes_wireBits]
  exact portReads_requestFrame hwf hframe _ _

/-- Settles O56: each item issued or delivered on its lines, and the frames on MDI. -/
theorem linesCarryItemsAndFrames : Obligations.LinesCarryItemsAndFrames := by
  refine ⟨fun s t hnext hg hc hmin hmax => ?passage, fun s j hnext hg hj hc => ?reader, fun s t data mask hs hc hd hlt => ?beat,
    fun s h hs ho => ?delivery, fun addr n dir data mask => ⟨rfl, rfl⟩,
    fun i samples extra hwf h => portSamples_requestSamples hwf h extra⟩
  case passage =>
    refine ⟨_, execPassageGrant_of_granting s t hnext hg hc, BitVec.ofNat 4 (t.beats - 1), ?_, ?_⟩
    · rw [BitVec.toNat_ofNat]
      omega
    · rw [State.grantPassage_eq]
      rfl
  case reader => exact ⟨_, execReaderGrant_of_granting s j hnext hg hj hc, rfl⟩
  case beat =>
    refine ⟨_, exec_writeBeatForwarded_carrying hs hc hd hlt data mask, ?_⟩
    rw [State.memoryLines, State.written_pins]
    rfl
  case delivery =>
    obtain ⟨t, hc⟩ : ∃ t, s.passage.state = .carrying t := by
      unfold State.offered at ho
      split at ho
      next hstate _ => exact ⟨_, hstate⟩
      next => cases ho
    refine ⟨_, exec_responseDelivery_offered hs hc ho, ?_⟩
    rw [← HostDelivery.lines_eq]
    split <;> rfl

end Sys2Proof.Machine
end
